-- ==== Sys2Proof/Word.lean ====
section
/-!
DEFINITION. The two bit-vector types the spec itself treats as bits: the byte (rule R11) and the 32-bit
register word (rule R32). Lengths, offsets, positions and counters are mathematical naturals (rule R13)
and are `Nat` everywhere.
-/

namespace Sys2Proof

/-- A byte: 8 bits, an unsigned value 0..255 (rule R11). -/
abbrev Byte := BitVec 8

/-- A 32-bit register word, or a 32-bit word of a bitstream (rules R32, R81). -/
abbrev Word := BitVec 32

end Sys2Proof
end

