-- ==== Sys2Proof/Config.lean ====
section
/-!
DEFINITION. What is fixed for one engine: the format constants of rule R9, the implementation parameters of
rule R9 (`Params`, plain data that no step writes), and the free values (opaque constants with no body).
-/

namespace Sys2Proof

namespace Config

/-- `MAX_INPUT_SIZE` (rule R9, decision D5). -/
def maxInputSize : Nat := 0x7E000000

/-- `WINDOW`, the history length (rule R9, decision D21). -/
def window : Nat := 65536

/-- `MAX_OFFSET` (rule R9). -/
def maxOffset : Nat := 65535

/-- `MINMATCH` (rule R9). -/
def minMatch : Nat := 4

/-- `LASTLITERALS` (rule R9). -/
def lastLiterals : Nat := 5

/-- `MFLIMIT` (rule R9, decision D10). -/
def mfLimit : Nat := 12

/-- `DEFAULT_BSID` (rule R9, decision D22). -/
def defaultBsid : Nat := 4

/-- `STREAM_DEFAULT_BLOCK` (rule R9, decision D21). -/
def streamDefaultBlock : Nat := 65536

/-- `BLOCK_MAX(id)` (rules R9 and R124). Ids 0..3 name no size: 0, which is also what INFO_BLOCK_SIZE reports
for a skippable frame (rule R43). -/
def blockMax : Nat → Nat
  | 4 => 65536
  | 5 => 262144
  | 6 => 1048576
  | 7 => 4194304
  | _ => 0

/-- A free byte: what a raced byte reads as (rules R83, R89, R495; item I2). No body: nothing can evaluate it. -/
opaque freeByte : Nat → Byte

/-- A free choice between the old and the new value of one destination byte of an abandoned command (rule R491;
item I18). No body: nothing can evaluate it. -/
opaque freeChoice : Nat → Bool

end Config

/-- A range of host addresses at which the platform has no memory (rule R92). -/
structure Hole where
  base : Nat
  size : Nat
  deriving DecidableEq, Repr

/-- `DMA_FAULT_POLICY` (rules R9, R92; OPEN by decision D55). -/
inductive DmaFaultPolicy where
  /-- the spec's default: the command never completes, BUSY stays 1, only a reset recovers -/
  | stuck
  /-- any other policy: the platform's own, of which the spec says nothing -/
  | platform
  deriving DecidableEq, Repr

/-- `HASH_FN` (rule R9, decision D11). A hash function acts on 32-bit words, so the list of its values is all of it. -/
inductive HashFn where
  /-- the spec's default: the multiplicative hash of rule R211 -/
  | knuth
  /-- any other hash function, by the words it does not send to index 0 and their indices (taken modulo `2^HASH_LOG`) -/
  | listed (values : List (Word × Nat))
  deriving DecidableEq, Repr

/-- The implementation parameters of rule R9, `REG_BASE`, and the model's own `dictRecovers` and `exactWord`, that are plain data. They are held in `State` so that a statement
about every state is a statement about every legal parameter value; no step writes them. -/
structure Params where
  /-- `ADDR_WIDTH`, 32 or 64 (decision D4) -/
  addrWidth : Nat
  /-- `REG_BASE`, where register space lies (rules R54, R91; item I10) -/
  regBase : Nat
  /-- `HASH_LOG`, 8..16 (decision D11) -/
  hashLog : Nat
  /-- `HASH_FN` (decision D11) -/
  hashFn : HashFn
  /-- `N_CTX`, 1..255 (decision D42) -/
  nCtx : Nat
  /-- `STRICT_TAIL` (decision D15) -/
  strictTail : Bool
  /-- whether CTX_LOAD_DICT recovers a FAILED DSTREAM: the pseudocode of rule R303 does it, rule R458 does not name it (DESIGN
  CHOICE, log entry 18: the model holds both) -/
  dictRecovers : Bool
  /-- whether a block header word is read from exactly 4 collected bytes (rule R400) or from 4 or more (rule R389); the two differ
  only where FRAME_INFO leaves more of them (DESIGN CHOICE, log entry 12: the model holds both) -/
  exactWord : Bool
  /-- where the platform has no memory (rule R92) -/
  holes : List Hole
  /-- `DMA_FAULT_POLICY` (decision D55) -/
  dmaFaultPolicy : DmaFaultPolicy
  deriving DecidableEq, Repr

/-- The values rule R9 gives as defaults; the platform has memory everywhere (DESIGN CHOICE, log entry 5), register space is at
0xFFFFF000 (DESIGN CHOICE, log entry 13), CTX_LOAD_DICT follows rule R303's pseudocode (DESIGN CHOICE, log entry 18) and block words
follow rule R400 (DESIGN CHOICE, log entry 12). -/
def Params.default : Params where
  addrWidth := 64
  regBase := 0xFFFFF000
  hashLog := 12
  hashFn := .knuth
  nCtx := 4
  strictTail := false
  dictRecovers := true
  exactWord := true
  holes := []
  dmaFaultPolicy := .stuck

/-- The values rule R9 admits, and a register space whose registers are naturally aligned (rule R33 (a)). -/
def Params.wf (p : Params) : Bool :=
  (p.addrWidth == 32 || p.addrWidth == 64) && p.regBase % 4 == 0 && decide (8 ≤ p.hashLog) && decide (p.hashLog ≤ 16)
    && decide (1 ≤ p.nCtx) && decide (p.nCtx ≤ 255)

end Sys2Proof
end

