-- ==== Sys2Proof/Machine/Bytes.lean ====
section
/-!
DEFINITION. Byte order, bit fields and byte-sequence notation (rules R11, R12, R81): every multi-byte field of both
bitstreams is little-endian, decided here once.
-/

namespace Sys2Proof.Machine

/-- The natural number whose little-endian bytes are `bs` (rule R12). -/
def leNat : List Byte → Nat
  | [] => 0
  | b :: bs => b.toNat + 256 * leNat bs

/-- `bytesLE_N(v)`: the `N`-byte little-endian encoding of `v mod 2^(8N)` (rule R12). -/
def bytesLE : Nat → Nat → List Byte
  | 0, _ => []
  | n + 1, v => BitVec.ofNat 8 v :: bytesLE n (v / 256)

/-- `B[i]`; the callers read inside `B` (rule R12). -/
def byteAt (bs : List Byte) (i : Nat) : Byte := bs.getD i 0

/-- `LE16(B,i)` (rule R12). -/
def le16 (bs : List Byte) (i : Nat) : Nat := leNat ((bs.drop i).take 2)

/-- `LE32(B,i)` (rule R12). -/
def le32 (bs : List Byte) (i : Nat) : Nat := leNat ((bs.drop i).take 4)

/-- `LE64(B,i)` (rule R12). -/
def le64 (bs : List Byte) (i : Nat) : Nat := leNat ((bs.drop i).take 8)

/-- `last_k(B)` (rule R12). -/
def lastK (k : Nat) (bs : List Byte) : List Byte := bs.drop (bs.length - k)

/-- `last_WINDOW(B)`, the ring-buffer rule of every history update (rule R51). -/
def lastWindow (bs : List Byte) : List Byte := lastK Config.window bs

/-- `v[7:4]` of a byte (rule R111). -/
def hiNibble (b : Byte) : BitVec 4 := b.extractLsb' 4 4

/-- `v[3:0]` of a byte (rule R111). -/
def loNibble (b : Byte) : BitVec 4 := b.extractLsb' 0 4

/-- Bit `i` of a natural number (rule R11). -/
def natBit (n i : Nat) : Bool := n.testBit i

/-- A flag as the number 0 or 1. -/
def flagNat (b : Bool) : Nat := if b then 1 else 0

end Sys2Proof.Machine
end

