-- ==== Sys2Proof/Syntax.lean ====
section
/-!
DEFINITION. The engine's instructions: one constructor per row of spec/opcode_table.json. Three kinds of row stand
there: the command words a host writes to CMD (rules R37, R150), the elements of the two bitstreams the engine
executes (rules R110 to R131: "the bitstream ... is the program the block decompressor executes"), and the
preferences word FRAME_BEGIN reads from PARAM0 (rule R152).
-/

namespace Sys2Proof

inductive Instr where
  /- ## Command words (rule R150): CMD[15:8] = HANDLE, CMD[31:16] = reserved (rule R37) -/
  /-- 0x01, rule R201 -/
  | bound (handle : BitVec 8) (rsvd : BitVec 16)
  /-- 0x02, rule R202 -/
  | compress (handle : BitVec 8) (rsvd : BitVec 16)
  /-- 0x03, rule R250 -/
  | decompress (handle : BitVec 8) (rsvd : BitVec 16)
  /-- 0x10, rule R300 -/
  | ctxCreate (handle : BitVec 8) (rsvd : BitVec 16)
  /-- 0x11, rule R301 -/
  | ctxDestroy (handle : BitVec 8) (rsvd : BitVec 16)
  /-- 0x12, rule R302 -/
  | ctxReset (handle : BitVec 8) (rsvd : BitVec 16)
  /-- 0x13, rule R303 -/
  | ctxLoadDict (handle : BitVec 8) (rsvd : BitVec 16)
  /-- 0x20, rule R304 -/
  | streamCompress (handle : BitVec 8) (rsvd : BitVec 16)
  /-- 0x21, rule R305 -/
  | streamDecompress (handle : BitVec 8) (rsvd : BitVec 16)
  /-- 0x30, rule R342 -/
  | frameBegin (handle : BitVec 8) (rsvd : BitVec 16)
  /-- 0x31, rule R344 -/
  | frameUpdate (handle : BitVec 8) (rsvd : BitVec 16)
  /-- 0x32, rule R345 -/
  | frameEnd (handle : BitVec 8) (rsvd : BitVec 16)
  /-- 0x38, rule R383 -/
  | frameInfo (handle : BitVec 8) (rsvd : BitVec 16)
  /-- 0x39, rule R385 -/
  | frameDecompress (handle : BitVec 8) (rsvd : BitVec 16)
  /-- any other OPCODE, rules R150 and R153 -/
  | illegalCommand (opcode : BitVec 8) (handle : BitVec 8) (rsvd : BitVec 16)
  /- ## Elements of a block (rules R110 to R118) -/
  /-- LLN [7:4], MLN [3:0], rule R111 -/
  | token (litNibble matchNibble : BitVec 4)
  /-- one byte of a length continuation, rule R112 -/
  | lenExt (value : Byte)
  /-- the `LL` bytes of a literal field, rule R114 -/
  | literals (bytes : List Byte)
  /-- 2 bytes, little-endian, rule R115 -/
  | offset (off : BitVec 16)
  /-- the 4-byte size of the legacy container, rule R118 -/
  | legacySize (size : Word)
  /- ## Elements of a frame (rules R120 to R131) -/
  /-- 0x184D2204, rule R122 -/
  | frameMagic
  /-- 0x184D2A5X and the user-data size that follows it, rule R130 -/
  | skippableMagic (x : BitVec 4) (size : Word)
  /-- 0x184C2102, the refused magic of the LZ4 legacy frame, rule R131 -/
  | legacyMagicRefused
  /-- VERSION [7:6], B_INDEP [5], B_CHECKSUM [4], C_SIZE [3], C_CHECKSUM [2], reserved [1], DICT_ID [0]; rule R123 -/
  | flg (version : BitVec 2) (indep blockCrc sizePresent contentCrc reserved dictPresent : Bool)
  /-- reserved [7], BSID [6:4], reserved [3:0]; rule R124 -/
  | bd (reserved7 : Bool) (bsid : BitVec 3) (reservedLow : BitVec 4)
  /-- 8 bytes, little-endian, rule R125 -/
  | contentSize (size : BitVec 64)
  /-- 4 bytes, little-endian, rule R125 -/
  | dictId (ident : Word)
  /-- the header checksum byte, rule R126 -/
  | hc (value : Byte)
  /-- block header word with W[31] = 0 and W ≠ 0: W[30:0] payload bytes, rule R127 -/
  | blockCompressed (len : BitVec 31)
  /-- block header word with W[31] = 1: W[30:0] payload bytes, rule R127 -/
  | blockStored (len : BitVec 31)
  /-- 4 bytes, little-endian, rule R127 -/
  | blockChecksum (value : Word)
  /-- the word 0, rule R128 -/
  | endMark
  /-- 4 bytes, little-endian, rule R129 -/
  | contentChecksum (value : Word)
  /- ## The preferences word of FRAME_BEGIN (rule R152) -/
  /-- BSID [2:0], reserved [3], B_INDEP [4], C_CHECKSUM [5], B_CHECKSUM [6], AUTO_FLUSH [7], reserved [31:8] -/
  | prefs (bsid : BitVec 3) (reserved3 indep contentCrc blockCrc autoFlush : Bool) (reservedHigh : BitVec 24)
  deriving DecidableEq, Repr

end Sys2Proof
end

