-- ==== Sys2Proof/WellFormed.lean ====
section
/-!
DEFINITION. Which terms of `Instr` are legal encodings (rules R150 to R153 for command and PARAM words, R111 to
R131 for bitstream elements). The decoder also reads the illegal ones, since the engine accepts each of them and
reports its error; this predicate says which are legal.
-/

namespace Sys2Proof

/-- The OPCODE values of rule R150. -/
def legalOpcodes : List (BitVec 8) :=
  [0x01, 0x02, 0x03, 0x10, 0x11, 0x12, 0x13, 0x20, 0x21, 0x30, 0x31, 0x32, 0x38, 0x39]

/-- CMD[31:16] must be 0 (rules R37, R153 (a)). -/
def rsvdClear (rsvd : BitVec 16) : Bool := rsvd == 0

/-- The encodings the spec calls legal. -/
def Instr.wf : Instr → Bool
  | .bound _ r => rsvdClear r
  | .compress _ r => rsvdClear r
  | .decompress _ r => rsvdClear r
  | .ctxCreate _ r => rsvdClear r
  | .ctxDestroy _ _ => true
  | .ctxReset _ r => rsvdClear r
  | .ctxLoadDict _ r => rsvdClear r
  | .streamCompress _ r => rsvdClear r
  | .streamDecompress _ r => rsvdClear r
  | .frameBegin _ r => rsvdClear r
  | .frameUpdate _ r => rsvdClear r
  | .frameEnd _ r => rsvdClear r
  | .frameInfo _ r => rsvdClear r
  | .frameDecompress _ r => rsvdClear r
  | .illegalCommand op _ _ => !(legalOpcodes.contains op)
  | .token _ _ => true
  | .lenExt _ => true
  | .literals _ => true
  | .offset off => off != 0
  | .legacySize size => decide (size.toNat ≤ Config.maxInputSize)
  | .frameMagic => true
  | .skippableMagic _ _ => true
  | .legacyMagicRefused => true
  | .flg version _ _ _ _ reserved _ => version == 1 && !reserved
  | .bd reserved7 bsid reservedLow => !reserved7 && decide (4 ≤ bsid.toNat) && reservedLow == 0
  | .contentSize _ => true
  | .dictId _ => true
  | .hc _ => true
  | .blockCompressed len => decide (1 ≤ len.toNat) && decide (len.toNat ≤ Config.blockMax 7)
  | .blockStored len => decide (len.toNat ≤ Config.blockMax 7)
  | .blockChecksum _ => true
  | .endMark => true
  | .contentChecksum _ => true
  | .prefs bsid reserved3 _ _ _ _ reservedHigh =>
      (bsid == 0 || decide (4 ≤ bsid.toNat)) && !reserved3 && reservedHigh == 0

end Sys2Proof
end

