-- ==== Sys2Proof/Decode.lean ====
section
/-!
DEFINITION. The decoder and the encoder of every row of the opcode table. A bitstream has no opcode field: which
element stands next is fixed by the parser's place (rules R110, R117, R120, R154), so the decoder takes that place
(`Site`) and the bytes from there on. It is total: it answers an instruction and the rest of the bytes, or a named
reason. Command words and the preferences word are register words (rules R37, R152), laid out here as their four
little-endian bytes, the bit numbering of spec/opcode_table.json.
-/

namespace Sys2Proof

open Machine

/-- The place in a word or a bitstream at which an instruction is read. -/
inductive Site where
  /-- a word written to CMD (rule R37) -/
  | command
  /-- the PARAM0 word of FRAME_BEGIN (rule R152) -/
  | prefs
  /-- the start of a sequence (rule R255) -/
  | token
  /-- a length continuation (rules R256, R262) -/
  | lenExt
  /-- a literal field of `n` bytes (rule R258) -/
  | literals (n : Nat)
  /-- the offset of a match (rule R260) -/
  | offset
  /-- the start of a legacy container (rule R251) -/
  | legacySize
  /-- the start of a frame (rule R120) -/
  | magic
  /-- frame offset 4 (rule R123) -/
  | flg
  /-- frame offset 5 (rule R124) -/
  | bd
  /-- after BD, when FLG.C_SIZE = 1 (rule R121) -/
  | contentSize
  /-- after BD and the content size, when FLG.DICT_ID = 1 (rule R121) -/
  | dictId
  /-- the last header byte (rule R121) -/
  | hc
  /-- the start of a block record, or the end mark (rules R127, R128) -/
  | blockWord
  /-- after a payload, when FLG.B_CHECKSUM = 1 (rule R127) -/
  | blockChecksum
  /-- after the end mark, when FLG.C_CHECKSUM = 1 (rule R129) -/
  | contentChecksum
  deriving DecidableEq, Repr

/-- Why no instruction is read. -/
inductive DecodeError where
  /-- the bytes end inside the element -/
  | tooShort
  /-- a magic number of no known frame kind (rule R131: BAD_MAGIC) -/
  | unknownMagic
  deriving DecidableEq, Repr

/-- The frame magic number (rule R122). -/
def magicLz4 : Nat := 0x184D2204

/-- The skippable-frame magic numbers, `X` = 0 (rule R130). -/
def magicSkippable : Nat := 0x184D2A50

/-- The refused magic number of the LZ4 legacy frame (rule R131). -/
def magicLegacy : Nat := 0x184C2102

/-- `m & 0xFFFFFFF0 = 0x184D2A50` (rule R381). -/
def isSkippable (m : Nat) : Bool := m / 16 == magicSkippable / 16

/-- A word written to CMD (rules R37, R150). Every word is some command: a word whose OPCODE is in no row is
ILLEGAL_COMMAND. -/
def decodeCommand (w : Word) : Instr :=
  let op : BitVec 8 := w.extractLsb' 0 8
  let h : BitVec 8 := w.extractLsb' 8 8
  let r : BitVec 16 := w.extractLsb' 16 16
  match op.toNat with
  | 0x01 => .bound h r
  | 0x02 => .compress h r
  | 0x03 => .decompress h r
  | 0x10 => .ctxCreate h r
  | 0x11 => .ctxDestroy h r
  | 0x12 => .ctxReset h r
  | 0x13 => .ctxLoadDict h r
  | 0x20 => .streamCompress h r
  | 0x21 => .streamDecompress h r
  | 0x30 => .frameBegin h r
  | 0x31 => .frameUpdate h r
  | 0x32 => .frameEnd h r
  | 0x38 => .frameInfo h r
  | 0x39 => .frameDecompress h r
  | _ => .illegalCommand op h r

/-- A preferences word (rule R152). -/
def decodePrefs (w : Word) : Instr :=
  .prefs (w.extractLsb' 0 3) (w.getLsbD 3) (w.getLsbD 4) (w.getLsbD 5) (w.getLsbD 6) (w.getLsbD 7) (w.extractLsb' 8 24)

/-- A token byte (rule R111). -/
def decodeToken (b : Byte) : Instr := .token (hiNibble b) (loNibble b)

/-- A FLG byte (rule R123). -/
def decodeFlg (b : Byte) : Instr :=
  .flg (b.extractLsb' 6 2) (b.getLsbD 5) (b.getLsbD 4) (b.getLsbD 3) (b.getLsbD 2) (b.getLsbD 1) (b.getLsbD 0)

/-- A BD byte (rule R124). -/
def decodeBd (b : Byte) : Instr := .bd (b.getLsbD 7) (b.extractLsb' 4 3) (b.extractLsb' 0 4)

/-- A block header word or the end mark (rules R127, R128). -/
def decodeBlockWord (w : Word) : Instr :=
  if w = 0 then .endMark
  else if w.getLsbD 31 then .blockStored (w.extractLsb' 0 31)
  else .blockCompressed (w.extractLsb' 0 31)

/-- The first `n` bytes and the rest, or `tooShort`. -/
def takeBytes (n : Nat) (bs : List Byte) : Except DecodeError (List Byte × List Byte) :=
  if bs.length < n then .error .tooShort else .ok (bs.take n, bs.drop n)

/-- The magic number and, for a skippable frame, the size word after it (rules R122, R130, R131). -/
def decodeMagic (bs : List Byte) : Except DecodeError (Instr × List Byte) :=
  if bs.length < 4 then .error .tooShort
  else
    let m := le32 bs 0
    if m = magicLz4 then .ok (.frameMagic, bs.drop 4)
    else if m = magicLegacy then .ok (.legacyMagicRefused, bs.drop 4)
    else if isSkippable m then
      if bs.length < 8 then .error .tooShort
      else .ok (.skippableMagic (BitVec.ofNat 4 m) (BitVec.ofNat 32 (le32 bs 4)), bs.drop 8)
    else .error .unknownMagic

/-- The instruction at the start of `bs`, read at the place `site`, and the bytes after it. -/
def decode (site : Site) (bs : List Byte) : Except DecodeError (Instr × List Byte) :=
  match site with
  | .command => (takeBytes 4 bs).map fun p => (decodeCommand (BitVec.ofNat 32 (leNat p.1)), p.2)
  | .prefs => (takeBytes 4 bs).map fun p => (decodePrefs (BitVec.ofNat 32 (leNat p.1)), p.2)
  | .token => (takeBytes 1 bs).map fun p => (decodeToken (byteAt p.1 0), p.2)
  | .lenExt => (takeBytes 1 bs).map fun p => (.lenExt (byteAt p.1 0), p.2)
  | .literals n => (takeBytes n bs).map fun p => (.literals p.1, p.2)
  | .offset => (takeBytes 2 bs).map fun p => (.offset (BitVec.ofNat 16 (leNat p.1)), p.2)
  | .legacySize => (takeBytes 4 bs).map fun p => (.legacySize (BitVec.ofNat 32 (leNat p.1)), p.2)
  | .magic => decodeMagic bs
  | .flg => (takeBytes 1 bs).map fun p => (decodeFlg (byteAt p.1 0), p.2)
  | .bd => (takeBytes 1 bs).map fun p => (decodeBd (byteAt p.1 0), p.2)
  | .contentSize => (takeBytes 8 bs).map fun p => (.contentSize (BitVec.ofNat 64 (leNat p.1)), p.2)
  | .dictId => (takeBytes 4 bs).map fun p => (.dictId (BitVec.ofNat 32 (leNat p.1)), p.2)
  | .hc => (takeBytes 1 bs).map fun p => (.hc (byteAt p.1 0), p.2)
  | .blockWord => (takeBytes 4 bs).map fun p => (decodeBlockWord (BitVec.ofNat 32 (leNat p.1)), p.2)
  | .blockChecksum => (takeBytes 4 bs).map fun p => (.blockChecksum (BitVec.ofNat 32 (leNat p.1)), p.2)
  | .contentChecksum => (takeBytes 4 bs).map fun p => (.contentChecksum (BitVec.ofNat 32 (leNat p.1)), p.2)

/-! ## The encoder -/

/-- The CMD word of an OPCODE, a HANDLE and CMD[31:16] (rule R37). -/
def commandWord (op h : BitVec 8) (r : BitVec 16) : Word := r ++ h ++ op

/-- The little-endian bytes of a 32-bit word (rule R81). -/
def wordBytes (w : Word) : List Byte := bytesLE 4 w.toNat

/-- The token byte (rule R111). -/
def tokenByte (l m : BitVec 4) : Byte := l ++ m

/-- The FLG byte (rule R123). -/
def flgByte (version : BitVec 2) (indep blockCrc sizePresent contentCrc reserved dictPresent : Bool) : Byte :=
  version ++ BitVec.ofBool indep ++ BitVec.ofBool blockCrc ++ BitVec.ofBool sizePresent ++ BitVec.ofBool contentCrc
    ++ BitVec.ofBool reserved ++ BitVec.ofBool dictPresent

/-- The BD byte (rule R124). -/
def bdByte (reserved7 : Bool) (bsid : BitVec 3) (reservedLow : BitVec 4) : Byte :=
  BitVec.ofBool reserved7 ++ bsid ++ reservedLow

/-- The preferences word (rule R152). -/
def prefsWord (bsid : BitVec 3) (reserved3 indep contentCrc blockCrc autoFlush : Bool) (reservedHigh : BitVec 24) : Word :=
  reservedHigh ++ BitVec.ofBool autoFlush ++ BitVec.ofBool blockCrc ++ BitVec.ofBool contentCrc ++ BitVec.ofBool indep
    ++ BitVec.ofBool reserved3 ++ bsid

/-- The header word of a stored (`stored = true`) or compressed block (rule R127). -/
def blockHeaderWord (stored : Bool) (len : BitVec 31) : Word := BitVec.ofBool stored ++ len

/-- The bytes of an instruction (rules R37, R111 to R131, R150, R152). -/
def encode : Instr → List Byte
  | .bound h r => wordBytes (commandWord 0x01 h r)
  | .compress h r => wordBytes (commandWord 0x02 h r)
  | .decompress h r => wordBytes (commandWord 0x03 h r)
  | .ctxCreate h r => wordBytes (commandWord 0x10 h r)
  | .ctxDestroy h r => wordBytes (commandWord 0x11 h r)
  | .ctxReset h r => wordBytes (commandWord 0x12 h r)
  | .ctxLoadDict h r => wordBytes (commandWord 0x13 h r)
  | .streamCompress h r => wordBytes (commandWord 0x20 h r)
  | .streamDecompress h r => wordBytes (commandWord 0x21 h r)
  | .frameBegin h r => wordBytes (commandWord 0x30 h r)
  | .frameUpdate h r => wordBytes (commandWord 0x31 h r)
  | .frameEnd h r => wordBytes (commandWord 0x32 h r)
  | .frameInfo h r => wordBytes (commandWord 0x38 h r)
  | .frameDecompress h r => wordBytes (commandWord 0x39 h r)
  | .illegalCommand op h r => wordBytes (commandWord op h r)
  | .token l m => [tokenByte l m]
  | .lenExt v => [v]
  | .literals bs => bs
  | .offset off => bytesLE 2 off.toNat
  | .legacySize size => wordBytes size
  | .frameMagic => bytesLE 4 magicLz4
  | .skippableMagic x size => bytesLE 4 (magicSkippable + x.toNat) ++ wordBytes size
  | .legacyMagicRefused => bytesLE 4 magicLegacy
  | .flg v i b s c r d => [flgByte v i b s c r d]
  | .bd r7 bsid rl => [bdByte r7 bsid rl]
  | .contentSize size => bytesLE 8 size.toNat
  | .dictId d => wordBytes d
  | .hc v => [v]
  | .blockCompressed len => wordBytes (blockHeaderWord false len)
  | .blockStored len => wordBytes (blockHeaderWord true len)
  | .blockChecksum v => wordBytes v
  | .endMark => wordBytes 0
  | .contentChecksum v => wordBytes v
  | .prefs bsid r3 i c b a rh => wordBytes (prefsWord bsid r3 i c b a rh)

/-- The place at which an instruction is read. -/
def siteOf : Instr → Site
  | .bound _ _ => .command
  | .compress _ _ => .command
  | .decompress _ _ => .command
  | .ctxCreate _ _ => .command
  | .ctxDestroy _ _ => .command
  | .ctxReset _ _ => .command
  | .ctxLoadDict _ _ => .command
  | .streamCompress _ _ => .command
  | .streamDecompress _ _ => .command
  | .frameBegin _ _ => .command
  | .frameUpdate _ _ => .command
  | .frameEnd _ _ => .command
  | .frameInfo _ _ => .command
  | .frameDecompress _ _ => .command
  | .illegalCommand _ _ _ => .command
  | .token _ _ => .token
  | .lenExt _ => .lenExt
  | .literals bs => .literals bs.length
  | .offset _ => .offset
  | .legacySize _ => .legacySize
  | .frameMagic => .magic
  | .skippableMagic _ _ => .magic
  | .legacyMagicRefused => .magic
  | .flg _ _ _ _ _ _ _ => .flg
  | .bd _ _ _ => .bd
  | .contentSize _ => .contentSize
  | .dictId _ => .dictId
  | .hc _ => .hc
  | .blockCompressed _ => .blockWord
  | .blockStored _ => .blockWord
  | .blockChecksum _ => .blockChecksum
  | .endMark => .blockWord
  | .contentChecksum _ => .contentChecksum
  | .prefs _ _ _ _ _ _ _ => .prefs

/-! ## The host's probe: one word without a place -/

/-- The instruction `decode` gives at a place, if any. -/
def decodeAt (site : Site) (bs : List Byte) : Option Instr :=
  match decode site bs with
  | .ok (i, _) => some i
  | .error _ => none

/-- The instruction `decode` gives at a place, if it is a legal encoding. -/
def decodeLegalAt (site : Site) (bs : List Byte) : Option Instr :=
  (decodeAt site bs).filter Instr.wf

/-- The table's 32-bit rows share their words: 0x00000001 is BOUND, and a block header word of length 1. A word alone
does not say which, so the places are tried in the order magic number, end mark, legal command, the reserved opcode
0x04 (ILLEGAL_COMMAND by its own row), preferences word, block header word (DESIGN CHOICE, log entry 8). -/
def decodeTable32 (bs : List Byte) : Option Instr :=
  (decodeLegalAt .magic bs).orElse fun _ =>
    if leNat (bs.take 4) = 0 then some .endMark
    else
      match decodeLegalAt .command bs with
      | some (.illegalCommand op h r) =>
        if leNat (bs.take 4) = 4 then some (.illegalCommand op h r)
        else (decodeLegalAt .prefs bs).orElse fun _ => decodeAt .blockWord bs
      | some i => some i
      | none => (decodeLegalAt .prefs bs).orElse fun _ => decodeAt .blockWord bs

/-- The table's 8-bit rows share their words too: 0x50, 0x60 and 0x70 are read as BD, every other legal FLG as FLG
(0x40 among them), and every other byte as a token (DESIGN CHOICE, log entry 8). -/
def decodeTable8 (bs : List Byte) : Option Instr :=
  if leNat (bs.take 1) ∈ [0x50, 0x60, 0x70] then decodeAt .bd bs
  else (decodeLegalAt .flg bs).orElse fun _ => decodeAt .token bs

/-- The instruction the decoder reads from an instruction whose bits are `w`, numbered as spec/opcode_table.json
numbers them; the bits above `nbits` are 0. -/
def decodeTableWord (nbits w : Nat) : Option Instr :=
  let bs := bytesLE 12 (w % 2 ^ nbits)
  if nbits ≤ 8 then decodeTable8 bs
  else if nbits ≤ 16 then decodeAt .offset bs
  else if nbits ≤ 32 then decodeTable32 bs
  else if nbits ≤ 64 then decodeAt .contentSize bs
  else none

end Sys2Proof
end

