-- ==== Sys2Proof/Machine/State.lean ====
section
/-!
DEFINITION. The machine's state as plain data, the reasons a step can stop, and the state after reset. Three groups of
state: what a host sees (the register file of rule R32 and host memory, rule R80), what the engine holds between
commands (the context slots, rules R45 to R50), and what it holds inside a command only (`Work`, the working registers
of rule R31). The environment an engine is in (pending host accesses, raced bytes) is data here too.
-/

namespace Sys2Proof.Machine

/-! ## Errors (rules R450, R451) -/

/-- The details of class 3 CORRUPT_INPUT (rule R451). -/
inductive Detail where
  | truncated
  | offsetZero
  | offsetOutOfWindow
  | literalPastSource
  | outputOverflow
  | tailRule
  | badMagic
  | headerChecksum
  | badVersion
  | reservedBit
  | badBlockSizeId
  | blockTooLarge
  | blockChecksum
  | contentChecksum
  | contentSizeMismatch
  | trailingData
  | legacySize
  deriving DecidableEq, Repr

/-- The errors a command can end with: one constructor per (class, detail) pair of rule R451. -/
inductive Err where
  | illegalCommand
  | badHandle
  | nullPointer
  | lengthTooLarge
  | bufferOverlap
  | badParam
  | contentSizeWrong
  | addressRange
  | capacityBound
  | capacityOutput
  | corrupt (d : Detail)
  | noContextSlot
  | wrongState
  | contextFailed
  | chunkInput
  | chunkOutput
  deriving DecidableEq, Repr

/-! ## Host-visible registers (rule R32) -/

/-- The registers a host writes to describe a command (rules R37 to R40). CMD reads 0; `cmd` is the word the engine
latched at the accepted write. -/
structure Args where
  cmd : Word
  srcAddrLo : Word
  srcAddrHi : Word
  srcLen : Word
  dstAddrLo : Word
  dstAddrHi : Word
  dstCap : Word
  param0 : Word
  param1 : Word
  param2 : Word
  deriving DecidableEq, Repr

/-- The registers a command writes when it ends (rules R41, R42, R44). -/
structure Results where
  resultLen : Word
  consumed : Word
  errCode : Word
  errOffsetLo : Word
  errOffsetHi : Word
  ctxStatus : Word
  deriving DecidableEq, Repr

/-- The INFO registers (rule R43). -/
structure Info where
  flags : Word
  blockSize : Word
  csizeLo : Word
  csizeHi : Word
  dictId : Word
  hdrLen : Word
  deriving DecidableEq, Repr

/-! ## Contexts (rules R45 to R52) -/

/-- A hash table (rule R50), sparse: (index, absolute position) pairs, indices strictly rising; an index not listed
is EMPTY. -/
abbrev HashTable := List (Nat × Nat)

/-- CSTREAM (rule R46). -/
structure CStream where
  blockSize : Nat
  hist : List Byte
  table : HashTable
  spos : Nat
  deriving DecidableEq, Repr

/-- The states of a DSTREAM (rules R47, R52). -/
inductive DsState where
  | ready
  | failed
  deriving DecidableEq, Repr

/-- DSTREAM (rule R47). -/
structure DStream where
  blockSize : Nat
  hist : List Byte
  state : DsState
  deriving DecidableEq, Repr

/-- The states of an FCOMP (rules R48, R346). -/
inductive FState where
  | idle
  | headerEmitted
  | updating
  | ended
  deriving DecidableEq, Repr

/-- The preferences of a frame (rules R152, R340). -/
structure Prefs where
  bsid : Nat
  indep : Bool
  ccrc : Bool
  bcrc : Bool
  autoFlush : Bool
  csize : Nat
  deriving DecidableEq, Repr

/-- FCOMP (rule R48). -/
structure FComp where
  fstate : FState
  prefs : Prefs
  pending : List Byte
  hist : List Byte
  table : HashTable
  spos : Nat
  total : Nat
  content : List Byte
  deriving DecidableEq, Repr

/-- The states of an FDECOMP (rules R49, R397). -/
inductive DState where
  | idle
  | frameInfoKnown
  | decoding
  | complete
  | failed
  deriving DecidableEq, Repr

/-- The parser stages of an FDECOMP (rules R49, R386). -/
inductive Stage where
  | hdr
  | skip
  | blkHdr
  | blkData
  | blkCrc
  | ccrc
  | ended
  deriving DecidableEq, Repr

/-- A parsed frame header (rules R43, R381). -/
structure FrameInfo where
  skippable : Bool
  indep : Bool
  bcrc : Bool
  csflag : Bool
  ccrc : Bool
  dflag : Bool
  bsid : Nat
  csize : Nat
  dictid : Nat
  skip : Nat
  deriving DecidableEq, Repr

/-- FDECOMP (rule R49). -/
structure FDecomp where
  dstate : DState
  stage : Stage
  acc : List Byte
  info : FrameInfo
  dict : List Byte
  hist : List Byte
  pending : List Byte
  fpos : Nat
  total : Nat
  content : List Byte
  bword : Nat
  boff : Nat
  poff : Nat
  skipLeft : Nat
  payload : List Byte
  deriving DecidableEq, Repr

/-- One context of one kind (rule R45). -/
inductive Ctx where
  | cstream (c : CStream)
  | dstream (c : DStream)
  | fcomp (c : FComp)
  | fdecomp (c : FDecomp)
  deriving DecidableEq, Repr

/-! ## Working registers (rule R31) -/

/-- Which element of a block the parser reads next (rules R255 to R262), or the parse's result: `none` for OK, else
the detail and the offset (rule R252). -/
inductive Phase where
  | token
  | litExt
  | literals
  | offset
  | matchExt
  | ended (status : Option (Detail × Nat))
  deriving DecidableEq, Repr

/-- Where a decoded match starts and ends in the output, and the index of its token (rule R266). -/
structure Mark where
  start : Nat
  stop : Nat
  tok : Nat
  deriving DecidableEq, Repr

/-- The block decompressor's working registers (rules R31, R252): the block, the capacity, the history, `ip`, the output
(whose length is `op`), `tok`, `token`, `LL`, `ML`, `off`. -/
structure BlockParser where
  src : List Byte
  cap : Nat
  hist : List Byte
  strictTail : Bool
  ip : Nat
  out : List Byte
  tok : Nat
  token : Byte
  ll : Nat
  ml : Nat
  off : Nat
  marks : List Mark
  phase : Phase
  deriving DecidableEq, Repr

/-- The block compressor's working registers (rules R31, R221): the virtual buffer `W`, `base`, `n`, `hstart`, `p`,
`anchor`, the table and the sequences emitted so far. `s`, `m` and `h` live inside one scan position only. -/
structure Scan where
  buf : List Byte
  base : Nat
  len : Nat
  hstart : Nat
  pos : Nat
  anchor : Nat
  table : HashTable
  emitted : List Byte
  deriving DecidableEq, Repr

/-- The frame decompressor's working registers (rule R385): a working copy of the context, the INFO registers, `i`
(frame bytes consumed) and the bytes delivered. -/
structure FrameRun where
  ctx : FDecomp
  info : Info
  used : Nat
  out : List Byte
  deriving DecidableEq, Repr

/-- The command a block parse belongs to. -/
inductive BlockOwner where
  /-- DECOMPRESS (rule R250) -/
  | decompress
  /-- DECOMPRESS with STORE_SIZE = 1: the declared size and the container's length (rule R251) -/
  | legacy (size len : Nat)
  /-- STREAM_DECOMPRESS on a handle (rule R305) -/
  | stream (handle : BitVec 8)
  deriving DecidableEq, Repr

/-- The command a compressor scan belongs to. -/
inductive ScanOwner where
  /-- COMPRESS: the bytes written before the block (rules R202, R203) -/
  | compress (hdr : List Byte)
  /-- STREAM_COMPRESS on a handle (rule R304) -/
  | stream (handle : BitVec 8)
  deriving DecidableEq, Repr

/-- What the engine holds inside a command. A command is one atomic step (rule R30), so a run leaves `idle` here
between commands (rule R31); the other forms are the places at which the elements of the opcode table stand. -/
inductive Work where
  | idle
  /-- the block compressor before a scan position -/
  | scan (owner : ScanOwner) (scan : Scan)
  /-- DECOMPRESS before the size header of a legacy container, with the destination capacity -/
  | legacy (src : List Byte) (cap : Nat)
  /-- the block decompressor before an element -/
  | block (owner : BlockOwner) (parser : BlockParser)
  /-- the frame decompressor before an element: handle, bytes not yet consumed, capacity, registers, error if any -/
  | frame (handle : BitVec 8) (rest : List Byte) (cap : Nat) (run : FrameRun) (error : Option (Detail × Nat))
  /-- FRAME_BEGIN before the preferences word -/
  | prefs (handle : BitVec 8)
  deriving DecidableEq, Repr

/-! ## The environment -/

/-- One access or signal of the host (rules R30, R33, R89, R490). -/
inductive HostEvent where
  /-- a store of `width` bytes to register space, at an address of the platform's bus -/
  | regWrite (addr width : Nat) (value : Word)
  /-- a load of `width` bytes from register space -/
  | regRead (addr width : Nat)
  /-- a write of one byte of host memory -/
  | memWrite (addr : Nat) (value : Byte)
  /-- a read of one byte of host memory -/
  | memRead (addr : Nat)
  /-- the host waits until BUSY = 0 (rules R157, R462) -/
  | waitDone
  /-- the platform's reset input (rule R490 (a)) -/
  | platformReset
  deriving DecidableEq, Repr

/-- The machine. -/
structure State where
  /-- the implementation parameters; no step writes them (rule R9) -/
  params : Params
  /-- CTRL.IE (rule R35) -/
  ie : Bool
  /-- STATUS.BUSY (rule R36) -/
  busy : Bool
  /-- STATUS.DONE (rule R36) -/
  done : Bool
  args : Args
  results : Results
  info : Info
  /-- context slots 1..N_CTX in order; `none` is a free slot (rule R45) -/
  slots : List (Option Ctx)
  /-- host memory (rule R80): addresses strictly rising, no byte equal to what an unlisted address reads as -/
  mem : List Host.Cell
  /-- working registers (rule R31) -/
  work : Work
  /-- the engine is stuck on a DMA fault (rule R92) -/
  stuck : Bool
  /-- host accesses still to happen, oldest first -/
  inbox : List HostEvent
  /-- what the host's last read returned -/
  hostData : Word
  /-- buffer bytes the host touched, against rule R89 (b), while a command ran -/
  raced : List Nat
  /-- how many free values have been used -/
  freeCount : Nat
  deriving DecidableEq, Repr

/-- Why the machine stops. -/
inductive Fault where
  /-- A DMA access to an address without memory under a platform policy of which the spec says nothing (rule R92,
  decision D55 OPEN). Raised by every command that reads or writes such an address. Safe: the hardware goes on in some
  way the model does not follow. -/
  | dmaPlatform
  /-- A host access to memory at an address at or above `2^ADDR_WIDTH` (rule R80: host memory has no such byte; the spec does
  not say what the access does: DESIGN CHOICE, log entry 19). Raised by host memory events. Safe. -/
  | hostAddressRange
  /-- A host access to memory at an address where the platform has none (rule R92 speaks of the engine's DMA only; the spec does
  not say what a host access does there: DESIGN CHOICE, log entry 19). Raised by host memory events. Safe. -/
  | hostNoMemory
  deriving DecidableEq, Repr

/-- Why an action has no meaning. -/
inductive Refusal where
  /-- An instruction of the table without a meaning. Raised by `exec` only. Safe. -/
  | notModelled (mnemonic : String)
  /-- A host access to register space that is not a naturally aligned 32-bit one (rule R33 (a): "refused by the model (no
  meaning)"), or a register event whose address lies outside register space (DESIGN CHOICE, log entry 13). Raised by host
  register events, and by host memory events at an address of register space. Safe. -/
  | registerAccess
  /-- A bitstream element or preferences word asked for where the engine does not read one. `step` never asks: it takes
  each element from the place the parser is at (rules R117, R154). Raised by the meanings of the bitstream elements and
  of PREFS. Safe. -/
  | elementNotExpected
  deriving DecidableEq, Repr

/-- The outcome of a step of this machine. -/
abbrev Result := Host.Outcome State Fault Refusal

/-- Every argument register 0 (rule R32). -/
def Args.zero : Args where
  cmd := 0
  srcAddrLo := 0
  srcAddrHi := 0
  srcLen := 0
  dstAddrLo := 0
  dstAddrHi := 0
  dstCap := 0
  param0 := 0
  param1 := 0
  param2 := 0

/-- Every result register 0 (rule R32). -/
def Results.zero : Results where
  resultLen := 0
  consumed := 0
  errCode := 0
  errOffsetLo := 0
  errOffsetHi := 0
  ctxStatus := 0

/-- Every INFO register 0 (rule R32). -/
def Info.zero : Info where
  flags := 0
  blockSize := 0
  csizeLo := 0
  csizeHi := 0
  dictId := 0
  hdrLen := 0

/-- The machine after a device reset (rules R32, R491, R493): every register at its reset value, every slot free,
the engine idle. The parameters are the defaults of rule R9, memory lists nothing, and no host access is pending. -/
def State.reset : State where
  params := Params.default
  ie := false
  busy := false
  done := false
  args := Args.zero
  results := Results.zero
  info := Info.zero
  slots := List.replicate Params.default.nCtx none
  mem := []
  work := .idle
  stuck := false
  inbox := []
  hostData := 0
  raced := []
  freeCount := 0

end Sys2Proof.Machine
end

