-- ==== Sys2Proof/Machine/Flags.lean ====
section
/-!
DEFINITION. Every status computation of the spec: the error codes (rules R450, R451), ERR_CODE (rule R42), STATUS (rule
R36), the interrupt output (rule R461), CTX_STATUS (rules R44, R45, R52) and the INFO registers (rules R43, R384).
The engine has no condition codes (rule R53).
-/

namespace Sys2Proof.Machine

/-- The detail numbers of class 3 (rule R451). -/
def Detail.code : Detail → Nat
  | .truncated => 1
  | .offsetZero => 2
  | .offsetOutOfWindow => 3
  | .literalPastSource => 4
  | .outputOverflow => 5
  | .tailRule => 6
  | .badMagic => 7
  | .headerChecksum => 8
  | .badVersion => 9
  | .reservedBit => 10
  | .badBlockSizeId => 11
  | .blockTooLarge => 12
  | .blockChecksum => 13
  | .contentChecksum => 14
  | .contentSizeMismatch => 15
  | .trailingData => 16
  | .legacySize => 17

/-- The class numbers (rule R450). -/
def Err.classCode : Err → Nat
  | .illegalCommand => 1
  | .badHandle => 1
  | .nullPointer => 1
  | .lengthTooLarge => 1
  | .bufferOverlap => 1
  | .badParam => 1
  | .contentSizeWrong => 1
  | .addressRange => 1
  | .capacityBound => 2
  | .capacityOutput => 2
  | .corrupt _ => 3
  | .noContextSlot => 4
  | .wrongState => 5
  | .contextFailed => 5
  | .chunkInput => 6
  | .chunkOutput => 6

/-- The detail numbers of every class (rule R451). -/
def Err.detailCode : Err → Nat
  | .illegalCommand => 1
  | .badHandle => 2
  | .nullPointer => 3
  | .lengthTooLarge => 4
  | .bufferOverlap => 5
  | .badParam => 6
  | .contentSizeWrong => 7
  | .addressRange => 8
  | .capacityBound => 1
  | .capacityOutput => 2
  | .corrupt d => d.code
  | .noContextSlot => 1
  | .wrongState => 1
  | .contextFailed => 2
  | .chunkInput => 1
  | .chunkOutput => 2

/-- ERR_CODE of an error: CLASS [7:0], DETAIL [15:8] (rule R42). -/
def Err.word (e : Err) : Word := BitVec.ofNat 32 (e.classCode + 256 * e.detailCode)

/-- ERR_CODE at the end of a command: 0 on success (rule R455). -/
def errCodeWord : Option (Err × Nat) → Word
  | none => 0
  | some (e, _) => e.word

/-- The 64-bit error offset, 0 on success (rules R42, R455). -/
def errOffset : Option (Err × Nat) → Nat
  | none => 0
  | some (_, pos) => pos

/-- STATUS.ERROR: 1 exactly when ERR_CODE.CLASS is not 0 (rule R36). -/
def State.errorFlag (s : State) : Bool := s.results.errCode.extractLsb' 0 8 != 0

/-- STATUS: BUSY [0], DONE [1], ERROR [2] (rule R36). -/
def State.statusWord (s : State) : Word :=
  BitVec.ofNat 32 (flagNat s.busy + 2 * flagNat s.done + 4 * flagNat s.errorFlag)

/-- CTRL: IE [0]; SRST reads 0 (rule R35). -/
def State.ctrlWord (s : State) : Word := BitVec.ofNat 32 (flagNat s.ie)

/-- The interrupt output, `CTRL.IE AND STATUS.DONE` (rule R461). -/
def State.irq (s : State) : Bool := s.ie && s.done

/-- Kind codes (rule R45). -/
def Ctx.kindCode : Ctx → Nat
  | .cstream _ => 1
  | .dstream _ => 2
  | .fcomp _ => 3
  | .fdecomp _ => 4

/-- State codes (rule R52). -/
def DsState.code : DsState → Nat
  | .ready => 0
  | .failed => 15

/-- State codes (rule R52). -/
def FState.code : FState → Nat
  | .idle => 0
  | .headerEmitted => 1
  | .updating => 2
  | .ended => 3

/-- State codes (rule R52). -/
def DState.code : DState → Nat
  | .idle => 0
  | .frameInfoKnown => 1
  | .decoding => 2
  | .complete => 3
  | .failed => 15

/-- State codes (rule R52). -/
def Ctx.stateCode : Ctx → Nat
  | .cstream _ => 0
  | .dstream c => c.state.code
  | .fcomp c => c.fstate.code
  | .fdecomp c => c.dstate.code

/-- CTX_STATUS: handle [7:0], kind [11:8], state [15:12]; 0 in [15:8] for a free slot (rule R44). -/
def ctxStatusWord (handle : BitVec 8) (ctx : Option Ctx) : Word :=
  match ctx with
  | none => BitVec.ofNat 32 handle.toNat
  | some c => BitVec.ofNat 32 (handle.toNat + 256 * c.kindCode + 4096 * c.stateCode)

/-- INFO_FLAGS (rules R43, R384). -/
def FrameInfo.flagsWord (i : FrameInfo) : Word :=
  BitVec.ofNat 32 (flagNat i.indep + 2 * flagNat i.bcrc + 4 * flagNat i.csflag + 8 * flagNat i.ccrc
    + 16 * flagNat i.dflag + 256 * i.bsid + 65536 * flagNat i.skippable)

/-- `SetInfo(info, HL)` (rule R384). -/
def setInfo (i : FrameInfo) (hdrLen : Nat) : Info where
  flags := i.flagsWord
  blockSize := BitVec.ofNat 32 (Config.blockMax i.bsid)
  csizeLo := BitVec.ofNat 32 i.csize
  csizeHi := BitVec.ofNat 32 (i.csize / 2 ^ 32)
  dictId := BitVec.ofNat 32 i.dictid
  hdrLen := BitVec.ofNat 32 hdrLen

end Sys2Proof.Machine
end

