-- ==== Sys2Proof/Machine/Ops.lean ====
section
/-!
DEFINITION. The named operations every meaning is written over: host memory (rules R80, R86), the hash table (rule R50),
the context slots (rule R45), the source read and the destination write (rule R86), and THE END OF A COMMAND: `finish`
(success or error, rules R41, R42, R44, R455) and `raise` (an error of checks 1 to 9, rules R454, R456 (a)). An error is a
result, not a transfer of control: there is no vector, no saved register and no return from an error (rules R453, R458,
R460), so `raise` is the whole of what taking an exception is on this engine.
-/

namespace Sys2Proof.Machine

/-! ## Host memory -/

namespace Memory

/-- What a byte that nothing has written reads as (DESIGN CHOICE, log entry 2). -/
def unlisted : Byte := 0

/-- The byte at an address (rule R80). -/
def read : List Host.Cell → Nat → Byte
  | [], _ => unlisted
  | (a, b) :: m, k => if k = a then b else read m k

/-- One byte written, in canonical form: a byte equal to what an unlisted address reads as is not listed. -/
def write : List Host.Cell → Nat → Byte → List Host.Cell
  | [], k, v => if v = unlisted then [] else [(k, v)]
  | (a, b) :: m, k, v =>
    if k < a then (if v = unlisted then (a, b) :: m else (k, v) :: (a, b) :: m)
    else if k = a then (if v = unlisted then m else (k, v) :: m)
    else (a, b) :: write m k v

/-- `MemRead(addr, n)`: the bytes in address order (rule R14). -/
def readBytes (m : List Host.Cell) : Nat → Nat → List Byte
  | _, 0 => []
  | a, n + 1 => read m a :: readBytes m (a + 1) n

/-- `MemWrite(addr, |bs|, bs)`: in increasing address order (rules R14, R86 (b)). -/
def writeBytes : List Host.Cell → Nat → List Byte → List Host.Cell
  | m, _, [] => m
  | m, a, b :: bs => writeBytes (write m a b) (a + 1) bs

/-- Every address of `m` is above `lo` when one is given, addresses rise strictly, no byte is `unlisted`. -/
def wfFrom : Option Nat → List Host.Cell → Bool
  | _, [] => true
  | lo, (a, b) :: m =>
    (match lo with
      | none => true
      | some l => decide (l < a)) && b != unlisted && wfFrom (some a) m

/-- The canonical form of memory. -/
def wf (m : List Host.Cell) : Bool := wfFrom none m

end Memory

/-! ## The hash table -/

namespace Table

/-- `T[h]`; `none` is EMPTY (rule R50). -/
def get : HashTable → Nat → Option Nat
  | [], _ => none
  | (i, v) :: t, h => if h = i then some v else get t h

/-- `T[h] <- v`. -/
def set : HashTable → Nat → Nat → HashTable
  | [], h, v => [(h, v)]
  | (i, w) :: t, h, v =>
    if h < i then (h, v) :: (i, w) :: t
    else if h = i then (h, v) :: t
    else (i, w) :: set t h v

/-- The canonical form: indices above `lo` when one is given, strictly rising. -/
def wfFrom : Option Nat → HashTable → Bool
  | _, [] => true
  | lo, (i, _) :: t =>
    (match lo with
      | none => true
      | some l => decide (l < i)) && wfFrom (some i) t

/-- The canonical form of a hash table. -/
def wf (t : HashTable) : Bool := wfFrom none t

end Table

/-! ## Context slots -/

/-- The context a handle names: `none` for handle 0, a handle above N_CTX and a free slot (rule R45). -/
def slotAt (slots : List (Option Ctx)) (h : BitVec 8) : Option Ctx :=
  if h = 0 then none else slots.getD (h.toNat - 1) none

/-- `ctx[h] <- c`, or slot `h` freed. -/
def setSlot (slots : List (Option Ctx)) (h : BitVec 8) (c : Option Ctx) : List (Option Ctx) :=
  if h = 0 then slots else slots.set (h.toNat - 1) c

/-- The smallest free handle, counting from `h` (rule R300). -/
def firstFree : Nat → List (Option Ctx) → Option Nat
  | _, [] => none
  | h, none :: _ => some h
  | h, some _ :: rest => firstFree (h + 1) rest

/-- The initial FCOMP (rules R48, R492). -/
def FComp.initial : FComp where
  fstate := .idle
  prefs := { bsid := 0, indep := false, ccrc := false, bcrc := false, autoFlush := false, csize := 0 }
  pending := []
  hist := []
  table := []
  spos := 0
  total := 0
  content := []

/-- The header information of an FDECOMP before a header is parsed (rule R49: all 0). -/
def FrameInfo.zero : FrameInfo where
  skippable := false
  indep := false
  bcrc := false
  csflag := false
  ccrc := false
  dflag := false
  bsid := 0
  csize := 0
  dictid := 0
  skip := 0

/-- The initial FDECOMP (rules R49, R492). -/
def FDecomp.initial : FDecomp where
  dstate := .idle
  stage := .hdr
  acc := []
  info := FrameInfo.zero
  dict := []
  hist := []
  pending := []
  fpos := 0
  total := 0
  content := []
  bword := 0
  boff := 0
  poff := 0
  skipLeft := 0
  payload := []

/-- The initial CSTREAM (rules R46, R492). -/
def CStream.initial (blockSize : Nat) : CStream where
  blockSize := blockSize
  hist := []
  table := []
  spos := 0

/-- The initial DSTREAM (rules R47, R492). -/
def DStream.initial (blockSize : Nat) : DStream where
  blockSize := blockSize
  hist := []
  state := .ready

/-- The initial context of a context's kind, keeping its block size (rules R302, R492). -/
def Ctx.reinit : Ctx → Ctx
  | .cstream c => .cstream (CStream.initial c.blockSize)
  | .dstream c => .dstream (DStream.initial c.blockSize)
  | .fcomp _ => .fcomp FComp.initial
  | .fdecomp _ => .fdecomp FDecomp.initial

/-! ## Which buffers a command uses -/

/-- Whether a command uses the source buffer (rule R151). -/
def usesSource : Instr → Bool
  | .bound _ _ => false
  | .compress _ _ => true
  | .decompress _ _ => true
  | .ctxCreate _ _ => false
  | .ctxDestroy _ _ => false
  | .ctxReset _ _ => false
  | .ctxLoadDict _ _ => true
  | .streamCompress _ _ => true
  | .streamDecompress _ _ => true
  | .frameBegin _ _ => false
  | .frameUpdate _ _ => true
  | .frameEnd _ _ => false
  | .frameInfo _ _ => true
  | .frameDecompress _ _ => true
  | .illegalCommand _ _ _ => false
  | .token _ _ => false
  | .lenExt _ => false
  | .literals _ => false
  | .offset _ => false
  | .legacySize _ => false
  | .frameMagic => false
  | .skippableMagic _ _ => false
  | .legacyMagicRefused => false
  | .flg _ _ _ _ _ _ _ => false
  | .bd _ _ _ => false
  | .contentSize _ => false
  | .dictId _ => false
  | .hc _ => false
  | .blockCompressed _ => false
  | .blockStored _ => false
  | .blockChecksum _ => false
  | .endMark => false
  | .contentChecksum _ => false
  | .prefs _ _ _ _ _ _ _ => false

/-- Whether a command uses the destination buffer (rule R151). -/
def usesDest : Instr → Bool
  | .bound _ _ => false
  | .compress _ _ => true
  | .decompress _ _ => true
  | .ctxCreate _ _ => false
  | .ctxDestroy _ _ => false
  | .ctxReset _ _ => false
  | .ctxLoadDict _ _ => false
  | .streamCompress _ _ => true
  | .streamDecompress _ _ => true
  | .frameBegin _ _ => true
  | .frameUpdate _ _ => true
  | .frameEnd _ _ => true
  | .frameInfo _ _ => false
  | .frameDecompress _ _ => true
  | .illegalCommand _ _ _ => false
  | .token _ _ => false
  | .lenExt _ => false
  | .literals _ => false
  | .offset _ => false
  | .legacySize _ => false
  | .frameMagic => false
  | .skippableMagic _ _ => false
  | .legacyMagicRefused => false
  | .flg _ _ _ _ _ _ _ => false
  | .bd _ _ _ => false
  | .contentSize _ => false
  | .dictId _ => false
  | .hc _ => false
  | .blockCompressed _ => false
  | .blockStored _ => false
  | .blockChecksum _ => false
  | .endMark => false
  | .contentChecksum _ => false
  | .prefs _ _ _ _ _ _ _ => false

/-- The command in progress (rule R37). -/
def State.command (s : State) : Instr := decodeCommand s.args.cmd

/-! ## The DMA buffers -/

/-- `SRC` (rule R38); SRC_ADDR_HI reads 0 at ADDR_WIDTH = 32. -/
def State.srcAddr (s : State) : Nat :=
  s.args.srcAddrLo.toNat + (if s.params.addrWidth = 32 then 0 else 2 ^ 32 * s.args.srcAddrHi.toNat)

/-- `DST` (rule R39); DST_ADDR_HI reads 0 at ADDR_WIDTH = 32. -/
def State.dstAddr (s : State) : Nat :=
  s.args.dstAddrLo.toNat + (if s.params.addrWidth = 32 then 0 else 2 ^ 32 * s.args.dstAddrHi.toNat)

/-- `SRC_LEN`. -/
def State.srcLen (s : State) : Nat := s.args.srcLen.toNat

/-- `DST_CAP`. -/
def State.dstCap (s : State) : Nat := s.args.dstCap.toNat

/-- The address is in the range of `n` bytes from `a`. -/
def inRange (a n k : Nat) : Bool := decide (a ≤ k) && decide (k < a + n)

/-- The address is a byte of the source buffer of the command in progress. -/
def State.inSource (s : State) (a : Nat) : Bool := usesSource s.command && inRange s.srcAddr s.srcLen a

/-- The address is a byte of the destination buffer of the command in progress. -/
def State.inDest (s : State) (a : Nat) : Bool := usesDest s.command && inRange s.dstAddr s.dstCap a

/-- Two ranges share an address. -/
def intersects (a n b m : Nat) : Bool := decide (0 < n) && decide (0 < m) && decide (a < b + m) && decide (b < a + n)

/-- Some of the `n` bytes from `a` have no memory behind them (rule R92). -/
def State.hitsHole (s : State) (a n : Nat) : Bool := s.params.holes.any fun h => intersects a n h.base h.size

/-- A DMA access without memory (rule R92): under the default policy the command never completes, and BUSY stays 1
(DEDUCED, log entry 4, for the memory it leaves). -/
def State.dmaFault (s : State) : Result :=
  match s.params.dmaFaultPolicy with
  | .stuck => .next { s with busy := true, stuck := true }
  | .platform => .fault .dmaPlatform

/-- The source byte `k` bytes after `a`: a byte the host wrote while the command ran is any value (rule R89 (b)). -/
def State.sourceByte (s : State) (k a : Nat) : Byte :=
  if s.raced.contains a then Config.freeByte (s.freeCount + k) else Memory.read s.mem a

/-- The source bytes from index `k` at address `a` on. -/
def State.sourceFrom (s : State) : Nat → Nat → Nat → List Byte
  | _, _, 0 => []
  | k, a, n + 1 => s.sourceByte k a :: s.sourceFrom (k + 1) (a + 1) n

/-- `MemRead(SRC, SRC_LEN)` (rules R14, R83, R86 (a)): the host's bytes when none of them was raced. -/
def State.source (s : State) : List Byte := s.sourceFrom 0 s.srcAddr s.srcLen

/-- The command reads its whole source buffer at its start (rule R86 (a)) and goes on with it. -/
def State.withSource (s : State) (k : List Byte → Result) : Result :=
  if s.hitsHole s.srcAddr s.srcLen then s.dmaFault else k s.source

/-- An address of host memory with a byte behind it (rules R80, R92). -/
def State.hasMemory (s : State) (a : Nat) : Bool := decide (a < 2 ^ s.params.addrWidth) && !s.hitsHole a 1

/-- `n` destination bytes from index `k` at address `a` on take any value. -/
def State.scramble (s : State) : Nat → Nat → Nat → List Host.Cell → List Host.Cell
  | _, _, 0, m => m
  | k, a, n + 1, m =>
    s.scramble (k + 1) (a + 1) n
      (if s.hasMemory a then Memory.write m a (Config.freeByte (s.freeCount + s.srcLen + k)) else m)

/-- Host memory at the end of a command whose output is `out`. When the host raced with the command, every byte of the
destination buffer holds any value (rule R495: "the model admits every output for that command"; DESIGN CHOICE, log
entry 3, for the registers and contexts). -/
def State.memAfter (s : State) (out : List Byte) : List Host.Cell :=
  let m := Memory.writeBytes s.mem s.dstAddr out
  if s.raced = [] || !usesDest s.command then m else s.scramble 0 s.dstAddr s.dstCap m

/-! ## The end of a command -/

/-- What a command ends with. -/
structure Report where
  /-- the bytes written at DST -/
  out : List Byte
  resultLen : Nat
  consumed : Nat
  err : Option (Err × Nat)
  slots : List (Option Ctx)
  info : Info
  /-- the handle CTX_STATUS reports (rule R44) -/
  named : BitVec 8
  deriving DecidableEq, Repr

/-- The result registers at the end of a command (rules R41, R42, R44, R455). -/
def Report.results (r : Report) : Results where
  resultLen := BitVec.ofNat 32 r.resultLen
  consumed := BitVec.ofNat 32 r.consumed
  errCode := errCodeWord r.err
  errOffsetLo := BitVec.ofNat 32 (errOffset r.err)
  errOffsetHi := BitVec.ofNat 32 (errOffset r.err / 2 ^ 32)
  ctxStatus := ctxStatusWord r.named (slotAt r.slots r.named)

/-- The state a completed command leaves: output written at DST, registers written, BUSY 0, DONE 1 (rules R36, R41, R42,
R44, R86 (b), R455), and no working register holds a value (rule R31). -/
def State.completed (s : State) (r : Report) : State :=
  { s with
    busy := false
    done := true
    results := r.results
    info := r.info
    slots := r.slots
    mem := s.memAfter r.out
    work := .idle
    stuck := false
    raced := []
    freeCount := if s.raced = [] then s.freeCount else s.freeCount + s.srcLen + s.dstCap }

/-- THE END OF A COMMAND, successful or not. Output at an address without memory is a DMA fault (rule R92). -/
def State.finish (s : State) (r : Report) : Result :=
  if s.hitsHole s.dstAddr r.out.length then s.dmaFault else .next (s.completed r)

/-- The report of a command that fails a check of steps 1 to 9 of rule R454: nothing written, no context changed,
RESULT_LEN = CONSUMED = 0, ERR_OFFSET 0 (rules R452, R455, R456 (a)). -/
def State.failure (s : State) (h : BitVec 8) (e : Err) : Report where
  out := []
  resultLen := 0
  consumed := 0
  err := some (e, 0)
  slots := s.slots
  info := s.info
  named := h

/-- The command that named handle `h` ends with error `e` (rule R454 steps 1 to 9). -/
def State.raise (s : State) (h : BitVec 8) (e : Err) : Result := s.finish (s.failure h e)

/-- The report of a command that succeeds without output or context change. -/
def State.success (s : State) (h : BitVec 8) : Report where
  out := []
  resultLen := 0
  consumed := 0
  err := none
  slots := s.slots
  info := s.info
  named := h

end Sys2Proof.Machine
end

