-- ==== Sys2Proof/Machine/Compressor.lean ====
section
/-!
DEFINITION. The block compressor core (rules R210 to R223): `CompressCore(H, S, T, hstart)` as an iteration of one scan
position over the working registers `Scan` (rule R31). The hash function is an argument (rule R10); a command passes the
engine's own, the parameter `HASH_FN` of rule R9 (`State.hash`).
-/

namespace Sys2Proof.Machine

/-- The hash function of rule R211 at a given HASH_LOG. -/
def knuthHash (hashLog : Nat) (x : Word) : Nat := (x * 2654435761#32).toNat >>> (32 - hashLog)

/-- `LE32(W, p)` as the word the hash function reads (rule R211). -/
def hashInput (buf : List Byte) (p : Nat) : Word := BitVec.ofNat 32 (le32 buf p)

/-- The extension bytes of a length value `v` (rule R113). -/
def lenExtBytes (v : Nat) : List Byte :=
  if v < 15 then [] else List.replicate ((v - 15) / 255) 255 ++ [BitVec.ofNat 8 ((v - 15) % 255)]

/-- `min(v, 15)` as a nibble (rule R113). -/
def lenNibble (v : Nat) : BitVec 4 := BitVec.ofNat 4 (min v 15)

/-- A sequence with a match (rule R219). -/
def encodeSeq (lit : List Byte) (off len : Nat) : List Byte :=
  [(lenNibble lit.length ++ lenNibble (len - Config.minMatch) : Byte)] ++ lenExtBytes lit.length ++ lit ++ bytesLE 2 off
    ++ lenExtBytes (len - Config.minMatch)

/-- The last sequence, literals only (rule R219). -/
def encodeLast (lit : List Byte) : List Byte :=
  [(lenNibble lit.length ++ (0 : BitVec 4) : Byte)] ++ lenExtBytes lit.length ++ lit

/-- `B[a..b)` (rule R12). -/
def slice (bs : List Byte) (a b : Nat) : List Byte := (bs.drop a).take (b - a)

/-- The candidate check (rule R213). -/
def candidateValid (buf : List Byte) (hstart p : Nat) : Option Nat → Bool
  | none => false
  | some cabs =>
    decide (hstart ≤ cabs) && decide (hstart + p - cabs ≤ Config.maxOffset)
      && slice buf (cabs - hstart) (cabs - hstart + 4) == slice buf p (p + 4)

/-- Forward extension (rule R214): at most `fuel` further bytes. -/
def extendForward (buf : List Byte) (c p mlimit : Nat) : Nat → Nat → Nat
  | 0, len => len
  | fuel + 1, len =>
    if p + len < mlimit ∧ byteAt buf (c + len) = byteAt buf (p + len) then extendForward buf c p mlimit fuel (len + 1)
    else len

/-- Backward extension (rule R215): how many bytes before match start `s` and match source `m` agree, at most `fuel`. -/
def extendBackward (buf : List Byte) (anchor : Nat) : Nat → Nat → Nat → Nat
  | 0, _, _ => 0
  | fuel + 1, s, m =>
    if anchor < s ∧ 0 < m ∧ byteAt buf (s - 1) = byteAt buf (m - 1) then
      extendBackward buf anchor fuel (s - 1) (m - 1) + 1
    else 0

namespace Scan

/-- The last position a match may start at (rule R217); meaningful when `len ≥ 13`. -/
def plimit (c : Scan) : Nat := c.base + c.len - Config.mfLimit

/-- The first byte no match may cover (rule R214). -/
def mlimit (c : Scan) : Nat := c.base + c.len - Config.lastLiterals

/-- The scan visits another position (rules R217, R218). -/
def active (c : Scan) : Bool := decide (Config.mfLimit < c.len) && decide (c.pos ≤ c.plimit)

/-- One scan position (rules R212 to R216). -/
def advance (hash : Word → Nat) (c : Scan) : Scan :=
  let hx := hash (hashInput c.buf c.pos)
  let cand := Table.get c.table hx
  let table := Table.set c.table hx (c.hstart + c.pos)
  if candidateValid c.buf c.hstart c.pos cand then
    let src := cand.getD 0 - c.hstart
    let fwd := extendForward c.buf src c.pos c.mlimit c.mlimit 4
    let back := extendBackward c.buf c.anchor c.pos c.pos src
    let s := c.pos - back
    let len := fwd + back
    { c with
      table := table
      emitted := c.emitted ++ encodeSeq (slice c.buf c.anchor s) (c.pos - src) len
      pos := s + len
      anchor := s + len }
  else { c with table := table, pos := c.pos + 1 }

/-- The scan up to its end: every position moves `pos` on, so `len + 1` rounds are enough. -/
def run (hash : Word → Nat) : Nat → Scan → Scan
  | 0, c => c
  | fuel + 1, c => if c.active then run hash fuel (c.advance hash) else c

/-- The block: the sequences emitted and the last literals (rules R217, R219). -/
def block (c : Scan) : List Byte := c.emitted ++ encodeLast (slice c.buf c.anchor (c.base + c.len))

/-- The working registers at the start of `CompressCore(H, S, T, hstart)` (rules R210, R221). -/
def start (hist src : List Byte) (table : HashTable) (hstart : Nat) : Scan where
  buf := hist ++ src
  base := hist.length
  len := src.length
  hstart := hstart
  pos := hist.length
  anchor := hist.length
  table := table
  emitted := []

end Scan

/-- `CompressCore(H, S, T, hstart) -> (B, T')` (rule R221). -/
def compressCore (hash : Word → Nat) (hist src : List Byte) (table : HashTable) (hstart : Nat) : List Byte × HashTable :=
  let c := Scan.run hash (src.length + 1) (Scan.start hist src table hstart)
  (c.block, c.table)

/-- The index a list of values gives a word; a word not listed has index 0. -/
def listedHash : List (Word × Nat) → Word → Nat
  | [], _ => 0
  | (w, v) :: vs, x => if x = w then v else listedHash vs x

/-- The index `HASH_FN` gives a word at a given HASH_LOG (rules R9, R211). -/
def hashIndex (f : HashFn) (hashLog : Nat) (x : Word) : Nat :=
  match f with
  | .knuth => knuthHash hashLog x
  | .listed vs => listedHash vs x % 2 ^ hashLog

/-- `HASH_FN` of this engine (rule R9). -/
def State.hash (s : State) : Word → Nat := hashIndex s.params.hashFn s.params.hashLog

/-- The hash-table fill of CTX_LOAD_DICT: positions `i`, `i + 1`, ... of `n` positions, ascending (rule R303). -/
def fillTable (hash : Word → Nat) (dict : List Byte) : Nat → Nat → HashTable → HashTable
  | _, 0, t => t
  | i, n + 1, t => fillTable hash dict (i + 1) n (Table.set t (hash (hashInput dict i)) i)

/-- The table after loading a dictionary: the positions 0 .. |Dct| - 4 (rule R303). -/
def dictTable (hash : Word → Nat) (dict : List Byte) : HashTable := fillTable hash dict 0 (dict.length - 3) []

end Sys2Proof.Machine
end

