-- ==== Sys2Proof/Machine/Decompressor.lean ====
section
/-!
DEFINITION. The block decompressor (rules R252 to R269): a parser that fetches one element of the bitstream at `ip`, acts
on its working registers, and goes on with the next (rule R265). Each element of the opcode table has its own action
here (`takeToken`, `takeLenExt`, `takeLiterals`, `takeOffset`); `blockDecode` is their iteration.
-/

namespace Sys2Proof.Machine

/-- `ML` bytes copied one by one from `off` bytes before the end of the window, the window growing with each byte (rule
R264). -/
def matchBytes (win : List Byte) (off : Nat) : Nat → List Byte
  | 0 => []
  | ml + 1 =>
    let b := byteAt win (win.length - off)
    b :: matchBytes (win ++ [b]) off ml

namespace BlockParser

/-- The working registers before the first token (rule R252). -/
def start (src : List Byte) (cap : Nat) (hist : List Byte) (strictTail : Bool) : BlockParser where
  src := src
  cap := cap
  hist := hist
  strictTail := strictTail
  ip := 0
  out := []
  tok := 0
  token := 0
  ll := 0
  ml := 0
  off := 0
  marks := []
  phase := .token

/-- The parse ends with a failing check (rule R265). -/
def fail (p : BlockParser) (d : Detail) (pos : Nat) : BlockParser := { p with phase := .ended (some (d, pos)) }

/-- A match that starts after `N - 12` or ends after `N - 5` (rule R266; DEDUCED for `N < 12`, log entry 17). -/
def badTail (n : Nat) (m : Mark) : Bool := decide (n < m.start + Config.mfLimit) || decide (n < m.stop + Config.lastLiterals)

/-- `TailCheck(out)` (rule R266). -/
def tailCheck (p : BlockParser) : BlockParser :=
  match p.strictTail, p.marks.find? (badTail p.out.length) with
  | true, some m => p.fail .tailRule m.tok
  | true, none => { p with phase := .ended none }
  | false, _ => { p with phase := .ended none }

/-- The match copy with its bounds check (rules R263, R264). -/
def copyMatch (p : BlockParser) : BlockParser :=
  if p.cap < p.out.length + p.ml then p.fail .outputOverflow p.tok
  else
    { p with
      out := p.out ++ matchBytes (p.hist ++ p.out) p.off p.ml
      marks := p.marks ++ [{ start := p.out.length, stop := p.out.length + p.ml, tok := p.tok }]
      phase := .token }

/-- TOKEN (rules R111, R255): `tok`, `token`, `LL`; a nibble of 15 asks for an extension (rule R256). -/
def takeToken (l m : BitVec 4) (p : BlockParser) : BlockParser :=
  { p with
    tok := p.ip
    token := tokenByte l m
    ip := p.ip + 1
    ll := l.toNat
    phase := if l = 15 then .litExt else .literals }

/-- LEN_EXT (rule R112) of a literal length (rule R256). -/
def takeLitExt (v : Byte) (p : BlockParser) : BlockParser :=
  { p with ip := p.ip + 1, ll := p.ll + v.toNat, phase := if v = 255 then .litExt else .literals }

/-- LEN_EXT (rule R112) of a match length, the copy following its last byte (rule R262). -/
def takeMatchExt (v : Byte) (p : BlockParser) : BlockParser :=
  let p := { p with ip := p.ip + 1, ml := p.ml + v.toNat }
  if v = 255 then { p with phase := .matchExt } else p.copyMatch

/-- LITERALS (rule R114): the capacity check, the copy and the end of the block (rules R257 to R259). -/
def takeLiterals (bs : List Byte) (p : BlockParser) : BlockParser :=
  if p.cap < p.out.length + bs.length then p.fail .outputOverflow p.tok
  else
    let p := { p with out := p.out ++ bs, ip := p.ip + bs.length }
    if p.ip = p.src.length then p.tailCheck else { p with phase := .offset }

/-- OFFSET (rule R115): the checks of rule R261, then the match length (rule R262). -/
def takeOffset (off : Nat) (p : BlockParser) : BlockParser :=
  if off = 0 then p.fail .offsetZero p.ip
  else if p.out.length + p.hist.length < off then p.fail .offsetOutOfWindow p.ip
  else
    let p := { p with ip := p.ip + 2, off := off, ml := (loNibble p.token).toNat + Config.minMatch }
    if loNibble p.token = 15 then { p with phase := .matchExt } else p.copyMatch

/-- One element fetched at `ip` and acted on, or the failing fetch (rules R254 to R262). -/
def advance (p : BlockParser) : BlockParser :=
  match p.phase with
  | .token => if p.ip < p.src.length then
      takeToken (hiNibble (byteAt p.src p.ip)) (loNibble (byteAt p.src p.ip)) p
    else p.fail .truncated p.ip
  | .litExt => if p.ip < p.src.length then takeLitExt (byteAt p.src p.ip) p else p.fail .truncated p.ip
  | .literals =>
    if p.src.length < p.ip + p.ll then p.fail .literalPastSource p.tok
    else takeLiterals ((p.src.drop p.ip).take p.ll) p
  | .offset => if p.src.length < p.ip + 2 then p.fail .truncated p.ip else takeOffset (le16 p.src p.ip) p
  | .matchExt => if p.ip < p.src.length then takeMatchExt (byteAt p.src p.ip) p else p.fail .truncated p.ip
  | .ended _ => p

/-- Elements until the parse ends. An element takes an input byte or is a literal field, and every literal field follows
a token, so `2 * |X| + 2` rounds are enough (rule R265). -/
def run : Nat → BlockParser → BlockParser
  | 0, p => p
  | fuel + 1, p => run fuel p.advance

/-- The parse's status: `none` for OK (rule R252). -/
def status (p : BlockParser) : Option (Detail × Nat) :=
  match p.phase with
  | .ended st => st
  | .token => some (.truncated, p.ip)
  | .litExt => some (.truncated, p.ip)
  | .literals => some (.truncated, p.ip)
  | .offset => some (.truncated, p.ip)
  | .matchExt => some (.truncated, p.ip)

/-- The element at `ip` as an instruction of the opcode table, read by the decoder at the parser's place, or the failing
fetch. `none` once the parse has ended. -/
def fetch (p : BlockParser) : Option (Except (Detail × Nat) Instr) :=
  let at_ (site : Site) (e : Detail × Nat) : Except (Detail × Nat) Instr :=
    match decode site (p.src.drop p.ip) with
    | .ok (i, _) => .ok i
    | .error _ => .error e
  match p.phase with
  | .token => some (at_ .token (.truncated, p.ip))
  | .litExt => some (at_ .lenExt (.truncated, p.ip))
  | .literals => some (at_ (.literals p.ll) (.literalPastSource, p.tok))
  | .offset => some (at_ .offset (.truncated, p.ip))
  | .matchExt => some (at_ .lenExt (.truncated, p.ip))
  | .ended _ => none

end BlockParser

/-- `BlockDecode(X, cap, hist) -> (out, st)`, `st = none` for OK (rule R267). -/
def blockDecode (strictTail : Bool) (src : List Byte) (cap : Nat) (hist : List Byte) : List Byte × Option (Detail × Nat) :=
  let p := BlockParser.run (2 * src.length + 2) (BlockParser.start src cap hist strictTail)
  (p.out, p.status)

end Sys2Proof.Machine
end

