-- ==== Sys2Proof/Machine/Operands.lean ====
section
/-!
DEFINITION. The operand forms of every command: the buffer checks of rule R85, the PARAM fields of rules R151 and R152,
the contexts a handle names (rule R151), and the check order of rule R454.
-/

namespace Sys2Proof.Machine

/-- The first failing check of a list, in order (rule R454: "the first that fails is reported"). -/
def firstError : List (Bool × Err) → Option Err
  | [] => none
  | (bad, e) :: rest => if bad then some e else firstError rest

/-- `bound(n)` (rule R200). -/
def bound (n : Nat) : Nat := n + n / 255 + 16

/-- Step 2 of rule R454: CMD[31:16] must be 0 (rule R37). -/
def rsvdCheck (rsvd : BitVec 16) : Bool × Err := (rsvd != 0, .badParam)

/-- CMD.HANDLE must be 0 for a command that takes no context (rule R151). -/
def noHandleCheck (h : BitVec 8) : Bool × Err := (h != 0, .badHandle)

/-- The buffer reaches past `2^ADDR_WIDTH` (rule R85 (3)). -/
def State.pastEnd (s : State) (a n : Nat) : Bool := decide (2 ^ s.params.addrWidth < a + n)

/-- Rule R85 for a command that uses both buffers. -/
def State.bothBufferChecks (s : State) : List (Bool × Err) :=
  [ (decide (Config.maxInputSize < s.srcLen), .lengthTooLarge),
    ((s.srcAddr == 0 && decide (0 < s.srcLen)) || (s.dstAddr == 0 && decide (0 < s.dstCap)), .nullPointer),
    (s.pastEnd s.srcAddr s.srcLen || s.pastEnd s.dstAddr s.dstCap, .addressRange),
    (intersects s.srcAddr s.srcLen s.dstAddr s.dstCap, .bufferOverlap) ]

/-- Rule R85 for a command that uses the source buffer only. -/
def State.sourceChecks (s : State) : List (Bool × Err) :=
  [ (decide (Config.maxInputSize < s.srcLen), .lengthTooLarge),
    (s.srcAddr == 0 && decide (0 < s.srcLen), .nullPointer),
    (s.pastEnd s.srcAddr s.srcLen, .addressRange) ]

/-- Rule R85 for a command that uses the destination buffer only. -/
def State.destChecks (s : State) : List (Bool × Err) :=
  [ (s.dstAddr == 0 && decide (0 < s.dstCap), .nullPointer),
    (s.pastEnd s.dstAddr s.dstCap, .addressRange) ]

/-- PARAM0[0] STORE_SIZE (rule R151). -/
def State.storeSize (s : State) : Bool := s.args.param0.getLsbD 0

/-- PARAM0[31:1] reserved, for COMPRESS and DECOMPRESS (rule R151). -/
def State.storeSizeCheck (s : State) : Bool × Err := (s.args.param0.extractLsb' 1 31 != 0, .badParam)

/-- PARAM0[3:0] KIND (rule R300). -/
def State.kindField (s : State) : Nat := (s.args.param0.extractLsb' 0 4).toNat

/-- Whether KIND names a stream kind, which has a block size (rule R300). -/
def streamKind (kind : Nat) : Bool := kind == 1 || kind == 2

/-- PARAM1 BLOCK_SIZE, 0 selecting the default (rule R300). -/
def State.blockSizeField (s : State) : Nat :=
  if s.args.param1.toNat = 0 then Config.streamDefaultBlock else s.args.param1.toNat

/-- The PARAM checks of CTX_CREATE (rule R300). -/
def State.createChecks (s : State) : List (Bool × Err) :=
  [ (s.args.param0.extractLsb' 4 28 != 0 || s.kindField == 0 || decide (4 < s.kindField), .badParam),
    (streamKind s.kindField && decide (Config.maxInputSize < s.blockSizeField), .badParam) ]

/-- The initial context of kind `kind` (rule R300). -/
def newContext (kind blockSize : Nat) : Ctx :=
  match kind with
  | 1 => .cstream (CStream.initial blockSize)
  | 2 => .dstream (DStream.initial blockSize)
  | 3 => .fcomp FComp.initial
  | _ => .fdecomp FDecomp.initial

/-- The declared content size `PARAM2 * 2^32 + PARAM1` (rule R152). -/
def State.contentSizeField (s : State) : Nat := s.args.param2.toNat * 2 ^ 32 + s.args.param1.toNat

/-- The CSTREAM a handle names. -/
def State.cstreamAt (s : State) (h : BitVec 8) : Option CStream :=
  match slotAt s.slots h with
  | some (.cstream c) => some c
  | some (.dstream _) => none
  | some (.fcomp _) => none
  | some (.fdecomp _) => none
  | none => none

/-- The DSTREAM a handle names. -/
def State.dstreamAt (s : State) (h : BitVec 8) : Option DStream :=
  match slotAt s.slots h with
  | some (.cstream _) => none
  | some (.dstream c) => some c
  | some (.fcomp _) => none
  | some (.fdecomp _) => none
  | none => none

/-- The FCOMP a handle names. -/
def State.fcompAt (s : State) (h : BitVec 8) : Option FComp :=
  match slotAt s.slots h with
  | some (.cstream _) => none
  | some (.dstream _) => none
  | some (.fcomp c) => some c
  | some (.fdecomp _) => none
  | none => none

/-- The FDECOMP a handle names. -/
def State.fdecompAt (s : State) (h : BitVec 8) : Option FDecomp :=
  match slotAt s.slots h with
  | some (.cstream _) => none
  | some (.dstream _) => none
  | some (.fcomp _) => none
  | some (.fdecomp c) => some c
  | none => none

end Sys2Proof.Machine
end

