-- ==== Sys2Proof/Machine/Block.lean ====
section
/-!
DEFINITION. The block family: BOUND, COMPRESS, DECOMPRESS (rules R201, R202, R250, R251), ILLEGAL_COMMAND (rule R150), and
the elements of a block as instructions of their own: TOKEN, LEN_EXT, LITERALS, OFFSET, LEGACY_SIZE (rules R111 to R118),
each acting on the working registers of the command in progress.
-/

namespace Sys2Proof.Machine

/-- BOUND (rule R201). -/
def execBound (h : BitVec 8) (rsvd : BitVec 16) (s : State) : Result :=
  match firstError [rsvdCheck rsvd, noHandleCheck h,
      (decide (Config.maxInputSize < s.args.param0.toNat), .lengthTooLarge)] with
  | some e => s.raise h e
  | none => s.finish { s.success h with resultLen := bound s.args.param0.toNat }

/-- The legacy header of COMPRESS: `bytesLE_4(n)` with STORE_SIZE = 1, else nothing (rules R202, R203). -/
def State.storeHeader (s : State) : List Byte := if s.storeSize then bytesLE 4 s.srcLen else []

/-- The checks of COMPRESS (rule R202). -/
def State.compressChecks (s : State) (h : BitVec 8) (rsvd : BitVec 16) : List (Bool × Err) :=
  [rsvdCheck rsvd, noHandleCheck h, s.storeSizeCheck] ++ s.bothBufferChecks
    ++ [(decide (s.dstCap < bound s.srcLen + s.storeHeader.length), .capacityBound)]

/-- The report of COMPRESS once its block is built (rules R202, R203). -/
def State.compressReport (s : State) (hdr block : List Byte) : Report :=
  { s.success 0 with out := hdr ++ block, resultLen := (hdr ++ block).length, consumed := s.srcLen }

/-- COMPRESS (rule R202). -/
def execCompress (h : BitVec 8) (rsvd : BitVec 16) (s : State) : Result :=
  match firstError (s.compressChecks h rsvd) with
  | some e => s.raise h e
  | none => s.withSource fun src =>
    s.finish (s.compressReport s.storeHeader (compressCore s.hash [] src [] 0).1)

/-- The report of DECOMPRESS at the end of its parse (rules R250, R268). -/
def State.decompressReport (s : State) (srcLen : Nat) (out : List Byte) (st : Option (Detail × Nat)) : Report :=
  match st with
  | none => { s.success 0 with out := out, resultLen := out.length, consumed := srcLen }
  | some (d, pos) => { s.success 0 with out := out, resultLen := out.length, err := some (.corrupt d, pos) }

/-- The report of DECOMPRESS on a legacy container of `len` bytes that declares `size`, at the end of its parse (rule
R251). -/
def State.legacyReport (s : State) (size len : Nat) (out : List Byte) (st : Option (Detail × Nat)) : Report :=
  match st with
  | some (d, pos) => { s.success 0 with out := out, resultLen := out.length, err := some (.corrupt d, pos + 4) }
  | none =>
    if out.length = size then { s.success 0 with out := out, resultLen := out.length, consumed := len }
    else { s.success 0 with out := out, resultLen := out.length, err := some (.corrupt .legacySize, len) }

/-- DECOMPRESS ends with an error that its legacy header raises, nothing written (rule R251). -/
def State.legacyHeaderError (s : State) (e : Err) : Report := { s.success 0 with err := some (e, 0) }

/-- The size header of a legacy container: the error it raises, if any (rule R251). -/
def legacySizeError (size cap : Nat) : Option Err :=
  if Config.maxInputSize < size then some (.corrupt .legacySize)
  else if cap < size then some .capacityOutput
  else none

/-- `LegacyDecode(X, cap)` (rule R251). -/
def State.legacyDecode (s : State) (src : List Byte) (cap : Nat) : Report :=
  if src.length < 4 then s.legacyHeaderError (.corrupt .truncated)
  else
    match legacySizeError (le32 src 0) cap with
    | some e => s.legacyHeaderError e
    | none =>
      let r := blockDecode s.params.strictTail (src.drop 4) (le32 src 0) []
      s.legacyReport (le32 src 0) src.length r.1 r.2

/-- The checks of DECOMPRESS (rule R250). -/
def State.decompressChecks (s : State) (h : BitVec 8) (rsvd : BitVec 16) : List (Bool × Err) :=
  [rsvdCheck rsvd, noHandleCheck h, s.storeSizeCheck] ++ s.bothBufferChecks

/-- DECOMPRESS (rule R250). -/
def execDecompress (h : BitVec 8) (rsvd : BitVec 16) (s : State) : Result :=
  match firstError (s.decompressChecks h rsvd) with
  | some e => s.raise h e
  | none => s.withSource fun src =>
    if s.storeSize then s.finish (s.legacyDecode src s.dstCap)
    else
      let r := blockDecode s.params.strictTail src s.dstCap []
      s.finish (s.decompressReport src.length r.1 r.2)

/-- ILLEGAL_COMMAND: accepted, and fails with InvalidArgument(ILLEGAL_COMMAND) (rules R150, R153, R454 step 1). -/
def execIllegalCommand (_op h : BitVec 8) (_rsvd : BitVec 16) (s : State) : Result := s.raise h .illegalCommand

/-! ## The elements of a block, on the working registers of the command in progress -/

/-- TOKEN (rules R111, R255). -/
def execToken (l m : BitVec 4) (s : State) : Result :=
  match s.work with
  | .block o p =>
    match p.phase with
    | .token => .next { s with work := .block o (p.takeToken l m) }
    | .litExt => .refused .elementNotExpected
    | .literals => .refused .elementNotExpected
    | .offset => .refused .elementNotExpected
    | .matchExt => .refused .elementNotExpected
    | .ended _ => .refused .elementNotExpected
  | .idle => .refused .elementNotExpected
  | .scan _ _ => .refused .elementNotExpected
  | .legacy _ _ => .refused .elementNotExpected
  | .frame _ _ _ _ _ => .refused .elementNotExpected
  | .prefs _ => .refused .elementNotExpected

/-- LEN_EXT, of a literal length (rule R256) or of a match length (rule R262). -/
def execLenExt (v : Byte) (s : State) : Result :=
  match s.work with
  | .block o p =>
    match p.phase with
    | .litExt => .next { s with work := .block o (p.takeLitExt v) }
    | .matchExt => .next { s with work := .block o (p.takeMatchExt v) }
    | .token => .refused .elementNotExpected
    | .literals => .refused .elementNotExpected
    | .offset => .refused .elementNotExpected
    | .ended _ => .refused .elementNotExpected
  | .idle => .refused .elementNotExpected
  | .scan _ _ => .refused .elementNotExpected
  | .legacy _ _ => .refused .elementNotExpected
  | .frame _ _ _ _ _ => .refused .elementNotExpected
  | .prefs _ => .refused .elementNotExpected

/-- LITERALS (rules R114, R257 to R259). -/
def execLiterals (bs : List Byte) (s : State) : Result :=
  match s.work with
  | .block o p =>
    match p.phase with
    | .literals => .next { s with work := .block o (p.takeLiterals bs) }
    | .token => .refused .elementNotExpected
    | .litExt => .refused .elementNotExpected
    | .offset => .refused .elementNotExpected
    | .matchExt => .refused .elementNotExpected
    | .ended _ => .refused .elementNotExpected
  | .idle => .refused .elementNotExpected
  | .scan _ _ => .refused .elementNotExpected
  | .legacy _ _ => .refused .elementNotExpected
  | .frame _ _ _ _ _ => .refused .elementNotExpected
  | .prefs _ => .refused .elementNotExpected

/-- OFFSET (rules R115, R261 to R264). -/
def execOffset (off : BitVec 16) (s : State) : Result :=
  match s.work with
  | .block o p =>
    match p.phase with
    | .offset => .next { s with work := .block o (p.takeOffset off.toNat) }
    | .token => .refused .elementNotExpected
    | .litExt => .refused .elementNotExpected
    | .literals => .refused .elementNotExpected
    | .matchExt => .refused .elementNotExpected
    | .ended _ => .refused .elementNotExpected
  | .idle => .refused .elementNotExpected
  | .scan _ _ => .refused .elementNotExpected
  | .legacy _ _ => .refused .elementNotExpected
  | .frame _ _ _ _ _ => .refused .elementNotExpected
  | .prefs _ => .refused .elementNotExpected

/-- LEGACY_SIZE (rules R118, R251): the size is checked before any write, then the block's parse starts after it. -/
def execLegacySize (size : Word) (s : State) : Result :=
  match s.work with
  | .legacy src cap =>
    match legacySizeError size.toNat cap with
    | some e => s.finish (s.legacyHeaderError e)
    | none =>
      .next { s with
        work := .block (.legacy size.toNat src.length)
          (BlockParser.start (src.drop 4) size.toNat [] s.params.strictTail) }
  | .idle => .refused .elementNotExpected
  | .scan _ _ => .refused .elementNotExpected
  | .block _ _ => .refused .elementNotExpected
  | .frame _ _ _ _ _ => .refused .elementNotExpected
  | .prefs _ => .refused .elementNotExpected

end Sys2Proof.Machine
end

