-- ==== Sys2Proof/Machine/Context.lean ====
section
/-!
DEFINITION. The context family: CTX_CREATE, CTX_DESTROY, CTX_RESET, CTX_LOAD_DICT (rules R300 to R303).
-/

namespace Sys2Proof.Machine

/-- CTX_CREATE (rule R300): the smallest free handle, or OUT_OF_MEMORY (rule R459). -/
def execCtxCreate (h : BitVec 8) (rsvd : BitVec 16) (s : State) : Result :=
  match firstError ([rsvdCheck rsvd, noHandleCheck h] ++ s.createChecks) with
  | some e => s.raise h e
  | none =>
    match firstFree 1 s.slots with
    | none => s.raise h .noContextSlot
    | some n =>
      s.finish { s.success (BitVec.ofNat 8 n) with
        resultLen := n
        slots := setSlot s.slots (BitVec.ofNat 8 n) (some (newContext s.kindField s.blockSizeField)) }

/-- CTX_DESTROY (rule R301): never fails; a free, zero or out-of-range handle is a no-op; CMD[31:16] is ignored. -/
def execCtxDestroy (h : BitVec 8) (_rsvd : BitVec 16) (s : State) : Result :=
  s.finish { s.success h with slots := setSlot s.slots h none }

/-- CTX_RESET (rule R302). -/
def execCtxReset (h : BitVec 8) (rsvd : BitVec 16) (s : State) : Result :=
  match firstError [rsvdCheck rsvd] with
  | some e => s.raise h e
  | none =>
    match slotAt s.slots h with
    | none => s.raise h .badHandle
    | some c => s.finish { s.success h with slots := setSlot s.slots h (some c.reinit) }

/-- Whether CTX_LOAD_DICT takes a context of this kind (rules R151, R303). -/
def takesDict : Ctx → Bool
  | .cstream _ => true
  | .dstream _ => true
  | .fcomp _ => false
  | .fdecomp _ => true

/-- The state checks of CTX_LOAD_DICT: an FDECOMP must be IDLE (rule R303). A DSTREAM is taken in any state, as that rule's
pseudocode has it, unless the engine keeps to rule R458, by which only CTX_RESET and CTX_DESTROY recover a FAILED one (DESIGN
CHOICE, log entry 18). -/
def loadDictStateChecks (dictRecovers : Bool) : Ctx → List (Bool × Err)
  | .cstream _ => []
  | .dstream c => [(!dictRecovers && c.state == .failed, .contextFailed)]
  | .fcomp _ => []
  | .fdecomp c => [(c.dstate == .failed, .contextFailed), (c.dstate != .idle, .wrongState)]

/-- The context with a dictionary loaded: a fresh context of its kind, block size kept (rule R303). -/
def withDict (hash : Word → Nat) (dict : List Byte) : Ctx → Ctx
  | .cstream c => .cstream { CStream.initial c.blockSize with
      hist := dict
      spos := dict.length
      table := dictTable hash dict }
  | .dstream c => .dstream { DStream.initial c.blockSize with hist := dict }
  | .fcomp _ => .fcomp FComp.initial
  | .fdecomp _ => .fdecomp { FDecomp.initial with dict := dict }

/-- CTX_LOAD_DICT (rule R303). -/
def execCtxLoadDict (h : BitVec 8) (rsvd : BitVec 16) (s : State) : Result :=
  match firstError [rsvdCheck rsvd] with
  | some e => s.raise h e
  | none =>
    match (slotAt s.slots h).filter takesDict with
    | none => s.raise h .badHandle
    | some c =>
      match firstError (loadDictStateChecks s.params.dictRecovers c ++ s.sourceChecks) with
      | some e => s.raise h e
      | none => s.withSource fun src =>
        s.finish { s.success h with
          consumed := s.srcLen
          slots := setSlot s.slots h (some (withDict s.hash (lastWindow src) c)) }

end Sys2Proof.Machine
end

