-- ==== Sys2Proof/Machine/XXH32.lean ====
section
/-!
DEFINITION. The checksum unit: XXH32 with seed 0 (rules R430 to R437), written as the whole-input function of rule R435.
-/

namespace Sys2Proof.Machine

namespace XXH32

/-- rule R430 -/
def p1 : Word := 2654435761
/-- rule R430 -/
def p2 : Word := 2246822519
/-- rule R430 -/
def p3 : Word := 3266489917
/-- rule R430 -/
def p4 : Word := 668265263
/-- rule R430 -/
def p5 : Word := 374761393

/-- `rotl(v, r)` (rule R13). -/
def rotl (v : Word) (r : Nat) : Word := v.rotateLeft r

/-- `round(acc, lane)` (rule R431). -/
def round (acc lane : Word) : Word := rotl (acc + lane * p2) 13 * p1

/-- The lane or word at index `i`, little-endian (rule R432). -/
def lane (bs : List Byte) (i : Nat) : Word := BitVec.ofNat 32 (le32 bs i)

/-- `aval(h)` (rule R434). -/
def avalanche (h0 : Word) : Word :=
  let h1 := (h0 ^^^ (h0 >>> 15)) * p2
  let h2 := (h1 ^^^ (h1 >>> 13)) * p3
  h2 ^^^ (h2 >>> 16)

/-- The four accumulators of rule R435. -/
structure Acc where
  v1 : Word
  v2 : Word
  v3 : Word
  v4 : Word
  deriving DecidableEq, Repr

/-- Their initial values with seed 0 (rules R433, R435). -/
def Acc.init : Acc where
  v1 := p1 + p2
  v2 := p2
  v3 := 0
  v4 := 0 - p1

/-- One 16-byte stripe. -/
def Acc.stripe (a : Acc) (bs : List Byte) : Acc where
  v1 := round a.v1 (lane bs 0)
  v2 := round a.v2 (lane bs 4)
  v3 := round a.v3 (lane bs 8)
  v4 := round a.v4 (lane bs 12)

/-- `k` stripes from the start of `bs`. -/
def stripes : Nat → Acc → List Byte → Acc
  | 0, a, _ => a
  | k + 1, a, bs => stripes k (a.stripe bs) (bs.drop 16)

/-- The convergence of the accumulators (rule R435). -/
def Acc.converge (a : Acc) : Word := rotl a.v1 1 + rotl a.v2 7 + rotl a.v3 12 + rotl a.v4 18

/-- `k` 4-byte words of the tail. -/
def tailWords : Nat → Word → List Byte → Word
  | 0, h, _ => h
  | k + 1, h, bs => tailWords k (rotl (h + lane bs 0 * p3) 17 * p4) (bs.drop 4)

/-- The last 0 to 3 bytes. -/
def tailBytes : Word → List Byte → Word
  | h, [] => h
  | h, b :: bs => tailBytes (rotl (h + b.zeroExtend 32 * p5) 11 * p1) bs

end XXH32

open XXH32 in
/-- `XXH32(X)`, seed 0 (rule R435). -/
def xxh32 (bs : List Byte) : Word :=
  let n := bs.length
  let h0 := if 16 ≤ n then (stripes (n / 16) Acc.init bs).converge else p5
  let tail := bs.drop (16 * (n / 16))
  let h1 := h0 + BitVec.ofNat 32 n
  let h2 := tailWords (tail.length / 4) h1 tail
  avalanche (tailBytes h2 (tail.drop (4 * (tail.length / 4))))

/-- The header checksum of the bytes from FLG on: bits [15:8] (rules R126, R437 (a)). -/
def headerChecksum (bs : List Byte) : Byte := (xxh32 bs).extractLsb' 8 8

end Sys2Proof.Machine
end

