-- ==== Sys2Proof/Machine/FrameComp.lean ====
section
/-!
DEFINITION. The frame compressor: FRAME_BEGIN, FRAME_UPDATE, FRAME_END (rules R340 to R347), and the preferences word PREFS
that FRAME_BEGIN reads from PARAM0 (rule R152).
-/

namespace Sys2Proof.Machine

/-- The handle field of a CMD word (rule R37). -/
def handleField (w : Word) : BitVec 8 := w.extractLsb' 8 8

/-- The preferences a legal preferences word selects (rule R340), with the declared content size. -/
def prefsOf (bsid : BitVec 3) (indep ccrc bcrc autoFlush : Bool) (csize : Nat) : Prefs where
  bsid := if bsid = 0 then Config.defaultBsid else bsid.toNat
  indep := indep
  ccrc := ccrc
  bcrc := bcrc
  autoFlush := autoFlush
  csize := csize

/-- The FLG byte of a frame header (rule R341). -/
def Prefs.flg (p : Prefs) : Byte := flgByte 1 p.indep p.bcrc (p.csize != 0) p.ccrc false false

/-- The header from FLG up to the byte before HC (rule R341). -/
def Prefs.headerBody (p : Prefs) : List Byte :=
  [p.flg, bdByte false (BitVec.ofNat 3 p.bsid) 0] ++ (if p.csize = 0 then [] else bytesLE 8 p.csize)

/-- `Header(prefs)` (rule R341). -/
def Prefs.header (p : Prefs) : List Byte := bytesLE 4 magicLz4 ++ p.headerBody ++ [headerChecksum p.headerBody]

/-- A block's payload and whether it is stored (rule R343): stored when compression does not make it smaller. -/
def choosePayload (block content : List Byte) : Bool × List Byte :=
  if content.length ≤ block.length then (true, content) else (false, block)

/-- A block record (rules R127, R343). -/
def blockRecord (bcrc : Bool) (block content : List Byte) : List Byte :=
  let c := choosePayload block content
  bytesLE 4 ((if c.1 then 2 ^ 31 else 0) + c.2.length) ++ c.2 ++ (if bcrc then bytesLE 4 (xxh32 c.2).toNat else [])

/-- `MakeBlock(ctx, b)` (rule R343). -/
def makeBlock (hash : Word → Nat) (c : FComp) (b : List Byte) : List Byte × FComp :=
  if c.prefs.indep then (blockRecord c.prefs.bcrc (compressCore hash [] b [] 0).1 b, c)
  else
    let r := compressCore hash c.hist b c.table (c.spos - c.hist.length)
    (blockRecord c.prefs.bcrc r.1 b,
      { c with table := r.2, hist := lastWindow (c.hist ++ b), spos := c.spos + b.length })

/-- The full blocks of the pending bytes, in order (the loop of rule R344), at most `fuel` of them. -/
def fullBlocks (hash : Word → Nat) : Nat → FComp → List Byte × FComp
  | 0, c => ([], c)
  | fuel + 1, c =>
    let bm := Config.blockMax c.prefs.bsid
    if 0 < bm ∧ bm ≤ c.pending.length then
      let r := makeBlock hash c (c.pending.take bm)
      let r' := fullBlocks hash fuel { r.2 with pending := c.pending.drop bm }
      (r.1 ++ r'.1, r'.2)
    else ([], c)

/-- The remaining pending bytes as one block, if there are any (rules R344, R345). -/
def flushPending (hash : Word → Nat) (c : FComp) : List Byte × FComp :=
  if c.pending = [] then ([], c)
  else
    let r := makeBlock hash c c.pending
    (r.1, { r.2 with pending := [] })

/-- The records FRAME_UPDATE emits and the context after it (rule R344). -/
def updateFrame (hash : Word → Nat) (c : FComp) (src : List Byte) : List Byte × FComp :=
  let c1 := { c with pending := c.pending ++ src }
  let r := fullBlocks hash c1.pending.length c1
  let r' := if r.2.prefs.autoFlush then flushPending hash r.2 else ([], r.2)
  (r.1 ++ r'.1,
    { r'.2 with total := c.total + src.length, content := c.content ++ src, fstate := .updating })

/-- The bytes FRAME_END emits and the context after it (rule R345). -/
def endFrame (hash : Word → Nat) (c : FComp) : List Byte × FComp :=
  let r := flushPending hash c
  (r.1 ++ bytesLE 4 0 ++ (if c.prefs.ccrc then bytesLE 4 (xxh32 c.content).toNat else []),
    { r.2 with fstate := .ended })

/-- A frame is open: HEADER_EMITTED or UPDATING (rule R346). -/
def FState.open_ : FState → Bool
  | .idle => false
  | .headerEmitted => true
  | .updating => true
  | .ended => false

/-- The legality checks of a preferences word (rules R152, R340). -/
def prefsChecks (bsid : BitVec 3) (reserved3 : Bool) (reservedHigh : BitVec 24) : List (Bool × Err) :=
  [(reservedHigh != 0 || reserved3 || bsid == 1 || bsid == 2 || bsid == 3, .badParam)]

/-- FRAME_BEGIN from its preferences word on (rule R342): the destination checks, the header, the fresh context. -/
def State.beginFrame (s : State) (h : BitVec 8) (p : Prefs) : Result :=
  match firstError (s.destChecks ++ [(decide (s.dstCap < p.header.length), .capacityOutput)]) with
  | some e => s.raise h e
  | none =>
    s.finish { s.success h with
      out := p.header
      resultLen := p.header.length
      slots := setSlot s.slots h (some (.fcomp { FComp.initial with prefs := p, fstate := .headerEmitted })) }

/-- FRAME_BEGIN's decoding of its preferences word and what follows (rules R340, R342). -/
def State.beginWithPrefs (s : State) (h : BitVec 8) (bsid : BitVec 3) (reserved3 indep ccrc bcrc autoFlush : Bool)
    (reservedHigh : BitVec 24) : Result :=
  match firstError (prefsChecks bsid reserved3 reservedHigh) with
  | some e => s.raise h e
  | none => s.beginFrame h (prefsOf bsid indep ccrc bcrc autoFlush s.contentSizeField)

/-- PREFS: the preferences word at the place where FRAME_BEGIN reads it (rules R152, R340, R342). -/
def execPrefs (bsid : BitVec 3) (reserved3 indep ccrc bcrc autoFlush : Bool) (reservedHigh : BitVec 24) (s : State) :
    Result :=
  match s.work with
  | .prefs h => s.beginWithPrefs h bsid reserved3 indep ccrc bcrc autoFlush reservedHigh
  | .idle => .refused .elementNotExpected
  | .scan _ _ => .refused .elementNotExpected
  | .legacy _ _ => .refused .elementNotExpected
  | .block _ _ => .refused .elementNotExpected
  | .frame _ _ _ _ _ => .refused .elementNotExpected

/-- FRAME_BEGIN (rule R342): PARAM0 is the preferences word of rule R152, its fields taken bit by bit. -/
def execFrameBegin (h : BitVec 8) (rsvd : BitVec 16) (s : State) : Result :=
  match firstError [rsvdCheck rsvd] with
  | some e => s.raise h e
  | none =>
    match s.fcompAt h with
    | none => s.raise h .badHandle
    | some c =>
      match firstError [(c.fstate.open_, .wrongState)] with
      | some e => s.raise h e
      | none =>
        let w := s.args.param0
        s.beginWithPrefs h (w.extractLsb' 0 3) (w.getLsbD 3) (w.getLsbD 4) (w.getLsbD 5) (w.getLsbD 6) (w.getLsbD 7)
          (w.extractLsb' 8 24)

/-- FRAME_UPDATE (rule R344). -/
def execFrameUpdate (h : BitVec 8) (rsvd : BitVec 16) (s : State) : Result :=
  match firstError [rsvdCheck rsvd] with
  | some e => s.raise h e
  | none =>
    match s.fcompAt h with
    | none => s.raise h .badHandle
    | some c =>
      match firstError ((!c.fstate.open_, .wrongState) :: s.bothBufferChecks) with
      | some e => s.raise h e
      | none => s.withSource fun src =>
        let r := updateFrame s.hash c src
        if s.dstCap < r.1.length then s.raise h .capacityOutput
        else
          s.finish { s.success h with
            out := r.1
            resultLen := r.1.length
            consumed := s.srcLen
            slots := setSlot s.slots h (some (.fcomp r.2)) }

/-- The checks of FRAME_END once its context is found (rule R345). -/
def State.frameEndChecks (s : State) (c : FComp) : List (Bool × Err) :=
  [(!c.fstate.open_, .wrongState), (c.prefs.csize != 0 && c.prefs.csize != c.total, .contentSizeWrong)] ++ s.destChecks

/-- FRAME_END (rule R345). -/
def execFrameEnd (h : BitVec 8) (rsvd : BitVec 16) (s : State) : Result :=
  match firstError [rsvdCheck rsvd] with
  | some e => s.raise h e
  | none =>
    match s.fcompAt h with
    | none => s.raise h .badHandle
    | some c =>
      match firstError (s.frameEndChecks c) with
      | some e => s.raise h e
      | none =>
        let r := endFrame s.hash c
        if s.dstCap < r.1.length then s.raise h .capacityOutput
        else
          s.finish { s.success h with
            out := r.1
            resultLen := r.1.length
            slots := setSlot s.slots h (some (.fcomp r.2)) }

end Sys2Proof.Machine
end

