-- ==== Sys2Proof/Machine/FrameDecomp.lean ====
section
/-!
DEFINITION. The frame decompressor: the header parser (rules R381, R382), the byte-serial parser `feed` (rules R386 to
R400), FRAME_INFO and FRAME_DECOMPRESS (rules R383, R385), and the elements of a frame as instructions of their own
(rules R122 to R131), whose effect is that of their bytes passing through `feed`.
-/

namespace Sys2Proof.Machine

/-! ## The header (rule R381) -/

/-- The result of `ParseHeader`. -/
inductive HeaderResult where
  | bad (d : Detail) (pos : Nat)
  | ok (info : FrameInfo) (hdrLen : Nat)
  deriving DecidableEq, Repr

/-- `HL = 7 + 8*FLG.C_SIZE + 4*FLG.DICT_ID` (rule R121). -/
def headerLength (flg : Byte) : Nat := 7 + 8 * flagNat (flg.getLsbD 3) + 4 * flagNat (flg.getLsbD 0)

/-- The header fields of an LZ4 frame whose checks have passed (rule R381). -/
def frameInfoOf (f : List Byte) : FrameInfo where
  skippable := false
  indep := (byteAt f 4).getLsbD 5
  bcrc := (byteAt f 4).getLsbD 4
  csflag := (byteAt f 4).getLsbD 3
  ccrc := (byteAt f 4).getLsbD 2
  dflag := (byteAt f 4).getLsbD 0
  bsid := ((byteAt f 5).extractLsb' 4 3).toNat
  csize := if (byteAt f 4).getLsbD 3 then le64 f 6 else 0
  dictid := if (byteAt f 4).getLsbD 0 then le32 f (if (byteAt f 4).getLsbD 3 then 14 else 6) else 0
  skip := 0

/-- The header of a skippable frame of `size` user-data bytes (rules R130, R381). -/
def skippableInfo (size : Nat) : FrameInfo where
  skippable := true
  indep := false
  bcrc := false
  csflag := false
  ccrc := false
  dflag := false
  bsid := 0
  csize := size
  dictid := 0
  skip := size

/-- The checks of an LZ4 frame header that is present in full, in the order of rule R382. -/
def checkHeader (f : List Byte) (hl : Nat) : HeaderResult :=
  let flg := byteAt f 4
  let bd := byteAt f 5
  if flg.extractLsb' 6 2 ≠ (1 : BitVec 2) then .bad .badVersion 4
  else if flg.getLsbD 1 then .bad .reservedBit 4
  else if bd.getLsbD 7 ∨ loNibble bd ≠ 0 then .bad .reservedBit 5
  else if (bd.extractLsb' 4 3).toNat < 4 then .bad .badBlockSizeId 5
  else if byteAt f (hl - 1) ≠ headerChecksum ((f.drop 4).take (hl - 1 - 4)) then .bad .headerChecksum (hl - 1)
  else .ok (frameInfoOf f) hl

/-- `ParseHeader(F)` (rule R381). -/
def parseHeader (f : List Byte) : HeaderResult :=
  let n := f.length
  if n < 4 then .bad .truncated n
  else if isSkippable (le32 f 0) then
    if n < 8 then .bad .truncated n else .ok (skippableInfo (le32 f 4)) 8
  else if le32 f 0 ≠ magicLz4 then .bad .badMagic 0
  else if n < 5 then .bad .truncated n
  else if n < headerLength (byteAt f 4) then .bad .truncated n
  else checkHeader f (headerLength (byteAt f 4))

/-! ## The byte-serial parser (rules R386 to R400) -/

/-- What the engine's parameters fix for the frame parser: the tail rule of its blocks (rule R266), and when a block header word
is read (rules R389, R400). -/
structure FrameRules where
  strictTail : Bool
  exactWord : Bool
  deriving DecidableEq, Repr

/-- The engine's own. -/
def State.frameRules (s : State) : FrameRules := { strictTail := s.params.strictTail, exactWord := s.params.exactWord }

/-- What one byte does: the context, the header it completed (if it did) with its length, the error (if any). -/
structure FeedResult where
  ctx : FDecomp
  header : Option (FrameInfo × Nat)
  error : Option (Detail × Nat)
  deriving DecidableEq, Repr

namespace FDecomp

/-- A byte taken without error and without completing a header. -/
def goOn (c : FDecomp) : FeedResult := { ctx := c, header := none, error := none }

/-- `Fail(d, at)` (rule R396). -/
def fail (c : FDecomp) (d : Detail) (pos : Nat) : FeedResult :=
  { ctx := { c with dstate := .failed }, header := none, error := some (d, pos) }

/-- `HeaderDone(info, HL)` on the context (rule R387). -/
def headerDone (c : FDecomp) (i : FrameInfo) : FDecomp :=
  let c := { c with info := i, dstate := .frameInfoKnown }
  if i.skippable then
    if i.skip = 0 then { c with skipLeft := i.skip, stage := .ended, dstate := .complete }
    else { c with skipLeft := i.skip, stage := .skip }
  else { c with hist := c.dict, total := 0, content := [], stage := .blkHdr }

/-- Stage HDR (rule R387), `c.acc` holding the byte already. -/
def feedHdr (c : FDecomp) : FeedResult :=
  if 4 ≤ c.acc.length ∧ le32 c.acc 0 ≠ magicLz4 ∧ ¬isSkippable (le32 c.acc 0) then c.fail .badMagic 0
  else
    match parseHeader c.acc with
    | .bad .truncated _ => c.goOn
    | .bad d pos => { c with acc := [] }.fail d pos
    | .ok i hl => { ctx := { c with acc := [] }.headerDone i, header := some (i, hl), error := none }

/-- Stage SKIP (rule R388). -/
def feedSkip (c : FDecomp) : FeedResult :=
  if c.skipLeft - 1 = 0 then { c with skipLeft := c.skipLeft - 1, stage := .ended, dstate := .complete }.goOn
  else { c with skipLeft := c.skipLeft - 1 }.goOn

/-- The history a compressed block decodes with (rule R392). -/
def blockHistory (c : FDecomp) : List Byte := if c.info.indep then c.dict else c.hist

/-- The block's bytes join the output (rule R392). -/
def deliverBlock (c : FDecomp) (blk : List Byte) : FDecomp :=
  { c with
    pending := c.pending ++ blk
    content := c.content ++ blk
    total := c.total + blk.length
    hist := if c.info.indep then c.hist else lastWindow (c.hist ++ blk)
    payload := []
    stage := .blkHdr }

/-- `ProcessBlock()` (rule R392). -/
def processBlock (rules : FrameRules) (c : FDecomp) : FeedResult :=
  if 2 ^ 31 ≤ c.bword then (c.deliverBlock c.payload).goOn
  else
    match blockDecode rules.strictTail c.payload (Config.blockMax c.info.bsid) c.blockHistory with
    | (blk, none) => (c.deliverBlock blk).goOn
    | (_, some (d, pos)) => c.fail d (c.poff + pos)

/-- `EndMark()` (rule R393). -/
def endMark (c : FDecomp) : FeedResult :=
  if c.info.csize ≠ 0 ∧ c.total ≠ c.info.csize then c.fail .contentSizeMismatch c.boff
  else if c.info.ccrc then { c with stage := .ccrc }.goOn
  else { c with stage := .ended, dstate := .complete }.goOn

/-- A block header word that is not the end mark (rule R389), `x` the frame offset of its last byte. -/
def blockHeader (rules : FrameRules) (x : Nat) (c : FDecomp) : FeedResult :=
  let size := c.bword % 2 ^ 31
  if Config.blockMax c.info.bsid < size then c.fail .blockTooLarge c.boff
  else
    let c := { c with poff := x + 1, payload := [] }
    if 0 < size then { c with stage := .blkData }.goOn
    else if c.info.bcrc then { c with stage := .blkCrc }.goOn
    else c.processBlock rules

/-- A block header word is read from the collected bytes: at 4 of them (rules R389, R400), or at more (rule R389 only; DESIGN
CHOICE, log entry 12). -/
def wordReady (rules : FrameRules) (n : Nat) : Bool := n == 4 || !rules.exactWord && decide (4 < n)

/-- Stage BLK_HDR (rule R389), `c.acc` holding the byte already. -/
def feedBlkHdr (rules : FrameRules) (x : Nat) (c : FDecomp) : FeedResult :=
  if wordReady rules c.acc.length then
    let c' := { c with acc := [], boff := x - 3, bword := le32 c.acc 0 }
    if c'.bword = 0 then c'.endMark else c'.blockHeader rules x
  else c.goOn

/-- Stage BLK_DATA (rule R390), `c.payload` holding the byte already. -/
def feedBlkData (rules : FrameRules) (c : FDecomp) : FeedResult :=
  if c.payload.length = c.bword % 2 ^ 31 then
    if c.info.bcrc then { c with stage := .blkCrc }.goOn else c.processBlock rules
  else c.goOn

/-- Stage BLK_CRC (rule R391), `c.acc` holding the byte already. -/
def feedBlkCrc (rules : FrameRules) (x : Nat) (c : FDecomp) : FeedResult :=
  if c.acc.length = 4 then
    if le32 c.acc 0 ≠ (xxh32 c.payload).toNat then c.fail .blockChecksum (x - 3)
    else { c with acc := [] }.processBlock rules
  else c.goOn

/-- Stage CCRC (rule R394), `c.acc` holding the byte already. -/
def feedCcrc (x : Nat) (c : FDecomp) : FeedResult :=
  if c.acc.length = 4 then
    if le32 c.acc 0 ≠ (xxh32 c.content).toNat then c.fail .contentChecksum (x - 3)
    else { c with acc := [], stage := .ended, dstate := .complete }.goOn
  else c.goOn

/-- The frame offset advances, and the first byte after the header starts DECODING (rule R386). -/
def tick (c : FDecomp) : FDecomp :=
  { c with
    fpos := c.fpos + 1
    dstate := if c.dstate = .frameInfoKnown ∧ c.stage ≠ .hdr then .decoding else c.dstate }

/-- `Feed(ctx, b)` (rules R386, R400). Stage END is never fed (rule R385). -/
def feed (rules : FrameRules) (c0 : FDecomp) (b : Byte) : FeedResult :=
  let x := c0.fpos
  let c := c0.tick
  match c.stage with
  | .hdr => { c with acc := c.acc ++ [b] }.feedHdr
  | .skip => c.feedSkip
  | .blkHdr => { c with acc := c.acc ++ [b] }.feedBlkHdr rules x
  | .blkData => { c with payload := c.payload ++ [b] }.feedBlkData rules
  | .blkCrc => { c with acc := c.acc ++ [b] }.feedBlkCrc rules x
  | .ccrc => { c with acc := c.acc ++ [b] }.feedCcrc x
  | .ended => c.goOn

end FDecomp

/-! ## The loop of FRAME_DECOMPRESS (rule R385) -/

namespace FrameRun

/-- Pending output is delivered first (rule R385). -/
def deliver (cap : Nat) (r : FrameRun) : FrameRun :=
  let k := min r.ctx.pending.length (cap - r.out.length)
  { r with out := r.out ++ r.ctx.pending.take k, ctx := { r.ctx with pending := r.ctx.pending.drop k } }

/-- One frame byte consumed; a completed header writes the INFO registers (rule R384). -/
def eat (rules : FrameRules) (b : Byte) (r : FrameRun) : FrameRun × Option (Detail × Nat) :=
  let f := r.ctx.feed rules b
  ({ r with
      ctx := f.ctx
      used := r.used + 1
      info := match f.header with
        | some (i, hl) => setInfo i hl
        | none => r.info },
    f.error)

end FrameRun

/-- The loop of rule R385 over the frame bytes that are left. -/
def frameLoop (rules : FrameRules) (cap : Nat) : List Byte → FrameRun → FrameRun × Option (Detail × Nat)
  | [], r => (r.deliver cap, none)
  | b :: bs, r =>
    let r := r.deliver cap
    if r.ctx.pending ≠ [] then (r, none)
    else if r.ctx.stage = .ended then (r, some (.trailingData, r.ctx.fpos))
    else
      match r.eat rules b with
      | (r, some e) => (r, some e)
      | (r, none) => frameLoop rules cap bs r

/-- The working registers at the start of FRAME_DECOMPRESS (rule R385). -/
def State.frameStart (s : State) (c : FDecomp) : FrameRun := { ctx := c, info := s.info, used := 0, out := [] }

/-- The report of FRAME_DECOMPRESS at the end of its loop (rules R385, R395, R396). -/
def State.frameReport (s : State) (h : BitVec 8) (r : FrameRun) (e : Option (Detail × Nat)) : Report :=
  { s.success h with
    out := r.out
    resultLen := r.out.length
    consumed := r.used
    err := e.map fun p => (.corrupt p.1, p.2)
    slots := setSlot s.slots h (some (.fdecomp r.ctx))
    info := r.info }

/-- FRAME_DECOMPRESS (rule R385). -/
def execFrameDecompress (h : BitVec 8) (rsvd : BitVec 16) (s : State) : Result :=
  match firstError [rsvdCheck rsvd] with
  | some e => s.raise h e
  | none =>
    match s.fdecompAt h with
    | none => s.raise h .badHandle
    | some c =>
      match firstError ((c.dstate == .failed, .contextFailed) :: s.bothBufferChecks) with
      | some e => s.raise h e
      | none => s.withSource fun src =>
        let r := frameLoop s.frameRules s.dstCap src (s.frameStart c)
        s.finish (s.frameReport h r.1 r.2)

/-- The state and buffer checks of FRAME_INFO (rule R383). -/
def State.frameInfoChecks (s : State) (c : FDecomp) : List (Bool × Err) :=
  [(c.dstate == .failed, .contextFailed), (c.dstate != .idle, .wrongState)] ++ s.sourceChecks

/-- FRAME_INFO (rule R383): atomic, and a bad header changes no context. Header bytes collected earlier stay in `acc`
(DEDUCED, unsafe, log entry 12). -/
def execFrameInfo (h : BitVec 8) (rsvd : BitVec 16) (s : State) : Result :=
  match firstError [rsvdCheck rsvd] with
  | some e => s.raise h e
  | none =>
    match s.fdecompAt h with
    | none => s.raise h .badHandle
    | some c =>
      match firstError (s.frameInfoChecks c) with
      | some e => s.raise h e
      | none => s.withSource fun src =>
        match parseHeader src with
        | .bad d pos => s.finish { s.success h with err := some (.corrupt d, pos) }
        | .ok i hl =>
          s.finish { s.success h with
            consumed := hl
            slots := setSlot s.slots h (some (.fdecomp { c.headerDone i with fpos := hl }))
            info := setInfo i hl }

/-! ## The elements of a frame, on the working registers of FRAME_DECOMPRESS in progress -/

/-- An element's bytes pass through the loop of rule R385, one by one, each exactly once (rule R386). -/
def State.frameElement (s : State) (bytes : List Byte) : Result :=
  match s.work with
  | .frame h rest cap run none =>
    let r := frameLoop s.frameRules cap bytes run
    .next { s with work := .frame h (rest.drop (r.1.used - run.used)) cap r.1 r.2 }
  | .frame _ _ _ _ (some _) => .refused .elementNotExpected
  | .idle => .refused .elementNotExpected
  | .scan _ _ => .refused .elementNotExpected
  | .legacy _ _ => .refused .elementNotExpected
  | .block _ _ => .refused .elementNotExpected
  | .prefs _ => .refused .elementNotExpected

/-- FRAME_MAGIC (rule R122). -/
def execFrameMagic (s : State) : Result := s.frameElement (encode .frameMagic)

/-- SKIPPABLE_MAGIC and its size word (rule R130). -/
def execSkippableMagic (x : BitVec 4) (size : Word) (s : State) : Result := s.frameElement (encode (.skippableMagic x size))

/-- LEGACY_MAGIC, refused as BAD_MAGIC (rule R131). -/
def execLegacyMagicRefused (s : State) : Result := s.frameElement (encode .legacyMagicRefused)

/-- FLG (rule R123); its verdict falls when the header is complete (rule R382). -/
def execFlg (v : BitVec 2) (i b c k r d : Bool) (s : State) : Result := s.frameElement (encode (.flg v i b c k r d))

/-- BD (rule R124). -/
def execBd (r7 : Bool) (bsid : BitVec 3) (rl : BitVec 4) (s : State) : Result := s.frameElement (encode (.bd r7 bsid rl))

/-- The content size field (rule R125). -/
def execContentSize (n : BitVec 64) (s : State) : Result := s.frameElement (encode (.contentSize n))

/-- The dictionary ID field (rule R125). -/
def execDictId (n : Word) (s : State) : Result := s.frameElement (encode (.dictId n))

/-- HC (rule R126): the header is complete with it (rule R387). -/
def execHc (v : Byte) (s : State) : Result := s.frameElement (encode (.hc v))

/-- The header word of a compressed block (rules R127, R389). -/
def execBlockCompressed (len : BitVec 31) (s : State) : Result := s.frameElement (encode (.blockCompressed len))

/-- The header word of a stored block (rules R127, R389). -/
def execBlockStored (len : BitVec 31) (s : State) : Result := s.frameElement (encode (.blockStored len))

/-- The block checksum (rules R127, R391). -/
def execBlockChecksum (v : Word) (s : State) : Result := s.frameElement (encode (.blockChecksum v))

/-- The end mark (rules R128, R393). -/
def execEndMark (s : State) : Result := s.frameElement (encode .endMark)

/-- The content checksum (rules R129, R394). -/
def execContentChecksum (v : Word) (s : State) : Result := s.frameElement (encode (.contentChecksum v))

/-- The place of the header element that starts after the bytes `acc`; `none` inside an element (rules R120, R121). -/
def headerSite (acc : List Byte) : Option Site :=
  if acc.length = 0 then some .magic
  else if acc.length < 4 then none
  else if isSkippable (le32 acc 0) then none
  else if acc.length = 4 then some .flg
  else if acc.length = 5 then some .bd
  else if acc.length + 1 = headerLength (byteAt acc 4) then some .hc
  else if acc.length = 6 then some (if (byteAt acc 4).getLsbD 3 then .contentSize else .dictId)
  else if acc.length = 14 then some .dictId
  else none

/-- The place of the frame element that starts at the next byte; `none` inside an element, a payload or user data, and
after the frame's end (rules R120, R386). -/
def FDecomp.site (c : FDecomp) : Option Site :=
  match c.stage with
  | .hdr => headerSite c.acc
  | .skip => none
  | .blkHdr => if c.acc = [] then some .blockWord else none
  | .blkData => none
  | .blkCrc => if c.acc = [] then some .blockChecksum else none
  | .ccrc => if c.acc = [] then some .contentChecksum else none
  | .ended => none

end Sys2Proof.Machine
end

