-- ==== Sys2Proof/Machine/Stream.lean ====
section
/-!
DEFINITION. The stream family: STREAM_COMPRESS and STREAM_DECOMPRESS (rules R304, R305).
-/

namespace Sys2Proof.Machine

/-- The checks of STREAM_COMPRESS once its context is found (rule R304). -/
def State.streamCompressChecks (s : State) (c : CStream) : List (Bool × Err) :=
  s.bothBufferChecks ++ [(decide (c.blockSize < s.srcLen), .chunkInput), (decide (s.dstCap < bound s.srcLen), .capacityBound)]

/-- The CSTREAM after a chunk (rules R51, R304). -/
def CStream.push (c : CStream) (src : List Byte) (table : HashTable) : CStream :=
  { c with table := table, hist := lastWindow (c.hist ++ src), spos := c.spos + src.length }

/-- The report of STREAM_COMPRESS once its block is built (rule R304). -/
def State.streamCompressReport (s : State) (h : BitVec 8) (c : CStream) (src block : List Byte) (table : HashTable) : Report :=
  { s.success h with
    out := block
    resultLen := block.length
    consumed := s.srcLen
    slots := setSlot s.slots h (some (.cstream (c.push src table))) }

/-- STREAM_COMPRESS (rule R304). -/
def execStreamCompress (h : BitVec 8) (rsvd : BitVec 16) (s : State) : Result :=
  match firstError [rsvdCheck rsvd] with
  | some e => s.raise h e
  | none =>
    match s.cstreamAt h with
    | none => s.raise h .badHandle
    | some c =>
      match firstError (s.streamCompressChecks c) with
      | some e => s.raise h e
      | none => s.withSource fun src =>
        let r := compressCore s.hash c.hist src c.table (c.spos - c.hist.length)
        s.finish (s.streamCompressReport h c src r.1 r.2)

/-- The error STREAM_DECOMPRESS reports for a failed parse: output past the block size, where the block size and not
the destination is the limit, is ChunkTooLarge(OUTPUT) (rule R305). -/
def streamError (c : DStream) (dstCap : Nat) (d : Detail) : Err :=
  if d = .outputOverflow ∧ c.blockSize ≤ dstCap then .chunkOutput else .corrupt d

/-- The report of STREAM_DECOMPRESS at the end of its parse (rules R268, R305). -/
def State.streamDecompressReport (s : State) (h : BitVec 8) (c : DStream) (out : List Byte) (st : Option (Detail × Nat)) :
    Report :=
  match st with
  | none =>
    { s.success h with
      out := out
      resultLen := out.length
      consumed := s.srcLen
      slots := setSlot s.slots h (some (.dstream { c with hist := lastWindow (c.hist ++ out) })) }
  | some (d, pos) =>
    { s.success h with
      out := out
      resultLen := out.length
      err := some (streamError c s.dstCap d, pos)
      slots := setSlot s.slots h (some (.dstream { c with state := .failed })) }

/-- STREAM_DECOMPRESS (rule R305). -/
def execStreamDecompress (h : BitVec 8) (rsvd : BitVec 16) (s : State) : Result :=
  match firstError [rsvdCheck rsvd] with
  | some e => s.raise h e
  | none =>
    match s.dstreamAt h with
    | none => s.raise h .badHandle
    | some c =>
      match firstError ((c.state == .failed, .contextFailed) :: s.bothBufferChecks) with
      | some e => s.raise h e
      | none => s.withSource fun src =>
        let r := blockDecode s.params.strictTail src (min s.dstCap c.blockSize) c.hist
        s.finish (s.streamDecompressReport h c r.1 r.2)

end Sys2Proof.Machine
end

