-- ==== Sys2Proof/Machine/Dispatch.lean ====
section
/-!
DEFINITION. One arm per instruction of the opcode table: the call of its meaning.
-/

namespace Sys2Proof.Machine

def exec (i : Instr) (s : State) : Host.Outcome State Fault Refusal :=
  match i with
  | .bound h r => Sys2Proof.Machine.execBound h r s
  | .compress h r => Sys2Proof.Machine.execCompress h r s
  | .decompress h r => Sys2Proof.Machine.execDecompress h r s
  | .ctxCreate h r => Sys2Proof.Machine.execCtxCreate h r s
  | .ctxDestroy h r => Sys2Proof.Machine.execCtxDestroy h r s
  | .ctxReset h r => Sys2Proof.Machine.execCtxReset h r s
  | .ctxLoadDict h r => Sys2Proof.Machine.execCtxLoadDict h r s
  | .streamCompress h r => Sys2Proof.Machine.execStreamCompress h r s
  | .streamDecompress h r => Sys2Proof.Machine.execStreamDecompress h r s
  | .frameBegin h r => Sys2Proof.Machine.execFrameBegin h r s
  | .frameUpdate h r => Sys2Proof.Machine.execFrameUpdate h r s
  | .frameEnd h r => Sys2Proof.Machine.execFrameEnd h r s
  | .frameInfo h r => Sys2Proof.Machine.execFrameInfo h r s
  | .frameDecompress h r => Sys2Proof.Machine.execFrameDecompress h r s
  | .illegalCommand op h r => Sys2Proof.Machine.execIllegalCommand op h r s
  | .token l m => Sys2Proof.Machine.execToken l m s
  | .lenExt v => Sys2Proof.Machine.execLenExt v s
  | .literals bs => Sys2Proof.Machine.execLiterals bs s
  | .offset off => Sys2Proof.Machine.execOffset off s
  | .legacySize size => Sys2Proof.Machine.execLegacySize size s
  | .frameMagic => Sys2Proof.Machine.execFrameMagic s
  | .skippableMagic x size => Sys2Proof.Machine.execSkippableMagic x size s
  | .legacyMagicRefused => Sys2Proof.Machine.execLegacyMagicRefused s
  | .flg v a b c k r d => Sys2Proof.Machine.execFlg v a b c k r d s
  | .bd r7 bsid rl => Sys2Proof.Machine.execBd r7 bsid rl s
  | .contentSize n => Sys2Proof.Machine.execContentSize n s
  | .dictId n => Sys2Proof.Machine.execDictId n s
  | .hc v => Sys2Proof.Machine.execHc v s
  | .blockCompressed len => Sys2Proof.Machine.execBlockCompressed len s
  | .blockStored len => Sys2Proof.Machine.execBlockStored len s
  | .blockChecksum v => Sys2Proof.Machine.execBlockChecksum v s
  | .endMark => Sys2Proof.Machine.execEndMark s
  | .contentChecksum v => Sys2Proof.Machine.execContentChecksum v s
  | .prefs bsid r3 a c b f rh => Sys2Proof.Machine.execPrefs bsid r3 a c b f rh s

end Sys2Proof.Machine
end

