-- ==== Sys2Proof/Machine/Engine.lean ====
section
/-!
DEFINITION. The engine's turn. With no working register in use it executes the accepted command word as one atomic step
(rules R30, R37). Inside a command (`Work`) it executes the element that stands where the parser is, decoded from the
bitstream; where no element of the opcode table stands (a payload, user data, an element cut short by the end of the
source buffer) the frame decompressor takes one byte.
-/

namespace Sys2Proof.Machine

/-- The report at the end of a block parse, by the command it belongs to. -/
def State.blockReport (s : State) (o : BlockOwner) (p : BlockParser) : Report :=
  match o with
  | .decompress => s.decompressReport p.src.length p.out p.status
  | .legacy size len => s.legacyReport size len p.out p.status
  | .stream h =>
    match s.dstreamAt h with
    | some c => s.streamDecompressReport h c p.out p.status
    | none => s.failure h .badHandle

/-- The block decompressor at an element (rules R255 to R265). -/
def State.blockTurn (s : State) (o : BlockOwner) (p : BlockParser) : Result :=
  match p.fetch with
  | some (.ok i) => exec i s
  | some (.error (d, pos)) => .next { s with work := .block o (p.fail d pos) }
  | none => s.finish (s.blockReport o p)

/-- DECOMPRESS at the size header of a legacy container (rule R251). -/
def State.legacyTurn (s : State) (src : List Byte) : Result :=
  match decode .legacySize src with
  | .ok (i, _) => exec i s
  | .error _ => s.finish (s.legacyHeaderError (.corrupt .truncated))

/-- The report at the end of a compressor scan, by the command it belongs to. -/
def State.scanReport (s : State) (o : ScanOwner) (c : Scan) : Report :=
  match o with
  | .compress hdr => s.compressReport hdr c.block
  | .stream h =>
    match s.cstreamAt h with
    | some ctx => s.streamCompressReport h ctx (c.buf.drop c.base) c.block c.table
    | none => s.failure h .badHandle

/-- The block compressor at a scan position (rule R221). -/
def State.scanTurn (s : State) (o : ScanOwner) (c : Scan) : Result :=
  if c.active then .next { s with work := .scan o (c.advance s.hash) } else s.finish (s.scanReport o c)

/-- The frame decompressor at a byte: the exits of the loop of rule R385, then the element that stands there, then a
single byte. -/
def State.frameTurn (s : State) (h : BitVec 8) (rest : List Byte) (cap : Nat) (run : FrameRun) : Result :=
  let r := run.deliver cap
  if r.ctx.pending ≠ [] then s.finish (s.frameReport h r none)
  else
    match rest with
    | [] => s.finish (s.frameReport h r none)
    | b :: _ =>
      if r.ctx.stage = .ended then s.finish (s.frameReport h r (some (.trailingData, r.ctx.fpos)))
      else
        match r.ctx.site with
        | none => s.frameElement [b]
        | some site =>
          match decode site rest with
          | .ok (i, _) => exec i s
          | .error _ => s.frameElement [b]

/-- The engine's turn. -/
def State.engineTurn (s : State) : Result :=
  match s.work with
  | .idle => exec (decodeCommand s.args.cmd) s
  | .scan o c => s.scanTurn o c
  | .legacy src _ => s.legacyTurn src
  | .block o p => s.blockTurn o p
  | .frame h rest cap run none => s.frameTurn h rest cap run
  | .frame h _ _ run (some e) => s.finish (s.frameReport h run (some e))
  | .prefs _ => exec (decodePrefs s.args.param0) s

end Sys2Proof.Machine
end

