-- ==== Sys2Proof/Machine/HostBus.lean ====
section
/-!
DEFINITION. What the host can do to the machine: register accesses (rules R32 to R44), memory accesses between and during
commands (rules R83, R89, R495), the device reset from either source (rules R490, R491), and waiting (rule R462).
-/

namespace Sys2Proof.Machine

/-! ## The device reset (rule R491) -/

/-- Each of `n` destination bytes from `a` keeps its old value or takes the one in `new`, a free choice each; a byte
without memory stays as it is (rules R491, R92). -/
def State.mergeAbandoned (s : State) (new : List Host.Cell) : Nat → Nat → Nat → List Host.Cell → List Host.Cell
  | _, _, 0, m => m
  | k, a, n + 1, m =>
    s.mergeAbandoned new (k + 1) (a + 1) n
      (if Config.freeChoice (s.freeCount + k) ∧ s.hasMemory a then Memory.write m a (Memory.read new a) else m)

/-- The state the command in progress would have left had it completed, every address having memory. A command whose
source has no memory never gets past reading it (rule R86 (a)). -/
def State.wouldComplete (s : State) : Option State :=
  if usesSource s.command && s.hitsHole s.srcAddr s.srcLen then none
  else
    match exec s.command { s with work := .idle, params := { s.params with holes := [] } } with
    | .next t => some t
    | .fault _ => none
    | .refused _ => none

/-- Host memory after a running command is abandoned (rule R491). -/
def State.abandonedMem (s : State) : List Host.Cell :=
  if s.busy && usesDest s.command then
    match s.wouldComplete with
    | some t =>
      s.mergeAbandoned t.mem 0 s.dstAddr (if s.raced = [] then t.results.resultLen.toNat else s.dstCap) s.mem
    | none => s.mem
  else s.mem

/-- The device reset (rules R490, R491): every register at its reset value, every slot free, a running command
abandoned. -/
def State.deviceReset (s : State) : State :=
  { s with
    ie := false
    busy := false
    done := false
    args := Args.zero
    results := Results.zero
    info := Info.zero
    slots := List.replicate s.params.nCtx none
    mem := s.abandonedMem
    work := .idle
    stuck := false
    raced := []
    freeCount := if s.busy then s.freeCount + s.srcLen + s.dstCap else s.freeCount }

/-! ## Register accesses -/

/-- An accepted write of CMD (rules R36, R37, R42): BUSY 1, DONE 0, the error registers 0, the word latched. -/
def State.acceptCmd (s : State) (w : Word) : State :=
  { s with
    busy := true
    done := false
    args := { s.args with cmd := w }
    results := { s.results with errCode := 0, errOffsetLo := 0, errOffsetHi := 0 } }

/-- A write to an argument register: ignored while BUSY = 1 (rules R33 (c), R496). -/
def State.setArgs (s : State) (a : Args) : State := if s.busy then s else { s with args := a }

/-- A write to a high address register: ignored at ADDR_WIDTH = 32 (rules R38, R39). -/
def State.setHigh (s : State) (a : Args) : State := if s.params.addrWidth = 32 then s else s.setArgs a

/-- A high address register as it reads (rules R38, R39). -/
def State.readHigh (s : State) (w : Word) : Word := if s.params.addrWidth = 32 then 0 else w

/-- A 32-bit write at an aligned offset (rules R32 to R44). RO and reserved offsets ignore it. A write of CTRL that sets SRST
leaves IE 0 whatever its bit 0 (DEDUCED, unsafe, log entry 11). -/
def State.writeReg (s : State) (off : Nat) (v : Word) : State :=
  match off with
  | 0x004 => if v.getLsbD 1 then s.deviceReset else { s with ie := v.getLsbD 0 }
  | 0x008 => if v.getLsbD 1 then { s with done := false } else s
  | 0x00C => if s.busy then s else s.acceptCmd v
  | 0x010 => s.setArgs { s.args with srcAddrLo := v }
  | 0x014 => s.setHigh { s.args with srcAddrHi := v }
  | 0x018 => s.setArgs { s.args with srcLen := v }
  | 0x01C => s.setArgs { s.args with dstAddrLo := v }
  | 0x020 => s.setHigh { s.args with dstAddrHi := v }
  | 0x024 => s.setArgs { s.args with dstCap := v }
  | 0x028 => s.setArgs { s.args with param0 := v }
  | 0x02C => s.setArgs { s.args with param1 := v }
  | 0x030 => s.setArgs { s.args with param2 := v }
  | _ => s

/-- The ID register (rule R34). -/
def idWord : Word := 0x4C5A3401

/-- A 32-bit read at an aligned offset (rules R32 to R44): CMD and reserved offsets read 0. -/
def State.readReg (s : State) (off : Nat) : Word :=
  match off with
  | 0x000 => idWord
  | 0x004 => s.ctrlWord
  | 0x008 => s.statusWord
  | 0x010 => s.args.srcAddrLo
  | 0x014 => s.readHigh s.args.srcAddrHi
  | 0x018 => s.args.srcLen
  | 0x01C => s.args.dstAddrLo
  | 0x020 => s.readHigh s.args.dstAddrHi
  | 0x024 => s.args.dstCap
  | 0x028 => s.args.param0
  | 0x02C => s.args.param1
  | 0x030 => s.args.param2
  | 0x034 => s.results.resultLen
  | 0x038 => s.results.consumed
  | 0x03C => s.results.errCode
  | 0x040 => s.results.errOffsetLo
  | 0x044 => s.results.errOffsetHi
  | 0x048 => s.info.flags
  | 0x04C => s.info.blockSize
  | 0x050 => s.info.csizeLo
  | 0x054 => s.info.csizeHi
  | 0x058 => s.info.dictId
  | 0x05C => s.info.hdrLen
  | 0x060 => s.results.ctxStatus
  | _ => 0

/-- The bus address of the register at an offset (rules R32, R54). -/
def State.regAddr (s : State) (off : Nat) : Nat := s.params.regBase + off

/-- The address lies in register space, 4096 bytes at REG_BASE (rule R54). -/
def State.inRegisterSpace (s : State) (a : Nat) : Bool := inRange s.params.regBase 4096 a

/-- The register an access reaches: the offset of a naturally aligned 32-bit access inside register space (rules R33 (a), R54). -/
def State.registerAt (s : State) (a width : Nat) : Option Nat :=
  if s.inRegisterSpace a ∧ width = 4 ∧ (a - s.params.regBase) % 4 = 0 then some (a - s.params.regBase) else none

/-! ## Host events -/

/-- Why a host access to memory is not possible at this address, if it is not. The spec gives such an access no effect and no
error; the model stops (DESIGN CHOICE, log entry 19). -/
def State.hostAddressFault (s : State) (a : Nat) : Option Fault :=
  if 2 ^ s.params.addrWidth ≤ a then some .hostAddressRange
  else if s.hitsHole a 1 then some .hostNoMemory
  else none

/-- The buffer bytes raced after the host touches the byte at `a`, which belongs to a buffer it must leave alone if
`hit` (rule R89 (b)). -/
def State.race (s : State) (a : Nat) (hit : Bool) : List Nat :=
  if s.busy && hit && !s.raced.contains a then s.raced ++ [a] else s.raced

/-- A host write to memory; one into a buffer of the running command is a race (rule R89 (b)). -/
def State.hostWrite (s : State) (a : Nat) (b : Byte) : State :=
  { s with mem := Memory.write s.mem a b, raced := s.race a (s.inSource a || s.inDest a) }

/-- A host read of memory; one from the destination buffer of the running command is a race and returns any value (rules
R89 (b), R495). -/
def State.hostRead (s : State) (a : Nat) : State :=
  if s.busy && s.inDest a then
    { s with
      hostData := (Config.freeByte s.freeCount).zeroExtend 32
      raced := s.race a true
      freeCount := s.freeCount + 1 }
  else { s with hostData := (Memory.read s.mem a).zeroExtend 32 }

/-- A host access to the byte of memory at an address, which does `k`. At an address of register space it is a byte access to a
register (rules R33 (a), R54). -/
def State.hostByteAccess (s : State) (a : Nat) (k : State) : Result :=
  if s.inRegisterSpace a then .refused .registerAccess
  else
    match s.hostAddressFault a with
    | some f => .fault f
    | none => .next k

/-- One host event. -/
def hostTurn (e : HostEvent) (s : State) : Result :=
  match e with
  | .regWrite a width v =>
    match s.registerAt a width with
    | some off => .next (s.writeReg off v)
    | none => .refused .registerAccess
  | .regRead a width =>
    match s.registerAt a width with
    | some off => .next { s with hostData := s.readReg off }
    | none => .refused .registerAccess
  | .memWrite a b => s.hostByteAccess a (s.hostWrite a b)
  | .memRead a => s.hostByteAccess a (s.hostRead a)
  | .waitDone => .next s
  | .platformReset => .next s.deviceReset

/-- The engine moves when a command is accepted and it is not stuck (rules R30, R92). -/
def State.engineReady (s : State) : Bool := s.busy && !s.stuck

/-- The engine's turn when it can move; otherwise nothing happens (rules R92, R493). -/
def State.engineMoves (s : State) : Result := if s.engineReady then s.engineTurn else .next s

/-- Who moves next (rules R30, R462): the host's accesses come first, in order; a host that waits for DONE lets the engine
move until BUSY = 0. -/
def State.turn (s : State) : Result :=
  match s.inbox with
  | [] => s.engineMoves
  | .waitDone :: rest => if s.busy then s.engineMoves else .next { s with inbox := rest }
  | .regWrite a width v :: rest => hostTurn (.regWrite a width v) { s with inbox := rest }
  | .regRead a width :: rest => hostTurn (.regRead a width) { s with inbox := rest }
  | .memWrite a b :: rest => hostTurn (.memWrite a b) { s with inbox := rest }
  | .memRead a :: rest => hostTurn (.memRead a) { s with inbox := rest }
  | .platformReset :: rest => hostTurn .platformReset { s with inbox := rest }

end Sys2Proof.Machine
end

