-- ==== Sys2Proof/Machine/Fetch.lean ====
section
/-!
DEFINITION. The state whose very next step runs a given instruction. A command word is accepted as a host's write of CMD
would be (rule R37). A bitstream element is placed where the engine reads it: the working registers of a command in
progress, with the element's bytes next (log entry 7 says what stands for what).
-/

namespace Sys2Proof.Machine

/-- A command in progress, the engine to move. -/
def State.inCommand (s : State) (w : Work) : State := { s with busy := true, done := false, stuck := false, inbox := [], work := w }

/-- A block parser about to read the element `bytes` in a phase. -/
def State.atBlockElement (s : State) (bytes : List Byte) (ph : Phase) : State :=
  s.inCommand (.block .decompress
    { BlockParser.start bytes s.dstCap [] s.params.strictTail with phase := ph, ll := bytes.length })

/-- A frame context about to read the element `bytes`. -/
def State.atFrameElement (s : State) (bytes : List Byte) (c : FDecomp) : State :=
  s.inCommand (.frame 1 bytes s.dstCap (s.frameStart c) none)

/-- A context that has collected the header bytes `acc`. -/
def FDecomp.collecting (acc : List Byte) : FDecomp := { FDecomp.initial with acc := acc, fpos := acc.length }

/-- The header information of a frame with independent blocks of 64 KB. -/
def FrameInfo.plain (bcrc ccrc : Bool) : FrameInfo :=
  { FrameInfo.zero with indep := true, bcrc := bcrc, ccrc := ccrc, bsid := 4 }

/-- A context past a 7-byte header, in a stage. -/
def FDecomp.inStage (st : Stage) (bcrc ccrc : Bool) : FDecomp :=
  { FDecomp.initial with dstate := .decoding, stage := st, info := FrameInfo.plain bcrc ccrc, fpos := 7, bword := 2 ^ 31 }

/-- `s` with the instruction `i` next. -/
def State.withInstr (s : State) (i : Instr) : State :=
  let bytes := encode i
  let command := { s with stuck := false, inbox := [], work := .idle }.acceptCmd (BitVec.ofNat 32 (leNat bytes))
  let magic := bytesLE 4 magicLz4
  match i with
  | .bound _ _ => command
  | .compress _ _ => command
  | .decompress _ _ => command
  | .ctxCreate _ _ => command
  | .ctxDestroy _ _ => command
  | .ctxReset _ _ => command
  | .ctxLoadDict _ _ => command
  | .streamCompress _ _ => command
  | .streamDecompress _ _ => command
  | .frameBegin _ _ => command
  | .frameUpdate _ _ => command
  | .frameEnd _ _ => command
  | .frameInfo _ _ => command
  | .frameDecompress _ _ => command
  | .illegalCommand _ _ _ => command
  | .token _ _ => s.atBlockElement bytes .token
  | .lenExt _ => s.atBlockElement bytes .litExt
  | .literals _ => s.atBlockElement bytes .literals
  | .offset _ => s.atBlockElement bytes .offset
  | .legacySize _ => s.inCommand (.legacy bytes s.dstCap)
  | .frameMagic => s.atFrameElement bytes FDecomp.initial
  | .skippableMagic _ _ => s.atFrameElement bytes FDecomp.initial
  | .legacyMagicRefused => s.atFrameElement bytes FDecomp.initial
  | .flg _ _ _ _ _ _ _ => s.atFrameElement bytes (FDecomp.collecting magic)
  | .bd _ _ _ => s.atFrameElement bytes (FDecomp.collecting (magic ++ [0x40]))
  | .contentSize _ => s.atFrameElement bytes (FDecomp.collecting (magic ++ [0x48, 0x40]))
  | .dictId _ => s.atFrameElement bytes (FDecomp.collecting (magic ++ [0x41, 0x40]))
  | .hc _ => s.atFrameElement bytes (FDecomp.collecting (magic ++ [0x40, 0x40]))
  | .blockCompressed _ => s.atFrameElement bytes (FDecomp.inStage .blkHdr false false)
  | .blockStored _ => s.atFrameElement bytes (FDecomp.inStage .blkHdr false false)
  | .blockChecksum _ => s.atFrameElement bytes (FDecomp.inStage .blkCrc true false)
  | .endMark => s.atFrameElement bytes (FDecomp.inStage .blkHdr false false)
  | .contentChecksum _ => s.atFrameElement bytes (FDecomp.inStage .ccrc false true)
  | .prefs _ _ _ _ _ _ _ =>
      { s.inCommand (.prefs 1) with args := { s.args with param0 := BitVec.ofNat 32 (leNat bytes) } }

end Sys2Proof.Machine
end

