-- ==== Sys2Proof/Safety.lean ====
section
/-!
DEFINITION. The terms in which claims about the machine are made: what a well-formed context and a well-formed machine are
(the invariants of rules R44 to R52), what a command leaves behind (rules R36, R41, R42, R44, R86, R455), and which runs
are safe.
-/

namespace Sys2Proof

/-! ## Command words -/

/-- The instruction is a command word (rule R150). -/
def Instr.isCommand (i : Instr) : Bool := siteOf i == .command

/-- The handle field of a command word (rule R37). -/
def Instr.handle : Instr → BitVec 8
  | .bound h _ => h
  | .compress h _ => h
  | .decompress h _ => h
  | .ctxCreate h _ => h
  | .ctxDestroy h _ => h
  | .ctxReset h _ => h
  | .ctxLoadDict h _ => h
  | .streamCompress h _ => h
  | .streamDecompress h _ => h
  | .frameBegin h _ => h
  | .frameUpdate h _ => h
  | .frameEnd h _ => h
  | .frameInfo h _ => h
  | .frameDecompress h _ => h
  | .illegalCommand _ h _ => h
  | .token _ _ => 0
  | .lenExt _ => 0
  | .literals _ => 0
  | .offset _ => 0
  | .legacySize _ => 0
  | .frameMagic => 0
  | .skippableMagic _ _ => 0
  | .legacyMagicRefused => 0
  | .flg _ _ _ _ _ _ _ => 0
  | .bd _ _ _ => 0
  | .contentSize _ => 0
  | .dictId _ => 0
  | .hc _ => 0
  | .blockCompressed _ => 0
  | .blockStored _ => 0
  | .blockChecksum _ => 0
  | .endMark => 0
  | .contentChecksum _ => 0
  | .prefs _ _ _ _ _ _ _ => 0

end Sys2Proof

namespace Sys2Proof.Machine

/-! ## Well-formed contexts -/

/-- A hash table of `2^HASH_LOG` entries whose positions lie before `spos` (rules R46, R50). -/
def HashTable.ok (hashLog spos : Nat) (t : HashTable) : Bool :=
  Table.wf t && t.all fun e => decide (e.1 < 2 ^ hashLog) && decide (e.2 < spos)

/-- A legal block size of a stream (rules R46, R300). -/
def blockSizeOk (n : Nat) : Bool := decide (1 ≤ n) && decide (n ≤ Config.maxInputSize)

/-- A history of at most `WINDOW` bytes (rule R51). -/
def historyOk (h : List Byte) : Bool := decide (h.length ≤ Config.window)

/-- A block size ID that names a block size (rule R124). -/
def bsidOk (n : Nat) : Bool := decide (4 ≤ n) && decide (n ≤ 7)

/-- The invariant of a CSTREAM (rules R46, R50, R51). -/
def CStream.ok (hashLog : Nat) (c : CStream) : Bool :=
  blockSizeOk c.blockSize && historyOk c.hist && decide (c.hist.length ≤ c.spos) && HashTable.ok hashLog c.spos c.table

/-- The invariant of a DSTREAM (rules R47, R51). -/
def DStream.ok (c : DStream) : Bool := blockSizeOk c.blockSize && historyOk c.hist

/-- The invariant of an FCOMP (rules R48, R344, R346): fewer than `BLOCK_MAX` bytes pend, and none with AUTO_FLUSH. -/
def FComp.ok (hashLog : Nat) (c : FComp) : Bool :=
  historyOk c.hist && decide (c.hist.length ≤ c.spos) && HashTable.ok hashLog c.spos c.table
    && c.total == c.content.length && decide (c.prefs.csize < 2 ^ 64)
    && (if c.fstate = .idle then c == FComp.initial
        else bsidOk c.prefs.bsid && decide (c.pending.length < Config.blockMax c.prefs.bsid)
          && (!c.prefs.autoFlush || c.pending == []))

/-- The states of an FDECOMP and the parser stages they go with (rules R386 to R397). -/
def stageOk : DState → Stage → Bool
  | .idle, st => st == .hdr
  | .frameInfoKnown, st => st == .blkHdr || st == .skip
  | .decoding, st => st != .hdr && st != .ended
  | .complete, st => st == .ended
  | .failed, st => st != .ended

/-- A parser stage past the header of an LZ4 frame. -/
def Stage.inBlocks : Stage → Bool
  | .hdr => false
  | .skip => false
  | .blkHdr => true
  | .blkData => true
  | .blkCrc => true
  | .ccrc => true
  | .ended => false

/-- The payload collected in a stage, before a failure (rules R389 to R391). -/
def FDecomp.payloadOk (c : FDecomp) : Bool :=
  c.dstate == .failed ||
    match c.stage with
    | .hdr => true
    | .skip => true
    | .blkHdr => true
    | .blkData =>
      decide (c.payload.length < c.bword % 2 ^ 31) && decide (c.bword % 2 ^ 31 ≤ Config.blockMax c.info.bsid)
    | .blkCrc => decide (c.payload.length ≤ Config.blockMax c.info.bsid)
    | .ccrc => true
    | .ended => true

/-- The invariant of an FDECOMP (rules R49, R51, R397). -/
def FDecomp.ok (c : FDecomp) : Bool :=
  historyOk c.dict && historyOk c.hist && decide (c.pending.length ≤ Config.blockMax 7) && c.total == c.content.length
    && stageOk c.dstate c.stage && (!c.stage.inBlocks || bsidOk c.info.bsid) && c.payloadOk

/-- The invariant of a context of any kind. -/
def Ctx.ok (hashLog : Nat) : Ctx → Bool
  | .cstream c => c.ok hashLog
  | .dstream c => c.ok
  | .fcomp c => c.ok hashLog
  | .fdecomp c => c.ok

/-- The invariant of a context slot. -/
def slotOk (hashLog : Nat) : Option Ctx → Bool
  | none => true
  | some c => c.ok hashLog

/-! ## The well-formed machine -/

/-- Every error the engine can report: the (class, detail) pairs of rule R451. -/
def allErrors : List Err :=
  [.illegalCommand, .badHandle, .nullPointer, .lengthTooLarge, .bufferOverlap, .badParam, .contentSizeWrong, .addressRange,
    .capacityBound, .capacityOutput, .noContextSlot, .wrongState, .contextFailed, .chunkInput, .chunkOutput]
  ++ [.corrupt .truncated, .corrupt .offsetZero, .corrupt .offsetOutOfWindow, .corrupt .literalPastSource,
    .corrupt .outputOverflow, .corrupt .tailRule, .corrupt .badMagic, .corrupt .headerChecksum, .corrupt .badVersion,
    .corrupt .reservedBit, .corrupt .badBlockSizeId, .corrupt .blockTooLarge, .corrupt .blockChecksum,
    .corrupt .contentChecksum, .corrupt .contentSizeMismatch, .corrupt .trailingData, .corrupt .legacySize]

/-- ERR_CODE is 0 or one of the codes of rule R451. -/
def errCodeOk (w : Word) : Bool := w == 0 || allErrors.any fun e => e.word == w

/-- The registers read as rules R36, R38, R39, R42 to R44 say: reserved bits 0, HI registers 0 at ADDR_WIDTH = 32, and no
error while a command runs. -/
def State.registersOk (s : State) : Bool :=
  errCodeOk s.results.errCode && (!s.busy || s.results.errCode == 0) && decide (s.results.ctxStatus.toNat < 2 ^ 16)
    && (s.info.flags &&& ~~~(0x1071F : Word)) == 0
    && (s.params.addrWidth != 32 || (s.args.srcAddrHi == 0 && s.args.dstAddrHi == 0))

/-- The invariant of the machine between its steps: legal parameters, memory in canonical form, `N_CTX` well-formed slots,
no working register in use (rule R31), BUSY and DONE never both 1 (rule R36), stuck or raced only while BUSY. -/
def State.ok (s : State) : Bool :=
  s.params.wf && Memory.wf s.mem && s.slots.length == s.params.nCtx && s.slots.all (slotOk s.params.hashLog)
    && s.work == .idle && !(s.busy && s.done) && (!s.stuck || s.busy) && (s.raced == [] || s.busy) && s.registersOk

/-! ## What a command leaves -/

/-- The engine works undisturbed: memory is in its canonical form, every address has memory behind it (rule R92), and the
host keeps its duties (rule R89 (b)). -/
def State.undisturbed (s : State) : Bool := Memory.wf s.mem && s.params.holes == [] && s.raced == []

/-- `t` is what a command that ends with the report `r` leaves of `s`: its registers as the host reads them (rules R36, R41,
R42, R44, R455), the context slots, the bytes `r.out` from DST on and every other byte of memory as it was (rules R84, R86),
and everything a command never touches. -/
structure State.EndsWith (s : State) (r : Report) (t : State) : Prop where
  status : t.readReg 0x008 = (if r.err = none then 2 else 6)
  resultLen : t.readReg 0x034 = BitVec.ofNat 32 r.resultLen
  consumed : t.readReg 0x038 = BitVec.ofNat 32 r.consumed
  errCode : t.readReg 0x03C = errCodeWord r.err
  errOffsetLo : t.readReg 0x040 = BitVec.ofNat 32 (errOffset r.err)
  errOffsetHi : t.readReg 0x044 = BitVec.ofNat 32 (errOffset r.err / 2 ^ 32)
  ctxStatus : t.readReg 0x060 = ctxStatusWord r.named (slotAt r.slots r.named)
  slots : t.slots = r.slots
  info : t.info = r.info
  memory : ∀ a, Memory.read t.mem a =
    if s.dstAddr ≤ a ∧ a < s.dstAddr + r.out.length then byteAt r.out (a - s.dstAddr) else Memory.read s.mem a
  work : t.work = .idle
  notStuck : t.stuck = false
  params : t.params = s.params
  ie : t.ie = s.ie
  args : t.args = s.args
  inbox : t.inbox = s.inbox
  hostData : t.hostData = s.hostData
  raced : t.raced = []
  freeCount : t.freeCount = s.freeCount

/-- The command `i` runs to its end and leaves what the report says. -/
def State.RunsTo (s : State) (i : Instr) (r : Report) : Prop := ∃ t, exec i s = .next t ∧ s.EndsWith r t

/-- The source buffer's bytes (rules R14, R38). -/
def State.sourceBytes (s : State) : List Byte := Memory.readBytes s.mem s.srcAddr s.srcLen

/-- The first failing buffer check of rule R85, for a command that uses the source buffer, the destination buffer or
both. -/
def State.bufferFault (s : State) (src dst : Bool) : Option Err :=
  if src = true ∧ Config.maxInputSize < s.srcLen then some .lengthTooLarge
  else if (src = true ∧ s.srcAddr = 0 ∧ 0 < s.srcLen) ∨ (dst = true ∧ s.dstAddr = 0 ∧ 0 < s.dstCap) then some .nullPointer
  else if (src = true ∧ 2 ^ s.params.addrWidth < s.srcAddr + s.srcLen)
      ∨ (dst = true ∧ 2 ^ s.params.addrWidth < s.dstAddr + s.dstCap) then some .addressRange
  else if src = true ∧ dst = true ∧ 0 < s.srcLen ∧ 0 < s.dstCap
      ∧ s.srcAddr < s.dstAddr + s.dstCap ∧ s.dstAddr < s.srcAddr + s.srcLen then some .bufferOverlap
  else none

/-- The initial context of a kind code, field by field (rules R46 to R49, R492). -/
def Ctx.fresh (kind blockSize : Nat) : Ctx :=
  match kind with
  | 1 => .cstream { blockSize := blockSize, hist := [], table := [], spos := 0 }
  | 2 => .dstream { blockSize := blockSize, hist := [], state := .ready }
  | 3 =>
    .fcomp
      { fstate := .idle
        prefs := { bsid := 0, indep := false, ccrc := false, bcrc := false, autoFlush := false, csize := 0 }
        pending := []
        hist := []
        table := []
        spos := 0
        total := 0
        content := [] }
  | _ =>
    .fdecomp
      { dstate := .idle
        stage := .hdr
        acc := []
        info := FrameInfo.zero
        dict := []
        hist := []
        pending := []
        fpos := 0
        total := 0
        content := []
        bword := 0
        boff := 0
        poff := 0
        skipLeft := 0
        payload := [] }

/-- The block size a stream context has; 0 for a frame context, which has none. -/
def Ctx.blockSize : Ctx → Nat
  | .cstream c => c.blockSize
  | .dstream c => c.blockSize
  | .fcomp _ => 0
  | .fdecomp _ => 0

/-- A byte from its number. -/
def byteOf (n : Nat) : Byte := BitVec.ofNat 8 n

/-- The frame header of rule R341, from numbers. -/
def Prefs.specHeader (p : Prefs) : List Byte :=
  let flg := 0x40 + 32 * flagNat p.indep + 16 * flagNat p.bcrc + 8 * flagNat (p.csize != 0) + 4 * flagNat p.ccrc
  let body := [byteOf flg, byteOf (16 * p.bsid)] ++ (if p.csize = 0 then [] else bytesLE 8 p.csize)
  [0x04, 0x22, 0x4D, 0x18] ++ body ++ [byteOf ((xxh32 body).toNat / 256 % 256)]

/-- The records of consecutive blocks (rules R343, R347). -/
def makeBlocks (hash : Word → Nat) : List (List Byte) → FComp → List Byte
  | [], _ => []
  | b :: bs, c => (makeBlock hash c b).1 ++ makeBlocks hash bs (makeBlock hash c b).2

/-- The context after consecutive blocks (rule R343): with linked blocks each moves the table, the history and the position on. -/
def afterBlocks (hash : Word → Nat) : List (List Byte) → FComp → FComp
  | [], c => c
  | b :: bs, c => afterBlocks hash bs (makeBlock hash c b).2

/-- The records of one FRAME_UPDATE per chunk, in order, and the context after them (rule R344). -/
def updateFrames (hash : Word → Nat) : List (List Byte) → FComp → List Byte × FComp
  | [], c => ([], c)
  | x :: xs, c =>
    let r := updateFrame hash c x
    let r' := updateFrames hash xs r.2
    (r.1 ++ r'.1, r'.2)

/-- A whole frame: FRAME_BEGIN, one FRAME_UPDATE per chunk, FRAME_END (rules R342, R344, R345, R348). -/
def compressFrame (hash : Word → Nat) (p : Prefs) (chunks : List (List Byte)) : List Byte :=
  let r := updateFrames hash chunks { FComp.initial with prefs := p, fstate := .headerEmitted }
  p.specHeader ++ r.1 ++ (endFrame hash r.2).1

/-- The chunks compressed in order on one CSTREAM (rule R304). -/
def compressChunks (hash : Word → Nat) : CStream → List (List Byte) → List (List Byte)
  | _, [] => []
  | c, x :: xs =>
    let r := compressCore hash c.hist x c.table (c.spos - c.hist.length)
    r.1 :: compressChunks hash (c.push x r.2) xs

/-- The blocks decompressed in order on one DSTREAM; `none` once one fails (rule R305). -/
def decompressChunks (strictTail : Bool) (cap : Nat) : DStream → List (List Byte) → Option (List (List Byte))
  | _, [] => some []
  | d, b :: bs =>
    match blockDecode strictTail b (min cap d.blockSize) d.hist with
    | (out, none) => (decompressChunks strictTail cap { d with hist := lastWindow (d.hist ++ out) } bs).map (out :: ·)
    | (_, some _) => none

/-! ## Elements of a bitstream -/

/-- The place in a block the parser is at; `none` once the parse has ended (rule R117). -/
def BlockParser.site (p : BlockParser) : Option Site :=
  match p.phase with
  | .token => some .token
  | .litExt => some .lenExt
  | .literals => some (.literals p.ll)
  | .offset => some .offset
  | .matchExt => some .lenExt
  | .ended _ => none

/-- `s` after a frame element of `n` bytes: the context, the INFO registers and the error it leaves. -/
def State.afterElement (s : State) (h : BitVec 8) (rest : List Byte) (cap : Nat) (run : FrameRun) (n : Nat) (c : FDecomp)
    (info : Info) (e : Option (Detail × Nat)) : State :=
  { s with work := .frame h (rest.drop n) cap { ctx := c, info := info, used := run.used + n, out := run.out } e }

/-- The context state once a byte after the header has been fed (rule R386). -/
def DState.fed (d : DState) : DState := if d = .frameInfoKnown then .decoding else d

/-- A context of its kind past a header of `n` bytes (rules R383, R387). -/
def FDecomp.pastHeader (c : FDecomp) (i : FrameInfo) (n : Nat) : FDecomp :=
  if i.skippable then
    { c with
      info := i
      fpos := n
      skipLeft := i.skip
      stage := if i.skip = 0 then .ended else .skip
      dstate := if i.skip = 0 then .complete else .frameInfoKnown }
  else
    { c with info := i, fpos := n, hist := c.dict, total := 0, content := [], stage := .blkHdr, dstate := .frameInfoKnown }

/-- Successive FRAME_DECOMPRESS commands, each with a capacity and a further piece of the frame and re-passing the bytes the ones
before left unconsumed, until one ends with an error (rule R398): the context and the INFO registers they leave, the bytes
they consume and deliver together, the error. -/
def framePieces (rules : FrameRules) : List (Nat × List Byte) → List Byte → FrameRun → FrameRun × Option (Detail × Nat)
  | [], _, run => (run, none)
  | (cap, piece) :: later, left, run =>
    let r := frameLoop rules cap (left ++ piece) { run with used := 0, out := [] }
    let sum : FrameRun := { r.1 with used := run.used + r.1.used, out := run.out ++ r.1.out }
    match r.2 with
    | some e => (sum, some e)
    | none => framePieces rules later ((left ++ piece).drop r.1.used) sum

/-! ## Runs -/

/-- `n` steps of the machine stop nowhere. -/
def State.SafeFor (n : Nat) (s : State) : Prop := ∃ t, core.run n s = .next t

/-- `n` turns of the engine, with no host access between them. -/
def State.turns : Nat → State → Result
  | 0, s => .next s
  | n + 1, s =>
    match s.engineTurn with
    | .next t => State.turns n t
    | .fault f => .fault f
    | .refused r => .refused r

end Sys2Proof.Machine
end

