-- ==== Sys2Proof/Certificates/Slice0/Obligations.lean ====
section
/-!
DEFINITION. The statements for the provers, from the numbered rules of the spec. A statement about a command takes every state
in which the engine works undisturbed (`State.undisturbed`: memory canonical, memory behind every address, no race) and
says by `State.RunsTo` everything the command leaves: every register as the host reads it, every context slot, every byte of
memory. A statement about an element of a bitstream gives the whole next state. The cases of an `if`/`else` chain stand in
the check order of rule R454.
-/

section

open Sys2Proof Sys2Proof.Machine

/-! ## Encodings -/

/-- Rules R37, R110 to R131, R150 to R154: an encoded legal instruction, whatever follows it, decodes to itself. -/
def Obligations.EncodeThenDecode : Prop :=
  ∀ (i : Instr) (rest : List Byte), i.wf = true → decode (siteOf i) (encode i ++ rest) = .ok (i, rest)

/-- Rules R37, R110 to R131, R150 to R154: whatever decodes, legal or not, is the encoding of what it decodes to. -/
def Obligations.DecodeThenEncode : Prop :=
  ∀ (site : Site) (bs rest : List Byte) (i : Instr),
    decode site bs = .ok (i, rest) → encode i ++ rest = bs ∧ siteOf i = site

/-- Words written out from the encodings of rules R37, R111, R115, R118, R122 to R131, R150 and R152. -/
def Obligations.SpecWordsDecode : Prop :=
  decode .command [0x02, 0x00, 0x00, 0x00] = .ok (.compress 0 0, [])
  ∧ decode .command [0x11, 0x01, 0x00, 0x00] = .ok (.ctxDestroy 1 0, [])
  ∧ decode .command [0x21, 0x02, 0x00, 0x00] = .ok (.streamDecompress 2 0, [])
  ∧ decode .command [0x32, 0x01, 0x03, 0x00] = .ok (.frameEnd 1 3, [])
  ∧ decode .command [0x04, 0x00, 0x00, 0x00] = .ok (.illegalCommand 4 0 0, [])
  ∧ decode .token [0x1F, 0x41] = .ok (.token 1 15, [0x41])
  ∧ decode .offset [0x01, 0x00] = .ok (.offset 1, [])
  ∧ decode .legacySize [0x20, 0x00, 0x00, 0x00] = .ok (.legacySize 32, [])
  ∧ decode .magic [0x04, 0x22, 0x4D, 0x18] = .ok (.frameMagic, [])
  ∧ decode .magic [0x5F, 0x2A, 0x4D, 0x18, 0x03, 0x00, 0x00, 0x00] = .ok (.skippableMagic 15 3, [])
  ∧ decode .magic [0x02, 0x21, 0x4C, 0x18] = .ok (.legacyMagicRefused, [])
  ∧ decode .flg [0x6C] = .ok (.flg 1 true false true true false false, [])
  ∧ decode .bd [0x70] = .ok (.bd false 7 0, [])
  ∧ decode .blockWord [0x0B, 0x00, 0x00, 0x00] = .ok (.blockCompressed 11, [])
  ∧ decode .blockWord [0x03, 0x00, 0x00, 0x80] = .ok (.blockStored 3, [])
  ∧ decode .blockWord [0x00, 0x00, 0x00, 0x00] = .ok (.endMark, [])
  ∧ decode .prefs [0xB0, 0x00, 0x00, 0x00] = .ok (.prefs 0 false true true false true 0, [])

/-! ## A step, the host and the device reset -/

/-- Rules R30, R37: with the engine to move and no command in progress, a step is `exec` of the latched CMD word. That the engine
moves when no host access is pending or the host waits for DONE is log entry 1's DESIGN CHOICE. That a step inside a command
is one element, decoded where the parser stands (rules R117, R120; PARAM0 for FRAME_BEGIN's preferences, rule R340), is log
entry 9's DESIGN CHOICE: a run of the spec has one step per command and never stands there. -/
def Obligations.StepRunsDecodedInstruction : Prop :=
  ∀ s : State, (s.inbox = [] ∨ ∃ later, s.inbox = .waitDone :: later) → s.busy = true → s.stuck = false →
    (s.work = .idle → step s = exec (decodeCommand s.args.cmd) s)
    ∧ (∀ h, s.work = .prefs h → step s = exec (decodePrefs s.args.param0) s)
    ∧ (∀ src cap i rest, s.work = .legacy src cap → decode .legacySize src = .ok (i, rest) → step s = exec i s)
    ∧ (∀ o p site i rest, s.work = .block o p → p.site = some site → decode site (p.src.drop p.ip) = .ok (i, rest) →
        step s = exec i s)
    ∧ (∀ h bs cap run site i rest, s.work = .frame h bs cap run none → run.ctx.pending = [] → run.ctx.stage ≠ .ended →
        run.ctx.site = some site → decode site bs = .ok (i, rest) → step s = exec i s)

/-- Rule R493 (and R32, R491 for the values): after reset ID identifies the engine, every other register reads 0, every slot
is free, the interrupt output is low; the engine stays idle until CMD is written, and runs the command written. -/
def Obligations.ResetStateWaitsForCommand : Prop :=
  (∀ off, State.reset.readReg off = if off = 0 then 0x4C5A3401 else 0)
  ∧ State.reset.irq = false
  ∧ (∀ h, slotAt State.reset.slots h = none)
  ∧ step State.reset = .next State.reset
  ∧ ∀ w : Word, ∃ t, step { State.reset with inbox := [.regWrite (State.reset.regAddr 0x00C) 4 w] } = .next t
      ∧ step t = exec (decodeCommand w) t

/-- Rules R490, R491: the device reset, from either source, at any state: every register at its reset value, every slot
free, IRQ low, the command in progress abandoned. A byte of memory changes only if a running command that uses its
destination buffer would have written it, and then holds its old value or the one the command would have written. That CTRL
reads 0 after a write with SRST and IE both 1 is log entry 11 (DEDUCED); that what the command would have written is what it
writes when it runs to its end with memory at every address is log entry 10 (DEDUCED). -/
def Obligations.DeviceResetEffects : Prop :=
  ∀ (s : State) (later : List HostEvent),
    (s.inbox = .platformReset :: later ∨ ∃ v : Word, v.getLsbD 1 = true ∧ s.inbox = .regWrite (s.regAddr 0x004) 4 v :: later) →
    Memory.wf s.mem = true → s.raced = [] →
    ∃ t, step s = .next t
      ∧ (∀ off, t.readReg off = if off = 0 then 0x4C5A3401 else 0)
      ∧ t.irq = false
      ∧ t.slots = List.replicate s.params.nCtx none
      ∧ t.work = .idle ∧ t.stuck = false
      ∧ t.inbox = later ∧ t.params = s.params ∧ t.hostData = s.hostData
      ∧ ∀ a, Memory.read t.mem a = Memory.read s.mem a
          ∨ (s.busy = true ∧ usesDest s.command = true ∧ s.dstAddr ≤ a
            ∧ ∃ u, exec s.command { s with work := .idle, inbox := later, params := { s.params with holes := [] } } = .next u
              ∧ a < s.dstAddr + u.results.resultLen.toNat ∧ Memory.read t.mem a = Memory.read u.mem a)

/-- Rules R36, R37, R42: a write of CMD while BUSY = 0 is accepted: BUSY 1, DONE 0, the error registers 0, the word latched;
nothing else changes, and the engine's next turn runs the command with the registers as they stood. -/
def Obligations.CommandAcceptance : Prop :=
  ∀ (s : State) (w : Word) (later : List HostEvent), s.inbox = .regWrite (s.regAddr 0x00C) 4 w :: later → s.busy = false →
    ∃ t, step s = .next t
      ∧ t = { s with
          busy := true
          done := false
          args := { s.args with cmd := w }
          results := { s.results with errCode := 0, errOffsetLo := 0, errOffsetHi := 0 }
          inbox := later }
      ∧ t.readReg 0x00C = 0 ∧ t.readReg 0x008 = 1
      ∧ (later = [] → s.stuck = false → s.work = .idle → step t = exec (decodeCommand w) t)

/-- Rules R32, R33, R38 to R40, R54, R91, R496: (a) an access that is not a naturally aligned 32-bit one is refused; (b) a read has
no side effect; (c) while BUSY = 1 writes to CMD, SRC_*, DST_* and PARAM* are ignored, and writes to CTRL and
STATUS.DONE take effect; (d) reserved bits and offsets read 0 and ignore writes. While BUSY = 0 an argument register holds
what was last written, except that the high address registers read 0 at ADDR_WIDTH = 32. Register space is
the 4096 bytes at REG_BASE (rules R54, R91); that a register access outside it is refused is log entry 13's DESIGN CHOICE. -/
def Obligations.RegisterAccessRules : Prop :=
  (∀ (s : State) (off width : Nat) (v : Word) (later : List HostEvent),
    (width ≠ 4 ∨ off % 4 ≠ 0 ∨ 4096 ≤ off) →
      (s.inbox = .regRead (s.regAddr off) width :: later → step s = .refused .registerAccess)
      ∧ (s.inbox = .regWrite (s.regAddr off) width v :: later → step s = .refused .registerAccess))
  ∧ (∀ (s : State) (a width : Nat) (v : Word) (later : List HostEvent), a < s.params.regBase →
      (s.inbox = .regRead a width :: later → step s = .refused .registerAccess)
      ∧ (s.inbox = .regWrite a width v :: later → step s = .refused .registerAccess))
  ∧ (∀ (s : State) (off : Nat) (later : List HostEvent), s.inbox = .regRead (s.regAddr off) 4 :: later → off % 4 = 0 → off < 4096 →
      step s = .next { s with inbox := later, hostData := s.readReg off })
  ∧ (∀ (s : State) (off : Nat) (v : Word) (later : List HostEvent), s.inbox = .regWrite (s.regAddr off) 4 v :: later →
      off % 4 = 0 → off < 4096 →
      (s.busy = true ∧ 0x00C ≤ off ∧ off ≤ 0x030 → step s = .next { s with inbox := later })
      ∧ (off = 0x004 ∧ v.getLsbD 1 = false → step s = .next { s with inbox := later, ie := v.getLsbD 0 })
      ∧ (off = 0x008 → step s = .next { s with inbox := later, done := s.done && !v.getLsbD 1 })
      ∧ (off = 0 ∨ 0x034 ≤ off → step s = .next { s with inbox := later })
      ∧ (s.busy = false ∧ 0x010 ≤ off ∧ off ≤ 0x030 → ∃ t, step s = .next t
          ∧ t = { s with inbox := later, args := t.args }
          ∧ t.readReg off = (if s.params.addrWidth = 32 ∧ (off = 0x014 ∨ off = 0x020) then 0 else v)
          ∧ ∀ other, other ≠ off → t.readReg other = s.readReg other))
  ∧ (∀ (s : State) (off : Nat), 0x064 ≤ off ∨ off = 0x00C → s.readReg off = 0)
  ∧ (∀ s : State, (s.readReg 0x004).toNat < 2 ∧ (s.readReg 0x008).toNat < 8)
  ∧ (∀ s : State, s.ok = true → (s.readReg 0x03C).toNat < 2 ^ 16 ∧ (s.readReg 0x060).toNat < 2 ^ 16
      ∧ s.readReg 0x048 &&& ~~~(0x1071F : Word) = 0)

/-- Rules R36, R42, R44, R45, R52, R384, R450, R451: the fields of STATUS; ERR_CODE of every error, as a number (CLASS [7:0],
DETAIL [15:8]); CTX_STATUS of every kind of context in every state, as a number added to the handle (kind [11:8], state
[15:12]); the fields of INFO_FLAGS. -/
def Obligations.StatusFieldLayouts : Prop :=
  (∀ s : State, (s.readReg 0x008).getLsbD 0 = s.busy ∧ (s.readReg 0x008).getLsbD 1 = s.done
      ∧ (s.readReg 0x008).getLsbD 2 = ((s.readReg 0x03C).extractLsb' 0 8 != 0))
  ∧ (let table : List (Err × Word) :=
       [(.illegalCommand, 0x0101), (.badHandle, 0x0201), (.nullPointer, 0x0301), (.lengthTooLarge, 0x0401),
         (.bufferOverlap, 0x0501), (.badParam, 0x0601), (.contentSizeWrong, 0x0701), (.addressRange, 0x0801)]
       ++ [(.capacityBound, 0x0102), (.capacityOutput, 0x0202)]
       ++ [(.corrupt .truncated, 0x0103), (.corrupt .offsetZero, 0x0203), (.corrupt .offsetOutOfWindow, 0x0303),
         (.corrupt .literalPastSource, 0x0403), (.corrupt .outputOverflow, 0x0503), (.corrupt .tailRule, 0x0603),
         (.corrupt .badMagic, 0x0703), (.corrupt .headerChecksum, 0x0803), (.corrupt .badVersion, 0x0903)]
       ++ [(.corrupt .reservedBit, 0x0A03), (.corrupt .badBlockSizeId, 0x0B03), (.corrupt .blockTooLarge, 0x0C03),
         (.corrupt .blockChecksum, 0x0D03), (.corrupt .contentChecksum, 0x0E03), (.corrupt .contentSizeMismatch, 0x0F03),
         (.corrupt .trailingData, 0x1003), (.corrupt .legacySize, 0x1103)]
       ++ [(.noContextSlot, 0x0104), (.wrongState, 0x0105), (.contextFailed, 0x0205), (.chunkInput, 0x0106),
         (.chunkOutput, 0x0206)]
     (∀ row ∈ table, ∀ pos, errCodeWord (some (row.1, pos)) = row.2) ∧ (∀ e : Err, ∃ w, (e, w) ∈ table)
     ∧ errCodeWord none = 0)
  ∧ (∀ h : BitVec 8,
      let status (ctx : Option Ctx) (code : Nat) : Prop := ctxStatusWord h ctx = BitVec.ofNat 32 (code + h.toNat)
      status none 0
      ∧ (∀ c, status (some (.cstream c)) 0x0100)
      ∧ (∀ c, (c.state = .ready → status (some (.dstream c)) 0x0200) ∧ (c.state = .failed → status (some (.dstream c)) 0xF200))
      ∧ (∀ c, (c.fstate = .idle → status (some (.fcomp c)) 0x0300) ∧ (c.fstate = .headerEmitted → status (some (.fcomp c)) 0x1300)
        ∧ (c.fstate = .updating → status (some (.fcomp c)) 0x2300) ∧ (c.fstate = .ended → status (some (.fcomp c)) 0x3300))
      ∧ (∀ c, (c.dstate = .idle → status (some (.fdecomp c)) 0x0400)
        ∧ (c.dstate = .frameInfoKnown → status (some (.fdecomp c)) 0x1400)
        ∧ (c.dstate = .decoding → status (some (.fdecomp c)) 0x2400)
        ∧ (c.dstate = .complete → status (some (.fdecomp c)) 0x3400)
        ∧ (c.dstate = .failed → status (some (.fdecomp c)) 0xF400)))
  ∧ (∀ i : FrameInfo, i.bsid < 8 → i.flagsWord.getLsbD 0 = i.indep ∧ i.flagsWord.getLsbD 1 = i.bcrc
      ∧ i.flagsWord.getLsbD 2 = i.csflag ∧ i.flagsWord.getLsbD 3 = i.ccrc ∧ i.flagsWord.getLsbD 4 = i.dflag
      ∧ i.flagsWord.extractLsb' 8 3 = BitVec.ofNat 3 i.bsid ∧ i.flagsWord.getLsbD 16 = i.skippable)

/-- Rule R461: IRQ is CTRL.IE AND STATUS.DONE; it rises when a command completes with IE = 1 or when the host sets IE while
DONE = 1, and falls when DONE is cleared, a command is accepted, IE is cleared or the device is reset. -/
def Obligations.InterruptOutput : Prop :=
  (∀ s : State, s.irq = ((s.readReg 0x004).getLsbD 0 && (s.readReg 0x008).getLsbD 1))
  ∧ (∀ (i : Instr) (s t : State), i.isCommand = true → exec i s = .next t → s.params.holes = [] → t.irq = s.ie)
  ∧ (∀ (s : State) (v : Word) (later : List HostEvent), s.inbox = .regWrite (s.regAddr 0x004) 4 v :: later →
      ∃ t, step s = .next t ∧ t.irq = (v.getLsbD 0 && s.done && !v.getLsbD 1))
  ∧ (∀ (s : State) (v : Word) (later : List HostEvent), s.inbox = .regWrite (s.regAddr 0x008) 4 v :: later →
      ∃ t, step s = .next t ∧ t.irq = (s.irq && !v.getLsbD 1))
  ∧ (∀ (s : State) (w : Word) (later : List HostEvent), s.inbox = .regWrite (s.regAddr 0x00C) 4 w :: later → s.busy = false →
      ∃ t, step s = .next t ∧ t.irq = false)
  ∧ (∀ (s : State) (later : List HostEvent), s.inbox = .platformReset :: later → ∃ t, step s = .next t ∧ t.irq = false)

/-! ## Every command -/

/-- Rules R36, R92, R453, R462: every command, whatever its arguments, ends: BUSY 0, DONE 1. Where the platform lacks memory
and the default policy holds, it ends or sticks the engine, and no run of a stuck engine without a device reset gets BUSY back
to 0 or gives the command a result. That a stuck command has changed nothing, not even memory, is log entry 4 (DEDUCED): rules
R86 (b) and R92 leave open what it has written. -/
def Obligations.EveryCommandEndsOrSticks : Prop :=
  (∀ (i : Instr) (s : State), i.isCommand = true →
    (s.params.holes = [] → ∃ t, exec i s = .next t ∧ t.busy = false ∧ t.done = true ∧ t.work = .idle)
    ∧ (s.params.dmaFaultPolicy = .stuck → ∃ t, exec i s = .next t
        ∧ ((t.busy = false ∧ t.done = true ∧ t.work = .idle) ∨ t = { s with busy := true, stuck := true })))
  ∧ (∀ (n : Nat) (s t : State), s.busy = true → s.stuck = true →
      (∀ e ∈ s.inbox, e ≠ .platformReset ∧ ∀ v : Word, v.getLsbD 1 = true → e ≠ .regWrite (s.regAddr 0x004) 4 v) →
      core.run n s = .next t →
      t.busy = true ∧ t.stuck = true ∧ t.results = s.results ∧ t.info = s.info ∧ t.slots = s.slots ∧ t.args = s.args)

/-- Rules R30, R43, R45, R80, R151, R384: what no command changes: the host's registers and the parameters; every context slot but
the one named (CTX_CREATE: but a free one; handles have 8 bits, so 255 slots at most, rule R9); the INFO registers, but for FRAME_INFO and FRAME_DECOMPRESS; memory, for a
command that uses no destination buffer. Rule R458: only CTX_RESET and CTX_DESTROY change a FAILED context, and
a FAILED DSTREAM also CTX_LOAD_DICT where the engine follows rule R303's pseudocode (log entry 18, DESIGN CHOICE). -/
def Obligations.CommandFrame : Prop :=
  ∀ (i : Instr) (s t : State), i.isCommand = true → s.slots.length ≤ 255 → exec i s = .next t →
    t.params = s.params ∧ t.ie = s.ie ∧ t.args = s.args ∧ t.inbox = s.inbox ∧ t.hostData = s.hostData
    ∧ t.slots.length = s.slots.length
    ∧ (∀ k, k ≠ i.handle → slotAt s.slots k ≠ none ∨ (∀ h r, i ≠ .ctxCreate h r) →
        slotAt t.slots k = slotAt s.slots k)
    ∧ (∀ k c, slotAt s.slots k = some c →
        (∃ d, c = .dstream d ∧ d.state = .failed) ∨ (∃ d, c = .fdecomp d ∧ d.dstate = .failed) →
        (∀ r, i ≠ .ctxReset k r) → (∀ r, i ≠ .ctxDestroy k r) →
        ((∀ r, i ≠ .ctxLoadDict k r) ∨ s.params.dictRecovers = false ∨ ∃ d, c = .fdecomp d) → slotAt t.slots k = some c)
    ∧ ((∀ h r, i ≠ .frameInfo h r) → (∀ h r, i ≠ .frameDecompress h r) → t.info = s.info)
    ∧ (usesDest i = false → s.raced = [] → t.mem = s.mem)

/-- Rule R84: in every outcome, success or error, and even when the host raced with the command, no command writes a byte
outside `[DST, DST + DST_CAP)`. -/
def Obligations.NoWriteOutsideDestination : Prop :=
  ∀ (i : Instr) (s t : State) (a : Nat), i.isCommand = true → exec i s = .next t →
    (a < s.dstAddr ∨ s.dstAddr + s.dstCap ≤ a) → Memory.read t.mem a = Memory.read s.mem a

/-- Rules R452, R455, R456 (a): a command that ends in an error of any class but CORRUPT_INPUT, and not in
ChunkTooLarge(OUTPUT), has written no byte of memory and changed no context and no INFO register; RESULT_LEN, CONSUMED and
ERR_OFFSET are 0. -/
def Obligations.EarlyErrorsChangeNothing : Prop :=
  ∀ (i : Instr) (s t : State), i.isCommand = true → s.undisturbed = true → exec i s = .next t →
    (t.readReg 0x03C).extractLsb' 0 8 ≠ 0 → (t.readReg 0x03C).extractLsb' 0 8 ≠ 3 → t.readReg 0x03C ≠ 0x0206 →
    t.mem = s.mem ∧ t.slots = s.slots ∧ t.info = s.info
    ∧ t.readReg 0x034 = 0 ∧ t.readReg 0x038 = 0 ∧ t.readReg 0x040 = 0 ∧ t.readReg 0x044 = 0 ∧ t.readReg 0x008 = 6

/-- Rules R87, R457, R84: a command is a function of its arguments, its source bytes, the contexts and the parameters: two
machines that agree on these, and differ anywhere else in memory, get the same registers, contexts and output bytes. -/
def Obligations.CommandsAreDeterministic : Prop :=
  ∀ (i : Instr) (s₁ s₂ : State), i.isCommand = true → s₁.undisturbed = true → s₂.undisturbed = true →
    s₁.params = s₂.params → s₁.args = s₂.args → s₁.slots = s₂.slots → s₁.info = s₂.info →
    s₁.sourceBytes = s₂.sourceBytes →
    ∃ t₁ t₂, exec i s₁ = .next t₁ ∧ exec i s₂ = .next t₂
      ∧ t₁.results = t₂.results ∧ t₁.slots = t₂.slots ∧ t₁.info = t₂.info
      ∧ (usesDest i = true → ∀ k < t₁.results.resultLen.toNat,
          Memory.read t₁.mem (s₁.dstAddr + k) = Memory.read t₂.mem (s₂.dstAddr + k))

/-- Rules R31, R36, R42, R44 to R51, R386 to R397, R451: the invariant `State.ok` (legal parameters, canonical memory, `N_CTX`
well-formed contexts with histories within WINDOW and tables within `2^HASH_LOG`, no working register in use, BUSY and DONE
never both 1, ERR_CODE one of the table's, reserved bits 0) is kept by every step from every state. -/
def Obligations.StepKeepsInvariant : Prop := ∀ s t : State, s.ok = true → step s = .next t → t.ok = true

/-- The invariant holds after reset. The reset values are rule R491's; the parameters are rule R9's defaults with memory
everywhere (DESIGN CHOICE, log entry 5). -/
def Obligations.ResetMeetsInvariant : Prop := State.reset.ok = true

/-- Rules R33 (a), R54, R80, R83, R89 (b), R92, R495. A well-formed machine is refused only an access to register space that is
not a naturally aligned 32-bit one (a byte access among them), or a register access outside it (log entry 13's DESIGN CHOICE).
It faults only on a host memory access at an address that does not exist or has no memory behind it, of which the spec says
nothing (log entry 19's DESIGN CHOICE), or, under a platform policy, on a
command's access to a byte of its source or destination buffer that has no memory behind it: no command word and no data stops
it. A host memory access stops exactly there. Elsewhere a write stores its byte and a read returns the byte at the address,
nothing else changing, except for a race: while a command runs, a write to a byte of its buffers and a read of its destination
are marked, and the read returns a free byte. The command reads its source bytes as they stand, a marked one as a free byte; at
its end in a race every byte of its destination that has memory is a free byte. How far a race reaches is log entry 3's DESIGN
CHOICE. -/
def Obligations.StopsOnlyWhereSpecSays : Prop :=
  ∀ s : State, s.ok = true →
    (∀ x, step s = .refused x → x = .registerAccess ∧ ∃ a later,
        ((∃ width, (s.inbox = .regRead a width :: later ∨ ∃ v, s.inbox = .regWrite a width v :: later)
            ∧ (width ≠ 4 ∨ a % 4 ≠ 0 ∨ a < s.params.regBase ∨ s.params.regBase + 4096 ≤ a))
          ∨ ((s.inbox = .memRead a :: later ∨ ∃ b, s.inbox = .memWrite a b :: later)
            ∧ s.params.regBase ≤ a ∧ a < s.params.regBase + 4096)))
    ∧ (∀ f, step s = .fault f →
        (f = .dmaPlatform ∧ s.params.dmaFaultPolicy = .platform
          ∧ ((usesSource s.command = true ∧ s.hitsHole s.srcAddr s.srcLen = true)
            ∨ (usesDest s.command = true ∧ s.hitsHole s.dstAddr s.dstCap = true)))
        ∨ ∃ a later, (s.inbox = .memRead a :: later ∨ ∃ b, s.inbox = .memWrite a b :: later)
          ∧ (a < s.params.regBase ∨ s.params.regBase + 4096 ≤ a)
          ∧ ((f = .hostAddressRange ∧ 2 ^ s.params.addrWidth ≤ a) ∨ (f = .hostNoMemory ∧ s.hitsHole a 1 = true)))
    ∧ ∀ (a : Nat) (later : List HostEvent),
        let inRegisters := s.params.regBase ≤ a ∧ a < s.params.regBase + 4096
        let addressable := a < 2 ^ s.params.addrWidth
        let inDest := usesDest s.command = true ∧ s.dstAddr ≤ a ∧ a < s.dstAddr + s.dstCap
        let inSource := usesSource s.command = true ∧ s.srcAddr ≤ a ∧ a < s.srcAddr + s.srcLen
        (∀ b : Byte, s.inbox = .memWrite a b :: later →
          (inRegisters → step s = .refused .registerAccess)
          ∧ (¬inRegisters → ¬addressable → step s = .fault .hostAddressRange)
          ∧ (¬inRegisters → addressable → s.hitsHole a 1 = true → step s = .fault .hostNoMemory)
          ∧ (¬inRegisters → addressable → s.hitsHole a 1 = false → ∃ t, step s = .next t
            ∧ t = { s with inbox := later, mem := t.mem, raced := t.raced }
            ∧ (∀ x, Memory.read t.mem x = if x = a then b else Memory.read s.mem x)
            ∧ ∀ x, x ∈ t.raced ↔ x ∈ s.raced ∨ (x = a ∧ s.busy = true ∧ (inSource ∨ inDest))))
        ∧ (s.inbox = .memRead a :: later →
          (inRegisters → step s = .refused .registerAccess)
          ∧ (¬inRegisters → ¬addressable → step s = .fault .hostAddressRange)
          ∧ (¬inRegisters → addressable → s.hitsHole a 1 = true → step s = .fault .hostNoMemory)
          ∧ (¬inRegisters → addressable → s.hitsHole a 1 = false → ¬(s.busy = true ∧ inDest) →
            step s = .next { s with inbox := later, hostData := BitVec.ofNat 32 (Memory.read s.mem a).toNat })
          ∧ (¬inRegisters → addressable → s.hitsHole a 1 = false → s.busy = true → inDest → ∃ t, step s = .next t
            ∧ t = { s with
                inbox := later
                hostData := BitVec.ofNat 32 (Config.freeByte s.freeCount).toNat
                raced := t.raced
                freeCount := s.freeCount + 1 }
            ∧ ∀ x, x ∈ t.raced ↔ x ∈ s.raced ∨ x = a))
        ∧ (s.source.length = s.srcLen ∧ ∀ k < s.srcLen, byteAt s.source k =
          if s.srcAddr + k ∈ s.raced then Config.freeByte (s.freeCount + k) else Memory.read s.mem (s.srcAddr + k))
        ∧ ∀ t, s.inbox = [] → s.raced ≠ [] → s.stuck = false → step s = .next t → t.stuck = false → inDest →
            addressable → s.hitsHole a 1 = false → Memory.read t.mem a = Config.freeByte (s.freeCount + s.srcLen + (a - s.dstAddr))

/-- Rules R150, R153 (a), R454: a command whose OPCODE is in no row of the table is accepted and fails with
InvalidArgument(ILLEGAL_COMMAND), before any other check. That CTX_STATUS then reports the handle CMD named is log entry 17
(DEDUCED). -/
def Obligations.IllegalCommandResult : Prop :=
  ∀ (op h : BitVec 8) (rsvd : BitVec 16) (s : State), s.undisturbed = true →
    s.RunsTo (.illegalCommand op h rsvd) (s.failure h .illegalCommand)

/-! ## The block compressor -/

/-- Rules R200, R201: BOUND. That CTX_STATUS reports the handle CMD named, when an error leaves one there, is log entry 17
(DEDUCED); with HANDLE 0 it is 0, as rule R201 says. -/
def Obligations.BoundResult : Prop :=
  (∀ (h : BitVec 8) (rsvd : BitVec 16) (s : State), s.undisturbed = true →
    s.RunsTo (.bound h rsvd)
      (let n := s.args.param0.toNat
       if rsvd ≠ 0 then s.failure h .badParam
       else if h ≠ 0 then s.failure h .badHandle
       else if 0x7E000000 < n then s.failure h .lengthTooLarge
       else { s.success h with resultLen := n + n / 255 + 16 }))
  ∧ (∀ n, n ≤ 0x7E000000 → n + n / 255 + 16 < 2 ^ 32)

/-- Rules R202, R203: COMPRESS, with the engine's HASH_FN, a parameter (rule R9): an index of the table, and by default the
function of rule R211. That CTX_STATUS reports the handle CMD named, when an error leaves one there, is log entry 17 (DEDUCED);
with HANDLE 0 it is 0, as rule R202 says. -/
def Obligations.CompressResult : Prop :=
  (∀ (s : State) (x : Word), s.params.wf = true → s.hash x < 2 ^ s.params.hashLog
    ∧ (s.params.hashFn = .knuth → s.hash x = x.toNat * 2654435761 % 2 ^ 32 / 2 ^ (32 - s.params.hashLog)))
  ∧ ∀ (h : BitVec 8) (rsvd : BitVec 16) (s : State), s.undisturbed = true →
    s.RunsTo (.compress h rsvd)
      (let n := s.srcLen
       let hdr := if s.args.param0.toNat % 2 = 1 then bytesLE 4 n else []
       let out := hdr ++ (compressCore s.hash [] s.sourceBytes [] 0).1
       if rsvd ≠ 0 then s.failure h .badParam
       else if h ≠ 0 then s.failure h .badHandle
       else if s.args.param0.toNat / 2 ≠ 0 then s.failure h .badParam
       else match s.bufferFault true true with
        | some e => s.failure h e
        | none =>
          if s.dstCap < n + n / 255 + 16 + hdr.length then s.failure h .capacityBound
          else { s.success h with out := out, resultLen := out.length, consumed := n })

/-- Rule R113: the encoding of a length value, and that it is the only one that decodes to it under rule R112. -/
def Obligations.LengthFieldEncoding : Prop :=
  ∀ v : Nat,
    (v < 15 → lenNibble v = BitVec.ofNat 4 v ∧ lenExtBytes v = [])
    ∧ (15 ≤ v → lenNibble v = 15 ∧ lenExtBytes v = List.replicate ((v - 15) / 255) 0xFF ++ [byteOf ((v - 15) % 255)])
    ∧ ∀ (k : Nat) (b : Byte), b ≠ 0xFF → 15 + 255 * k + b.toNat = v → lenExtBytes v = List.replicate k 0xFF ++ [b]

/-- Rules R10, R222 (a), (c), (d): what the compressor writes decodes to its input, for every hash function, every history and
every table of earlier positions, whatever STRICT_TAIL is. -/
def Obligations.CompressorRoundTrip : Prop :=
  ∀ (hash : Word → Nat) (strictTail : Bool) (hist src : List Byte) (table : HashTable) (hstart cap : Nat),
    (∀ h v, Table.get table h = some v → v < hstart + hist.length) → src.length ≤ cap →
    blockDecode strictTail (compressCore hash hist src table hstart).1 cap hist = (src, none)

/-- Rules R10, R218, R222 (b), (e): the compressor's output is never empty and never longer than `n + n div 255 + 2`; an input of
fewer than 13 bytes is one sequence of literals, and the table is not touched. -/
def Obligations.CompressorBound : Prop :=
  ∀ (hash : Word → Nat) (hist src : List Byte) (table : HashTable) (hstart : Nat),
    (compressCore hash hist src table hstart).1 ≠ []
    ∧ (compressCore hash hist src table hstart).1.length ≤ src.length + src.length / 255 + 2
    ∧ (src.length < 13 → compressCore hash hist src table hstart = (byteOf (16 * src.length) :: src, table))

/-! ## The block decompressor -/

/-- Rules R250, R251, R268: DECOMPRESS, of a block and of a legacy container. That CTX_STATUS reports the handle CMD named, when an
error leaves one there, is log entry 17 (DEDUCED); with HANDLE 0 it is 0, as rule R250 says. -/
def Obligations.DecompressResult : Prop :=
  ∀ (h : BitVec 8) (rsvd : BitVec 16) (s : State), s.undisturbed = true →
    s.RunsTo (.decompress h rsvd)
      (let x := s.sourceBytes
       let size := leNat (x.take 4)
       let block := blockDecode s.params.strictTail x s.dstCap []
       let legacy := blockDecode s.params.strictTail (x.drop 4) size []
       if rsvd ≠ 0 then s.failure h .badParam
       else if h ≠ 0 then s.failure h .badHandle
       else if s.args.param0.toNat / 2 ≠ 0 then s.failure h .badParam
       else match s.bufferFault true true with
        | some e => s.failure h e
        | none =>
          if s.args.param0.toNat % 2 = 1 then
            if s.srcLen < 4 then s.failure h (.corrupt .truncated)
            else if 0x7E000000 < size then s.failure h (.corrupt .legacySize)
            else if s.dstCap < size then s.failure h .capacityOutput
            else match legacy.2 with
              | some (d, pos) =>
                { s.success h with out := legacy.1, resultLen := legacy.1.length, err := some (.corrupt d, pos + 4) }
              | none =>
                if legacy.1.length ≠ size then
                  { s.success h with
                    out := legacy.1, resultLen := legacy.1.length, err := some (.corrupt .legacySize, s.srcLen) }
                else { s.success h with out := legacy.1, resultLen := legacy.1.length, consumed := s.srcLen }
          else match block.2 with
            | some (d, pos) => { s.success h with out := block.1, resultLen := block.1.length, err := some (.corrupt d, pos) }
            | none => { s.success h with out := block.1, resultLen := block.1.length, consumed := s.srcLen })

/-- Rules R111, R255: the token fetch, and TOKEN. -/
def Obligations.TokenElement : Prop :=
  ∀ (s : State) (o : BlockOwner) (p : BlockParser), s.work = .block o p → p.phase = .token →
    (p.src.length ≤ p.ip →
      s.engineTurn = .next { s with work := .block o { p with phase := .ended (some (.truncated, p.ip)) } })
    ∧ (p.ip < p.src.length → ∃ l m, byteAt p.src p.ip = l ++ m ∧ s.engineTurn = exec (.token l m) s)
    ∧ ∀ l m : BitVec 4, exec (.token l m) s = .next { s with
        work := .block o { p with
          tok := p.ip
          token := l ++ m
          ip := p.ip + 1
          ll := l.toNat
          phase := if l.toNat = 15 then .litExt else .literals } }

/-- Rules R112, R256, R262, R263, R264: LEN_EXT, of a literal length and of a match length; the last byte of a match length is
followed by the bounds check and the copy. -/
def Obligations.LengthExtensionElement : Prop :=
  ∀ (s : State) (o : BlockOwner) (p : BlockParser) (v : Byte), s.work = .block o p →
    ((p.phase = .litExt ∨ p.phase = .matchExt) →
      (p.src.length ≤ p.ip →
        s.engineTurn = .next { s with work := .block o { p with phase := .ended (some (.truncated, p.ip)) } })
      ∧ (p.ip < p.src.length → s.engineTurn = exec (.lenExt (byteAt p.src p.ip)) s))
    ∧ (p.phase = .litExt → exec (.lenExt v) s = .next { s with
        work := .block o { p with
          ip := p.ip + 1
          ll := p.ll + v.toNat
          phase := if v = 0xFF then .litExt else .literals } })
    ∧ (p.phase = .matchExt →
        (v = 0xFF → exec (.lenExt v) s = .next { s with
          work := .block o { p with ip := p.ip + 1, ml := p.ml + 255 } })
        ∧ (v ≠ 0xFF → p.cap < p.out.length + (p.ml + v.toNat) → exec (.lenExt v) s = .next { s with
          work := .block o { p with
            ip := p.ip + 1
            ml := p.ml + v.toNat
            phase := .ended (some (.outputOverflow, p.tok)) } })
        ∧ (v ≠ 0xFF → p.out.length + (p.ml + v.toNat) ≤ p.cap → exec (.lenExt v) s = .next { s with
          work := .block o { p with
            ip := p.ip + 1
            ml := p.ml + v.toNat
            out := p.out ++ matchBytes (p.hist ++ p.out) p.off (p.ml + v.toNat)
            marks := p.marks ++ [⟨p.out.length, p.out.length + (p.ml + v.toNat), p.tok⟩]
            phase := .token } }))

/-- Rules R114, R257, R258, R259, R266: the literal field: the two bounds checks before the copy, the copy, and the end of the
block, where the tail rule applies if STRICT_TAIL is set. The tail rule is read on integers, also for an output of fewer than 12
bytes: log entry 17 (DEDUCED). -/
def Obligations.LiteralField : Prop :=
  ∀ (s : State) (o : BlockOwner) (p : BlockParser), s.work = .block o p → p.phase = .literals → p.ip ≤ p.src.length →
    (p.src.length < p.ip + p.ll →
      s.engineTurn = .next { s with work := .block o { p with phase := .ended (some (.literalPastSource, p.tok)) } })
    ∧ (p.ip + p.ll ≤ p.src.length → s.engineTurn = exec (.literals ((p.src.drop p.ip).take p.ll)) s)
    ∧ ∀ bs : List Byte,
        (p.cap < p.out.length + bs.length → exec (.literals bs) s = .next { s with
          work := .block o { p with phase := .ended (some (.outputOverflow, p.tok)) } })
        ∧ (p.out.length + bs.length ≤ p.cap → p.ip + bs.length ≠ p.src.length → exec (.literals bs) s = .next { s with
          work := .block o { p with out := p.out ++ bs, ip := p.ip + bs.length, phase := .offset } })
        ∧ (p.out.length + bs.length ≤ p.cap → p.ip + bs.length = p.src.length → ∃ st, exec (.literals bs) s = .next { s with
            work := .block o { p with out := p.out ++ bs, ip := p.ip + bs.length, phase := .ended st } }
          ∧ ((p.strictTail = false ∨ ∀ m ∈ p.marks,
                m.start + 12 ≤ p.out.length + bs.length ∧ m.stop + 5 ≤ p.out.length + bs.length) → st = none)
          ∧ (∀ m before after, p.strictTail = true → p.marks = before ++ m :: after →
              (∀ x ∈ before, x.start + 12 ≤ p.out.length + bs.length ∧ x.stop + 5 ≤ p.out.length + bs.length) →
              (p.out.length + bs.length < m.start + 12 ∨ p.out.length + bs.length < m.stop + 5) →
              st = some (.tailRule, m.tok)))

/-- Rules R115, R260, R261, R262, R263: the offset field and its checks, then the match length and, without extension bytes, the
copy. -/
def Obligations.OffsetField : Prop :=
  ∀ (s : State) (o : BlockOwner) (p : BlockParser), s.work = .block o p → p.phase = .offset → p.ip ≤ p.src.length →
    (p.src.length < p.ip + 2 →
      s.engineTurn = .next { s with work := .block o { p with phase := .ended (some (.truncated, p.ip)) } })
    ∧ (p.ip + 2 ≤ p.src.length →
        s.engineTurn = exec (.offset (BitVec.ofNat 16 ((byteAt p.src p.ip).toNat + 256 * (byteAt p.src (p.ip + 1)).toNat))) s)
    ∧ ∀ off : BitVec 16,
        (off = 0 → exec (.offset off) s = .next { s with
          work := .block o { p with phase := .ended (some (.offsetZero, p.ip)) } })
        ∧ (p.out.length + p.hist.length < off.toNat → exec (.offset off) s = .next { s with
          work := .block o { p with phase := .ended (some (.offsetOutOfWindow, p.ip)) } })
        ∧ (off ≠ 0 → off.toNat ≤ p.out.length + p.hist.length →
            (p.token.toNat % 16 = 15 → exec (.offset off) s = .next { s with
              work := .block o { p with ip := p.ip + 2, off := off.toNat, ml := 19, phase := .matchExt } })
            ∧ (p.token.toNat % 16 ≠ 15 → p.cap < p.out.length + (p.token.toNat % 16 + 4) →
              exec (.offset off) s = .next { s with
                work := .block o { p with
                  ip := p.ip + 2
                  off := off.toNat
                  ml := p.token.toNat % 16 + 4
                  phase := .ended (some (.outputOverflow, p.tok)) } })
            ∧ (p.token.toNat % 16 ≠ 15 → p.out.length + (p.token.toNat % 16 + 4) ≤ p.cap →
              exec (.offset off) s = .next { s with
                work := .block o { p with
                  ip := p.ip + 2
                  off := off.toNat
                  ml := p.token.toNat % 16 + 4
                  out := p.out ++ matchBytes (p.hist ++ p.out) off.toNat (p.token.toNat % 16 + 4)
                  marks := p.marks ++ [⟨p.out.length, p.out.length + (p.token.toNat % 16 + 4), p.tok⟩]
                  phase := .token } }))

/-- Rules R264, R499: the match copy: `ML` bytes, each equal to the byte `off` places before it, those the same copy wrote
included. -/
def Obligations.MatchCopyIsPeriodic : Prop :=
  ∀ (win : List Byte) (off ml : Nat), 1 ≤ off → off ≤ win.length →
    (matchBytes win off ml).length = ml
    ∧ ∀ k < ml, byteAt (win ++ matchBytes win off ml) (win.length + k)
        = byteAt (win ++ matchBytes win off ml) (win.length + k - off)

/-- Rules R252, R253, R254, R265, R268: whatever the input, the decoder produces at most `cap` bytes and ends with OK or with
one of its six details at an index inside the input (`n` itself only for TRUNCATED); an empty input is truncated at 0. -/
def Obligations.DecoderStaysInBounds : Prop :=
  ∀ (strictTail : Bool) (src : List Byte) (cap : Nat) (hist : List Byte),
    (blockDecode strictTail src cap hist).1.length ≤ cap
    ∧ (∀ d pos, (blockDecode strictTail src cap hist).2 = some (d, pos) →
        (d ∈ [.truncated, .offsetZero, .offsetOutOfWindow, .literalPastSource, .outputOverflow]
          ∨ (d = .tailRule ∧ strictTail = true))
        ∧ pos ≤ src.length ∧ (d ≠ .truncated → pos < src.length))
    ∧ blockDecode strictTail [] cap hist = ([], some (.truncated, 0))

/-- Rules R118, R251: LEGACY_SIZE: the size is checked before any write, then the block's parse starts after it with that
size as its capacity. -/
def Obligations.LegacySizeElement : Prop :=
  ∀ (s : State) (src : List Byte) (cap : Nat) (size : Word), s.undisturbed = true → s.work = .legacy src cap →
    (0x7E000000 < size.toNat → s.RunsTo (.legacySize size) (s.failure 0 (.corrupt .legacySize)))
    ∧ (size.toNat ≤ 0x7E000000 → cap < size.toNat → s.RunsTo (.legacySize size) (s.failure 0 .capacityOutput))
    ∧ (size.toNat ≤ 0x7E000000 → size.toNat ≤ cap → exec (.legacySize size) s = .next { s with
        work := .block (.legacy size.toNat src.length)
          { src := src.drop 4
            cap := size.toNat
            hist := []
            strictTail := s.params.strictTail
            ip := 0
            out := []
            tok := 0
            token := 0
            ll := 0
            ml := 0
            off := 0
            marks := []
            phase := .token } })

/-- Rules R30, R265, R267: the elements of a block, executed one after the other by the engine's turns, do what DECOMPRESS and
STREAM_DECOMPRESS do in one step. -/
def Obligations.BlockElementsRefineCommands : Prop :=
  ∀ (h : BitVec 8) (s : State), s.undisturbed = true →
    (firstError (s.decompressChecks 0 0) = none → s.storeSize = false →
      ∃ n, State.turns n { s with
          work := .block .decompress (BlockParser.start s.sourceBytes s.dstCap [] s.params.strictTail) }
        = exec (.decompress 0 0) s)
    ∧ (firstError (s.decompressChecks 0 0) = none → s.storeSize = true →
      ∃ n, State.turns n { s with work := .legacy s.sourceBytes s.dstCap } = exec (.decompress 0 0) s)
    ∧ (∀ c, slotAt s.slots h = some (.dstream c) → c.state = .ready → s.bufferFault true true = none →
      ∃ n, State.turns n { s with
          work := .block (.stream h)
            (BlockParser.start s.sourceBytes (min s.dstCap c.blockSize) c.hist s.params.strictTail) }
        = exec (.streamDecompress h 0) s)

/-! ## Contexts -/

/-- Rules R300, R459, R492: CTX_CREATE. That CTX_STATUS reports the handle CMD named, when an error leaves one there, is log entry
17 (DEDUCED). -/
def Obligations.CtxCreateResult : Prop :=
  ∀ (h : BitVec 8) (rsvd : BitVec 16) (s : State), s.undisturbed = true → s.slots.length ≤ 255 →
    let kind := s.args.param0.toNat % 16
    let blockSize := if s.args.param1.toNat = 0 then 65536 else s.args.param1.toNat
    let badParam := s.args.param0.toNat / 16 ≠ 0 ∨ kind = 0 ∨ 4 < kind ∨ (kind ≤ 2 ∧ 0x7E000000 < blockSize)
    (rsvd ≠ 0 → s.RunsTo (.ctxCreate h rsvd) (s.failure h .badParam))
    ∧ (rsvd = 0 → h ≠ 0 → s.RunsTo (.ctxCreate h rsvd) (s.failure h .badHandle))
    ∧ (rsvd = 0 → h = 0 → badParam → s.RunsTo (.ctxCreate h rsvd) (s.failure h .badParam))
    ∧ (rsvd = 0 → h = 0 → ¬badParam → (∀ c ∈ s.slots, c ≠ none) → s.RunsTo (.ctxCreate h rsvd) (s.failure h .noContextSlot))
    ∧ (∀ before after, rsvd = 0 → h = 0 → ¬badParam → s.slots = before ++ none :: after → (∀ c ∈ before, c ≠ none) →
        s.RunsTo (.ctxCreate h rsvd) { s.success (BitVec.ofNat 8 (before.length + 1)) with
          resultLen := before.length + 1
          slots := before ++ some (Ctx.fresh kind blockSize) :: after })

/-- Rule R301: CTX_DESTROY never fails: it frees the slot named, ignores CMD[31:16], and does nothing for a free, zero or
out-of-range handle. -/
def Obligations.CtxDestroyNeverFails : Prop :=
  ∀ (h : BitVec 8) (rsvd : BitVec 16) (s : State), s.undisturbed = true →
    ∃ t, exec (.ctxDestroy h rsvd) s = .next t ∧ s.EndsWith { s.success h with slots := t.slots } t
      ∧ slotAt t.slots h = none ∧ (∀ k, k ≠ h → slotAt t.slots k = slotAt s.slots k)
      ∧ (slotAt s.slots h = none → t.slots = s.slots)

/-- Rules R302, R458, R492: CTX_RESET. -/
def Obligations.CtxResetResult : Prop :=
  ∀ (h : BitVec 8) (rsvd : BitVec 16) (s : State), s.undisturbed = true →
    s.RunsTo (.ctxReset h rsvd)
      (if rsvd ≠ 0 then s.failure h .badParam
       else match slotAt s.slots h with
        | none => s.failure h .badHandle
        | some c =>
          { s.success h with slots := s.slots.set (h.toNat - 1) (some (Ctx.fresh c.kindCode c.blockSize)) })

/-- Rule R303: CTX_LOAD_DICT, with the engine's HASH_FN, a parameter (rule R9). A FAILED DSTREAM is
taken too and becomes READY, as the rule's pseudocode has it, unless the engine keeps to rule R458's "only by CTX_RESET or
CTX_DESTROY" and answers CONTEXT_FAILED: that the model holds both as a parameter is log entry 18's DESIGN CHOICE. -/
def Obligations.CtxLoadDictResult : Prop :=
  ∀ (h : BitVec 8) (rsvd : BitVec 16) (s : State), s.undisturbed = true →
    s.RunsTo (.ctxLoadDict h rsvd)
      (let dict := s.sourceBytes.drop (s.srcLen - 65536)
       let loaded (c : Ctx) : Report :=
         { s.success h with consumed := s.srcLen, slots := s.slots.set (h.toNat - 1) (some c) }
       let checked (r : Report) : Report :=
         match s.bufferFault true false with
          | some e => s.failure h e
          | none => r
       if rsvd ≠ 0 then s.failure h .badParam
       else match slotAt s.slots h with
        | some (.cstream c) =>
          checked (loaded (.cstream
            { blockSize := c.blockSize
              hist := dict
              spos := dict.length
              table := (List.range (dict.length - 3)).foldl
                (fun t i => Table.set t (s.hash (BitVec.ofNat 32 (le32 dict i))) i) [] }))
        | some (.dstream c) =>
          if c.state = .failed ∧ s.params.dictRecovers = false then s.failure h .contextFailed
          else checked (loaded (.dstream { blockSize := c.blockSize, hist := dict, state := .ready }))
        | some (.fdecomp c) =>
          if c.dstate = .failed then s.failure h .contextFailed
          else if c.dstate ≠ .idle then s.failure h .wrongState
          else checked (loaded (.fdecomp { FDecomp.initial with dict := dict }))
        | some (.fcomp _) => s.failure h .badHandle
        | none => s.failure h .badHandle)

/-! ## Streams -/

/-- Rule R304: STREAM_COMPRESS, with the engine's HASH_FN, a parameter (rule R9). -/
def Obligations.StreamCompressResult : Prop :=
  ∀ (h : BitVec 8) (rsvd : BitVec 16) (s : State), s.undisturbed = true →
    s.RunsTo (.streamCompress h rsvd)
      (let x := s.sourceBytes
       let n := s.srcLen
       if rsvd ≠ 0 then s.failure h .badParam
       else match slotAt s.slots h with
        | some (.cstream c) =>
          match s.bufferFault true true with
          | some e => s.failure h e
          | none =>
            let r := compressCore s.hash c.hist x c.table (c.spos - c.hist.length)
            if c.blockSize < n then s.failure h .chunkInput
            else if s.dstCap < n + n / 255 + 16 then s.failure h .capacityBound
            else
              { s.success h with
                out := r.1
                resultLen := r.1.length
                consumed := n
                slots := s.slots.set (h.toNat - 1) (some (.cstream
                  { blockSize := c.blockSize
                    hist := (c.hist ++ x).drop ((c.hist ++ x).length - 65536)
                    table := r.2
                    spos := c.spos + n })) }
        | _ => s.failure h .badHandle)

/-- Rule R305: STREAM_DECOMPRESS. -/
def Obligations.StreamDecompressResult : Prop :=
  ∀ (h : BitVec 8) (rsvd : BitVec 16) (s : State), s.undisturbed = true →
    s.RunsTo (.streamDecompress h rsvd)
      (if rsvd ≠ 0 then s.failure h .badParam
       else match slotAt s.slots h with
        | some (.dstream c) =>
          if c.state = .failed then s.failure h .contextFailed
          else match s.bufferFault true true with
          | some e => s.failure h e
          | none =>
            match blockDecode s.params.strictTail s.sourceBytes (min s.dstCap c.blockSize) c.hist with
            | (out, some (d, pos)) =>
              { s.success h with
                out := out
                resultLen := out.length
                err := some (if d = .outputOverflow ∧ c.blockSize ≤ s.dstCap then .chunkOutput else .corrupt d, pos)
                slots := s.slots.set (h.toNat - 1) (some (.dstream { c with state := .failed })) }
            | (out, none) =>
              { s.success h with
                out := out
                resultLen := out.length
                consumed := s.srcLen
                slots := s.slots.set (h.toNat - 1) (some (.dstream
                  { c with hist := (c.hist ++ out).drop ((c.hist ++ out).length - 65536) })) }
        | _ => s.failure h .badHandle)

/-- Rule R306: chunks compressed in order on one CSTREAM and decompressed in order on one DSTREAM that starts with the same
history come back, whatever the chunking, the hash function and STRICT_TAIL. -/
def Obligations.StreamEquivalence : Prop :=
  ∀ (hash : Word → Nat) (strictTail : Bool) (cap : Nat) (c : CStream) (d : DStream) (chunks : List (List Byte)),
    c.hist = d.hist → c.hist.length ≤ c.spos → (∀ h v, Table.get c.table h = some v → v < c.spos) →
    (∀ x ∈ chunks, x.length ≤ d.blockSize ∧ x.length ≤ cap) →
    decompressChunks strictTail cap d (compressChunks hash c chunks) = some chunks

/-! ## The frame compressor -/

/-- Rules R340, R341, R342, R346: FRAME_BEGIN. -/
def Obligations.FrameBeginResult : Prop :=
  ∀ (h : BitVec 8) (rsvd : BitVec 16) (s : State), s.undisturbed = true →
    s.RunsTo (.frameBegin h rsvd)
      (let w := s.args.param0.toNat
       let p : Prefs :=
         { bsid := if w % 8 = 0 then 4 else w % 8
           indep := w / 16 % 2 = 1
           ccrc := w / 32 % 2 = 1
           bcrc := w / 64 % 2 = 1
           autoFlush := w / 128 % 2 = 1
           csize := s.args.param2.toNat * 2 ^ 32 + s.args.param1.toNat }
       if rsvd ≠ 0 then s.failure h .badParam
       else match slotAt s.slots h with
        | some (.fcomp c) =>
          if c.fstate = .headerEmitted ∨ c.fstate = .updating then s.failure h .wrongState
          else if w / 256 ≠ 0 ∨ w / 8 % 2 = 1 ∨ (1 ≤ w % 8 ∧ w % 8 ≤ 3) then s.failure h .badParam
          else match s.bufferFault false true with
          | some e => s.failure h e
          | none =>
            if s.dstCap < p.specHeader.length then s.failure h .capacityOutput
            else
              { s.success h with
                out := p.specHeader
                resultLen := p.specHeader.length
                slots := s.slots.set (h.toNat - 1) (some (.fcomp
                  { fstate := .headerEmitted
                    prefs := p
                    pending := []
                    hist := []
                    table := []
                    spos := 0
                    total := 0
                    content := [] })) }
        | _ => s.failure h .badHandle)

/-- Rules R152, R340, R342: PREFS, at the place where FRAME_BEGIN reads it: an illegal word fails with BAD_PARAM; a legal one
goes on to the header, if the destination holds it. -/
def Obligations.PrefsElement : Prop :=
  ∀ (h : BitVec 8) (s : State) (bsid : BitVec 3) (r3 indep ccrc bcrc auto : Bool) (high : BitVec 24),
    s.undisturbed = true → s.work = .prefs h →
    s.RunsTo (.prefs bsid r3 indep ccrc bcrc auto high)
      (let p : Prefs :=
         { bsid := if bsid = 0 then 4 else bsid.toNat
           indep := indep
           ccrc := ccrc
           bcrc := bcrc
           autoFlush := auto
           csize := s.args.param2.toNat * 2 ^ 32 + s.args.param1.toNat }
       if high ≠ 0 ∨ r3 = true ∨ bsid = 1 ∨ bsid = 2 ∨ bsid = 3 then s.failure h .badParam
       else match s.bufferFault false true with
        | some e => s.failure h e
        | none =>
          if s.dstCap < p.specHeader.length then s.failure h .capacityOutput
          else
            { s.success h with
              out := p.specHeader
              resultLen := p.specHeader.length
              slots := setSlot s.slots h (some (.fcomp { FComp.initial with prefs := p, fstate := .headerEmitted })) })

/-- Rules R121, R341, R381, R399 (a): the header the compressor writes, whatever follows it, parses back to its
preferences. -/
def Obligations.FrameHeaderParsesBack : Prop :=
  ∀ (p : Prefs) (rest : List Byte), bsidOk p.bsid = true → p.csize < 2 ^ 64 →
    p.specHeader.length = (if p.csize = 0 then 7 else 15)
    ∧ parseHeader (p.specHeader ++ rest) = .ok
        { skippable := false
          indep := p.indep
          bcrc := p.bcrc
          csflag := p.csize != 0
          ccrc := p.ccrc
          dflag := false
          bsid := p.bsid
          csize := p.csize
          dictid := 0
          skip := 0 } p.specHeader.length

/-- Rule R343: the block maker. -/
def Obligations.MakeBlockRule : Prop :=
  ∀ (hash : Word → Nat) (c : FComp) (b : List Byte),
    let r := if c.prefs.indep then compressCore hash [] b [] 0 else compressCore hash c.hist b c.table (c.spos - c.hist.length)
    let stored := b.length ≤ r.1.length
    let payload := if stored then b else r.1
    makeBlock hash c b =
      (bytesLE 4 (if stored then 2 ^ 31 + b.length else r.1.length) ++ payload
          ++ (if c.prefs.bcrc then bytesLE 4 (xxh32 payload).toNat else []),
        if c.prefs.indep then c
        else
          { c with
            table := r.2
            hist := (c.hist ++ b).drop ((c.hist ++ b).length - 65536)
            spos := c.spos + b.length })

/-- Rules R344, R346: FRAME_UPDATE, with the engine's HASH_FN, a parameter (rule R9). What `updateFrame` emits and keeps is said by
`FrameUpdateBlocks`. -/
def Obligations.FrameUpdateResult : Prop :=
  ∀ (h : BitVec 8) (rsvd : BitVec 16) (s : State), s.undisturbed = true →
    s.RunsTo (.frameUpdate h rsvd)
      (if rsvd ≠ 0 then s.failure h .badParam
       else match slotAt s.slots h with
        | some (.fcomp c) =>
          if c.fstate = .idle ∨ c.fstate = .ended then s.failure h .wrongState
          else match s.bufferFault true true with
          | some e => s.failure h e
          | none =>
            let r := updateFrame s.hash c s.sourceBytes
            if s.dstCap < r.1.length then s.failure h .capacityOutput
            else
              { s.success h with
                out := r.1
                resultLen := r.1.length
                consumed := s.srcLen
                slots := s.slots.set (h.toNat - 1) (some (.fcomp r.2)) }
        | _ => s.failure h .badHandle)

/-- Rules R344, R347: what FRAME_UPDATE emits: the pending bytes and the new ones are cut into blocks of exactly BLOCK_MAX
bytes, in order, each made into a record, and fewer than BLOCK_MAX bytes stay pending; with AUTO_FLUSH these are a last
block and nothing stays pending. With linked blocks the history is the last 65536 bytes of the old one and the blocks, the position
counts their bytes and the table is the one the blocks leave, made in order; with independent blocks all three stay. -/
def Obligations.FrameUpdateBlocks : Prop :=
  ∀ (hash : Word → Nat) (c : FComp) (src : List Byte), bsidOk c.prefs.bsid = true →
    ∃ (full : List (List Byte)) (last : List Byte),
      let blocks := full ++ (if c.prefs.autoFlush = true ∧ last ≠ [] then [last] else [])
      let t := (updateFrame hash c src).2
      (∀ b ∈ full, b.length = Config.blockMax c.prefs.bsid)
      ∧ last.length < Config.blockMax c.prefs.bsid
      ∧ c.pending ++ src = full.flatten ++ last
      ∧ (updateFrame hash c src).1 = makeBlocks hash blocks c
      ∧ t.pending = (if c.prefs.autoFlush then [] else last)
      ∧ t.fstate = .updating ∧ t.prefs = c.prefs
      ∧ t.total = c.total + src.length ∧ t.content = c.content ++ src
      ∧ (c.prefs.indep = true → t.hist = c.hist ∧ t.spos = c.spos ∧ t.table = c.table)
      ∧ (c.prefs.indep = false →
          t.spos = c.spos + blocks.flatten.length
          ∧ t.table = (afterBlocks hash blocks c).table
          ∧ (c.hist.length ≤ 65536 →
            t.hist = (c.hist ++ blocks.flatten).drop ((c.hist ++ blocks.flatten).length - 65536)))

/-- Rules R345, R346: FRAME_END, with the engine's HASH_FN, a parameter (rule R9). -/
def Obligations.FrameEndResult : Prop :=
  ∀ (h : BitVec 8) (rsvd : BitVec 16) (s : State), s.undisturbed = true →
    s.RunsTo (.frameEnd h rsvd)
      (if rsvd ≠ 0 then s.failure h .badParam
       else match slotAt s.slots h with
        | some (.fcomp c) =>
          let r := makeBlock s.hash c c.pending
          let out := (if c.pending = [] then [] else r.1) ++ [0x00, 0x00, 0x00, 0x00]
            ++ (if c.prefs.ccrc then bytesLE 4 (xxh32 c.content).toNat else [])
          if c.fstate = .idle ∨ c.fstate = .ended then s.failure h .wrongState
          else if c.prefs.csize ≠ 0 ∧ c.prefs.csize ≠ c.total then s.failure h .contentSizeWrong
          else match s.bufferFault false true with
          | some e => s.failure h e
          | none =>
            if s.dstCap < out.length then s.failure h .capacityOutput
            else
              { s.success h with
                out := out
                resultLen := out.length
                slots := s.slots.set (h.toNat - 1) (some (.fcomp
                  { (if c.pending = [] then c else r.2) with pending := [], fstate := .ended })) }
        | _ => s.failure h .badHandle)

/-! ## The frame decompressor -/

/-- Rules R381, R382: the header parser and the order of its checks. -/
def Obligations.HeaderCheckOrder : Prop :=
  ∀ f : List Byte,
    let n := f.length
    let m := leNat (f.take 4)
    let flg := (byteAt f 4).toNat
    let bd := (byteAt f 5).toNat
    let hl := 7 + 8 * (flg / 8 % 2) + 4 * (flg % 2)
    let hc := (xxh32 ((f.drop 4).take (hl - 5))).toNat / 256 % 256
    parseHeader f =
      if n < 4 then .bad .truncated n
      else if m / 16 = 0x184D2A5 then
        if n < 8 then .bad .truncated n
        else .ok { FrameInfo.zero with
          skippable := true, csize := leNat ((f.drop 4).take 4), skip := leNat ((f.drop 4).take 4) } 8
      else if m ≠ 0x184D2204 then .bad .badMagic 0
      else if n < 5 then .bad .truncated n
      else if n < hl then .bad .truncated n
      else if flg / 64 ≠ 1 then .bad .badVersion 4
      else if flg / 2 % 2 = 1 then .bad .reservedBit 4
      else if bd / 128 = 1 ∨ bd % 16 ≠ 0 then .bad .reservedBit 5
      else if bd / 16 % 8 < 4 then .bad .badBlockSizeId 5
      else if (byteAt f (hl - 1)).toNat ≠ hc then .bad .headerChecksum (hl - 1)
      else .ok
        { skippable := false
          indep := flg / 32 % 2 = 1
          bcrc := flg / 16 % 2 = 1
          csflag := flg / 8 % 2 = 1
          ccrc := flg / 4 % 2 = 1
          dflag := flg % 2 = 1
          bsid := bd / 16 % 8
          csize := if flg / 8 % 2 = 1 then leNat ((f.drop 6).take 8) else 0
          dictid := if flg % 2 = 1 then leNat ((f.drop (6 + 8 * (flg / 8 % 2))).take 4) else 0
          skip := 0 } hl

/-- Rules R383, R384, R387: FRAME_INFO. That header bytes FRAME_DECOMPRESS collected before stay collected is log entry 12
(DEDUCED). -/
def Obligations.FrameInfoResult : Prop :=
  ∀ (h : BitVec 8) (rsvd : BitVec 16) (s : State), s.undisturbed = true →
    s.RunsTo (.frameInfo h rsvd)
      (if rsvd ≠ 0 then s.failure h .badParam
       else match slotAt s.slots h with
        | some (.fdecomp c) =>
          if c.dstate = .failed then s.failure h .contextFailed
          else if c.dstate ≠ .idle then s.failure h .wrongState
          else match s.bufferFault true false with
          | some e => s.failure h e
          | none =>
            match parseHeader s.sourceBytes with
            | .bad d pos => { s.success h with err := some (.corrupt d, pos) }
            | .ok i hl =>
              { s.success h with
                consumed := hl
                info :=
                  { flags := i.flagsWord
                    blockSize := BitVec.ofNat 32 (Config.blockMax i.bsid)
                    csizeLo := BitVec.ofNat 32 i.csize
                    csizeHi := BitVec.ofNat 32 (i.csize / 2 ^ 32)
                    dictId := BitVec.ofNat 32 i.dictid
                    hdrLen := BitVec.ofNat 32 hl }
                slots := s.slots.set (h.toNat - 1) (some (.fdecomp
                  (if i.skippable then
                    { c with
                      info := i
                      fpos := hl
                      skipLeft := i.skip
                      stage := if i.skip = 0 then .ended else .skip
                      dstate := if i.skip = 0 then .complete else .frameInfoKnown }
                  else
                    { c with
                      info := i
                      fpos := hl
                      hist := c.dict
                      total := 0
                      content := []
                      stage := .blkHdr
                      dstate := .frameInfoKnown }))) }
        | _ => s.failure h .badHandle)

/-- Rules R385, R388, R390, R392, R395, R396: FRAME_DECOMPRESS and its loop. Pending output is delivered first; the loop stops
while output pends and when the input is used up; a byte past the end of the frame is TRAILING_DATA at the frame offset, not
consumed, the context staying COMPLETE; else one byte is fed. Bytes of user data are skipped, the last one completing the frame.
Bytes of a payload are collected; with the last one the block checksum follows, or without one the block is dispatched: a
stored payload, or the decoded block (with the dictionary for independent blocks, with the frame's history for linked ones),
is delivered, or a block that fails delivers nothing. -/
def Obligations.FrameDecompressResult : Prop :=
  (∀ (h : BitVec 8) (rsvd : BitVec 16) (s : State), s.undisturbed = true →
    s.RunsTo (.frameDecompress h rsvd)
      (if rsvd ≠ 0 then s.failure h .badParam
       else match slotAt s.slots h with
        | some (.fdecomp c) =>
          if c.dstate = .failed then s.failure h .contextFailed
          else match s.bufferFault true true with
          | some e => s.failure h e
          | none =>
            let r := frameLoop s.frameRules s.dstCap s.sourceBytes { ctx := c, info := s.info, used := 0, out := [] }
            { s.success h with
              out := r.1.out
              resultLen := r.1.out.length
              consumed := r.1.used
              err := match r.2 with
                | some (d, pos) => some (.corrupt d, pos)
                | none => none
              info := r.1.info
              slots := s.slots.set (h.toNat - 1) (some (.fdecomp r.1.ctx)) }
        | _ => s.failure h .badHandle))
  ∧ (∀ (h : BitVec 8) (c : FDecomp) (s : State), s.undisturbed = true → slotAt s.slots h = some (.fdecomp c) →
      c.dstate = .complete → c.stage = .ended → c.pending = [] → 0 < s.srcLen → s.bufferFault true true = none →
      s.RunsTo (.frameDecompress h 0) { s.success h with err := some (.corrupt .trailingData, c.fpos) })
  ∧ ∀ (rules : FrameRules) (cap : Nat) (rest : List Byte) (run : FrameRun),
      let loop := frameLoop rules cap
      let c := run.ctx
      let room := cap - run.out.length
      let delivered : FrameRun :=
        { run with out := run.out ++ c.pending.take room, ctx := { c with pending := c.pending.drop room } }
      loop rest run = loop rest delivered
      ∧ (c.pending.drop room ≠ [] ∨ rest = [] → loop rest run = (delivered, none))
      ∧ (c.pending = [] →
          (c.stage = .ended → rest ≠ [] → loop rest run = (run, some (.trailingData, c.fpos)))
          ∧ (∀ b : Byte, c.stage ≠ .ended → loop (b :: rest) run =
              (let f := c.feed rules b
               let info := match f.header with
                 | some (i, n) => setInfo i n
                 | none => run.info
               let run' : FrameRun := { run with ctx := f.ctx, info := info, used := run.used + 1 }
               match f.error with
               | some e => (run', some e)
               | none => loop rest run'))
          ∧ (∀ bs : List Byte, c.stage = .skip → bs ≠ [] → bs.length ≤ c.skipLeft → loop (bs ++ rest) run =
              loop rest { run with
                used := run.used + bs.length
                ctx := { c with
                  fpos := c.fpos + bs.length
                  skipLeft := c.skipLeft - bs.length
                  stage := if bs.length = c.skipLeft then .ended else .skip
                  dstate := if bs.length = c.skipLeft then .complete else c.dstate.fed } })
          ∧ (∀ bs : List Byte, c.stage = .blkData → bs ≠ [] → c.payload.length + bs.length ≤ c.bword % 2 ^ 31 →
              let fed : FDecomp := { c with dstate := c.dstate.fed, fpos := c.fpos + bs.length, payload := c.payload ++ bs }
              let eaten (c' : FDecomp) : FrameRun := { run with ctx := c', used := run.used + bs.length }
              let dispatched (blk : List Byte) : FDecomp :=
                { fed with
                  pending := blk
                  content := c.content ++ blk
                  total := c.total + blk.length
                  hist := if c.info.indep then c.hist else (c.hist ++ blk).drop ((c.hist ++ blk).length - 65536)
                  payload := []
                  stage := .blkHdr }
              loop (bs ++ rest) run =
                if c.payload.length + bs.length ≠ c.bword % 2 ^ 31 then loop rest (eaten fed)
                else if c.info.bcrc then loop rest (eaten { fed with stage := .blkCrc })
                else if 2 ^ 31 ≤ c.bword then loop rest (eaten (dispatched fed.payload))
                else match blockDecode rules.strictTail fed.payload (Config.blockMax c.info.bsid)
                    (if c.info.indep then c.dict else c.hist) with
                  | (blk, none) => loop rest (eaten (dispatched blk))
                  | (_, some (d, pos)) => (eaten { fed with dstate := .failed }, some (d, c.poff + pos))))

/-- Rules R122, R130, R131, R387: the magic numbers: FRAME_MAGIC is collected; SKIPPABLE_MAGIC with its size completes a
header; the magic of the LZ4 legacy frame fails with BAD_MAGIC at 0. -/
def Obligations.MagicElements : Prop :=
  ∀ (s : State) (h : BitVec 8) (rest : List Byte) (cap : Nat) (run : FrameRun), s.work = .frame h rest cap run none →
    run.ctx.pending = [] → run.ctx.stage = .hdr → run.ctx.acc = [] →
    exec .frameMagic s = .next (s.afterElement h rest cap run 4
      { run.ctx with acc := [0x04, 0x22, 0x4D, 0x18], fpos := run.ctx.fpos + 4 } run.info none)
    ∧ exec .legacyMagicRefused s = .next (s.afterElement h rest cap run 4
      { run.ctx with acc := [0x02, 0x21, 0x4C, 0x18], fpos := run.ctx.fpos + 4, dstate := .failed } run.info
      (some (.badMagic, 0)))
    ∧ ∀ (x : BitVec 4) (size : Word), exec (.skippableMagic x size) s = .next (s.afterElement h rest cap run 8
      { run.ctx with
        acc := []
        fpos := run.ctx.fpos + 8
        info := { FrameInfo.zero with skippable := true, csize := size.toNat, skip := size.toNat }
        skipLeft := size.toNat
        stage := if size.toNat = 0 then .ended else .skip
        dstate := if size.toNat = 0 then .complete else .frameInfoKnown }
      { flags := 0x10000, blockSize := 0, csizeLo := size, csizeHi := 0, dictId := 0, hdrLen := 8 } none)

/-- Rules R121, R123 to R126, R384, R387: the header fields. FLG, BD, the content size and the dictionary ID are collected;
HC completes the header, whose verdict is that of rule R381 on all its bytes. -/
def Obligations.HeaderFieldElements : Prop :=
  ∀ (s : State) (h : BitVec 8) (rest : List Byte) (cap : Nat) (run : FrameRun), s.work = .frame h rest cap run none →
    run.ctx.pending = [] → run.ctx.stage = .hdr → 4 ≤ run.ctx.acc.length → leNat (run.ctx.acc.take 4) = 0x184D2204 →
    let c := run.ctx
    let flg := (byteAt c.acc 4).toNat
    let hl := 7 + 8 * (flg / 8 % 2) + 4 * (flg % 2)
    (∀ v i b k q r d, c.acc.length = 4 → exec (.flg v i b k q r d) s = .next (s.afterElement h rest cap run 1
      { c with acc := c.acc ++ [flgByte v i b k q r d], fpos := c.fpos + 1 } run.info none))
    ∧ (∀ r7 bsid low, c.acc.length = 5 → exec (.bd r7 bsid low) s = .next (s.afterElement h rest cap run 1
      { c with acc := c.acc ++ [bdByte r7 bsid low], fpos := c.fpos + 1 } run.info none))
    ∧ (∀ size : BitVec 64, c.acc.length = 6 → flg / 8 % 2 = 1 →
      exec (.contentSize size) s = .next (s.afterElement h rest cap run 8
        { c with acc := c.acc ++ bytesLE 8 size.toNat, fpos := c.fpos + 8 } run.info none))
    ∧ (∀ ident : Word, c.acc.length + 5 = hl → flg % 2 = 1 →
      exec (.dictId ident) s = .next (s.afterElement h rest cap run 4
        { c with acc := c.acc ++ bytesLE 4 ident.toNat, fpos := c.fpos + 4 } run.info none))
    ∧ (∀ v : Byte, 6 ≤ c.acc.length → c.acc.length + 1 = hl →
      exec (.hc v) s = .next
        (match parseHeader (c.acc ++ [v]) with
        | .bad d pos => s.afterElement h rest cap run 1
            { c with acc := [], fpos := c.fpos + 1, dstate := .failed } run.info (some (d, pos))
        | .ok i n => s.afterElement h rest cap run 1
            { c with
              acc := []
              fpos := c.fpos + 1
              info := i
              hist := c.dict
              total := 0
              content := []
              stage := .blkHdr
              dstate := .frameInfoKnown } (setInfo i n) none))

/-- Rules R127, R128, R389, R392: the block header words: the size check, then the payload, the checksum or, for a stored block
of no bytes without a checksum, the next record. Bytes of a word are collected until there are 4. Where FRAME_INFO has left 4 or
more collected bytes (log entry 12, DEDUCED), rule R389 reads the word from the first 4 at the next byte, and rule R400 goes on
collecting: that the model holds both as a parameter is log entry 12's DESIGN CHOICE. -/
def Obligations.BlockWordElements : Prop :=
  (∀ (rules : FrameRules) (c : FDecomp) (b : Byte), c.stage = .blkHdr →
    (c.acc.length < 3 ∨ (4 ≤ c.acc.length ∧ rules.exactWord = true) → c.feed rules b =
      { ctx := { c with dstate := c.dstate.fed, fpos := c.fpos + 1, acc := c.acc ++ [b] }, header := none, error := none })
    ∧ (4 ≤ c.acc.length → rules.exactWord = false →
      c.feed rules b = { c with acc := c.acc.take 3 }.feed rules (byteAt c.acc 3)))
  ∧ ∀ (s : State) (h : BitVec 8) (rest : List Byte) (cap : Nat) (run : FrameRun) (len : BitVec 31),
    s.work = .frame h rest cap run none → run.ctx.pending = [] → run.ctx.stage = .blkHdr → run.ctx.acc = [] →
    let c := run.ctx
    let word (w : Nat) : FDecomp := { c with dstate := c.dstate.fed, fpos := c.fpos + 4, boff := c.fpos, bword := w }
    (∀ i w, (i = Instr.blockStored len ∧ w = 2 ^ 31 + len.toNat) ∨ (i = Instr.blockCompressed len ∧ w = len.toNat) →
      Config.blockMax c.info.bsid < len.toNat →
      exec i s = .next (s.afterElement h rest cap run 4 { word w with dstate := .failed } run.info
        (some (.blockTooLarge, c.fpos))))
    ∧ (∀ i w, (i = Instr.blockStored len ∧ w = 2 ^ 31 + len.toNat) ∨ (i = Instr.blockCompressed len ∧ w = len.toNat) →
      1 ≤ len.toNat → len.toNat ≤ Config.blockMax c.info.bsid →
      exec i s = .next (s.afterElement h rest cap run 4
        { word w with poff := c.fpos + 4, payload := [], stage := .blkData } run.info none))
    ∧ (len.toNat = 0 → c.info.bcrc = true → exec (.blockStored len) s = .next (s.afterElement h rest cap run 4
        { word (2 ^ 31) with poff := c.fpos + 4, payload := [], stage := .blkCrc } run.info none))
    ∧ (len.toNat = 0 → c.info.bcrc = false → exec (.blockStored len) s = .next (s.afterElement h rest cap run 4
        { word (2 ^ 31) with
          poff := c.fpos + 4
          payload := []
          hist := if c.info.indep then c.hist else c.hist.drop (c.hist.length - 65536) } run.info none))

/-- Rule R393: the end mark. -/
def Obligations.EndMarkElement : Prop :=
  ∀ (s : State) (h : BitVec 8) (rest : List Byte) (cap : Nat) (run : FrameRun),
    s.work = .frame h rest cap run none → run.ctx.pending = [] → run.ctx.stage = .blkHdr → run.ctx.acc = [] →
    let c := run.ctx
    let marked : FDecomp := { c with dstate := c.dstate.fed, fpos := c.fpos + 4, boff := c.fpos, bword := 0 }
    exec .endMark s = .next
      (if c.info.csize ≠ 0 ∧ c.total ≠ c.info.csize then
        s.afterElement h rest cap run 4 { marked with dstate := .failed } run.info (some (.contentSizeMismatch, c.fpos))
      else if c.info.ccrc then s.afterElement h rest cap run 4 { marked with stage := .ccrc } run.info none
      else s.afterElement h rest cap run 4 { marked with stage := .ended, dstate := .complete } run.info none)

/-- Rules R391, R392, R394: the block checksum, verified before its block is dispatched, and the content checksum. A failing
block delivers nothing. -/
def Obligations.ChecksumElements : Prop :=
  ∀ (s : State) (h : BitVec 8) (rest : List Byte) (cap : Nat) (run : FrameRun) (v : Word),
    s.work = .frame h rest cap run none → run.ctx.pending = [] → run.ctx.acc = [] →
    let c := run.ctx
    let fed : FDecomp := { c with dstate := c.dstate.fed, fpos := c.fpos + 4 }
    let window := if c.info.indep then c.dict else c.hist
    let delivered (blk : List Byte) : FDecomp :=
      { fed with
        content := c.content ++ blk
        total := c.total + blk.length
        hist := if c.info.indep then c.hist else (c.hist ++ blk).drop ((c.hist ++ blk).length - 65536)
        payload := []
        stage := .blkHdr
        pending := blk.drop (cap - run.out.length) }
    let after (blk : List Byte) : State :=
      s.afterElement h rest cap { run with out := run.out ++ blk.take (cap - run.out.length) } 4 (delivered blk) run.info none
    (c.stage = .blkCrc → exec (.blockChecksum v) s = .next
      (if v ≠ xxh32 c.payload then
        s.afterElement h rest cap run 4 { fed with acc := bytesLE 4 v.toNat, dstate := .failed } run.info
          (some (.blockChecksum, c.fpos))
      else if 2 ^ 31 ≤ c.bword then after c.payload
      else match blockDecode s.params.strictTail c.payload (Config.blockMax c.info.bsid) window with
        | (blk, none) => after blk
        | (_, some (d, pos)) =>
          s.afterElement h rest cap run 4 { fed with dstate := .failed } run.info (some (d, c.poff + pos))))
    ∧ (c.stage = .ccrc → exec (.contentChecksum v) s = .next
      (if v ≠ xxh32 c.content then
        s.afterElement h rest cap run 4 { fed with acc := bytesLE 4 v.toNat, dstate := .failed } run.info
          (some (.contentChecksum, c.fpos))
      else s.afterElement h rest cap run 4 { fed with stage := .ended, dstate := .complete } run.info none))

/-- Rule R398: a frame passed in any number of pieces to successive commands with any capacities, each re-passing the bytes the
ones before left unconsumed, gives the output, the verdict with its frame offset, the INFO registers and the context that the
whole frame gives in one command with enough capacity; and FRAME_INFO on bytes that hold the header, followed by
FRAME_DECOMPRESS of the rest, gives what FRAME_DECOMPRESS of all of them gives on a fresh context. -/
def Obligations.SplitInvariance : Prop :=
  (∀ (rules : FrameRules) (c : FDecomp) (info : Info) (pieces : List (Nat × List Byte)) (cap : Nat) (r : FrameRun)
    (e : Option (Detail × Nat)),
    let frame := (pieces.map Prod.snd).flatten
    framePieces rules pieces [] { ctx := c, info := info, used := 0, out := [] } = (r, e) →
    (e ≠ none ∨ r.used = frame.length) → (r.out ++ r.ctx.pending).length ≤ cap →
    frameLoop rules cap frame { ctx := c, info := info, used := 0, out := [] } =
      ({ ctx := { r.ctx with pending := [] }, info := r.info, used := r.used, out := r.out ++ r.ctx.pending }, e))
  ∧ (∀ (rules : FrameRules) (c : FDecomp) (info : Info) (pre rest : List Byte) (cap n : Nat) (i : FrameInfo),
    c.dstate = .idle → c.stage = .hdr → c.acc = [] → c.pending = [] → c.fpos = 0 → parseHeader pre = .ok i n →
    frameLoop rules cap (pre ++ rest) { ctx := c, info := info, used := 0, out := [] } =
      (let r := frameLoop rules cap ((pre ++ rest).drop n)
         { ctx := c.pastHeader i n, info := setInfo i n, used := 0, out := [] }
       ({ r.1 with used := n + r.1.used }, r.2)))

/-- Rules R348, R399 (a): whatever the preferences, the hash function, the content and its split into updates, the frame the
frame compressor writes decodes in one command with enough capacity: every byte consumed, the content delivered, the
context COMPLETE. -/
def Obligations.FrameRoundTrip : Prop :=
  ∀ (hash : Word → Nat) (rules : FrameRules) (p : Prefs) (chunks : List (List Byte)) (cap : Nat) (info : Info),
    bsidOk p.bsid = true → (p.csize = 0 ∨ p.csize = chunks.flatten.length) → p.csize < 2 ^ 64 → chunks.flatten.length ≤ cap →
    ∃ r, frameLoop rules cap (compressFrame hash p chunks) { ctx := FDecomp.initial, info := info, used := 0, out := [] } =
        (r, none)
      ∧ r.out = chunks.flatten
      ∧ r.used = (compressFrame hash p chunks).length
      ∧ r.ctx.dstate = .complete
      ∧ r.ctx.pending = []

/-- Rules R30, R385, R386: the elements of a frame, and the bytes between them, executed one after the other by the engine's
turns, do what FRAME_DECOMPRESS does in one step. -/
def Obligations.FrameElementsRefineCommand : Prop :=
  ∀ (h : BitVec 8) (s : State) (c : FDecomp), s.undisturbed = true → slotAt s.slots h = some (.fdecomp c) →
    c.dstate ≠ .failed → s.bufferFault true true = none →
    ∃ n, State.turns n { s with
        work := .frame h s.sourceBytes s.dstCap { ctx := c, info := s.info, used := 0, out := [] } none }
      = exec (.frameDecompress h 0) s

/-! ## The checksum unit -/

/-- Rule R438: the known values of XXH32. -/
def Obligations.Xxh32KnownValues : Prop :=
  xxh32 [] = 0x02CC5D05
  ∧ xxh32 [0x61] = 0x550D7456
  ∧ xxh32 [0x61, 0x62, 0x63] = 0x32D153FF
  ∧ xxh32 [0x61, 0x62, 0x63, 0x64] = 0xA3643705
  ∧ xxh32 [0x30, 0x31, 0x32, 0x33, 0x34, 0x35, 0x36, 0x37, 0x38, 0x39, 0x61, 0x62, 0x63, 0x64, 0x65, 0x66] = 0xC2C45B69
  ∧ xxh32 [0x30, 0x31, 0x32, 0x33, 0x34, 0x35, 0x36, 0x37, 0x38, 0x39, 0x61, 0x62, 0x63, 0x64, 0x65, 0x66, 0x67]
      = 0xCC79B217
  ∧ xxh32 ((List.range 32).map byteOf) = 0x830741C1
  ∧ xxh32 (List.replicate 32 0x41) = 0xCF0D92E7
  ∧ xxh32 [0x60, 0x40] = 0x301A8268
  ∧ xxh32 [0x64, 0x40] = 0x95C0A77C
  ∧ xxh32 [0x7C, 0x40, 0x64, 0x00, 0x00, 0x00, 0x00, 0x00, 0x00, 0x00] = 0x69345EB0
  ∧ headerChecksum [0x60, 0x40] = 0x82 ∧ headerChecksum [0x64, 0x40] = 0xA7
  ∧ headerChecksum [0x7C, 0x40, 0x64, 0x00, 0x00, 0x00, 0x00, 0x00, 0x00, 0x00] = 0x5E

/-- Rules R399 (b), R435: a change confined to one byte always changes the checksum. -/
def Obligations.OneByteChangeIsDetected : Prop :=
  ∀ (before after : List Byte) (x y : Byte), x ≠ y → xxh32 (before ++ x :: after) ≠ xxh32 (before ++ y :: after)

end
end

