-- ==== Sys2Proof/Laws/Bytes.lean ====
section
/-!
SUPPORT. Laws of little-endian byte strings and of the history window (rules R12, R51).
-/

namespace Sys2Proof.Machine

@[simp] theorem length_bytesLE (n v : Nat) : (bytesLE n v).length = n := by
  induction n generalizing v with
  | zero => rfl
  | succ n ih => simp [bytesLE, ih]

/-- `bytesLE_N(v)` encodes `v mod 2^(8N)` (rule R12). -/
theorem leNat_bytesLE (n v : Nat) : leNat (bytesLE n v) = v % 256 ^ n := by
  induction n generalizing v with
  | zero => simp [bytesLE, leNat, Nat.mod_one]
  | succ n ih =>
    simp only [bytesLE, leNat, ih, BitVec.toNat_ofNat]
    rw [show 2 ^ 8 = 256 from rfl, show (256 : Nat) ^ (n + 1) = 256 * 256 ^ n by omega]
    exact (Nat.mod_mul (x := v) (a := 256) (b := 256 ^ n)).symm

theorem leNat_lt (bs : List Byte) : leNat bs < 256 ^ bs.length := by
  induction bs with
  | nil => simp [leNat]
  | cons b bs ih =>
    have hb : b.toNat < 256 := b.isLt
    simp only [leNat, List.length_cons, Nat.pow_succ]
    omega

/-- The bytes of the number a byte string encodes are that string. -/
theorem bytesLE_leNat (bs : List Byte) : bytesLE bs.length (leNat bs) = bs := by
  induction bs with
  | nil => rfl
  | cons b bs ih =>
    have hb : b.toNat < 256 := b.isLt
    simp only [List.length_cons, leNat, bytesLE]
    rw [show (b.toNat + 256 * leNat bs) / 256 = leNat bs by omega, ih]
    congr 1
    apply BitVec.eq_of_toNat_eq
    simp only [BitVec.toNat_ofNat]
    omega

@[simp] theorem length_lastK (k : Nat) (bs : List Byte) : (lastK k bs).length = min k bs.length := by
  simp only [lastK, List.length_drop]
  omega

/-- The ring-buffer rule keeps a history within `WINDOW` (rule R51). -/
theorem length_lastWindow_le (bs : List Byte) : (lastWindow bs).length ≤ Config.window := by
  simp only [lastWindow, length_lastK]
  omega

theorem length_lastWindow_le_length (bs : List Byte) : (lastWindow bs).length ≤ bs.length := by
  simp only [lastWindow, length_lastK]
  omega

end Sys2Proof.Machine
end

