-- ==== Sys2Proof/Laws/Compressor.lean ====
section
/-!
SUPPORT. Bounds on the block compressor's operations (rules R211, R214, R215, R216).
-/

namespace Sys2Proof.Machine

/-- The hash of rule R211 as arithmetic on naturals. -/
theorem knuthHash_eq (hashLog : Nat) (x : Word) :
    knuthHash hashLog x = x.toNat * 2654435761 % 2 ^ 32 / 2 ^ (32 - hashLog) := by
  rw [knuthHash, Nat.shiftRight_eq_div_pow, BitVec.toNat_mul]
  rfl

/-- A hash is an index of a table of `2^HASH_LOG` entries. -/
theorem knuthHash_lt {hashLog : Nat} (h : hashLog ≤ 32) (x : Word) : knuthHash hashLog x < 2 ^ hashLog := by
  rw [knuthHash_eq, Nat.div_lt_iff_lt_mul (by positivity), ← pow_add, show hashLog + (32 - hashLog) = 32 by omega]
  exact Nat.mod_lt _ (by norm_num)

/-- Whatever HASH_FN is, a hash is an index of the table (rules R9, R50, R211). -/
theorem State.hash_lt {s : State} (h : s.params.hashLog ≤ 32) (x : Word) : s.hash x < 2 ^ s.params.hashLog := by
  cases hf : s.params.hashFn with
  | knuth => simpa [State.hash, hashIndex, hf] using knuthHash_lt h x
  | listed vs => simpa [State.hash, hashIndex, hf] using Nat.mod_lt _ (by positivity)

/-- With the default HASH_FN the engine's hash is that of rule R211. -/
theorem State.hash_of_knuth {s : State} (h : s.params.hashFn = .knuth) (x : Word) :
    s.hash x = x.toNat * 2654435761 % 2 ^ 32 / 2 ^ (32 - s.params.hashLog) := by
  simp only [State.hash, h, hashIndex, knuthHash_eq]

/-- Every function from words to indices, restricted to any finite list of words, is a HASH_FN. -/
theorem listedHash_map (f : Word → Nat) {ws : List Word} {x : Word} (h : x ∈ ws) :
    listedHash (ws.map fun w => (w, f w)) x = f x := by
  induction ws with
  | nil => cases h
  | cons w ws ih =>
    by_cases hx : x = w
    · simp [listedHash, hx]
    · simpa [listedHash, hx] using ih (by simpa [hx] using h)

theorem le_extendForward (buf : List Byte) (c p mlimit fuel len : Nat) : len ≤ extendForward buf c p mlimit fuel len := by
  induction fuel generalizing len with
  | zero => exact Nat.le_refl _
  | succ n ih =>
    simp only [extendForward]
    split
    · exact Nat.le_trans (Nat.le_succ _) (ih _)
    · exact Nat.le_refl _

/-- A match never covers a byte at or past `mlimit` (rule R214). -/
theorem extendForward_le {buf : List Byte} {c p mlimit : Nat} (fuel len : Nat) (h : p + len ≤ mlimit) :
    p + extendForward buf c p mlimit fuel len ≤ mlimit := by
  induction fuel generalizing len with
  | zero => exact h
  | succ n ih =>
    simp only [extendForward]
    split
    · exact ih _ (by omega)
    · exact h

/-- The bytes a forward extension covers agree with their source (rule R214). -/
theorem extendForward_agree {buf : List Byte} {c p mlimit : Nat} (fuel len : Nat)
    (h : ∀ i < len, byteAt buf (c + i) = byteAt buf (p + i)) :
    ∀ i < extendForward buf c p mlimit fuel len, byteAt buf (c + i) = byteAt buf (p + i) := by
  induction fuel generalizing len with
  | zero => exact h
  | succ n ih =>
    simp only [extendForward]
    split
    · rename_i hc
      refine ih _ fun i hi => ?_
      by_cases he : i = len
      · rw [he]
        exact hc.2
      · exact h i (by omega)
    · exact h

/-- A backward extension stays after the pending literals' start and inside the buffer, and its bytes agree (rule R215). -/
theorem extendBackward_spec (buf : List Byte) (anchor fuel s m : Nat) (hs : anchor ≤ s) :
    extendBackward buf anchor fuel s m ≤ s - anchor ∧ extendBackward buf anchor fuel s m ≤ m ∧
      ∀ i, 1 ≤ i → i ≤ extendBackward buf anchor fuel s m → byteAt buf (s - i) = byteAt buf (m - i) := by
  induction fuel generalizing s m with
  | zero => exact ⟨Nat.zero_le _, Nat.zero_le _, fun i h1 h2 => absurd h2 (by simp only [extendBackward]; omega)⟩
  | succ n ih =>
    simp only [extendBackward]
    split
    · rename_i hc
      obtain ⟨h1, h2, h3⟩ := ih (s - 1) (m - 1) (by omega)
      refine ⟨by omega, by omega, fun i hi1 hi2 => ?_⟩
      by_cases he : i = 1
      · rw [he]
        exact hc.2.2
      · have := h3 (i - 1) (by omega) (by omega)
        rwa [show s - 1 - (i - 1) = s - i by omega, show m - 1 - (i - 1) = m - i by omega] at this
    · exact ⟨Nat.zero_le _, Nat.zero_le _, fun i h1 h2 => absurd h2 (by omega)⟩

/-- Every scan position moves the scan on (rule R216). -/
theorem Scan.pos_lt_advance {hash : Word → Nat} {c : Scan} : c.pos < (c.advance hash).pos := by
  have hf := le_extendForward c.buf
    ((Table.get c.table (hash (hashInput c.buf c.pos))).getD 0 - c.hstart) c.pos c.mlimit c.mlimit 4
  simp only [Scan.advance]
  split
  · simp only
    omega
  · exact Nat.lt_succ_self _

end Sys2Proof.Machine
end

