-- ==== Sys2Proof/Laws/Memory.lean ====
section
/-!
SUPPORT. The laws of host memory and of hash tables: a read gives what the last write of the same place gave, a write leaves
every other place alone, and every operation keeps the canonical form.
-/

namespace Sys2Proof.Machine

namespace Memory

theorem wfFrom_none_of_some {m : List Host.Cell} {l : Nat} (h : wfFrom (some l) m = true) : wfFrom none m = true := by
  cases m with
  | nil => rfl
  | cons c m => simp_all [wfFrom]

theorem wfFrom_weaken {m : List Host.Cell} {k l : Nat} (hkl : k ≤ l) (h : wfFrom (some l) m = true) :
    wfFrom (some k) m = true := by
  cases m with
  | nil => rfl
  | cons c m =>
    simp only [wfFrom, Bool.and_eq_true, decide_eq_true_eq] at *
    exact ⟨⟨by omega, h.1.2⟩, h.2⟩

/-- An address at or below the lower bound of a canonical list is not listed. -/
theorem read_of_wfFrom {m : List Host.Cell} {l k : Nat} (h : wfFrom (some l) m = true) (hk : k ≤ l) :
    read m k = unlisted := by
  induction m generalizing l with
  | nil => rfl
  | cons c m ih =>
    simp only [wfFrom, Bool.and_eq_true, decide_eq_true_eq] at h
    simp only [read, if_neg (show ¬k = c.1 by omega)]
    exact ih h.2 (by omega)

theorem read_write_same {m : List Host.Cell} (lo : Option Nat) (h : wfFrom lo m = true) (k : Nat) (v : Byte) :
    read (write m k v) k = v := by
  induction m generalizing lo with
  | nil => by_cases hv : v = unlisted <;> simp [write, read, hv]
  | cons c m ih =>
    obtain ⟨a, b⟩ := c
    have hm : wfFrom (some a) m = true := by
      simp only [wfFrom, Bool.and_eq_true] at h
      exact h.2
    simp only [write]
    by_cases h1 : k < a
    · rw [if_pos h1]
      by_cases hv : v = unlisted
      · rw [if_pos hv, hv]
        simp only [read, if_neg (show ¬k = a by omega)]
        exact read_of_wfFrom hm (by omega)
      · simp [hv, read]
    · rw [if_neg h1]
      by_cases h2 : k = a
      · rw [if_pos h2]
        by_cases hv : v = unlisted
        · rw [if_pos hv, hv]
          exact read_of_wfFrom hm (by omega)
        · simp [hv, read]
      · rw [if_neg h2]
        simp only [read, if_neg h2]
        exact ih _ hm

/-- A write leaves every other address alone, whatever the list. -/
theorem read_write_other (m : List Host.Cell) (k : Nat) (v : Byte) {a : Nat} (ha : a ≠ k) :
    read (write m k v) a = read m a := by
  induction m with
  | nil => by_cases hv : v = unlisted <;> simp [write, read, hv, ha]
  | cons c m ih =>
    obtain ⟨x, b⟩ := c
    simp only [write]
    by_cases h1 : k < x
    · rw [if_pos h1]
      by_cases hv : v = unlisted <;> simp [read, hv, ha]
    · rw [if_neg h1]
      by_cases h2 : k = x
      · subst h2
        by_cases hv : v = unlisted <;> simp [read, hv, ha]
      · rw [if_neg h2]
        simp [read, ih]

theorem read_write (m : List Host.Cell) (h : wf m = true) (k : Nat) (v : Byte) (a : Nat) :
    read (write m k v) a = if a = k then v else read m a := by
  by_cases hk : a = k
  · rw [if_pos hk, hk]
    exact read_write_same _ h k v
  · rw [if_neg hk]
    exact read_write_other m k v hk

theorem wfFrom_write {m : List Host.Cell} (lo : Option Nat) (h : wfFrom lo m = true) (k : Nat) (v : Byte)
    (hk : ∀ l, lo = some l → l < k) : wfFrom lo (write m k v) = true := by
  induction m generalizing lo with
  | nil =>
    by_cases hv : v = unlisted
    · simp [write, hv, wfFrom]
    · cases lo with
      | none => simp [write, hv, wfFrom]
      | some l => simp [write, hv, wfFrom, hk l rfl]
  | cons c m ih =>
    obtain ⟨a, b⟩ := c
    simp only [wfFrom, Bool.and_eq_true] at h
    obtain ⟨⟨hlo, hb⟩, hm⟩ := h
    simp only [write]
    by_cases h1 : k < a
    · rw [if_pos h1]
      by_cases hv : v = unlisted
      · rw [if_pos hv]
        simp [wfFrom, hlo, hb, hm]
      · rw [if_neg hv]
        cases lo with
        | none => simp_all [wfFrom]
        | some l =>
          have := hk l rfl
          simp_all [wfFrom]
    · rw [if_neg h1]
      by_cases h2 : k = a
      · subst h2
        rw [if_pos rfl]
        by_cases hv : v = unlisted
        · rw [if_pos hv]
          cases lo with
          | none => exact wfFrom_none_of_some hm
          | some l => exact wfFrom_weaken (by have := hk l rfl; omega) hm
        · rw [if_neg hv]
          simp [wfFrom, hlo, hm, hv]
      · rw [if_neg h2]
        simp only [wfFrom, Bool.and_eq_true]
        exact ⟨⟨hlo, hb⟩, ih _ hm (by intro l hl; cases hl; omega)⟩

/-- A write keeps the canonical form. -/
theorem wf_write {m : List Host.Cell} (h : wf m = true) (k : Nat) (v : Byte) : wf (write m k v) = true :=
  wfFrom_write none h k v (by simp)

theorem wf_writeBytes {m : List Host.Cell} (h : wf m = true) (a : Nat) (bs : List Byte) :
    wf (writeBytes m a bs) = true := by
  induction bs generalizing m a with
  | nil => exact h
  | cons b bs ih => exact ih (wf_write h a b) (a + 1)

theorem read_writeBytes_other (m : List Host.Cell) (a : Nat) (bs : List Byte) {k : Nat}
    (hk : k < a ∨ a + bs.length ≤ k) : read (writeBytes m a bs) k = read m k := by
  induction bs generalizing m a with
  | nil => rfl
  | cons b bs ih =>
    simp only [List.length_cons] at hk
    simp only [writeBytes]
    rw [ih _ _ (by omega), read_write_other _ _ _ (by omega)]

/-- Memory after writing a byte string: the string in its place, every other byte as before. -/
theorem read_writeBytes {m : List Host.Cell} (h : wf m = true) (a : Nat) (bs : List Byte) (k : Nat) :
    read (writeBytes m a bs) k = if a ≤ k ∧ k < a + bs.length then byteAt bs (k - a) else read m k := by
  induction bs generalizing m a with
  | nil =>
    rw [if_neg (by simp only [List.length_nil]; omega)]
    rfl
  | cons b bs ih =>
    simp only [writeBytes, List.length_cons]
    rw [ih (wf_write h a b) (a + 1)]
    by_cases hk : a = k
    · subst hk
      rw [if_neg (by omega), read_write_same _ h, if_pos (by omega)]
      simp [byteAt]
    · by_cases h2 : a + 1 ≤ k ∧ k < a + 1 + bs.length
      · rw [if_pos h2, if_pos (by omega), show k - a = (k - (a + 1)) + 1 by omega]
        simp [byteAt]
      · rw [if_neg h2, if_neg (by omega), read_write_other _ _ _ (Ne.symm hk)]

@[simp] theorem length_readBytes (m : List Host.Cell) (a n : Nat) : (readBytes m a n).length = n := by
  induction n generalizing a with
  | zero => rfl
  | succ n ih => simp [readBytes, ih]

theorem wf_reset : wf State.reset.mem = true := rfl

end Memory

theorem State.wf_scramble (s : State) {m : List Host.Cell} (h : Memory.wf m = true) (k a n : Nat) :
    Memory.wf (s.scramble k a n m) = true := by
  induction n generalizing k a m with
  | zero => exact h
  | succ n ih =>
    simp only [State.scramble]
    apply ih
    split
    · exact Memory.wf_write h _ _
    · exact h

theorem State.read_scramble_other (s : State) (m : List Host.Cell) (k a n : Nat) {x : Nat} (hx : x < a ∨ a + n ≤ x) :
    Memory.read (s.scramble k a n m) x = Memory.read m x := by
  induction n generalizing k a m with
  | zero => rfl
  | succ n ih =>
    simp only [State.scramble]
    rw [ih _ _ _ (by omega)]
    split
    · exact Memory.read_write_other _ _ _ (by omega)
    · rfl

theorem State.wf_mergeAbandoned (s : State) (new : List Host.Cell) {m : List Host.Cell} (h : Memory.wf m = true)
    (k a n : Nat) : Memory.wf (s.mergeAbandoned new k a n m) = true := by
  induction n generalizing k a m with
  | zero => exact h
  | succ n ih =>
    simp only [State.mergeAbandoned]
    apply ih
    split
    · exact Memory.wf_write h _ _
    · exact h

theorem State.wf_memAfter (s : State) (h : Memory.wf s.mem = true) (out : List Byte) :
    Memory.wf (s.memAfter out) = true := by
  simp only [State.memAfter]
  split
  · exact Memory.wf_writeBytes h _ _
  · exact s.wf_scramble (Memory.wf_writeBytes h _ _) _ _ _

/-- The device reset keeps memory canonical. -/
theorem State.wf_abandonedMem (s : State) (h : Memory.wf s.mem = true) : Memory.wf s.abandonedMem = true := by
  simp only [State.abandonedMem]
  split
  · split
    · exact s.wf_mergeAbandoned _ h _ _ _
    · exact h
  · exact h

/-- Without a race the source buffer reads as the host's bytes (rule R83). -/
theorem State.sourceFrom_eq (s : State) (h : s.raced = []) (k a n : Nat) : s.sourceFrom k a n = Memory.readBytes s.mem a n := by
  induction n generalizing k a with
  | zero => rfl
  | succ n ih => simp [State.sourceFrom, Memory.readBytes, State.sourceByte, h, ih]

theorem State.source_eq (s : State) (h : s.raced = []) : s.source = Memory.readBytes s.mem s.srcAddr s.srcLen :=
  s.sourceFrom_eq h 0 s.srcAddr s.srcLen

@[simp] theorem State.length_sourceFrom (s : State) (k a n : Nat) : (s.sourceFrom k a n).length = n := by
  induction n generalizing k a with
  | zero => rfl
  | succ n ih => simp [State.sourceFrom, ih]

@[simp] theorem State.length_source (s : State) : s.source.length = s.srcLen := s.length_sourceFrom 0 s.srcAddr s.srcLen

namespace Table

/-- A hash table reads back what was set, whatever the list. -/
theorem get_set (t : HashTable) (h v k : Nat) : get (set t h v) k = if k = h then some v else get t k := by
  induction t with
  | nil => simp [set, get]
  | cons e t ih =>
    obtain ⟨i, w⟩ := e
    simp only [set]
    by_cases h1 : h < i
    · rw [if_pos h1]
      simp [get]
    · rw [if_neg h1]
      by_cases h2 : h = i
      · subst h2
        by_cases hk : k = h <;> simp [get, hk]
      · rw [if_neg h2]
        simp only [get, ih]
        by_cases hk : k = i
        · simp [hk, Ne.symm h2]
        · simp [hk]

theorem wfFrom_weaken {t : HashTable} {k l : Nat} (hkl : k ≤ l) (h : wfFrom (some l) t = true) :
    wfFrom (some k) t = true := by
  cases t with
  | nil => rfl
  | cons e t =>
    simp only [wfFrom, Bool.and_eq_true, decide_eq_true_eq] at *
    exact ⟨by omega, h.2⟩

theorem wfFrom_set {t : HashTable} (lo : Option Nat) (ht : wfFrom lo t = true) (h v : Nat)
    (hk : ∀ l, lo = some l → l < h) : wfFrom lo (set t h v) = true := by
  induction t generalizing lo with
  | nil =>
    cases lo with
    | none => rfl
    | some l => simp [set, wfFrom, hk l rfl]
  | cons e t ih =>
    obtain ⟨i, w⟩ := e
    simp only [wfFrom, Bool.and_eq_true] at ht
    simp only [set]
    by_cases h1 : h < i
    · rw [if_pos h1]
      cases lo with
      | none => simp [wfFrom, h1, ht.2]
      | some l => simp [wfFrom, h1, ht.2, hk l rfl]
    · rw [if_neg h1]
      by_cases h2 : h = i
      · subst h2
        rw [if_pos rfl]
        simp [wfFrom, ht.1, ht.2]
      · rw [if_neg h2]
        simp only [wfFrom, Bool.and_eq_true]
        exact ⟨ht.1, ih _ ht.2 (by intro l hl; cases hl; omega)⟩

/-- A set keeps the canonical form. -/
theorem wf_set {t : HashTable} (ht : wf t = true) (h v : Nat) : wf (set t h v) = true := wfFrom_set none ht h v (by simp)

/-- The entries of a table after a set. -/
theorem mem_set {t : HashTable} {h v : Nat} {e : Nat × Nat} (he : e ∈ set t h v) : e = (h, v) ∨ e ∈ t := by
  induction t with
  | nil => simpa [set] using he
  | cons x t ih =>
    obtain ⟨i, w⟩ := x
    simp only [set] at he
    split at he
    · simpa using he
    · split at he
      · rcases List.mem_cons.mp he with he | he
        · exact .inl he
        · exact .inr (List.mem_cons_of_mem _ he)
      · rcases List.mem_cons.mp he with he | he
        · exact .inr (he ▸ List.mem_cons_self)
        · rcases ih he with he | he
          · exact .inl he
          · exact .inr (List.mem_cons_of_mem _ he)

end Table

end Sys2Proof.Machine
end

