-- ==== Sys2Proof/Laws/State.lean ====
section
/-!
SUPPORT. One lemma per field per update, each true by unfolding, so that no proof about a step unfolds a record update.
-/

namespace Sys2Proof.Machine

/-! ## The end of a command -/

@[simp] theorem State.completed_params (s : State) (r : Report) : (s.completed r).params = s.params := rfl
@[simp] theorem State.completed_ie (s : State) (r : Report) : (s.completed r).ie = s.ie := rfl
@[simp] theorem State.completed_busy (s : State) (r : Report) : (s.completed r).busy = false := rfl
@[simp] theorem State.completed_done (s : State) (r : Report) : (s.completed r).done = true := rfl
@[simp] theorem State.completed_args (s : State) (r : Report) : (s.completed r).args = s.args := rfl
@[simp] theorem State.completed_results (s : State) (r : Report) : (s.completed r).results = r.results := rfl
@[simp] theorem State.completed_info (s : State) (r : Report) : (s.completed r).info = r.info := rfl
@[simp] theorem State.completed_slots (s : State) (r : Report) : (s.completed r).slots = r.slots := rfl
@[simp] theorem State.completed_mem (s : State) (r : Report) : (s.completed r).mem = s.memAfter r.out := rfl
@[simp] theorem State.completed_work (s : State) (r : Report) : (s.completed r).work = .idle := rfl
@[simp] theorem State.completed_stuck (s : State) (r : Report) : (s.completed r).stuck = false := rfl
@[simp] theorem State.completed_inbox (s : State) (r : Report) : (s.completed r).inbox = s.inbox := rfl
@[simp] theorem State.completed_hostData (s : State) (r : Report) : (s.completed r).hostData = s.hostData := rfl
@[simp] theorem State.completed_raced (s : State) (r : Report) : (s.completed r).raced = [] := rfl
@[simp] theorem State.completed_freeCount (s : State) (r : Report) : (s.completed r).freeCount = (if s.raced = [] then s.freeCount else s.freeCount + s.srcLen + s.dstCap) := rfl

/-! ## The accepted write of CMD -/

@[simp] theorem State.acceptCmd_params (s : State) (w : Word) : (s.acceptCmd w).params = s.params := rfl
@[simp] theorem State.acceptCmd_ie (s : State) (w : Word) : (s.acceptCmd w).ie = s.ie := rfl
@[simp] theorem State.acceptCmd_busy (s : State) (w : Word) : (s.acceptCmd w).busy = true := rfl
@[simp] theorem State.acceptCmd_done (s : State) (w : Word) : (s.acceptCmd w).done = false := rfl
@[simp] theorem State.acceptCmd_args (s : State) (w : Word) : (s.acceptCmd w).args = { s.args with cmd := w } := rfl
@[simp] theorem State.acceptCmd_results (s : State) (w : Word) : (s.acceptCmd w).results = { s.results with errCode := 0, errOffsetLo := 0, errOffsetHi := 0 } := rfl
@[simp] theorem State.acceptCmd_info (s : State) (w : Word) : (s.acceptCmd w).info = s.info := rfl
@[simp] theorem State.acceptCmd_slots (s : State) (w : Word) : (s.acceptCmd w).slots = s.slots := rfl
@[simp] theorem State.acceptCmd_mem (s : State) (w : Word) : (s.acceptCmd w).mem = s.mem := rfl
@[simp] theorem State.acceptCmd_work (s : State) (w : Word) : (s.acceptCmd w).work = s.work := rfl
@[simp] theorem State.acceptCmd_stuck (s : State) (w : Word) : (s.acceptCmd w).stuck = s.stuck := rfl
@[simp] theorem State.acceptCmd_inbox (s : State) (w : Word) : (s.acceptCmd w).inbox = s.inbox := rfl
@[simp] theorem State.acceptCmd_hostData (s : State) (w : Word) : (s.acceptCmd w).hostData = s.hostData := rfl
@[simp] theorem State.acceptCmd_raced (s : State) (w : Word) : (s.acceptCmd w).raced = s.raced := rfl
@[simp] theorem State.acceptCmd_freeCount (s : State) (w : Word) : (s.acceptCmd w).freeCount = s.freeCount := rfl

/-! ## The device reset -/

@[simp] theorem State.deviceReset_params (s : State) : (s.deviceReset).params = s.params := rfl
@[simp] theorem State.deviceReset_ie (s : State) : (s.deviceReset).ie = false := rfl
@[simp] theorem State.deviceReset_busy (s : State) : (s.deviceReset).busy = false := rfl
@[simp] theorem State.deviceReset_done (s : State) : (s.deviceReset).done = false := rfl
@[simp] theorem State.deviceReset_args (s : State) : (s.deviceReset).args = Args.zero := rfl
@[simp] theorem State.deviceReset_results (s : State) : (s.deviceReset).results = Results.zero := rfl
@[simp] theorem State.deviceReset_info (s : State) : (s.deviceReset).info = Info.zero := rfl
@[simp] theorem State.deviceReset_slots (s : State) : (s.deviceReset).slots = List.replicate s.params.nCtx none := rfl
@[simp] theorem State.deviceReset_mem (s : State) : (s.deviceReset).mem = s.abandonedMem := rfl
@[simp] theorem State.deviceReset_work (s : State) : (s.deviceReset).work = .idle := rfl
@[simp] theorem State.deviceReset_stuck (s : State) : (s.deviceReset).stuck = false := rfl
@[simp] theorem State.deviceReset_inbox (s : State) : (s.deviceReset).inbox = s.inbox := rfl
@[simp] theorem State.deviceReset_hostData (s : State) : (s.deviceReset).hostData = s.hostData := rfl
@[simp] theorem State.deviceReset_raced (s : State) : (s.deviceReset).raced = [] := rfl
@[simp] theorem State.deviceReset_freeCount (s : State) : (s.deviceReset).freeCount = (if s.busy then s.freeCount + s.srcLen + s.dstCap else s.freeCount) := rfl

/-! ## A host write to memory -/

@[simp] theorem State.hostWrite_params (s : State) (a : Nat) (b : Byte) : (s.hostWrite a b).params = s.params := rfl
@[simp] theorem State.hostWrite_ie (s : State) (a : Nat) (b : Byte) : (s.hostWrite a b).ie = s.ie := rfl
@[simp] theorem State.hostWrite_busy (s : State) (a : Nat) (b : Byte) : (s.hostWrite a b).busy = s.busy := rfl
@[simp] theorem State.hostWrite_done (s : State) (a : Nat) (b : Byte) : (s.hostWrite a b).done = s.done := rfl
@[simp] theorem State.hostWrite_args (s : State) (a : Nat) (b : Byte) : (s.hostWrite a b).args = s.args := rfl
@[simp] theorem State.hostWrite_results (s : State) (a : Nat) (b : Byte) : (s.hostWrite a b).results = s.results := rfl
@[simp] theorem State.hostWrite_info (s : State) (a : Nat) (b : Byte) : (s.hostWrite a b).info = s.info := rfl
@[simp] theorem State.hostWrite_slots (s : State) (a : Nat) (b : Byte) : (s.hostWrite a b).slots = s.slots := rfl
@[simp] theorem State.hostWrite_mem (s : State) (a : Nat) (b : Byte) : (s.hostWrite a b).mem = Memory.write s.mem a b := rfl
@[simp] theorem State.hostWrite_work (s : State) (a : Nat) (b : Byte) : (s.hostWrite a b).work = s.work := rfl
@[simp] theorem State.hostWrite_stuck (s : State) (a : Nat) (b : Byte) : (s.hostWrite a b).stuck = s.stuck := rfl
@[simp] theorem State.hostWrite_inbox (s : State) (a : Nat) (b : Byte) : (s.hostWrite a b).inbox = s.inbox := rfl
@[simp] theorem State.hostWrite_hostData (s : State) (a : Nat) (b : Byte) : (s.hostWrite a b).hostData = s.hostData := rfl
@[simp] theorem State.hostWrite_raced (s : State) (a : Nat) (b : Byte) : (s.hostWrite a b).raced = s.race a (s.inSource a || s.inDest a) := rfl
@[simp] theorem State.hostWrite_freeCount (s : State) (a : Nat) (b : Byte) : (s.hostWrite a b).freeCount = s.freeCount := rfl

/-! ## A command placed in progress -/

@[simp] theorem State.inCommand_params (s : State) (w : Work) : (s.inCommand w).params = s.params := rfl
@[simp] theorem State.inCommand_ie (s : State) (w : Work) : (s.inCommand w).ie = s.ie := rfl
@[simp] theorem State.inCommand_busy (s : State) (w : Work) : (s.inCommand w).busy = true := rfl
@[simp] theorem State.inCommand_done (s : State) (w : Work) : (s.inCommand w).done = false := rfl
@[simp] theorem State.inCommand_args (s : State) (w : Work) : (s.inCommand w).args = s.args := rfl
@[simp] theorem State.inCommand_results (s : State) (w : Work) : (s.inCommand w).results = s.results := rfl
@[simp] theorem State.inCommand_info (s : State) (w : Work) : (s.inCommand w).info = s.info := rfl
@[simp] theorem State.inCommand_slots (s : State) (w : Work) : (s.inCommand w).slots = s.slots := rfl
@[simp] theorem State.inCommand_mem (s : State) (w : Work) : (s.inCommand w).mem = s.mem := rfl
@[simp] theorem State.inCommand_work (s : State) (w : Work) : (s.inCommand w).work = w := rfl
@[simp] theorem State.inCommand_stuck (s : State) (w : Work) : (s.inCommand w).stuck = false := rfl
@[simp] theorem State.inCommand_inbox (s : State) (w : Work) : (s.inCommand w).inbox = [] := rfl
@[simp] theorem State.inCommand_hostData (s : State) (w : Work) : (s.inCommand w).hostData = s.hostData := rfl
@[simp] theorem State.inCommand_raced (s : State) (w : Work) : (s.inCommand w).raced = s.raced := rfl
@[simp] theorem State.inCommand_freeCount (s : State) (w : Work) : (s.inCommand w).freeCount = s.freeCount := rfl

/-! ## Reports -/

@[simp] theorem State.failure_out (s : State) (h : BitVec 8) (e : Err) : (s.failure h e).out = [] := rfl
@[simp] theorem State.failure_resultLen (s : State) (h : BitVec 8) (e : Err) : (s.failure h e).resultLen = 0 := rfl
@[simp] theorem State.failure_consumed (s : State) (h : BitVec 8) (e : Err) : (s.failure h e).consumed = 0 := rfl
@[simp] theorem State.failure_err (s : State) (h : BitVec 8) (e : Err) : (s.failure h e).err = some (e, 0) := rfl
@[simp] theorem State.failure_slots (s : State) (h : BitVec 8) (e : Err) : (s.failure h e).slots = s.slots := rfl
@[simp] theorem State.failure_info (s : State) (h : BitVec 8) (e : Err) : (s.failure h e).info = s.info := rfl
@[simp] theorem State.failure_named (s : State) (h : BitVec 8) (e : Err) : (s.failure h e).named = h := rfl
@[simp] theorem State.success_out (s : State) (h : BitVec 8) : (s.success h).out = [] := rfl
@[simp] theorem State.success_resultLen (s : State) (h : BitVec 8) : (s.success h).resultLen = 0 := rfl
@[simp] theorem State.success_consumed (s : State) (h : BitVec 8) : (s.success h).consumed = 0 := rfl
@[simp] theorem State.success_err (s : State) (h : BitVec 8) : (s.success h).err = none := rfl
@[simp] theorem State.success_slots (s : State) (h : BitVec 8) : (s.success h).slots = s.slots := rfl
@[simp] theorem State.success_info (s : State) (h : BitVec 8) : (s.success h).info = s.info := rfl
@[simp] theorem State.success_named (s : State) (h : BitVec 8) : (s.success h).named = h := rfl

/-! ## The block parser -/

@[simp] theorem BlockParser.fail_src (p : BlockParser) (d : Detail) (n : Nat) : (p.fail d n).src = p.src := rfl
@[simp] theorem BlockParser.fail_cap (p : BlockParser) (d : Detail) (n : Nat) : (p.fail d n).cap = p.cap := rfl
@[simp] theorem BlockParser.fail_hist (p : BlockParser) (d : Detail) (n : Nat) : (p.fail d n).hist = p.hist := rfl
@[simp] theorem BlockParser.fail_strictTail (p : BlockParser) (d : Detail) (n : Nat) : (p.fail d n).strictTail = p.strictTail := rfl
@[simp] theorem BlockParser.fail_ip (p : BlockParser) (d : Detail) (n : Nat) : (p.fail d n).ip = p.ip := rfl
@[simp] theorem BlockParser.fail_out (p : BlockParser) (d : Detail) (n : Nat) : (p.fail d n).out = p.out := rfl
@[simp] theorem BlockParser.fail_tok (p : BlockParser) (d : Detail) (n : Nat) : (p.fail d n).tok = p.tok := rfl
@[simp] theorem BlockParser.fail_token (p : BlockParser) (d : Detail) (n : Nat) : (p.fail d n).token = p.token := rfl
@[simp] theorem BlockParser.fail_ll (p : BlockParser) (d : Detail) (n : Nat) : (p.fail d n).ll = p.ll := rfl
@[simp] theorem BlockParser.fail_ml (p : BlockParser) (d : Detail) (n : Nat) : (p.fail d n).ml = p.ml := rfl
@[simp] theorem BlockParser.fail_off (p : BlockParser) (d : Detail) (n : Nat) : (p.fail d n).off = p.off := rfl
@[simp] theorem BlockParser.fail_marks (p : BlockParser) (d : Detail) (n : Nat) : (p.fail d n).marks = p.marks := rfl
@[simp] theorem BlockParser.fail_phase (p : BlockParser) (d : Detail) (n : Nat) : (p.fail d n).phase = .ended (some (d, n)) := rfl
@[simp] theorem BlockParser.takeToken_src (l m : BitVec 4) (p : BlockParser) : (p.takeToken l m).src = p.src := rfl
@[simp] theorem BlockParser.takeToken_cap (l m : BitVec 4) (p : BlockParser) : (p.takeToken l m).cap = p.cap := rfl
@[simp] theorem BlockParser.takeToken_hist (l m : BitVec 4) (p : BlockParser) : (p.takeToken l m).hist = p.hist := rfl
@[simp] theorem BlockParser.takeToken_strictTail (l m : BitVec 4) (p : BlockParser) : (p.takeToken l m).strictTail = p.strictTail := rfl
@[simp] theorem BlockParser.takeToken_ip (l m : BitVec 4) (p : BlockParser) : (p.takeToken l m).ip = p.ip + 1 := rfl
@[simp] theorem BlockParser.takeToken_out (l m : BitVec 4) (p : BlockParser) : (p.takeToken l m).out = p.out := rfl
@[simp] theorem BlockParser.takeToken_tok (l m : BitVec 4) (p : BlockParser) : (p.takeToken l m).tok = p.ip := rfl
@[simp] theorem BlockParser.takeToken_token (l m : BitVec 4) (p : BlockParser) : (p.takeToken l m).token = tokenByte l m := rfl
@[simp] theorem BlockParser.takeToken_ll (l m : BitVec 4) (p : BlockParser) : (p.takeToken l m).ll = l.toNat := rfl
@[simp] theorem BlockParser.takeToken_ml (l m : BitVec 4) (p : BlockParser) : (p.takeToken l m).ml = p.ml := rfl
@[simp] theorem BlockParser.takeToken_off (l m : BitVec 4) (p : BlockParser) : (p.takeToken l m).off = p.off := rfl
@[simp] theorem BlockParser.takeToken_marks (l m : BitVec 4) (p : BlockParser) : (p.takeToken l m).marks = p.marks := rfl
@[simp] theorem BlockParser.takeToken_phase (l m : BitVec 4) (p : BlockParser) : (p.takeToken l m).phase = (if l = 15 then .litExt else .literals) := rfl

/-! ## The frame parser -/

@[simp] theorem FDecomp.tick_dstate (c : FDecomp) : c.tick.dstate = (if c.dstate = .frameInfoKnown ∧ c.stage ≠ .hdr then .decoding else c.dstate) := rfl
@[simp] theorem FDecomp.tick_stage (c : FDecomp) : c.tick.stage = c.stage := rfl
@[simp] theorem FDecomp.tick_acc (c : FDecomp) : c.tick.acc = c.acc := rfl
@[simp] theorem FDecomp.tick_info (c : FDecomp) : c.tick.info = c.info := rfl
@[simp] theorem FDecomp.tick_dict (c : FDecomp) : c.tick.dict = c.dict := rfl
@[simp] theorem FDecomp.tick_hist (c : FDecomp) : c.tick.hist = c.hist := rfl
@[simp] theorem FDecomp.tick_pending (c : FDecomp) : c.tick.pending = c.pending := rfl
@[simp] theorem FDecomp.tick_fpos (c : FDecomp) : c.tick.fpos = c.fpos + 1 := rfl
@[simp] theorem FDecomp.tick_total (c : FDecomp) : c.tick.total = c.total := rfl
@[simp] theorem FDecomp.tick_content (c : FDecomp) : c.tick.content = c.content := rfl
@[simp] theorem FDecomp.tick_bword (c : FDecomp) : c.tick.bword = c.bword := rfl
@[simp] theorem FDecomp.tick_boff (c : FDecomp) : c.tick.boff = c.boff := rfl
@[simp] theorem FDecomp.tick_poff (c : FDecomp) : c.tick.poff = c.poff := rfl
@[simp] theorem FDecomp.tick_skipLeft (c : FDecomp) : c.tick.skipLeft = c.skipLeft := rfl
@[simp] theorem FDecomp.tick_payload (c : FDecomp) : c.tick.payload = c.payload := rfl
@[simp] theorem FDecomp.fail_ctx_dstate (c : FDecomp) (d : Detail) (n : Nat) : (c.fail d n).ctx.dstate = .failed := rfl
@[simp] theorem FDecomp.fail_ctx_stage (c : FDecomp) (d : Detail) (n : Nat) : (c.fail d n).ctx.stage = c.stage := rfl
@[simp] theorem FDecomp.fail_ctx_acc (c : FDecomp) (d : Detail) (n : Nat) : (c.fail d n).ctx.acc = c.acc := rfl
@[simp] theorem FDecomp.fail_ctx_info (c : FDecomp) (d : Detail) (n : Nat) : (c.fail d n).ctx.info = c.info := rfl
@[simp] theorem FDecomp.fail_ctx_dict (c : FDecomp) (d : Detail) (n : Nat) : (c.fail d n).ctx.dict = c.dict := rfl
@[simp] theorem FDecomp.fail_ctx_hist (c : FDecomp) (d : Detail) (n : Nat) : (c.fail d n).ctx.hist = c.hist := rfl
@[simp] theorem FDecomp.fail_ctx_pending (c : FDecomp) (d : Detail) (n : Nat) : (c.fail d n).ctx.pending = c.pending := rfl
@[simp] theorem FDecomp.fail_ctx_fpos (c : FDecomp) (d : Detail) (n : Nat) : (c.fail d n).ctx.fpos = c.fpos := rfl
@[simp] theorem FDecomp.fail_ctx_total (c : FDecomp) (d : Detail) (n : Nat) : (c.fail d n).ctx.total = c.total := rfl
@[simp] theorem FDecomp.fail_ctx_content (c : FDecomp) (d : Detail) (n : Nat) : (c.fail d n).ctx.content = c.content := rfl
@[simp] theorem FDecomp.fail_ctx_bword (c : FDecomp) (d : Detail) (n : Nat) : (c.fail d n).ctx.bword = c.bword := rfl
@[simp] theorem FDecomp.fail_ctx_boff (c : FDecomp) (d : Detail) (n : Nat) : (c.fail d n).ctx.boff = c.boff := rfl
@[simp] theorem FDecomp.fail_ctx_poff (c : FDecomp) (d : Detail) (n : Nat) : (c.fail d n).ctx.poff = c.poff := rfl
@[simp] theorem FDecomp.fail_ctx_skipLeft (c : FDecomp) (d : Detail) (n : Nat) : (c.fail d n).ctx.skipLeft = c.skipLeft := rfl
@[simp] theorem FDecomp.fail_ctx_payload (c : FDecomp) (d : Detail) (n : Nat) : (c.fail d n).ctx.payload = c.payload := rfl
@[simp] theorem FDecomp.deliverBlock_dstate (c : FDecomp) (blk : List Byte) : (c.deliverBlock blk).dstate = c.dstate := rfl
@[simp] theorem FDecomp.deliverBlock_stage (c : FDecomp) (blk : List Byte) : (c.deliverBlock blk).stage = .blkHdr := rfl
@[simp] theorem FDecomp.deliverBlock_acc (c : FDecomp) (blk : List Byte) : (c.deliverBlock blk).acc = c.acc := rfl
@[simp] theorem FDecomp.deliverBlock_info (c : FDecomp) (blk : List Byte) : (c.deliverBlock blk).info = c.info := rfl
@[simp] theorem FDecomp.deliverBlock_dict (c : FDecomp) (blk : List Byte) : (c.deliverBlock blk).dict = c.dict := rfl
@[simp] theorem FDecomp.deliverBlock_hist (c : FDecomp) (blk : List Byte) : (c.deliverBlock blk).hist = (if c.info.indep then c.hist else lastWindow (c.hist ++ blk)) := rfl
@[simp] theorem FDecomp.deliverBlock_pending (c : FDecomp) (blk : List Byte) : (c.deliverBlock blk).pending = c.pending ++ blk := rfl
@[simp] theorem FDecomp.deliverBlock_fpos (c : FDecomp) (blk : List Byte) : (c.deliverBlock blk).fpos = c.fpos := rfl
@[simp] theorem FDecomp.deliverBlock_total (c : FDecomp) (blk : List Byte) : (c.deliverBlock blk).total = c.total + blk.length := rfl
@[simp] theorem FDecomp.deliverBlock_content (c : FDecomp) (blk : List Byte) : (c.deliverBlock blk).content = c.content ++ blk := rfl
@[simp] theorem FDecomp.deliverBlock_bword (c : FDecomp) (blk : List Byte) : (c.deliverBlock blk).bword = c.bword := rfl
@[simp] theorem FDecomp.deliverBlock_boff (c : FDecomp) (blk : List Byte) : (c.deliverBlock blk).boff = c.boff := rfl
@[simp] theorem FDecomp.deliverBlock_poff (c : FDecomp) (blk : List Byte) : (c.deliverBlock blk).poff = c.poff := rfl
@[simp] theorem FDecomp.deliverBlock_skipLeft (c : FDecomp) (blk : List Byte) : (c.deliverBlock blk).skipLeft = c.skipLeft := rfl
@[simp] theorem FDecomp.deliverBlock_payload (c : FDecomp) (blk : List Byte) : (c.deliverBlock blk).payload = [] := rfl
@[simp] theorem FDecomp.goOn_ctx (c : FDecomp) : c.goOn.ctx = c := rfl
@[simp] theorem FDecomp.goOn_header (c : FDecomp) : c.goOn.header = none := rfl
@[simp] theorem FDecomp.goOn_error (c : FDecomp) : c.goOn.error = none := rfl
@[simp] theorem FDecomp.fail_header (c : FDecomp) (d : Detail) (n : Nat) : (c.fail d n).header = none := rfl
@[simp] theorem FDecomp.fail_error (c : FDecomp) (d : Detail) (n : Nat) : (c.fail d n).error = some (d, n) := rfl

end Sys2Proof.Machine
end

