-- ==== Sys2Proof/Laws/Ending.lean ====
section
/-!
SUPPORT. What the end of a command does, said once: `finish`, `raise` and `withSource` on an undisturbed engine, what they
can answer at all, and the bridge from `completed` to `EndsWith`.
-/

namespace Sys2Proof.Machine

theorem State.undisturbed_iff (s : State) :
    s.undisturbed = true ↔ Memory.wf s.mem = true ∧ s.params.holes = [] ∧ s.raced = [] := by
  simp [State.undisturbed, and_assoc]

theorem State.hitsHole_of_no_holes {s : State} (h : s.params.holes = []) (a n : Nat) : s.hitsHole a n = false := by
  simp [State.hitsHole, h]

/-- Where every address has memory, a command ends with its report. -/
theorem State.finish_of_no_holes {s : State} (h : s.params.holes = []) (r : Report) :
    s.finish r = .next (s.completed r) := by
  simp [State.finish, State.hitsHole_of_no_holes h]

theorem State.raise_of_no_holes {s : State} (h : s.params.holes = []) (hd : BitVec 8) (e : Err) :
    s.raise hd e = .next (s.completed (s.failure hd e)) := State.finish_of_no_holes h _

/-- A failing check writes nothing, so it needs no memory. -/
theorem State.raise_eq (s : State) (hd : BitVec 8) (e : Err) : s.raise hd e = .next (s.completed (s.failure hd e)) := by
  have h : s.hitsHole s.dstAddr (s.failure hd e).out.length = false := by
    simp [State.hitsHole, intersects]
  rw [State.raise, State.finish, h]
  rfl

theorem State.withSource_of_no_holes {s : State} (h : s.params.holes = []) (k : List Byte → Result) :
    s.withSource k = k s.source := by
  simp [State.withSource, State.hitsHole_of_no_holes h]

/-- What a DMA fault answers when it answers a state (rule R92). -/
theorem State.dmaFault_next {s t : State} (h : s.dmaFault = .next t) : t = { s with busy := true, stuck := true } := by
  simp only [State.dmaFault] at h
  split at h
  · exact (Host.Outcome.next.inj h).symm
  · cases h

/-- What the end of a command answers when it answers a state: the report, or a stuck engine. -/
theorem State.finish_next {s t : State} {r : Report} (h : s.finish r = .next t) :
    t = s.completed r ∨ t = { s with busy := true, stuck := true } := by
  simp only [State.finish] at h
  split at h
  · exact .inr (State.dmaFault_next h)
  · exact .inl (Host.Outcome.next.inj h).symm

/-- No command is refused at its end. -/
theorem State.finish_ne_refused (s : State) (r : Report) (x : Refusal) : s.finish r ≠ .refused x := by
  simp only [State.finish, State.dmaFault]
  split
  · split <;> simp
  · simp

theorem State.withSource_next {s t : State} {k : List Byte → Result} (h : s.withSource k = .next t) :
    k s.source = .next t ∨ t = { s with busy := true, stuck := true } := by
  simp only [State.withSource] at h
  split at h
  · exact .inr (State.dmaFault_next h)
  · exact .inl h

/-- The class of a reported error is never 0 (rule R450). -/
theorem Err.class_ne_zero (e : Err) : e.word.extractLsb' 0 8 ≠ 0 := by
  cases e with
  | corrupt d => cases d <;> decide
  | _ => decide

theorem State.memAfter_of_no_race {s : State} (h : s.raced = []) (out : List Byte) :
    s.memAfter out = Memory.writeBytes s.mem s.dstAddr out := by
  simp [State.memAfter, h]

theorem State.statusWord_completed (s : State) (r : Report) :
    (s.completed r).statusWord = if r.err = none then 2 else 6 := by
  cases h : r.err with
  | none => simp [State.statusWord, State.errorFlag, Report.results, errCodeWord, h, flagNat]
  | some p =>
    have := p.1.class_ne_zero
    simp_all [State.statusWord, State.errorFlag, Report.results, errCodeWord, flagNat]

/-- The state a completed command leaves is what its report says, as the host reads it. -/
theorem State.endsWith_completed {s : State} (h : s.undisturbed = true) (r : Report) : s.EndsWith r (s.completed r) := by
  obtain ⟨hm, -, hr⟩ := s.undisturbed_iff.mp h
  exact {
    status := s.statusWord_completed r
    resultLen := rfl
    consumed := rfl
    errCode := rfl
    errOffsetLo := rfl
    errOffsetHi := rfl
    ctxStatus := rfl
    slots := rfl
    info := rfl
    memory := fun a => by
      rw [State.completed_mem, State.memAfter_of_no_race hr]
      exact Memory.read_writeBytes hm _ _ _
    work := rfl
    notStuck := rfl
    params := rfl
    ie := rfl
    args := rfl
    inbox := rfl
    hostData := rfl
    raced := rfl
    freeCount := by simp [hr] }

/-- A command that is seen to finish with a report runs to it. -/
theorem State.runsTo_of_finish {s : State} {i : Instr} {r : Report} (h : s.undisturbed = true) (he : exec i s = s.finish r) :
    s.RunsTo i r :=
  ⟨s.completed r, by rw [he, State.finish_of_no_holes (s.undisturbed_iff.mp h).2.1], State.endsWith_completed h r⟩

/-- The same for a command that is seen to fail a check. -/
theorem State.runsTo_of_raise {s : State} {i : Instr} {hd : BitVec 8} {e : Err} (h : s.undisturbed = true)
    (he : exec i s = s.raise hd e) : s.RunsTo i (s.failure hd e) := State.runsTo_of_finish h he

end Sys2Proof.Machine
end

