-- ==== Sys2Proof/Laws/Frame.lean ====
section
/-!
SUPPORT. The loop of FRAME_DECOMPRESS (rule R385): delivery, one byte at a time, and the bytes of an element.
-/

namespace Sys2Proof.Machine

namespace FrameRun

/-- With nothing pending, delivery does nothing. -/
theorem deliver_of_empty {r : FrameRun} (h : r.ctx.pending = []) (cap : Nat) : r.deliver cap = r := by
  obtain ⟨c, i, u, o⟩ := r
  cases c
  simp_all [deliver]

/-- Delivery to the same capacity twice is delivery once. -/
theorem deliver_deliver (r : FrameRun) (cap : Nat) : (r.deliver cap).deliver cap = r.deliver cap := by
  obtain ⟨c, i, u, o⟩ := r
  by_cases h : c.pending.length ≤ cap - o.length
  · apply deliver_of_empty
    simp [deliver, Nat.min_eq_left h]
  · have h' : min c.pending.length (cap - o.length) = cap - o.length := by omega
    simp [deliver, h']
    omega

/-- Delivered and pending output together are what they were. -/
theorem deliver_total (r : FrameRun) (cap : Nat) :
    (r.deliver cap).out ++ (r.deliver cap).ctx.pending = r.out ++ r.ctx.pending := by
  simp [deliver]

/-- Delivery never goes past the capacity. -/
theorem deliver_length_le {r : FrameRun} {cap : Nat} (h : r.out.length ≤ cap) : (r.deliver cap).out.length ≤ cap := by
  simp only [deliver, List.length_append, List.length_take]
  omega

end FrameRun

theorem frameLoop_nil_of_empty {r : FrameRun} (h : r.ctx.pending = []) (rules : FrameRules) (cap : Nat) :
    frameLoop rules cap [] r = (r, none) := by
  simp [frameLoop, FrameRun.deliver_of_empty h]

/-- One byte fed, when nothing is pending and the frame has not ended. -/
theorem frameLoop_cons {r : FrameRun} (h : r.ctx.pending = []) (hs : r.ctx.stage ≠ .ended) (rules : FrameRules) (cap : Nat)
    (b : Byte) (bs : List Byte) :
    frameLoop rules cap (b :: bs) r =
      (match r.eat rules b with
      | (r', some e) => (r', some e)
      | (r', none) => frameLoop rules cap bs r') := by
  simp only [frameLoop, FrameRun.deliver_of_empty h, h, hs, ne_eq, not_true_eq_false, if_false]
  all_goals rcases r.eat rules b with ⟨r', _ | e⟩ <;> rfl

/-- Output waiting for space stops the loop (rule R385). -/
theorem frameLoop_full {r : FrameRun} {cap : Nat} (h : (r.deliver cap).ctx.pending ≠ []) (rules : FrameRules) (bs : List Byte) :
    frameLoop rules cap bs r = (r.deliver cap, none) := by
  cases bs with
  | nil => rfl
  | cons b bs => simp [frameLoop, h]

/-- The loop starts by delivering. -/
theorem frameLoop_deliver (rules : FrameRules) (cap : Nat) (bs : List Byte) (r : FrameRun) :
    frameLoop rules cap bs (r.deliver cap) = frameLoop rules cap bs r := by
  cases bs with
  | nil => simp [frameLoop, FrameRun.deliver_deliver]
  | cons b bs => simp [frameLoop, FrameRun.deliver_deliver]

/-- The loop over two pieces is the loop over the first, then over the second. -/
theorem frameLoop_append (rules : FrameRules) (cap : Nat) (xs ys : List Byte) (r : FrameRun) :
    frameLoop rules cap (xs ++ ys) r =
      (match frameLoop rules cap xs r with
      | (r', some e) => (r', some e)
      | (r', none) => frameLoop rules cap ys r') := by
  induction xs generalizing r with
  | nil => simp [frameLoop, frameLoop_deliver]
  | cons b xs ih =>
    simp only [List.cons_append, frameLoop]
    by_cases h1 : (r.deliver cap).ctx.pending = []
    · by_cases h2 : (r.deliver cap).ctx.stage = .ended
      · simp [h1, h2]
      · simp only [h1, h2, ne_eq, not_true_eq_false, if_false]
        cases h3 : (r.deliver cap).eat rules b with
        | mk r' e =>
          cases e with
          | none => exact ih r'
          | some e => rfl
    · simp only [h1, ne_eq, not_false_eq_true, if_true]
      exact ((frameLoop_full (by rw [FrameRun.deliver_deliver]; exact h1) _ _).trans
        (by rw [FrameRun.deliver_deliver])).symm

/-- Up to 4 collected bytes rules R389 and R400 agree on when a block header word is read. -/
theorem FDecomp.wordReady_of_le {n : Nat} (h : n ≤ 4) (rules : FrameRules) : FDecomp.wordReady rules n = (n == 4) := by
  simp [FDecomp.wordReady, Nat.not_lt.mpr h]

/-- With more than 4 the two rules part. -/
theorem FDecomp.wordReady_of_lt {n : Nat} (h : 4 < n) (rules : FrameRules) : FDecomp.wordReady rules n = !rules.exactWord := by
  have : (n == 4) = false := by simp; omega
  simp [FDecomp.wordReady, h, this]

/-- A frame element executed on the working registers. -/
theorem State.frameElement_eq {s : State} {h : BitVec 8} {rest : List Byte} {cap : Nat} {run : FrameRun}
    (hw : s.work = .frame h rest cap run none) (bytes : List Byte) :
    s.frameElement bytes = .next { s with
      work := .frame h (rest.drop ((frameLoop s.frameRules cap bytes run).1.used - run.used)) cap
        (frameLoop s.frameRules cap bytes run).1 (frameLoop s.frameRules cap bytes run).2 } := by
  simp [State.frameElement, hw]

end Sys2Proof.Machine
end

