-- ==== Sys2Proof/Laws/Parser.lean ====
section
/-!
SUPPORT. The block parser as the engine runs it: fetching the element at `ip`, decoding it and executing its instruction is
one `advance` of the parser (rules R255 to R265).
-/

namespace Sys2Proof.Machine

theorem byteAt_take_drop (bs : List Byte) (i n : Nat) (hn : 0 < n) : byteAt ((bs.drop i).take n) 0 = byteAt bs i := by
  obtain ⟨n, rfl⟩ : ∃ m, n = m + 1 := ⟨n - 1, by omega⟩
  cases h : bs.drop i with
  | nil =>
    have : bs.length ≤ i := by
      have := congrArg List.length h
      simp only [List.length_drop, List.length_nil] at this
      omega
    simp [byteAt, this]
  | cons x xs =>
    have := congrArg (fun l => l[0]?) h
    simp only [List.getElem?_drop, Nat.add_zero, List.getElem?_cons_zero] at this
    simp [byteAt, List.getD, this]

theorem takeBytes_drop (n i : Nat) (bs : List Byte) (h : i + n ≤ bs.length) :
    takeBytes n (bs.drop i) = .ok ((bs.drop i).take n, (bs.drop i).drop n) := by
  rw [takeBytes, if_neg (by simp only [List.length_drop]; omega)]

theorem takeBytes_short (n i : Nat) (bs : List Byte) (hi : i ≤ bs.length) (h : bs.length < i + n) :
    takeBytes n (bs.drop i) = .error .tooShort := by
  rw [takeBytes, if_pos (by simp only [List.length_drop]; omega)]

/-- The high and the low nibble make the byte. -/
theorem tokenByte_nibbles (b : Byte) : tokenByte (hiNibble b) (loNibble b) = b := by
  apply BitVec.eq_of_toNat_eq
  simp only [tokenByte, hiNibble, loNibble, BitVec.toNat_append, BitVec.extractLsb'_toNat]
  have := b.isLt
  rw [← Nat.shiftLeft_add_eq_or_of_lt (by omega)]
  simp only [Nat.shiftRight_eq_div_pow, Nat.shiftLeft_eq]
  omega

/-- One turn of the block decompressor before its end: the element at `ip` is fetched and acted on. -/
theorem State.blockTurn_advance {s : State} {o : BlockOwner} {p : BlockParser} (hw : s.work = .block o p)
    (hip : p.ip ≤ p.src.length) (hp : ∀ st, p.phase ≠ .ended st) :
    s.blockTurn o p = .next { s with work := .block o p.advance } := by
  cases h : p.phase with
  | token =>
    by_cases hi : p.ip < p.src.length
    · simp [State.blockTurn, BlockParser.fetch, BlockParser.advance, h, hi, decode, takeBytes_drop 1 p.ip p.src hi,
        Except.map, exec, execToken, hw, decodeToken, byteAt_take_drop]
    · simp [State.blockTurn, BlockParser.fetch, BlockParser.advance, h, hi, decode,
        takeBytes_short 1 p.ip p.src hip (by omega), Except.map]
  | litExt =>
    by_cases hi : p.ip < p.src.length
    · simp [State.blockTurn, BlockParser.fetch, BlockParser.advance, h, hi, decode, takeBytes_drop 1 p.ip p.src hi,
        Except.map, exec, execLenExt, hw, byteAt_take_drop]
    · simp [State.blockTurn, BlockParser.fetch, BlockParser.advance, h, hi, decode,
        takeBytes_short 1 p.ip p.src hip (by omega), Except.map]
  | literals =>
    by_cases hi : p.src.length < p.ip + p.ll
    · simp [State.blockTurn, BlockParser.fetch, BlockParser.advance, h, hi, decode,
        takeBytes_short p.ll p.ip p.src hip hi, Except.map]
    · simp [State.blockTurn, BlockParser.fetch, BlockParser.advance, h, hi, decode,
        takeBytes_drop p.ll p.ip p.src (by omega), Except.map, exec, execLiterals, hw]
  | offset =>
    by_cases hi : p.src.length < p.ip + 2
    · simp [State.blockTurn, BlockParser.fetch, BlockParser.advance, h, hi, decode,
        takeBytes_short 2 p.ip p.src hip hi, Except.map]
    · have hl : leNat ((p.src.drop p.ip).take 2) < 65536 := by
        have := leNat_lt ((p.src.drop p.ip).take 2)
        have h2 : ((p.src.drop p.ip).take 2).length = 2 := by
          simp only [List.length_take, List.length_drop]
          omega
        rw [h2] at this
        omega
      simp [State.blockTurn, BlockParser.fetch, BlockParser.advance, h, hi, decode,
        takeBytes_drop 2 p.ip p.src (by omega), Except.map, exec, execOffset, hw, le16, Nat.mod_eq_of_lt hl]
  | matchExt =>
    by_cases hi : p.ip < p.src.length
    · simp [State.blockTurn, BlockParser.fetch, BlockParser.advance, h, hi, decode, takeBytes_drop 1 p.ip p.src hi,
        Except.map, exec, execLenExt, hw, byteAt_take_drop]
    · simp [State.blockTurn, BlockParser.fetch, BlockParser.advance, h, hi, decode,
        takeBytes_short 1 p.ip p.src hip (by omega), Except.map]
  | ended st => exact absurd h (hp st)

/-- The turn after the parse has ended is the end of its command. -/
theorem State.blockTurn_ended {s : State} {o : BlockOwner} {p : BlockParser} {st : Option (Detail × Nat)}
    (hp : p.phase = .ended st) : s.blockTurn o p = s.finish (s.blockReport o p) := by
  simp [State.blockTurn, BlockParser.fetch, hp]

/-- A parse that has ended stays where it is. -/
theorem BlockParser.run_ended {p : BlockParser} {st : Option (Detail × Nat)} (hp : p.phase = .ended st) (n : Nat) :
    BlockParser.run n p = p := by
  induction n with
  | zero => rfl
  | succ n ih =>
    have : p.advance = p := by simp [BlockParser.advance, hp]
    rw [BlockParser.run, this, ih]

end Sys2Proof.Machine
end

