-- ==== Sys2Proof/Laws/PerInstr.lean ====
section
/-!
SUPPORT. A statement about every instruction as syntax, one lemma per constructor: the number of bytes its encoding takes
(rules R37, R117, R120, R121, R152, R154).
-/

namespace Sys2Proof

/-- The bytes of an instruction's encoding, from the field widths of the spec. -/
def encodedLength : Instr → Nat
  | .bound _ _ => 4
  | .compress _ _ => 4
  | .decompress _ _ => 4
  | .ctxCreate _ _ => 4
  | .ctxDestroy _ _ => 4
  | .ctxReset _ _ => 4
  | .ctxLoadDict _ _ => 4
  | .streamCompress _ _ => 4
  | .streamDecompress _ _ => 4
  | .frameBegin _ _ => 4
  | .frameUpdate _ _ => 4
  | .frameEnd _ _ => 4
  | .frameInfo _ _ => 4
  | .frameDecompress _ _ => 4
  | .illegalCommand _ _ _ => 4
  | .token _ _ => 1
  | .lenExt _ => 1
  | .literals bs => bs.length
  | .offset _ => 2
  | .legacySize _ => 4
  | .frameMagic => 4
  | .skippableMagic _ _ => 8
  | .legacyMagicRefused => 4
  | .flg _ _ _ _ _ _ _ => 1
  | .bd _ _ _ => 1
  | .contentSize _ => 8
  | .dictId _ => 4
  | .hc _ => 1
  | .blockCompressed _ => 4
  | .blockStored _ => 4
  | .blockChecksum _ => 4
  | .endMark => 4
  | .contentChecksum _ => 4
  | .prefs _ _ _ _ _ _ _ => 4

/-- The encoding has the length the spec gives it. -/
def Laws.EncodingLength.Statement (i : Instr) : Prop := (encode i).length = encodedLength i

namespace Laws.EncodingLength

open Machine

theorem bound (a : BitVec 8) (b : BitVec 16) : Statement (.bound a b) := by
  simp [Statement, encode, encodedLength, wordBytes]

theorem compress (a : BitVec 8) (b : BitVec 16) : Statement (.compress a b) := by
  simp [Statement, encode, encodedLength, wordBytes]

theorem decompress (a : BitVec 8) (b : BitVec 16) : Statement (.decompress a b) := by
  simp [Statement, encode, encodedLength, wordBytes]

theorem ctxCreate (a : BitVec 8) (b : BitVec 16) : Statement (.ctxCreate a b) := by
  simp [Statement, encode, encodedLength, wordBytes]

theorem ctxDestroy (a : BitVec 8) (b : BitVec 16) : Statement (.ctxDestroy a b) := by
  simp [Statement, encode, encodedLength, wordBytes]

theorem ctxReset (a : BitVec 8) (b : BitVec 16) : Statement (.ctxReset a b) := by
  simp [Statement, encode, encodedLength, wordBytes]

theorem ctxLoadDict (a : BitVec 8) (b : BitVec 16) : Statement (.ctxLoadDict a b) := by
  simp [Statement, encode, encodedLength, wordBytes]

theorem streamCompress (a : BitVec 8) (b : BitVec 16) : Statement (.streamCompress a b) := by
  simp [Statement, encode, encodedLength, wordBytes]

theorem streamDecompress (a : BitVec 8) (b : BitVec 16) : Statement (.streamDecompress a b) := by
  simp [Statement, encode, encodedLength, wordBytes]

theorem frameBegin (a : BitVec 8) (b : BitVec 16) : Statement (.frameBegin a b) := by
  simp [Statement, encode, encodedLength, wordBytes]

theorem frameUpdate (a : BitVec 8) (b : BitVec 16) : Statement (.frameUpdate a b) := by
  simp [Statement, encode, encodedLength, wordBytes]

theorem frameEnd (a : BitVec 8) (b : BitVec 16) : Statement (.frameEnd a b) := by
  simp [Statement, encode, encodedLength, wordBytes]

theorem frameInfo (a : BitVec 8) (b : BitVec 16) : Statement (.frameInfo a b) := by
  simp [Statement, encode, encodedLength, wordBytes]

theorem frameDecompress (a : BitVec 8) (b : BitVec 16) : Statement (.frameDecompress a b) := by
  simp [Statement, encode, encodedLength, wordBytes]

theorem illegalCommand (a : BitVec 8) (b : BitVec 8) (c : BitVec 16) : Statement (.illegalCommand a b c) := by
  simp [Statement, encode, encodedLength, wordBytes]

theorem token (a : BitVec 4) (b : BitVec 4) : Statement (.token a b) := by
  simp [Statement, encode, encodedLength]

theorem lenExt (a : Byte) : Statement (.lenExt a) := by
  simp [Statement, encode, encodedLength]

theorem literals (a : List Byte) : Statement (.literals a) := by
  simp [Statement, encode, encodedLength]

theorem offset (a : BitVec 16) : Statement (.offset a) := by
  simp [Statement, encode, encodedLength]

theorem legacySize (a : Word) : Statement (.legacySize a) := by
  simp [Statement, encode, encodedLength, wordBytes]

theorem frameMagic : Statement .frameMagic := by
  simp [Statement, encode, encodedLength]

theorem skippableMagic (a : BitVec 4) (b : Word) : Statement (.skippableMagic a b) := by
  simp [Statement, encode, encodedLength, wordBytes]

theorem legacyMagicRefused : Statement .legacyMagicRefused := by
  simp [Statement, encode, encodedLength]

theorem flg (a : BitVec 2) (b : Bool) (c : Bool) (d : Bool) (e : Bool) (f : Bool) (g : Bool) : Statement (.flg a b c d e f g) := by
  simp [Statement, encode, encodedLength]

theorem bd (a : Bool) (b : BitVec 3) (c : BitVec 4) : Statement (.bd a b c) := by
  simp [Statement, encode, encodedLength]

theorem contentSize (a : BitVec 64) : Statement (.contentSize a) := by
  simp [Statement, encode, encodedLength]

theorem dictId (a : Word) : Statement (.dictId a) := by
  simp [Statement, encode, encodedLength, wordBytes]

theorem hc (a : Byte) : Statement (.hc a) := by
  simp [Statement, encode, encodedLength]

theorem blockCompressed (a : BitVec 31) : Statement (.blockCompressed a) := by
  simp [Statement, encode, encodedLength, wordBytes]

theorem blockStored (a : BitVec 31) : Statement (.blockStored a) := by
  simp [Statement, encode, encodedLength, wordBytes]

theorem blockChecksum (a : Word) : Statement (.blockChecksum a) := by
  simp [Statement, encode, encodedLength, wordBytes]

theorem endMark : Statement .endMark := by
  simp [Statement, encode, encodedLength, wordBytes]

theorem contentChecksum (a : Word) : Statement (.contentChecksum a) := by
  simp [Statement, encode, encodedLength, wordBytes]

theorem prefs (a : BitVec 3) (b : Bool) (c : Bool) (d : Bool) (e : Bool) (f : Bool) (g : BitVec 24) : Statement (.prefs a b c d e f g) := by
  simp [Statement, encode, encodedLength, wordBytes]

end Laws.EncodingLength

end Sys2Proof
end

