-- ==== Sys2Proof/Tests/Slice0.lean ====
section
/-!
SUPPORT. Tests. Expected results are the vectors of spec/95_test_vectors.md (V-...), the examples the rules of the spec give, or
words written out from its encodings. A theorem `witness_<Name>` shows concrete states and operands that meet the hypotheses
of the statement `<Name>`, each clause at a boundary.
-/

namespace Sys2Proof.Tests

open Sys2Proof.Machine

/-! ## Helpers -/

/-- The next state of a result. -/
def asNext : Result → Option State
  | .next t => some t
  | .fault _ => none
  | .refused _ => none

/-- The result is this fault. -/
def faults (f : Fault) : Result → Bool
  | .next _ => false
  | .fault g => g == f
  | .refused _ => false

/-- The result is this refusal. -/
def refuses (x : Refusal) : Result → Bool
  | .next _ => false
  | .fault _ => false
  | .refused y => y == x

/-- The bytes of a text. -/
def ascii (s : String) : List Byte := s.toList.map fun c => byteOf c.toNat

/-- `n` times "A". -/
def manyA (n : Nat) : List Byte := List.replicate n 0x41

/-- A machine with the source bytes at 0x1000, the destination at 0x80000 and the PARAM registers set. -/
def machine (src : List Byte) (cap : Nat) (p0 : Nat := 0) (p1 : Nat := 0) : State :=
  { State.reset with
    mem := Memory.writeBytes [] 0x1000 src
    args := { Args.zero with
      srcAddrLo := 0x1000
      srcLen := BitVec.ofNat 32 src.length
      dstAddrLo := 0x80000
      dstCap := BitVec.ofNat 32 cap
      param0 := BitVec.ofNat 32 p0
      param1 := BitVec.ofNat 32 p1 } }

/-- The machine with contexts in its first slots. -/
def withCtxs (s : State) (cs : List Ctx) : State := { s with slots := cs.map some ++ s.slots.drop cs.length }

/-- The bus address of a register after reset. -/
def reg (off : Nat) : Nat := State.reset.regAddr off

/-- The machine inside a command. -/
def working (s : State) (w : Work) : State := { s with busy := true, work := w }

/-- What the host reads after a command: STATUS, RESULT_LEN, CONSUMED, ERR_CODE, ERR_OFFSET, CTX_STATUS. -/
def regs (r : Result) : List Nat :=
  (asNext r).toList.flatMap fun t =>
    [t.readReg 0x008, t.readReg 0x034, t.readReg 0x038, t.readReg 0x03C, t.readReg 0x040, t.readReg 0x060].map (·.toNat)

/-- The RESULT_LEN bytes at the destination. -/
def output (r : Result) : List Byte :=
  (asNext r).toList.flatMap fun t => Memory.readBytes t.mem 0x80000 (t.readReg 0x034).toNat

/-- The command runs undisturbed and ends with this ERR_CODE. -/
def endsWith (code : Nat) (i : Instr) (s : State) : Bool := s.undisturbed && (regs (exec i s))[3]? == some code

/-- The working registers after an element. -/
def workAfter (i : Instr) (s : State) : Option Work := (asNext (exec i s)).map (·.work)

/-! ## Well-formedness: an ill-formed term for each check -/

theorem test_wf_refuses_ill_formed :
    ([.bound 0 1, .compress 0 1, .decompress 0 1, .ctxCreate 0 1, .ctxReset 1 1, .ctxLoadDict 1 1, .streamCompress 1 1,
      .streamDecompress 1 1, .frameBegin 1 1, .frameUpdate 1 1, .frameEnd 1 1, .frameInfo 1 1, .frameDecompress 1 1,
      .illegalCommand 0x39 0 0, .offset 0, .legacySize 0x7E000001]
      ++ [.flg 2 true false false false false false, .flg 1 true false false false true false, .bd true 4 0, .bd false 3 0,
        .bd false 4 1, .blockCompressed 0, .blockCompressed 4194305, .blockStored 4194305,
        .prefs 1 false false false false false 0, .prefs 3 false false false false false 0,
        .prefs 0 true false false false false 0, .prefs 0 false false false false false 1] : List Instr).all
      (fun i => !i.wf) = true := by decide

theorem test_wf_takes_boundaries :
    ([.ctxDestroy 1 0xFFFF, .illegalCommand 0x04 0 1, .offset 1, .offset 0xFFFF, .legacySize 0x7E000000, .bd false 7 0,
      .blockCompressed 1, .blockCompressed 4194304, .blockStored 0, .prefs 4 false true true true true 0] : List Instr).all
      Instr.wf = true := by decide

/-! ## Decoding: words written out from the encodings of the spec -/

/-- Rules R37, R150: OPCODE [7:0], HANDLE [15:8], CMD[31:16]. -/
theorem test_decode_commands :
    ([([0x01, 0x00, 0x00, 0x00], .bound 0 0), ([0x02, 0x00, 0x00, 0x00], .compress 0 0),
      ([0x03, 0x00, 0x00, 0x00], .decompress 0 0), ([0x10, 0x00, 0x00, 0x00], .ctxCreate 0 0),
      ([0x11, 0x01, 0xFF, 0xFF], .ctxDestroy 1 0xFFFF), ([0x12, 0x02, 0x00, 0x00], .ctxReset 2 0),
      ([0x13, 0x03, 0x00, 0x00], .ctxLoadDict 3 0), ([0x20, 0x01, 0x00, 0x00], .streamCompress 1 0)]
      ++ [([0x21, 0x02, 0x00, 0x00], .streamDecompress 2 0), ([0x30, 0x04, 0x00, 0x00], .frameBegin 4 0),
        ([0x31, 0x04, 0x00, 0x00], .frameUpdate 4 0), ([0x32, 0x04, 0x01, 0x00], .frameEnd 4 1),
        ([0x38, 0x01, 0x00, 0x80], .frameInfo 1 0x8000), ([0x39, 0xFF, 0x00, 0x00], .frameDecompress 255 0),
        ([0x04, 0x00, 0x00, 0x00], .illegalCommand 4 0 0), ([0x00, 0x00, 0x00, 0x00], .illegalCommand 0 0 0),
        ([0xFF, 0x02, 0x01, 0x00], .illegalCommand 0xFF 2 1)] : List (List Byte × Instr)).all
      (fun c => decodeAt .command c.1 == some c.2) = true := by decide

/-- Rules R111, R112, R114, R115, R118. -/
theorem test_decode_block_elements :
    decodeAt .token [0xF7] = some (.token 15 7) ∧ decodeAt .lenExt [0xFF] = some (.lenExt 255)
    ∧ decodeAt (.literals 2) [0x61, 0x62, 0x63] = some (.literals [0x61, 0x62])
    ∧ decodeAt .offset [0x34, 0x12] = some (.offset 0x1234)
    ∧ decodeAt .legacySize [0x01, 0x02, 0x03, 0x04] = some (.legacySize 0x04030201)
    ∧ decodeAt .offset [0x34] = none ∧ decodeAt .token [] = none := by decide

/-- Rules R122 to R126, R130, R131. -/
theorem test_decode_header_elements :
    ([(.magic, [0x04, 0x22, 0x4D, 0x18], .frameMagic), (.magic, [0x02, 0x21, 0x4C, 0x18], .legacyMagicRefused),
      (.magic, [0x50, 0x2A, 0x4D, 0x18, 0x03, 0x00, 0x00, 0x00], .skippableMagic 0 3),
      (.flg, [0x69], .flg 1 true false true false false true), (.flg, [0x96], .flg 2 false true false true true false)]
      ++ [(.bd, [0x50], .bd false 5 0), (.bd, [0xC1], .bd true 4 1), (.hc, [0xA7], .hc 0xA7),
        (.contentSize, [0x04, 0, 0, 0, 0, 0, 0, 0x80], .contentSize 0x8000000000000004),
        (.dictId, [0x78, 0x56, 0x34, 0x12], .dictId 0x12345678)] : List (Site × List Byte × Instr)).all
      (fun row => decodeAt row.1 row.2.1 == some row.2.2) = true
    ∧ decodeAt .magic [0x03, 0x22, 0x4D, 0x18] = none := by decide

/-- Rules R127 to R129. -/
theorem test_decode_record_elements :
    ([(.blockWord, [0x0B, 0x00, 0x00, 0x00], .blockCompressed 11), (.blockWord, [0x00, 0x00, 0x01, 0x80], .blockStored 65536),
      (.blockWord, [0x00, 0x00, 0x00, 0x00], .endMark), (.blockChecksum, [0x53, 0x7A, 0xD4, 0xA3], .blockChecksum 0xA3D47A53),
      (.contentChecksum, [0x05, 0x5D, 0xCC, 0x02], .contentChecksum 0x02CC5D05)] : List (Site × List Byte × Instr)).all
      (fun row => decodeAt row.1 row.2.1 == some row.2.2) = true := by decide

/-- Rule R152: BSID [2:0], reserved [3], B_INDEP [4], C_CHECKSUM [5], B_CHECKSUM [6], AUTO_FLUSH [7]. -/
theorem test_decode_prefs :
    decodeAt .prefs [0x15, 0x00, 0x00, 0x00] = some (.prefs 5 false true false false false 0)
    ∧ decodeAt .prefs [0xE8, 0x01, 0x00, 0x00] = some (.prefs 0 true false true true true 1) := by decide

/-- One legal word of each table row, in the table's order, runs as the very next step after reset. -/
theorem test_every_row_runs :
    ([(32, 0x00000001), (32, 0x00000002), (32, 0x00000003), (32, 0x00000010), (32, 0x00000011), (32, 0x00000012),
      (32, 0x00000013), (32, 0x00000020), (32, 0x00000021), (32, 0x00000030), (32, 0x00000031), (32, 0x00000032)]
      ++ [(32, 0x00000038), (32, 0x00000039), (32, 0x00000004), (8, 0x1F), (16, 0x0001), (32, 0x184D2204), (32, 0x184D2A50),
        (32, 0x184C2102), (8, 0x40), (8, 0x70), (64, 4), (32, 0x80000003), (32, 0x00000000), (32, 0x000000B0)]).all
      (fun (c : Nat × Nat) => (asNext (step (State.reset.withFetchWord c.1 c.2))).isSome) = true := by decide +kernel

/-! ## The block family -/

/-- V-BD5. -/
theorem test_bound : regs (exec (.bound 0 0) (machine [] 0 255)) = [2, 272, 0, 0, 0, 0] := by decide +kernel

/-- V-BD9. -/
theorem test_bound_too_large : regs (exec (.bound 0 0) (machine [] 0 0x7E000001)) = [6, 0, 0, 0x0401, 0, 0] := by
  decide +kernel

/-- V-C8. -/
theorem test_compress :
    output (exec (.compress 0 0) (machine (ascii "abcdabcdabcdabcdabcdxyz01") 41))
      = [0x4C, 0x61, 0x62, 0x63, 0x64, 0x04, 0x00, 0x50, 0x78, 0x79, 0x7A, 0x30, 0x31] := by decide +kernel

/-- V-C15. -/
theorem test_compress_store_size :
    regs (exec (.compress 0 0) (machine (manyA 32) 52 1)) = [2, 15, 32, 0, 0, 0]
    ∧ output (exec (.compress 0 0) (machine (manyA 32) 52 1))
      = [0x20, 0x00, 0x00, 0x00, 0x1F, 0x41, 0x01, 0x00, 0x07, 0x50, 0x41, 0x41, 0x41, 0x41, 0x41] := by decide +kernel

/-- Rules R9, R212, R213: under a HASH_FN that sends every word to index 0 the only candidate is the position before, and V-C8's
input has no match: 15 + 10 literals. -/
theorem test_compress_other_hash :
    let s := machine (ascii "abcdabcdabcdabcdabcdxyz01") 41
    output (exec (.compress 0 0) { s with params := { s.params with hashFn := .listed [] } })
      = [0xF0, 0x0A] ++ ascii "abcdabcdabcdabcdabcdxyz01" := by decide +kernel

/-- V-EX4. -/
theorem test_decompress_overlap :
    output (exec (.decompress 0 0) (machine [0x22, 0x61, 0x62, 0x02, 0x00, 0x00] 64)) = ascii "abababab" := by
  decide +kernel

/-- V-L2. -/
theorem test_decompress_legacy_size :
    regs (exec (.decompress 0 0) (machine [0x02, 0x00, 0x00, 0x00, 0x10, 0x61] 8 1)) = [6, 1, 0, 0x1103, 6, 0] := by
  decide +kernel

/-- V-CE8, and rule R454: the opcode is checked before CMD[31:16]. -/
theorem test_illegal_command :
    regs (exec (.illegalCommand 0x04 0 0) (machine [] 0)) = [6, 0, 0, 0x0101, 0, 0]
    ∧ regs (exec (.illegalCommand 0x00 2 1) (machine [] 0)) = [6, 0, 0, 0x0101, 0, 2] := by decide +kernel

/-- A block parser at index `ip` of `src`, with "ab" written. -/
def parser (src : List Byte) (ip : Nat) (ph : Phase) : BlockParser :=
  { BlockParser.start src 8 [] false with ip := ip, out := ascii "ab", token := 0x22, phase := ph }

/-- The machine with that parser. -/
def parsing (p : BlockParser) : State := working (machine [] 8) (.block .decompress p)

/-- Rule R255: a nibble of 15 asks for an extension. -/
theorem test_token :
    workAfter (.token 15 2) (parsing (parser [0xF2] 0 .token))
      = some (.block .decompress { parser [0xF2] 1 .litExt with ll := 15, token := 0xF2 }) := by decide +kernel

/-- Rule R256: 15 + 255 + 0. -/
theorem test_len_ext :
    workAfter (.lenExt 0) (parsing { parser [0x00] 0 .litExt with ll := 270 })
      = some (.block .decompress { parser [0x00] 1 .literals with ll := 270 }) := by decide +kernel

/-- Rule R259: the literals that reach the end of the block end it. -/
theorem test_literals :
    workAfter (.literals [0x63]) (parsing { parser [0x10, 0x63] 1 .literals with ll := 1 })
      = some (.block .decompress { parser [0x10, 0x63] 2 (.ended none) with ll := 1, out := ascii "abc" }) := by
  decide +kernel

/-- Rules R261, R262, R264: offset 2, match length 2 + 4. -/
theorem test_offset :
    workAfter (.offset 2) (parsing (parser [0x02, 0x00] 0 .offset))
      = some (.block .decompress { parser [0x02, 0x00] 2 .token with
          off := 2, ml := 6, out := ascii "abababab", marks := [⟨2, 8, 0⟩] }) := by decide +kernel

/-- V-L4: a declared size above the capacity. -/
theorem test_legacy_size :
    regs (exec (.legacySize 5) (working (machine [] 2 1) (.legacy [0x05, 0x00, 0x00, 0x00, 0x10, 0x61] 2)))
      = [6, 0, 0, 0x0202, 0, 0] := by decide +kernel

/-! ## Contexts and streams -/

/-- A DSTREAM that has failed. -/
def failedStream : Ctx := .dstream { blockSize := 16, hist := ascii "x", state := .failed }

/-- Rule R300: the smallest free handle (the vectors' V-S2 with kind FDECOMP). -/
theorem test_ctx_create : regs (exec (.ctxCreate 0 0) (withCtxs (machine [] 0 4) [failedStream])) = [2, 2, 0, 0, 0, 0x0402] := by
  decide +kernel

/-- Rule R301: a context is freed whatever CMD[31:16] holds, and freeing it again does nothing. -/
theorem test_ctx_destroy :
    (asNext (exec (.ctxDestroy 1 7) (withCtxs (machine [] 0) [failedStream]))).map (·.slots) = some State.reset.slots
    ∧ regs (exec (.ctxDestroy 9 7) (machine [] 0)) = [2, 0, 0, 0, 0, 9] := by decide +kernel

/-- Rule R302: a FAILED context comes back READY with its block size. -/
theorem test_ctx_reset :
    ((asNext (exec (.ctxReset 1 0) (withCtxs (machine [] 0) [failedStream]))).bind fun t => slotAt t.slots 1)
      = some (.dstream { blockSize := 16, hist := [], state := .ready }) := by decide +kernel

/-- The machine of an engine that keeps to rule R458 where rule R303's pseudocode differs. -/
def strictRecovery (s : State) : State := { s with params := { s.params with dictRecovers := false } }

/-- CTX_LOAD_DICT on a FAILED DSTREAM: the pseudocode of rule R303, and rule R458. -/
theorem test_ctx_load_dict_failed :
    let s := withCtxs (machine (ascii "abcd") 0) [failedStream]
    regs (exec (.ctxLoadDict 1 0) s) = [2, 0, 4, 0, 0, 0x0201]
    ∧ regs (exec (.ctxLoadDict 1 0) (strictRecovery s)) = [6, 0, 0, 0x0205, 0, 0xF201] := by decide +kernel

/-- Rule R303's example, as corrected by conflict C14: after "abcdabcd" the table holds positions 1, 2, 3 and 4. -/
theorem test_ctx_load_dict :
    (((asNext (exec (.ctxLoadDict 1 0) (withCtxs (machine (ascii "abcdabcd") 0) [.cstream (CStream.initial 64)]))).bind
        fun t => slotAt t.slots 1).map fun c =>
      match c with
      | .cstream c => [1, 2, 3, 4].all (fun p => c.table.any fun e => e.2 == p) && c.table.length == 4 && c.spos == 8
      | .dstream _ => false
      | .fcomp _ => false
      | .fdecomp _ => false) = some true := by decide +kernel

/-- Sixteen letters. -/
def letters : List Byte := ascii "abcdefghijklmnop"

/-- A CSTREAM that has consumed the sixteen letters. -/
def streamAfterLetters : CStream :=
  (CStream.initial 65536).push letters (compressCore (knuthHash 12) [] letters [] 0).2

/-- V-S4: the second chunk refers to the first. -/
theorem test_stream_compress :
    output (exec (.streamCompress 1 0) (withCtxs (machine letters 64) [.cstream streamAfterLetters]))
      = [0x07, 0x10, 0x00, 0x50, 0x6C, 0x6D, 0x6E, 0x6F, 0x70] := by decide +kernel

/-- V-S13: output past the block size. -/
theorem test_stream_decompress_chunk_too_large :
    regs (exec (.streamDecompress 1 0) (withCtxs (machine [0x1F, 0x41, 0x01, 0x00, 0x07, 0x50, 0x41, 0x41, 0x41, 0x41, 0x41] 64)
      [.dstream (DStream.initial 16)])) = [6, 1, 0, 0x0206, 0, 0xF201] := by decide +kernel

/-! ## Frames, compressing -/

/-- An FCOMP with the given preferences word fields, HEADER_EMITTED. -/
def frameOpen (indep ccrc autoFlush : Bool) (csize : Nat) : FComp :=
  { FComp.initial with prefs := prefsOf 0 indep ccrc false autoFlush csize, fstate := .headerEmitted }

/-- V-H9. -/
theorem test_frame_begin :
    output (exec (.frameBegin 1 0) (withCtxs (machine [] 32 0x30 100) [.fcomp FComp.initial]))
      = [0x04, 0x22, 0x4D, 0x18, 0x6C, 0x40, 0x64, 0, 0, 0, 0, 0, 0, 0, 0xA7] := by decide +kernel

/-- V-F6, the first chunk: with AUTO_FLUSH the update is one stored block. -/
theorem test_frame_update :
    output (exec (.frameUpdate 1 0) (withCtxs (machine letters 4096) [.fcomp (frameOpen true true true 0)]))
      = [0x10, 0x00, 0x00, 0x80] ++ letters := by decide +kernel

/-- V-F2, the end: the pending bytes as a block, then the end mark. -/
theorem test_frame_end :
    output (exec (.frameEnd 1 0) (withCtxs (machine [] 4096)
      [.fcomp { frameOpen true false false 0 with fstate := .updating, pending := ascii "abc", total := 3, content := ascii "abc" }]))
      = [0x03, 0x00, 0x00, 0x80, 0x61, 0x62, 0x63, 0x00, 0x00, 0x00, 0x00] := by decide +kernel

/-- V-H6, from the preferences word on. -/
theorem test_prefs :
    output (exec (.prefs 5 false true false false false 0) (withCtxs (working (machine [] 32) (.prefs 1)) [.fcomp FComp.initial]))
      = [0x04, 0x22, 0x4D, 0x18, 0x60, 0x50, 0xFB] := by decide +kernel

/-! ## Frames, decompressing -/

/-- V-FI1: a frame with a dictionary ID. -/
theorem test_frame_info :
    ((asNext (exec (.frameInfo 1 0) (withCtxs (machine
      [0x04, 0x22, 0x4D, 0x18, 0x61, 0x40, 0x78, 0x56, 0x34, 0x12, 0xE8, 0, 0, 0, 0] 0) [.fdecomp FDecomp.initial]))).map
        fun t => [t.readReg 0x048, t.readReg 0x04C, t.readReg 0x050, t.readReg 0x058, t.readReg 0x05C, t.readReg 0x060])
      = some [0x0411, 65536, 0, 0x12345678, 11, 0x1401] := by decide +kernel

/-- The frame of V-F3: 32 times "A". -/
def frameA32 : List Byte :=
  [0x04, 0x22, 0x4D, 0x18, 0x64, 0x40, 0xA7, 0x0B, 0x00, 0x00, 0x00, 0x1F, 0x41, 0x01, 0x00, 0x07]
    ++ [0x50, 0x41, 0x41, 0x41, 0x41, 0x41, 0x00, 0x00, 0x00, 0x00, 0xE7, 0x92, 0x0D, 0xCF]

/-- V-FD4: the destination holds 10 of the 32 bytes. -/
theorem test_frame_decompress_small_destination :
    regs (exec (.frameDecompress 1 0) (withCtxs (machine frameA32 10) [.fdecomp FDecomp.initial]))
      = [2, 10, 22, 0, 0, 0x2401] := by decide +kernel

/-- V-FD10: a byte after the frame's end. -/
theorem test_frame_decompress_trailing :
    regs (exec (.frameDecompress 1 0) (withCtxs (machine
      [0x04, 0x22, 0x4D, 0x18, 0x64, 0x40, 0xA7, 0, 0, 0, 0, 0x05, 0x5D, 0xCC, 0x02, 0x00] 256) [.fdecomp FDecomp.initial]))
      = [6, 0, 15, 0x1003, 15, 0x3401] := by decide +kernel

/-- A frame context at work, handle 1, capacity 8. -/
def atFrame (c : FDecomp) : State :=
  working (machine [] 8) (.frame 1 [] 8 { ctx := c, info := Info.zero, used := 0, out := [] } none)

/-- The context, the INFO registers and the error after a frame element. -/
def frameAfter (i : Instr) (c : FDecomp) : Option (FDecomp × Info × Option (Detail × Nat)) :=
  (workAfter i (atFrame c)).bind fun w =>
    match w with
    | .frame _ _ _ run e => some (run.ctx, run.info, e)
    | .idle => none
    | .scan _ _ => none
    | .legacy _ _ => none
    | .block _ _ => none
    | .prefs _ => none

/-- Rules R130, R131, V-FD21. -/
theorem test_magic_elements :
    ((frameAfter .frameMagic FDecomp.initial).map fun r => r.1.acc) = some [0x04, 0x22, 0x4D, 0x18]
    ∧ ((frameAfter .legacyMagicRefused FDecomp.initial).map fun r => (r.1.dstate, r.2.2))
        = some (.failed, some (.badMagic, 0))
    ∧ ((frameAfter (.skippableMagic 15 3) FDecomp.initial).map fun r => (r.1.stage, r.1.skipLeft, r.2.1.hdrLen))
        = some (.skip, 3, 8) := by decide +kernel

/-- The header bytes of V-H10 up to a length: FLG 0x68, BD 0x40, size 1, HC 0x2C. -/
def header68 (n : Nat) : FDecomp :=
  FDecomp.collecting ([0x04, 0x22, 0x4D, 0x18, 0x68, 0x40, 0x01, 0, 0, 0, 0, 0, 0, 0].take n)

/-- Rules R123 to R126, R387, V-H10. -/
theorem test_header_elements :
    frameAfter (.flg 1 true false true false false false) (header68 4) = some (header68 5, Info.zero, none)
    ∧ frameAfter (.bd false 4 0) (header68 5) = some (header68 6, Info.zero, none)
    ∧ frameAfter (.contentSize 1) (header68 6) = some (header68 14, Info.zero, none)
    ∧ ((frameAfter (.hc 0x2C) (header68 14)).map fun r => (r.1.stage, r.1.info.csize, r.2.1.hdrLen, r.2.2))
        = some (.blkHdr, 1, 15, none)
    ∧ ((frameAfter (.hc 0x2D) (header68 14)).map fun r => (r.1.dstate, r.2.2))
        = some (.failed, some (.headerChecksum, 14)) := by
  refine ⟨?_, ?_, ?_, ?_, ?_⟩ <;> decide +kernel

/-- Rule R125: the dictionary ID, least significant byte first. -/
theorem test_dict_id_element :
    ((frameAfter (.dictId 0x12345678) (FDecomp.collecting [0x04, 0x22, 0x4D, 0x18, 0x61, 0x40])).map fun r => r.1.acc.drop 6)
      = some [0x78, 0x56, 0x34, 0x12] := by decide +kernel

/-- V-FD12 and its neighbour 65536; V-FD13's stored block of no bytes; the end mark at a content size of 0. -/
theorem test_block_words :
    ((frameAfter (.blockCompressed 65537) (FDecomp.inStage .blkHdr false true)).map fun r => (r.1.dstate, r.2.2))
      = some (.failed, some (.blockTooLarge, 7))
    ∧ ((frameAfter (.blockCompressed 65536) (FDecomp.inStage .blkHdr false true)).map fun r => (r.1.stage, r.1.bword, r.2.2))
      = some (.blkData, 65536, none)
    ∧ ((frameAfter (.blockStored 0) (FDecomp.inStage .blkHdr false true)).map fun r => (r.1.stage, r.2.2)) = some (.blkHdr, none)
    ∧ ((frameAfter .endMark (FDecomp.inStage .blkHdr false true)).map fun r => (r.1.stage, r.2.2)) = some (.ccrc, none)
    ∧ ((frameAfter .endMark (FDecomp.inStage .blkHdr false false)).map fun r => (r.1.stage, r.1.dstate))
      = some (.ended, .complete) := by decide +kernel

/-- A block word begun with the magic left in `acc`: rule R400 goes on collecting; rule R389 reads 0x184D2204, above BLOCK_MAX, and
reports it at x - 3. -/
theorem test_block_word_after_partial_header :
    let c := { FDecomp.inStage .blkHdr false false with acc := [0x04, 0x22, 0x4D, 0x18] }
    ((c.feed { strictTail := false, exactWord := true } 0).ctx.acc.length = 5)
    ∧ (c.feed { strictTail := false, exactWord := false } 0).error = some (.blockTooLarge, 4) := by decide +kernel

/-- Rule R438's values: XXH32 of "abc" and of nothing. -/
theorem test_checksum_elements :
    ((frameAfter (.blockChecksum 0x32D153FF) { FDecomp.inStage .blkCrc true false with payload := ascii "abc" }).map
      fun r => (r.1.pending ++ r.1.payload, r.1.content, r.1.stage, r.2.2)) = some ([], ascii "abc", .blkHdr, none)
    ∧ ((frameAfter (.blockChecksum 0x32D153FE) { FDecomp.inStage .blkCrc true false with payload := ascii "abc" }).map
      fun r => (r.1.content, r.2.2)) = some ([], some (.blockChecksum, 7))
    ∧ ((frameAfter (.contentChecksum 0x02CC5D05) (FDecomp.inStage .ccrc false true)).map fun r => (r.1.dstate, r.2.2))
      = some (.complete, none)
    ∧ ((frameAfter (.contentChecksum 0x03CC5D05) (FDecomp.inStage .ccrc false true)).map fun r => (r.1.dstate, r.2.2))
      = some (.failed, some (.contentChecksum, 7)) := by
  refine ⟨?_, ?_, ?_, ?_⟩ <;> decide +kernel

/-! ## The host -/

/-- An accepted command, run by the engine's turn (rules R36, R37): BOUND of 32. -/
theorem test_command_from_host :
    ((asNext (core.run 2 { machine [] 0 32 with inbox := [.regWrite (reg 0x00C) 4 0x01] })).map fun t =>
      (t.readReg 0x008, t.readReg 0x034)) = some (2, 48) := by decide +kernel

/-- Rule R491: a reset in the middle of a command. -/
theorem test_reset_abandons :
    ((asNext (step { machine [] 0 32 with
        busy := true, ie := true, args := { (machine [] 0 32).args with cmd := 1 }, inbox := [.platformReset] })).map
      fun t => (t.readReg 0x008, t.readReg 0x028, t.readReg 0x004)) = some (0, 0, 0) := by decide +kernel

/-- Rule R495: a source byte the host wrote while the command ran is marked. -/
theorem test_race_is_marked :
    ((asNext (step { machine (manyA 4) 32 with
        busy := true, args := { (machine (manyA 4) 32).args with cmd := 2 }, inbox := [.memWrite 0x1001 0x42] })).map
      fun t => t.raced) = some [0x1001] := by decide +kernel

/-! ## Witnesses: encodings -/

/-- One legal instruction of each constructor, operands at a boundary. -/
def samples : List Instr :=
  [.bound 0 0, .compress 0 0, .decompress 0 0, .ctxCreate 0 0, .ctxDestroy 255 0xFFFF, .ctxReset 255 0, .ctxLoadDict 1 0,
    .streamCompress 1 0, .streamDecompress 1 0, .frameBegin 1 0, .frameUpdate 1 0, .frameEnd 1 0]
  ++ [.frameInfo 1 0, .frameDecompress 1 0, .illegalCommand 0xFF 255 0xFFFF, .token 15 15, .lenExt 255, .literals [],
    .literals [0, 255], .offset 0xFFFF, .legacySize 0x7E000000, .frameMagic, .skippableMagic 15 0xFFFFFFFF]
  ++ [.legacyMagicRefused, .flg 1 true true true true false true, .bd false 7 0, .contentSize 0xFFFFFFFFFFFFFFFF,
    .dictId 0xFFFFFFFF, .hc 255, .blockCompressed 4194304, .blockStored 0, .blockChecksum 0, .endMark]
  ++ [.contentChecksum 0xFFFFFFFF, .prefs 7 false true true true true 0]

theorem witness_EncodeThenDecode : samples.all Instr.wf = true := by decide

/-- A word that decodes at each place, a legal one and an illegal one. -/
theorem witness_DecodeThenEncode :
    decode .command [0x02, 0x01, 0x00, 0x80, 0x55] = .ok (.compress 1 0x8000, [0x55])
    ∧ decode .bd [0xFF] = .ok (.bd true 7 15, [])
    ∧ decode (.literals 0) [0x11] = .ok (.literals [], [0x11]) := ⟨by rfl, by rfl, by rfl⟩

/-! ## Witnesses: a step, the host and the device reset -/

/-- A machine with a command accepted and the engine to move. -/
def accepted (s : State) (w : Word) : State := { s with busy := true, args := { s.args with cmd := w } }

theorem witness_StepRunsDecodedInstruction :
    let s := accepted (machine [] 0) 2
    let block := parser [0x10, 0x61] 0 .token
    let run : FrameRun := { ctx := FDecomp.initial, info := Info.zero, used := 0, out := [] }
    (s.inbox = [] ∧ s.busy = true ∧ s.stuck = false ∧ s.work = .idle)
    ∧ (working { s with inbox := [.waitDone] } (.prefs 1)).work = .prefs 1
    ∧ decode .legacySize [0x05, 0x00, 0x00, 0x00] = .ok (.legacySize 5, [])
    ∧ (block.site = some .token ∧ decode .token (block.src.drop block.ip) = .ok (.token 1 0, [0x61]))
    ∧ (run.ctx.pending = [] ∧ run.ctx.stage ≠ .ended ∧ run.ctx.site = some .magic
      ∧ decode .magic [0x04, 0x22, 0x4D, 0x18] = .ok (.frameMagic, [])) := by
  have hb : (parser [0x10, 0x61] 0 .token).site = some .token := by decide
  have hr : FDecomp.initial.pending = [] ∧ FDecomp.initial.stage ≠ .ended ∧ FDecomp.initial.site = some .magic := by decide
  exact ⟨⟨rfl, rfl, rfl, rfl⟩, rfl, rfl, ⟨hb, rfl⟩, hr.1, hr.2.1, hr.2.2, rfl⟩

theorem witness_DeviceResetEffects :
    let s := accepted (machine (manyA 13) 64) 2
    ({ s with inbox := [.platformReset] }.inbox = .platformReset :: []
      ∧ { s with inbox := [.regWrite (reg 0x004) 4 3] }.inbox = .regWrite (reg 0x004) 4 3 :: [] ∧ (3 : Word).getLsbD 1 = true)
    ∧ (Memory.wf s.mem = true ∧ s.raced = [] ∧ s.busy = true ∧ usesDest s.command = true) :=
  ⟨⟨rfl, rfl, by decide⟩, by decide⟩

theorem witness_CommandAcceptance :
    let s := { machine [] 0 with done := true, inbox := [.regWrite (reg 0x00C) 4 0xFFFFFFFF] }
    s.inbox = .regWrite (reg 0x00C) 4 0xFFFFFFFF :: [] ∧ s.busy = false ∧ s.stuck = false ∧ s.work = .idle := by
  exact ⟨rfl, rfl, rfl, rfl⟩

/-- Accesses refused and accepted at the edges; the write clauses, which no offset shares. -/
theorem witness_RegisterAccessRules :
    refuses .registerAccess (step { machine [] 0 with inbox := [.regRead (State.reset.params.regBase - 4) 4] }) = true ∧
    ([(0, 2), (2, 4), (1, 1), (4096, 4), (0x064, 8)].all fun (c : Nat × Nat) =>
      refuses .registerAccess (step { machine [] 0 with inbox := [.regRead (reg c.1) c.2] })
        && refuses .registerAccess (step { machine [] 0 with inbox := [.regWrite (reg c.1) c.2 1] })) = true
    ∧ ([0, 4, 0x00C, 0x030, 0x034, 0x060, 0x064, 0xFFC].all fun off =>
      (asNext (step { accepted (machine [] 0) 2 with inbox := [.regRead (reg off) 4] })).isSome
        && (asNext (step { accepted (machine [] 0) 2 with inbox := [.regWrite (reg off) 4 1] })).isSome) = true
    ∧ ([0, 0x034, 0x060, 0x064, 0xFFC].all fun off => !(off == 0x004 || off == 0x008 || (0x00C ≤ off && off ≤ 0x030))) = true
    ∧ (State.ok { State.reset with params := { Params.default with addrWidth := 32 } }) = true := by decide +kernel

theorem witness_StatusFieldLayouts :
    (FrameInfo.zero.bsid < 8 ∧ { FrameInfo.zero with bsid := 7 }.bsid < 8)
    ∧ ((DStream.initial 1).state = .ready ∧ { DStream.initial 1 with state := .failed }.state = .failed)
    ∧ (FComp.initial.fstate = .idle ∧ FDecomp.initial.dstate = .idle)
    ∧ ([FState.headerEmitted, .updating, .ended].all fun f => { FComp.initial with fstate := f }.fstate == f) = true
    ∧ ([DState.frameInfoKnown, .decoding, .complete, .failed].all fun d => { FDecomp.initial with dstate := d }.dstate == d) = true := by
  decide

theorem witness_InterruptOutput :
    let s := { machine [] 0 with ie := true }
    ((Instr.bound 0 0).isCommand = true ∧ (asNext (exec (.bound 0 0) s)).isSome = true ∧ s.params.holes = [])
    ∧ { s with inbox := [.regWrite (reg 0x004) 4 1] }.inbox = .regWrite (reg 0x004) 4 1 :: []
    ∧ { s with inbox := [.regWrite (reg 0x008) 4 2] }.inbox = .regWrite (reg 0x008) 4 2 :: []
    ∧ ({ s with inbox := [.regWrite (reg 0x00C) 4 2] }.inbox = .regWrite (reg 0x00C) 4 2 :: [] ∧ s.busy = false)
    ∧ { s with inbox := [.platformReset] }.inbox = .platformReset :: [] := by
  refine ⟨⟨by decide, by decide +kernel, rfl⟩, rfl, rfl, ⟨rfl, rfl⟩, rfl⟩

/-! ## Witnesses: every command -/

/-- A platform without memory at the source buffer. -/
def withHole (s : State) (p : DmaFaultPolicy) : State :=
  { s with params := { s.params with holes := [⟨0x1000, 1⟩], dmaFaultPolicy := p } }

theorem witness_EveryCommandEndsOrSticks :
    let s := withHole (accepted (machine (manyA 4) 64) 2) .stuck
    (samples.take 15).all Instr.isCommand = true
    ∧ (accepted (machine (manyA 4) 64) 2).params.holes = [] ∧ s.params.dmaFaultPolicy = .stuck
    ∧ ((asNext (step s)).map fun t => t.stuck && t.busy) = some true
    ∧ (∀ e ∈ [HostEvent.waitDone, .regWrite (reg 0x004) 4 1], e ≠ .platformReset ∧ ∀ v : Word, v.getLsbD 1 = true → e ≠ .regWrite (reg 0x004) 4 v)
    ∧ (asNext (core.run 3 { s with stuck := true, inbox := [.regWrite (reg 0x004) 4 1, .waitDone] })).isSome = true := by
  refine ⟨by decide, rfl, rfl, by decide +kernel, fun e he => ?_, by decide +kernel⟩
  simp only [List.mem_cons, List.not_mem_nil, or_false] at he
  rcases he with rfl | rfl
  · exact ⟨by decide, fun v _ => by simp⟩
  · refine ⟨by decide, fun v hv h => ?_⟩
    injection h with _ _ h
    subst h
    exact absurd hv (by decide)

/-- A frame decompression context in a state. -/
def frameIn (d : DState) (st : Stage) : Ctx := .fdecomp { FDecomp.initial with dstate := d, stage := st }

/-- Every command, on a machine whose slot 1 is used, gives a next state. -/
theorem witness_CommandFrame :
    let s := withCtxs (machine (manyA 4) 64) [.fdecomp FDecomp.initial]
    let d := withCtxs s [failedStream, frameIn .failed .hdr]
    (slotAt d.slots 1 = some failedStream ∧ slotAt d.slots 2 = some (frameIn .failed .hdr) ∧ d.slots.length ≤ 255
      ∧ (asNext (exec (.ctxLoadDict 1 0) (strictRecovery d))).isSome = true
      ∧ (asNext (exec (.ctxLoadDict 2 0) d)).isSome = true ∧ (asNext (exec (.frameDecompress 2 0) d)).isSome = true) ∧
    s.slots.length ≤ 255 ∧ ((samples.take 15).all fun i => i.isCommand && (asNext (exec i s)).isSome) = true := by
  decide +kernel

theorem witness_NoWriteOutsideDestination :
    let s := machine (manyA 13) 64
    (Instr.compress 0 0).isCommand = true ∧ (asNext (exec (.compress 0 0) s)).isSome = true
    ∧ 0x7FFFF < s.dstAddr ∧ s.dstAddr + s.dstCap ≤ 0x80040 := by decide +kernel

theorem witness_EarlyErrorsChangeNothing :
    let s := machine (manyA 32) 47
    (Instr.compress 0 0).isCommand = true ∧ s.undisturbed = true
    ∧ (asNext (exec (.compress 0 0) s)).map (fun t => t.readReg 0x03C) = some 0x0102
    ∧ (0x0102 : Word).extractLsb' 0 8 ≠ 0 ∧ (0x0102 : Word).extractLsb' 0 8 ≠ 3 ∧ (0x0102 : Word) ≠ 0x0206 := by
  decide +kernel

/-- Two machines that differ in a byte outside the source buffer, at its very end. -/
theorem witness_CommandsAreDeterministic :
    let s₁ := machine (manyA 13) 64
    let s₂ := { s₁ with mem := Memory.write s₁.mem 0x100D 0x42 }
    s₁.undisturbed = true ∧ s₂.undisturbed = true ∧ s₁.params = s₂.params ∧ s₁.args = s₂.args ∧ s₁.slots = s₂.slots
    ∧ s₁.info = s₂.info ∧ s₁.sourceBytes = s₂.sourceBytes ∧ s₁.mem ≠ s₂.mem := by decide +kernel

/-- The invariant holds in a state with a context of each kind, and a step from it answers a next state. -/
theorem witness_StepKeepsInvariant :
    let s := accepted (withCtxs (machine letters 4096) [.cstream streamAfterLetters, .dstream (DStream.initial 16),
      .fcomp (frameOpen false true false 0), .fdecomp FDecomp.initial]) 0x0120
    s.ok = true ∧ (asNext (step s)).isSome = true := by decide +kernel

/-- Each stop; the DMA fault at a hole in the source and at one in the destination. -/
theorem witness_StopsOnlyWhereSpecSays :
    let s := machine (manyA 13) 64
    let noDest : State := { accepted s 2 with params := { s.params with holes := [⟨0x80001, 1⟩], dmaFaultPolicy := .platform } }
    (State.ok { s with inbox := [.regRead (reg 2) 4] } = true
      ∧ refuses .registerAccess (step { s with inbox := [.regRead (reg 2) 4] }) = true)
    ∧ (State.ok { s with inbox := [.memRead (2 ^ 64)] } = true
      ∧ faults .hostAddressRange (step { s with inbox := [.memRead (2 ^ 64)] }) = true)
    ∧ (State.ok { withHole s .stuck with inbox := [.memWrite 0x1000 1] } = true
      ∧ faults .hostNoMemory (step { withHole s .stuck with inbox := [.memWrite 0x1000 1] }) = true)
    ∧ (State.ok (withHole (accepted s 2) .platform) = true ∧ faults .dmaPlatform (step (withHole (accepted s 2) .platform)) = true)
    ∧ (State.ok noDest = true ∧ faults .dmaPlatform (step noDest) = true) := by
  decide +kernel

/-- The host memory clauses of the same statement: the last address and the first without memory; while COMPRESS runs, the first
source byte, the last destination byte and the one after it. -/
theorem witness_StopsOnlyWhereSpecSays_memory :
    let s := accepted (machine (manyA 13) 64) 2
    (s.ok = true ∧ s.busy = true ∧ 2 ^ 64 - 1 < 2 ^ s.params.addrWidth ∧ s.hitsHole (2 ^ 64 - 1) 1 = false
      ∧ 2 ^ s.params.addrWidth ≤ 2 ^ 64 ∧ (withHole s .stuck).hitsHole 0x1000 1 = true)
    ∧ (usesSource s.command = true ∧ s.srcAddr ≤ 0x1000 ∧ 0x1000 < s.srcAddr + s.srcLen)
    ∧ (usesDest s.command = true ∧ s.dstAddr ≤ 0x8003F ∧ 0x8003F < s.dstAddr + s.dstCap)
    ∧ ¬(s.busy = true ∧ usesDest s.command = true ∧ s.dstAddr ≤ 0x80040 ∧ 0x80040 < s.dstAddr + s.dstCap)
    ∧ ([0, 0xFFF].all fun off => refuses .registerAccess (step { s with inbox := [.memRead (reg off)] })
      && refuses .registerAccess (step { s with inbox := [.memWrite (reg off) 1] })) = true
    ∧ ([State.reset.params.regBase - 1, reg 4096].all fun a => (asNext (step { s with inbox := [.memRead a] })).isSome) = true
    ∧ ([0x1000, 0x8003F, 0x80040].map fun a => (asNext (step { s with inbox := [.memWrite a 0x42] })).map fun t => t.raced)
      = [some [0x1000], some [0x8003F], some []]
    ∧ ([0x1000, 0x8003F, 0x80040].map fun a => (asNext (step { s with inbox := [.memRead a] })).map fun t => t.raced)
      = [some [], some [0x8003F], some []]
    ∧ (State.ok { s with raced := [0x1000] } = true ∧ ((asNext (step { s with raced := [0x1000] })).map fun t => t.stuck) = some false) := by
  decide +kernel

theorem witness_IllegalCommandResult : endsWith 0x0101 (.illegalCommand 4 0 0) (machine [] 0) = true := by decide +kernel

/-! ## Witnesses: blocks -/

theorem witness_BoundResult :
    endsWith 0x0601 (.bound 1 1) (machine [] 0) = true ∧ endsWith 0x0201 (.bound 1 0) (machine [] 0) = true
    ∧ endsWith 0x0401 (.bound 0 0) (machine [] 0 0x7E000001) = true ∧ endsWith 0 (.bound 0 0) (machine [] 0 0x7E000000) = true := by
  decide +kernel

/-- The buffer registers changed. -/
def buffers (s : State) (src len dst cap : Nat) : State :=
  { s with args := { s.args with
      srcAddrLo := BitVec.ofNat 32 src
      srcAddrHi := BitVec.ofNat 32 (src / 2 ^ 32)
      srcLen := BitVec.ofNat 32 len
      dstAddrLo := BitVec.ofNat 32 dst
      dstAddrHi := BitVec.ofNat 32 (dst / 2 ^ 32)
      dstCap := BitVec.ofNat 32 cap } }

/-- The buffer checks of rule R85, for both buffers, at their edges: the adjacent buffers of the last case pass. -/
theorem test_buffer_checks :
    ([(0x1000, 0x7E000001, 0, 0), (0, 1, 0x80000, 4), (0x1000, 1, 0, 1), (2 ^ 64 - 1, 2, 0x80000, 4),
      (0x1000, 1, 2 ^ 64 - 4, 5), (0x1000, 2, 0x1001, 4), (0x1000, 2, 0x1002, 4)].map
        fun (b : Nat × Nat × Nat × Nat) => (buffers (machine [] 0) b.1 b.2.1 b.2.2.1 b.2.2.2).bufferFault true true)
      = [some .lengthTooLarge, some .nullPointer, some .nullPointer, some .addressRange, some .addressRange,
        some .bufferOverlap, none] := by decide +kernel

theorem witness_CompressResult :
    (Params.default.wf = true ∧ { Params.default with hashLog := 16, hashFn := .listed [(1, 2 ^ 16)] }.wf = true
      ∧ Params.default.hashFn = .knuth) ∧
    endsWith 0x0601 (.compress 1 1) (machine [] 8) = true ∧ endsWith 0x0201 (.compress 1 0) (machine [] 8) = true
    ∧ endsWith 0x0601 (.compress 0 0) (machine [] 16 2) = true ∧ endsWith 0x0301 (.compress 0 0) (buffers (machine [] 0) 0 5 0x80000 64) = true
    ∧ endsWith 0x0102 (.compress 0 0) (machine (manyA 1) 20 1) = true ∧ endsWith 0 (.compress 0 0) (machine (manyA 1) 21 1) = true
    ∧ endsWith 0 (.compress 0 0) (machine [] 16) = true := by decide +kernel

theorem witness_CompressorBound : (manyA 12).length < 13 ∧ ([] : List Byte).length < 13 := by decide

theorem witness_LengthFieldEncoding :
    14 < 15 ∧ 15 ≤ 15 ∧ ((0x00 : Byte) ≠ 0xFF ∧ 15 + 255 * 1 + (0x00 : Byte).toNat = 270)
    ∧ ((0xFE : Byte) ≠ 0xFF ∧ 15 + 255 * 0 + (0xFE : Byte).toNat = 269) := by decide

theorem witness_CompressorRoundTrip :
    (∀ h v, Table.get [(5, 2)] h = some v → v < 0 + (ascii "abc").length) ∧ (manyA 13).length ≤ 13 := by
  refine ⟨fun h v e => ?_, by decide⟩
  simp only [Table.get] at e
  split at e
  · injection e with e
    subst e
    decide
  · exact absurd e (by simp)

/-- Every ending of DECOMPRESS (vectors V-D8, V-D13, V-L1 to V-L6). -/
theorem witness_DecompressResult :
    endsWith 0x0601 (.decompress 0 1) (machine [] 8) = true ∧ endsWith 0x0201 (.decompress 1 0) (machine [] 8) = true
    ∧ endsWith 0x0601 (.decompress 0 0) (machine [] 8 2) = true ∧ endsWith 0x0301 (.decompress 0 0) (buffers (machine [] 0) 0 5 0x80000 64) = true
    ∧ endsWith 0x0203 (.decompress 0 0) (machine [0x11, 0x41, 0x00, 0x00] 8) = true ∧ endsWith 0 (.decompress 0 0) (machine [0x00] 0) = true
    ∧ endsWith 0x0103 (.decompress 0 0) (machine [1, 0, 0] 8 1) = true ∧ endsWith 0x1103 (.decompress 0 0) (machine [0, 0, 0, 0x7F, 0] 8 1) = true
    ∧ endsWith 0x0202 (.decompress 0 0) (machine [5, 0, 0, 0, 0x10, 0x61] 2 1) = true
    ∧ endsWith 0x0403 (.decompress 0 0) (machine [1, 0, 0, 0, 0x10] 8 1) = true
    ∧ endsWith 0x1103 (.decompress 0 0) (machine [2, 0, 0, 0, 0x10, 0x61] 8 1) = true
    ∧ endsWith 0 (.decompress 0 0) (machine [1, 0, 0, 0, 0x10, 0x61] 8 1) = true := by decide +kernel

theorem witness_TokenElement :
    (parsing (parser [0x10] 1 .token)).work = .block .decompress (parser [0x10] 1 .token)
    ∧ (parser [0x10] 1 .token).phase = .token
    ∧ (parser [0x10] 1 .token).src.length ≤ (parser [0x10] 1 .token).ip
    ∧ (parser [0x10] 0 .token).ip < (parser [0x10] 0 .token).src.length := by decide

/-- Both lengths, both kinds of byte, and the capacity 8 just held (2 + 6) and just passed. -/
theorem witness_LengthExtensionElement :
    (parser [0x01] 0 .litExt).phase = .litExt ∧ (parser [0x01] 0 .matchExt).phase = .matchExt
    ∧ (parser [0x01] 0 .litExt).ip < (parser [0x01] 0 .litExt).src.length
    ∧ (parser [0x01] 1 .matchExt).src.length ≤ (parser [0x01] 1 .matchExt).ip
    ∧ ((0xFE : Byte) ≠ 0xFF ∧ (parser [] 0 .matchExt).cap < (ascii "ab").length + (0 + (0xFE : Byte).toNat))
    ∧ ((6 : Byte) ≠ 0xFF ∧ (ascii "ab").length + (0 + (6 : Byte).toNat) ≤ (parser [] 0 .matchExt).cap)
    ∧ ((7 : Byte) ≠ 0xFF ∧ (parser [] 0 .matchExt).cap < (ascii "ab").length + (0 + (7 : Byte).toNat)) := by decide

/-- A literal parser with two decoded matches; STRICT_TAIL set. -/
def strictParser : BlockParser :=
  { parser [0x10, 0x61] 1 .literals with strictTail := true, ll := 1, marks := [⟨1, 2, 0⟩], cap := 64 }

theorem witness_LiteralField :
    let p := parser [0x20, 0x61] 1 .literals
    (p.phase = .literals ∧ p.ip ≤ p.src.length)
    ∧ p.src.length < { p with ll := 2 }.ip + { p with ll := 2 }.ll
    ∧ { p with ll := 1 }.ip + { p with ll := 1 }.ll ≤ p.src.length
    ∧ p.cap < p.out.length + (manyA 7).length
    ∧ (p.out.length + (manyA 6).length ≤ p.cap ∧ p.ip + (manyA 6).length ≠ p.src.length)
    ∧ (p.out.length + (manyA 1).length ≤ p.cap ∧ p.ip + (manyA 1).length = p.src.length)
    ∧ (strictParser.strictTail = true ∧ strictParser.marks = [] ++ ⟨1, 2, 0⟩ :: [] ∧ strictParser.out.length + 1 < 1 + 12)
    ∧ (∀ m ∈ ([⟨1, 8, 0⟩] : List Mark), m.start + 12 ≤ 2 + 11 ∧ m.stop + 5 ≤ 2 + 11) := by decide

theorem witness_OffsetField :
    let p := parser [0x10, 0x61, 0x02] 2 .offset
    (p.phase = .offset ∧ p.ip ≤ p.src.length ∧ p.src.length < p.ip + 2)
    ∧ (parser [0x10, 0x61, 0x02, 0x00] 2 .offset).ip + 2 ≤ (parser [0x10, 0x61, 0x02, 0x00] 2 .offset).src.length
    ∧ p.out.length + p.hist.length < (3 : BitVec 16).toNat
    ∧ ((2 : BitVec 16) ≠ 0 ∧ (2 : BitVec 16).toNat ≤ p.out.length + p.hist.length)
    ∧ ({ p with token := 0x2F }.token.toNat % 16 = 15)
    ∧ (p.token.toNat % 16 ≠ 15 ∧ p.out.length + (p.token.toNat % 16 + 4) ≤ p.cap)
    ∧ ({ p with token := 0x23 }.token.toNat % 16 ≠ 15 ∧ p.cap < p.out.length + ({ p with token := 0x23 }.token.toNat % 16 + 4)) := by
  decide

theorem witness_MatchCopyIsPeriodic : 1 ≤ 1 ∧ 1 ≤ (ascii "ab").length ∧ 2 ≤ (ascii "ab").length := by decide

/-- Each of the six details (V-D1, V-D8, V-D9, V-D3, V-D14; a match that starts in the last 12 bytes). -/
theorem witness_DecoderStaysInBounds :
    (([([], 8), ([0x11, 0x41, 0x00, 0x00], 8), ([0x11, 0x41, 0x02, 0x00], 8), ([0x10], 8),
      ([0x1F, 0x41, 0x01, 0x00, 0x07, 0x50, 0x41, 0x41, 0x41, 0x41, 0x41], 31), ([0x11, 0x41, 0x01, 0x00, 0x00], 8)]
        : List (List Byte × Nat)).map fun c => ((blockDecode true c.1 c.2 []).2.map fun e => e.1))
      = [some .truncated, some .offsetZero, some .offsetOutOfWindow, some .literalPastSource, some .outputOverflow,
        some .tailRule] := by decide +kernel

theorem witness_LegacySizeElement :
    let s := working (machine [] 8 1) (.legacy [8, 0, 0, 0, 0x00] 8)
    s.undisturbed = true ∧ s.work = .legacy [8, 0, 0, 0, 0x00] 8
    ∧ 0x7E000000 < (0x7E000001 : Word).toNat ∧ ((9 : Word).toNat ≤ 0x7E000000 ∧ 8 < (9 : Word).toNat) ∧ (8 : Word).toNat ≤ 8 := by
  decide

theorem witness_BlockElementsRefineCommands :
    let s := machine [0x10, 0x61] 8
    let l := machine [1, 0, 0, 0, 0x10, 0x61] 8 1
    let d := withCtxs s [.dstream (DStream.initial 16)]
    (s.undisturbed = true ∧ firstError (s.decompressChecks 0 0) = none ∧ s.storeSize = false)
    ∧ (l.undisturbed = true ∧ firstError (l.decompressChecks 0 0) = none ∧ l.storeSize = true)
    ∧ (d.undisturbed = true ∧ slotAt d.slots 1 = some (.dstream (DStream.initial 16)) ∧ d.bufferFault true true = none) := by
  decide +kernel

/-! ## Witnesses: contexts and streams -/

/-- A context in every slot. -/
def full (s : State) : State := withCtxs s [failedStream, failedStream, failedStream, failedStream]

/-- Each clause; the kinds 1 to 4, 0 and 5; the block sizes MAX_INPUT_SIZE and MAX_INPUT_SIZE + 1. -/
theorem witness_CtxCreateResult :
    endsWith 0x0601 (.ctxCreate 0 1) (machine [] 0 1) = true ∧ endsWith 0x0201 (.ctxCreate 1 0) (machine [] 0 1) = true
    ∧ endsWith 0x0601 (.ctxCreate 0 0) (machine [] 0 0) = true ∧ endsWith 0x0601 (.ctxCreate 0 0) (machine [] 0 5) = true
    ∧ endsWith 0x0601 (.ctxCreate 0 0) (machine [] 0 0x11) = true ∧ endsWith 0x0601 (.ctxCreate 0 0) (machine [] 0 2 0x7E000001) = true
    ∧ endsWith 0 (.ctxCreate 0 0) (machine [] 0 2 0x7E000000) = true ∧ endsWith 0 (.ctxCreate 0 0) (machine [] 0 3 0x7E000001) = true
    ∧ endsWith 0x0104 (.ctxCreate 0 0) (full (machine [] 0 4)) = true ∧ (full (machine [] 0)).slots.length ≤ 255
    ∧ (withCtxs (machine [] 0 4) [failedStream]).slots = [some failedStream] ++ none :: [none, none]
    ∧ (∀ c ∈ [some failedStream], c ≠ none) := by
  decide +kernel

theorem witness_CtxDestroyNeverFails :
    (full (machine [] 0)).undisturbed = true ∧ slotAt (full (machine [] 0)).slots 4 ≠ none
    ∧ slotAt (full (machine [] 0)).slots 5 = none ∧ slotAt (full (machine [] 0)).slots 0 = none := by decide

theorem witness_CtxResetResult :
    endsWith 0x0601 (.ctxReset 1 1) (full (machine [] 0)) = true ∧ endsWith 0x0201 (.ctxReset 0 0) (full (machine [] 0)) = true
    ∧ endsWith 0x0201 (.ctxReset 5 0) (full (machine [] 0)) = true ∧ endsWith 0 (.ctxReset 4 0) (full (machine [] 0)) = true := by
  decide +kernel

theorem witness_CtxLoadDictResult :
    let s (c : Ctx) : State := withCtxs (machine (ascii "abcd") 0) [c]
    endsWith 0x0601 (.ctxLoadDict 1 1) (s failedStream) = true ∧ endsWith 0 (.ctxLoadDict 1 0) (s failedStream) = true
    ∧ endsWith 0x0205 (.ctxLoadDict 1 0) (strictRecovery (s failedStream)) = true
    ∧ endsWith 0 (.ctxLoadDict 1 0) (s (.dstream (DStream.initial 16))) = true
    ∧ endsWith 0 (.ctxLoadDict 1 0) (s (.cstream (CStream.initial 1))) = true ∧ endsWith 0 (.ctxLoadDict 1 0) (s (.fdecomp FDecomp.initial)) = true
    ∧ endsWith 0x0205 (.ctxLoadDict 1 0) (s (frameIn .failed .hdr)) = true ∧ endsWith 0x0105 (.ctxLoadDict 1 0) (s (frameIn .complete .ended)) = true
    ∧ endsWith 0x0201 (.ctxLoadDict 1 0) (s (.fcomp FComp.initial)) = true ∧ endsWith 0x0201 (.ctxLoadDict 2 0) (s failedStream) = true
    ∧ endsWith 0x0301 (.ctxLoadDict 1 0) (buffers (s (.dstream (DStream.initial 16))) 0 4 0 0) = true := by decide +kernel

theorem witness_StreamCompressResult :
    let s (n cap : Nat) : State := withCtxs (machine (manyA n) cap) [.cstream (CStream.initial 4), failedStream]
    endsWith 0x0601 (.streamCompress 1 1) (s 4 20) = true ∧ endsWith 0x0201 (.streamCompress 2 0) (s 4 20) = true
    ∧ endsWith 0x0301 (.streamCompress 1 0) (buffers (s 4 20) 0 4 0x80000 20) = true ∧ endsWith 0x0106 (.streamCompress 1 0) (s 5 0) = true
    ∧ endsWith 0x0102 (.streamCompress 1 0) (s 4 19) = true ∧ endsWith 0 (.streamCompress 1 0) (s 4 20) = true := by decide +kernel

theorem witness_StreamDecompressResult :
    let s (x : List Byte) (cap : Nat) : State := withCtxs (machine x cap) [.dstream (DStream.initial 4), failedStream, .cstream (CStream.initial 4)]
    endsWith 0x0601 (.streamDecompress 1 1) (s [0x00] 4) = true ∧ endsWith 0x0201 (.streamDecompress 3 0) (s [0x00] 4) = true
    ∧ endsWith 0x0205 (.streamDecompress 2 0) (s [0x00] 4) = true ∧ endsWith 0x0301 (.streamDecompress 1 0) (buffers (s [0x00] 4) 0 1 0x80000 4) = true
    ∧ endsWith 0x0206 (.streamDecompress 1 0) (s [0x50, 1, 2, 3, 4, 5] 4) = true
    ∧ endsWith 0x0503 (.streamDecompress 1 0) (s [0x50, 1, 2, 3, 4, 5] 3) = true ∧ endsWith 0x0103 (.streamDecompress 1 0) (s [] 4) = true
    ∧ endsWith 0 (.streamDecompress 1 0) (s [0x40, 1, 2, 3, 4] 4) = true := by decide +kernel

theorem witness_StreamEquivalence :
    let c : CStream := { CStream.initial 16 with hist := ascii "abc", spos := 3, table := [(5, 2)] }
    let d : DStream := { DStream.initial 16 with hist := ascii "abc" }
    c.hist = d.hist ∧ c.hist.length ≤ c.spos ∧ (∀ h v, Table.get c.table h = some v → v < c.spos)
    ∧ (∀ x ∈ [letters, [], manyA 13], x.length ≤ d.blockSize ∧ x.length ≤ 16) := by
  refine ⟨rfl, by decide, fun h v e => ?_, by decide⟩
  simp only [Table.get] at e
  split at e
  · injection e with e
    subst e
    decide
  · exact absurd e (by simp)

/-! ## Witnesses: frames -/

theorem witness_FrameBeginResult :
    let s (p0 p1 cap : Nat) (c : FComp) : State := withCtxs (machine [] cap p0 p1) [.fcomp c, failedStream]
    endsWith 0x0601 (.frameBegin 1 1) (s 0 0 7 FComp.initial) = true ∧ endsWith 0x0201 (.frameBegin 2 0) (s 0 0 7 FComp.initial) = true
    ∧ endsWith 0x0105 (.frameBegin 1 0) (s 0 0 7 (frameOpen true true true 0)) = true
    ∧ endsWith 0x0601 (.frameBegin 1 0) (s 3 0 7 FComp.initial) = true ∧ endsWith 0x0601 (.frameBegin 1 0) (s 8 0 7 FComp.initial) = true
    ∧ endsWith 0x0601 (.frameBegin 1 0) (s 0x100 0 7 FComp.initial) = true
    ∧ endsWith 0x0301 (.frameBegin 1 0) (buffers (s 4 0 7 FComp.initial) 0 0 0 7) = true
    ∧ endsWith 0x0202 (.frameBegin 1 0) (s 4 1 14 FComp.initial) = true ∧ endsWith 0 (.frameBegin 1 0) (s 0xF7 1 15 FComp.initial) = true
    ∧ endsWith 0 (.frameBegin 1 0) (s 0 0 7 { frameOpen true true true 0 with fstate := .ended }) = true := by decide +kernel

theorem witness_PrefsElement :
    let s (cap : Nat) : State := withCtxs (working (machine [] cap) (.prefs 1)) [.fcomp FComp.initial]
    (s 7).work = .prefs 1
    ∧ endsWith 0x0601 (.prefs 0 false true true true true 1) (s 7) = true ∧ endsWith 0x0601 (.prefs 0 true true true true true 0) (s 7) = true
    ∧ endsWith 0x0601 (.prefs 3 false true true true true 0) (s 7) = true
    ∧ endsWith 0x0301 (.prefs 4 false true true true true 0) (buffers (s 7) 0 0 0 7) = true
    ∧ endsWith 0x0202 (.prefs 4 false true true true true 0) (s 6) = true ∧ endsWith 0 (.prefs 0 false true true true true 0) (s 7) = true := by
  decide +kernel

theorem witness_FrameHeaderParsesBack :
    bsidOk 4 = true ∧ bsidOk 7 = true ∧ 0 < 2 ^ 64 ∧ 2 ^ 64 - 1 < 2 ^ 64 := by decide

theorem witness_FrameUpdateResult :
    let s (x : List Byte) (cap : Nat) (c : FComp) : State := withCtxs (machine x cap) [.fcomp c, failedStream]
    let c := frameOpen true true true 0
    endsWith 0x0601 (.frameUpdate 1 1) (s [1] 8 c) = true ∧ endsWith 0x0201 (.frameUpdate 2 0) (s [1] 8 c) = true
    ∧ endsWith 0x0105 (.frameUpdate 1 0) (s [1] 8 FComp.initial) = true ∧ endsWith 0x0105 (.frameUpdate 1 0) (s [1] 8 { c with fstate := .ended }) = true
    ∧ endsWith 0x0301 (.frameUpdate 1 0) (buffers (s [1] 8 c) 0 1 0x80000 8) = true
    ∧ endsWith 0x0202 (.frameUpdate 1 0) (s [1] 4 c) = true ∧ endsWith 0 (.frameUpdate 1 0) (s [1] 5 c) = true := by decide +kernel

theorem witness_FrameUpdateBlocks :
    (bsidOk (frameOpen true true true 0).prefs.bsid = true ∧ (frameOpen true true true 0).prefs.indep = true)
    ∧ (bsidOk (frameOpen false true true 0).prefs.bsid = true ∧ (frameOpen false true true 0).prefs.indep = false
      ∧ (frameOpen false true true 0).hist.length ≤ 65536) := by decide

theorem witness_FrameEndResult :
    let s (cap : Nat) (c : FComp) : State := withCtxs (machine [] cap) [.fcomp c, failedStream]
    let c := frameOpen false true false 0
    endsWith 0x0601 (.frameEnd 1 1) (s 8 c) = true ∧ endsWith 0x0201 (.frameEnd 2 0) (s 8 c) = true
    ∧ endsWith 0x0105 (.frameEnd 1 0) (s 8 FComp.initial) = true ∧ endsWith 0x0701 (.frameEnd 1 0) (s 8 (frameOpen false true false 4)) = true
    ∧ endsWith 0x0301 (.frameEnd 1 0) (buffers (s 8 c) 0 0 0 8) = true
    ∧ endsWith 0x0202 (.frameEnd 1 0) (s 7 c) = true ∧ endsWith 0 (.frameEnd 1 0) (s 8 c) = true
    ∧ endsWith 0 (.frameEnd 1 0) (s 64 { c with pending := ascii "abc", total := 3, content := ascii "abc" }) = true := by decide +kernel

theorem witness_FrameInfoResult :
    let header : List Byte := [0x04, 0x22, 0x4D, 0x18, 0x60, 0x40, 0x82]
    let s (x : List Byte) (c : Ctx) : State := withCtxs (machine x 0) [c, failedStream]
    let c := Ctx.fdecomp FDecomp.initial
    endsWith 0x0601 (.frameInfo 1 1) (s header c) = true ∧ endsWith 0x0201 (.frameInfo 2 0) (s header c) = true
    ∧ endsWith 0x0205 (.frameInfo 1 0) (s header (frameIn .failed .hdr)) = true ∧ endsWith 0x0105 (.frameInfo 1 0) (s header (frameIn .complete .ended)) = true
    ∧ endsWith 0x0301 (.frameInfo 1 0) (buffers (s header c) 0 7 0 0) = true
    ∧ endsWith 0x0103 (.frameInfo 1 0) (s (header.take 6) c) = true ∧ endsWith 0 (.frameInfo 1 0) (s header c) = true
    ∧ endsWith 0 (.frameInfo 1 0) (s [0x50, 0x2A, 0x4D, 0x18, 0, 0, 0, 0] c) = true
    ∧ endsWith 0 (.frameInfo 1 0) (s [0x5F, 0x2A, 0x4D, 0x18, 1, 0, 0, 0] c) = true := by decide +kernel

theorem witness_FrameDecompressResult :
    let s (x : List Byte) (c : Ctx) : State := withCtxs (machine x 8) [c, failedStream]
    let c := Ctx.fdecomp FDecomp.initial
    endsWith 0x0601 (.frameDecompress 1 1) (s [0x04] c) = true ∧ endsWith 0x0201 (.frameDecompress 2 0) (s [0x04] c) = true
    ∧ endsWith 0x0205 (.frameDecompress 1 0) (s [0x04] (frameIn .failed .hdr)) = true
    ∧ endsWith 0x0301 (.frameDecompress 1 0) (buffers (s [0x04] c) 0 1 0x80000 8) = true
    ∧ endsWith 0x0703 (.frameDecompress 1 0) (s [0x04, 0x22, 0x4D, 0x19] c) = true ∧ endsWith 0 (.frameDecompress 1 0) (s [0x04] c) = true := by
  decide +kernel

/-- The loop's clauses: a context past its end, user data and a payload with their last byte just passed and just not, a feed. -/
theorem witness_FrameDecompressResult_loop :
    let ended : FDecomp := { FDecomp.initial with dstate := .complete, stage := .ended, fpos := 15 }
    let s := withCtxs (machine [0x00] 8) [.fdecomp ended]
    let data : FDecomp := { FDecomp.inStage .blkData false false with payload := [0x20], bword := 3 }
    (s.undisturbed = true ∧ slotAt s.slots 1 = some (.fdecomp ended) ∧ ended.dstate = .complete ∧ ended.stage = .ended
      ∧ ended.pending = [] ∧ 0 < s.srcLen ∧ s.bufferFault true true = none)
    ∧ ((ascii "abc").drop (2 - 0) ≠ [] ∧ FDecomp.initial.stage ≠ .ended)
    ∧ (({ FDecomp.initial with stage := .skip, skipLeft := 2 }).stage = .skip ∧ (ascii "ab").length ≤ 2)
    ∧ (data.stage = .blkData ∧ data.payload.length + (ascii "a").length ≤ data.bword % 2 ^ 31
      ∧ data.payload.length + (ascii "ab").length = data.bword % 2 ^ 31)
    ∧ (blockDecode false (data.payload ++ ascii "ab") 65536 []).2 = none ∧ (blockDecode false [0x20, 0x61] 65536 []).2 ≠ none := by
  decide +kernel

theorem witness_MagicElements :
    (atFrame FDecomp.initial).work = .frame 1 [] 8 { ctx := FDecomp.initial, info := Info.zero, used := 0, out := [] } none
    ∧ FDecomp.initial.pending = [] ∧ FDecomp.initial.stage = .hdr ∧ FDecomp.initial.acc = [] := by decide

/-- The five clauses: after the magic, after FLG, after BD with a content size, before a dictionary ID with and without a
content size, before HC. -/
theorem witness_HeaderFieldElements :
    let magic : List Byte := [0x04, 0x22, 0x4D, 0x18]
    let flg (acc : List Byte) : Nat := (byteAt acc 4).toNat
    let hl (acc : List Byte) : Nat := 7 + 8 * (flg acc / 8 % 2) + 4 * (flg acc % 2)
    (4 ≤ magic.length ∧ leNat (magic.take 4) = 0x184D2204 ∧ magic.length = 4)
    ∧ (magic ++ [0x68]).length = 5
    ∧ ((magic ++ [0x68, 0x40]).length = 6 ∧ flg (magic ++ [0x68, 0x40]) / 8 % 2 = 1)
    ∧ ((magic ++ [0x61, 0x40]).length + 5 = hl (magic ++ [0x61, 0x40]) ∧ flg (magic ++ [0x61, 0x40]) % 2 = 1)
    ∧ ((magic ++ [0x69, 0x40] ++ manyA 8).length + 5 = hl (magic ++ [0x69, 0x40] ++ manyA 8))
    ∧ (6 ≤ (magic ++ [0x60, 0x40]).length ∧ (magic ++ [0x60, 0x40]).length + 1 = hl (magic ++ [0x60, 0x40])) := by decide

theorem witness_BlockWordElements :
    (∀ n ∈ [2, 4], ({ FDecomp.inStage .blkHdr false false with acc := (manyA n) }).acc.length = n
      ∧ (FDecomp.inStage .blkHdr false false).stage = .blkHdr) ∧
    let c := FDecomp.inStage .blkHdr false false
    (c.pending = [] ∧ c.stage = .blkHdr ∧ c.acc = [] ∧ c.info.bcrc = false ∧ (FDecomp.inStage .blkHdr true false).info.bcrc = true)
    ∧ Config.blockMax c.info.bsid < (65537 : BitVec 31).toNat
    ∧ (1 ≤ (1 : BitVec 31).toNat ∧ (65536 : BitVec 31).toNat ≤ Config.blockMax c.info.bsid) ∧ (0 : BitVec 31).toNat = 0 := by decide

theorem witness_EndMarkElement :
    let c := FDecomp.inStage .blkHdr false true
    let d := { c with info := { c.info with csize := 4 } }
    (c.pending = [] ∧ c.stage = .blkHdr ∧ c.acc = [] ∧ c.info.ccrc = true) ∧ (d.info.csize ≠ 0 ∧ d.total ≠ d.info.csize)
    ∧ (FDecomp.inStage .blkHdr false false).info.ccrc = false := by decide

/-- Both stages; a right and a wrong checksum; a stored block, a good and a bad compressed one. -/
theorem witness_ChecksumElements :
    let c := { FDecomp.inStage .blkCrc true false with payload := ascii "abc" }
    (c.pending = [] ∧ c.acc = [] ∧ c.stage = .blkCrc ∧ 2 ^ 31 ≤ c.bword) ∧ (FDecomp.inStage .ccrc false true).stage = .ccrc
    ∧ xxh32 c.payload = 0x32D153FF ∧ (0x32D153FE : Word) ≠ xxh32 c.payload
    ∧ (blockDecode false [0x10, 0x61] 65536 []).2 = none ∧ (blockDecode false [0x10] 65536 []).2 ≠ none := by decide +kernel

/-- The frame of V-F3 in pieces: the first destination holds 5 of the 32 bytes, so that the second and third commands consume
nothing of what they are given, and the fourth gets it again; with a byte after the frame's end; FRAME_INFO on the header. -/
theorem witness_SplitInvariance :
    let start : FrameRun := { ctx := FDecomp.initial, info := Info.zero, used := 0, out := [] }
    let pieces : List (Nat × List Byte) := [(5, frameA32.take 23), (3, (frameA32.drop 23).take 2), (0, []), (64, frameA32.drop 25)]
    let r := framePieces State.reset.frameRules pieces [] start
    let r' := framePieces State.reset.frameRules (pieces ++ [(1, [0x00])]) [] start
    (r.2 = none ∧ r.1.used = (pieces.map Prod.snd).flatten.length ∧ (r.1.out ++ r.1.ctx.pending).length ≤ 32)
    ∧ r'.2 = some (.trailingData, 30)
    ∧ (FDecomp.initial.dstate = .idle ∧ FDecomp.initial.stage = .hdr ∧ FDecomp.initial.acc = [] ∧ FDecomp.initial.pending = []
      ∧ FDecomp.initial.fpos = 0 ∧ parseHeader (frameA32.take 7) ≠ .bad .truncated 7)
    ∧ (match parseHeader (frameA32.take 7) with
      | .ok _ n => n == 7
      | .bad _ _ => false) = true := by decide +kernel

/-- Linked and independent blocks, a declared content size, chunks with an empty one among them. -/
theorem witness_FrameRoundTrip :
    let p : Prefs := prefsOf 0 false true true true 35
    let chunks := [letters, [], ascii "abc", letters]
    (bsidOk p.bsid = true ∧ (p.csize = 0 ∨ p.csize = chunks.flatten.length) ∧ p.csize < 2 ^ 64 ∧ chunks.flatten.length ≤ 35)
    ∧ (bsidOk 7 = true ∧ ((0 : Nat) = 0 ∨ 0 = ([] : List (List Byte)).flatten.length) ∧ 0 < 2 ^ 64
      ∧ ([] : List (List Byte)).flatten.length ≤ 0) := by decide

theorem witness_FrameElementsRefineCommand :
    let s := withCtxs (machine frameA32 10) [.fdecomp FDecomp.initial]
    s.undisturbed = true ∧ slotAt s.slots 1 = some (.fdecomp FDecomp.initial) ∧ FDecomp.initial.dstate ≠ .failed
    ∧ s.bufferFault true true = none := by decide +kernel

theorem witness_OneByteChangeIsDetected : (0x41 : Byte) ≠ 0x42 := by decide

end Sys2Proof.Tests
end

section
/-!
PROOF. Lengths of what the compressor core writes, one position of its scan as a case distinction, and the bound on a block
(rules R113, R213 to R219, R222 (b)).
-/

namespace Sys2Proof.Machine

/-! ## Slices and encoded lengths -/

theorem slice_self (bs : List Byte) (a : Nat) : slice bs a a = [] := by simp [slice]

theorem length_slice_le (bs : List Byte) (a b : Nat) : (slice bs a b).length ≤ b - a := List.length_take_le ..

/-- A byte of a slice, inside `bs` or not. -/
theorem byteAt_slice (bs : List Byte) (a n : Nat) {i : Nat} (hi : i < n) : byteAt (slice bs a (a + n)) i = byteAt bs (a + i) := by
  simp [byteAt, slice, List.getD, hi]

/-- The number of extension bytes of a length value (rule R113). -/
theorem length_lenExtBytes (v : Nat) : (lenExtBytes v).length = if v < 15 then 0 else (v - 15) / 255 + 1 := by
  unfold lenExtBytes
  split <;> simp

theorem length_encodeSeq (lit : List Byte) (off len : Nat) : (encodeSeq lit off len).length =
    lit.length + (lenExtBytes lit.length).length + (lenExtBytes (len - Config.minMatch)).length + 3 := by
  simp only [encodeSeq, List.length_append, List.length_singleton, length_bytesLE]
  omega

theorem length_encodeLast (lit : List Byte) : (encodeLast lit).length = lit.length + (lenExtBytes lit.length).length + 1 := by
  simp only [encodeLast, List.length_append, List.length_singleton]
  omega

/-! ## One scan position -/

namespace Scan

/-- The scan goes on without a match: the position enters the table (rules R212, R216). -/
def miss (hash : Word → Nat) (c : Scan) : Scan :=
  { c with table := Table.set c.table (hash (hashInput c.buf c.pos)) (c.hstart + c.pos), pos := c.pos + 1 }

/-- The scan emits a match of `len` bytes at `s` whose source is `m` (rules R212, R216). -/
def hit (hash : Word → Nat) (c : Scan) (s m len : Nat) : Scan :=
  { c with
    table := Table.set c.table (hash (hashInput c.buf c.pos)) (c.hstart + c.pos)
    emitted := c.emitted ++ encodeSeq (slice c.buf c.anchor s) (s - m) len
    pos := s + len
    anchor := s + len }

/-- A match the scan can emit (rules R213 to R217): where it lies, that its bytes agree with its source, and the table
entry it comes from. -/
structure Match (c : Scan) (s m len : Nat) : Prop where
  anchor_le : c.anchor ≤ s
  start_le : s ≤ c.pos
  minMatch_le : Config.minMatch ≤ len
  stop_le : s + len ≤ c.mlimit
  pos_lt : c.pos < s + len
  offset_le : s - m ≤ Config.maxOffset
  agree : ∀ i < len, byteAt c.buf (m + i) = byteAt c.buf (s + i)
  listed : ∃ h, Table.get c.table h = some (c.hstart + m + (c.pos - s))

theorem active_iff (c : Scan) : c.active = true ↔ Config.mfLimit < c.len ∧ c.pos ≤ c.plimit := by simp [active]

/-- What a valid candidate is (rule R213). -/
theorem candidateValid_iff {buf : List Byte} {hstart p : Nat} {cand : Option Nat} : candidateValid buf hstart p cand = true ↔
    ∃ src, cand = some (hstart + src) ∧ p - src ≤ Config.maxOffset ∧ slice buf src (src + 4) = slice buf p (p + 4) := by
  cases cand with
  | none => simp [candidateValid]
  | some v =>
    simp only [candidateValid, Bool.and_eq_true, decide_eq_true_eq, beq_iff_eq, Option.some.injEq]
    constructor
    · rintro ⟨⟨hle, hoff⟩, hs⟩
      exact ⟨v - hstart, by omega, by omega, hs⟩
    · rintro ⟨src, rfl, hoff, hs⟩
      rw [Nat.add_sub_cancel_left]
      exact ⟨⟨by omega, by omega⟩, hs⟩

/-- A valid candidate extended both ways is a match (rules R214, R215). -/
theorem match_of_candidate {c : Scan} {h src : Nat} (ha : c.active = true) (hanchor : c.anchor ≤ c.pos)
    (hget : Table.get c.table h = some (c.hstart + src)) (hoff : c.pos - src ≤ Config.maxOffset)
    (hs : slice c.buf src (src + 4) = slice c.buf c.pos (c.pos + 4)) :
    let fwd := extendForward c.buf src c.pos c.mlimit c.mlimit 4
    let back := extendBackward c.buf c.anchor c.pos c.pos src
    c.Match (c.pos - back) (src - back) (fwd + back) := by
  intro fwd back
  obtain ⟨hlen, hpos⟩ := (active_iff c).mp ha
  have hfit : c.pos + 4 ≤ c.mlimit := by
    simp only [plimit, mlimit, Config.mfLimit, Config.lastLiterals] at *
    omega
  have hfour : ∀ i < 4, byteAt c.buf (src + i) = byteAt c.buf (c.pos + i) := fun i hi => by
    rw [← byteAt_slice _ _ _ hi, hs, byteAt_slice _ _ _ hi]
  have hle : 4 ≤ fwd := le_extendForward ..
  have hstop : c.pos + fwd ≤ c.mlimit := extendForward_le _ _ hfit
  have hfwd := extendForward_agree (mlimit := c.mlimit) c.mlimit 4 hfour
  obtain ⟨hba, hbm, hback⟩ := extendBackward_spec c.buf c.anchor c.pos c.pos src hanchor
  change back ≤ c.pos - c.anchor at hba
  change back ≤ src at hbm
  exact {
    anchor_le := by omega
    start_le := by omega
    minMatch_le := by simp only [Config.minMatch]; omega
    stop_le := by omega
    pos_lt := by omega
    offset_le := by omega
    agree := fun i hi => by
      by_cases hib : i < back
      · have := hback (back - i) (by omega) (by change back - i ≤ back; omega)
        rw [show c.pos - (back - i) = c.pos - back + i by omega, show src - (back - i) = src - back + i by omega] at this
        exact this.symm
      · have := hfwd (i - back) (by change i - back < fwd; omega)
        rwa [show c.pos + (i - back) = c.pos - back + i by omega, show src + (i - back) = src - back + i by omega] at this
    listed := ⟨h, by rw [hget]; congr 1; omega⟩ }

/-- One scan position is a miss or emits a match (rules R212 to R216). -/
theorem advance_cases (hash : Word → Nat) {c : Scan} (ha : c.active = true) (hanchor : c.anchor ≤ c.pos) :
    c.advance hash = c.miss hash ∨ ∃ s m len, c.Match s m len ∧ c.advance hash = c.hit hash s m len := by
  by_cases hv : candidateValid c.buf c.hstart c.pos (Table.get c.table (hash (hashInput c.buf c.pos))) = true
  · right
    obtain ⟨src, hget, hoff, hs⟩ := candidateValid_iff.mp hv
    obtain ⟨-, hbm, -⟩ := extendBackward_spec c.buf c.anchor c.pos c.pos src hanchor
    refine ⟨_, _, _, match_of_candidate ha hanchor hget hoff hs, ?_⟩
    rw [hget] at hv
    have hdist : c.pos - src = c.pos - extendBackward c.buf c.anchor c.pos c.pos src
        - (src - extendBackward c.buf c.anchor c.pos c.pos src) := by omega
    simp [advance, hit, hv, hget, hdist]
  · left
    simp [advance, miss, hv]

/-- What every scan position keeps holds at the end of the scan. -/
theorem run_induction {hash : Word → Nat} {P : Scan → Prop} (hstep : ∀ c, c.active = true → P c → P (c.advance hash))
    (fuel : Nat) {c : Scan} (hc : P c) : P (run hash fuel c) := by
  induction fuel generalizing c with
  | zero => exact hc
  | succ n ih =>
    simp only [run]
    split
    · rename_i ha
      exact ih (hstep c ha hc)
    · exact hc

/-- The places a scan of `src` behind `hist` holds (rules R217, R221). -/
structure Placed (hist src : List Byte) (c : Scan) : Prop where
  buf : c.buf = hist ++ src
  base : c.base = hist.length
  len : c.len = src.length
  base_le : hist.length ≤ c.anchor
  anchor_le : c.anchor ≤ c.pos
  anchor_le_end : c.anchor ≤ hist.length + src.length

theorem placed_start (hist src : List Byte) (table : HashTable) (hstart : Nat) :
    (start hist src table hstart).Placed hist src := by
  constructor <;> simp [start]

theorem Placed.miss {hist src : List Byte} {c : Scan} (h : c.Placed hist src) (hash : Word → Nat) :
    (c.miss hash).Placed hist src :=
  { h with anchor_le := Nat.le_succ_of_le h.anchor_le }

/-- No match ends after the last 5 bytes' start (rule R217). -/
theorem Match.stop_add_le {hist src : List Byte} {c : Scan} {s m len : Nat} (hm : c.Match s m len) (h : c.Placed hist src)
    (ha : c.active = true) : s + len + Config.lastLiterals ≤ hist.length + src.length := by
  have hlen := ((active_iff c).mp ha).1
  have hstop := hm.stop_le
  simp only [mlimit, h.base, h.len, Config.mfLimit, Config.lastLiterals] at *
  omega

theorem Placed.hit {hist src : List Byte} {c : Scan} {s m len : Nat} (h : c.Placed hist src) (ha : c.active = true)
    (hm : c.Match s m len) (hash : Word → Nat) : (c.hit hash s m len).Placed hist src :=
  { h with
    base_le := Nat.le_add_right_of_le (h.base_le.trans hm.anchor_le)
    anchor_le := Nat.le_refl _
    anchor_le_end := Nat.le_trans (Nat.le_add_right ..) (hm.stop_add_le h ha) }

/-! ## The bound -/

/-- The bytes emitted are few for the `c.anchor - c.base` input bytes they stand for (rule R222 (b)). -/
def EmittedBound (c : Scan) : Prop := c.emitted.length ≤ (c.anchor - c.base) + (c.anchor - c.base) / 255

/-- A sequence costs at most one byte per 255 literals more than the input it stands for (rule R222 (b)). -/
theorem EmittedBound.hit {hist src : List Byte} {c : Scan} {s m len : Nat} (h : c.EmittedBound) (hp : c.Placed hist src)
    (hm : c.Match s m len) (hash : Word → Nat) : (c.hit hash s m len).EmittedBound := by
  have hlit := length_slice_le c.buf c.anchor s
  have hanchor := hm.anchor_le
  have hmin := hm.minMatch_le
  have hbase := hp.base_le
  simp only [EmittedBound, Scan.hit, List.length_append, length_encodeSeq, length_lenExtBytes, hp.base,
    Config.minMatch] at *
  split <;> split <;> omega

theorem emittedBound_advance {hist src : List Byte} {hash : Word → Nat} {c : Scan} (ha : c.active = true)
    (h : c.Placed hist src ∧ c.EmittedBound) : (c.advance hash).Placed hist src ∧ (c.advance hash).EmittedBound := by
  obtain ⟨hp, hb⟩ := h
  obtain hmiss | ⟨s, m, len, hm, hhit⟩ := advance_cases hash ha hp.anchor_le
  · exact hmiss ▸ ⟨hp.miss hash, hb⟩
  · exact hhit ▸ ⟨hp.hit ha hm hash, hb.hit hp hm hash⟩

/-- The block is within the bound once the emitted bytes are (rule R222 (b)). -/
theorem EmittedBound.length_block_le {hist src : List Byte} {c : Scan} (h : c.EmittedBound) (hp : c.Placed hist src) :
    c.block.length ≤ src.length + src.length / 255 + 2 := by
  have hlit := length_slice_le c.buf c.anchor (c.base + c.len)
  have hbase := hp.base_le
  have hend := hp.anchor_le_end
  simp only [EmittedBound, block, List.length_append, length_encodeLast, length_lenExtBytes, hp.base, hp.len] at *
  split <;> omega

theorem block_ne_nil (c : Scan) : c.block ≠ [] := by simp [block, encodeLast]

/-- An input of at most `MFLIMIT` bytes has no scan position (rule R218). -/
theorem run_of_short {hash : Word → Nat} {c : Scan} (h : c.len ≤ Config.mfLimit) (fuel : Nat) : run hash fuel c = c := by
  have ha : c.active = false := by simp [active, Nat.not_lt.mpr h]
  cases fuel <;> simp [run, ha]

end Scan

theorem toNat_tokenByte (l m : BitVec 4) : (tokenByte l m).toNat = 16 * l.toNat + m.toNat := by
  rw [tokenByte, BitVec.toNat_append, ← Nat.shiftLeft_add_eq_or_of_lt m.isLt, Nat.shiftLeft_eq, Nat.mul_comm]

/-- A last sequence of fewer than 15 literals has no extension byte (rules R113, R219). -/
theorem encodeLast_of_lt {lit : List Byte} (h : lit.length < 15) : encodeLast lit = byteOf (16 * lit.length) :: lit := by
  have htok : tokenByte (lenNibble lit.length) 0 = byteOf (16 * lit.length) := by
    apply BitVec.eq_of_toNat_eq
    simp only [toNat_tokenByte, lenNibble, byteOf, BitVec.ofNat_eq_ofNat, BitVec.toNat_ofNat]
    omega
  rw [← htok]
  simp only [encodeLast, tokenByte, lenExtBytes, if_pos h, List.append_nil, List.singleton_append]

/-- A short input is one sequence of literals, and the table is not touched (rule R218). -/
theorem compressCore_of_short (hash : Word → Nat) (hist : List Byte) {src : List Byte} (table : HashTable) (hstart : Nat)
    (h : src.length < 13) : compressCore hash hist src table hstart = (byteOf (16 * src.length) :: src, table) := by
  have hrun : Scan.run hash (src.length + 1) (Scan.start hist src table hstart) = Scan.start hist src table hstart :=
    Scan.run_of_short (by simp only [Scan.start, Config.mfLimit]; omega) _
  have hlit : slice (hist ++ src) hist.length (hist.length + src.length) = src := by simp [slice]
  simp only [compressCore, hrun]
  simp only [Scan.block, Scan.start, hlit, List.nil_append, encodeLast_of_lt (show src.length < 15 by omega)]

theorem length_compressCore_le (hash : Word → Nat) (hist src : List Byte) (table : HashTable) (hstart : Nat) :
    (compressCore hash hist src table hstart).1.length ≤ src.length + src.length / 255 + 2 := by
  obtain ⟨hp, hb⟩ := Scan.run_induction (P := fun c => c.Placed hist src ∧ c.EmittedBound)
    (fun _ ha h => Scan.emittedBound_advance (hash := hash) ha h) (src.length + 1)
    ⟨Scan.placed_start hist src table hstart, Nat.zero_le _⟩
  exact hb.length_block_le hp

/-- Settles O24: an invariant of the scan bounds what is emitted by the input bytes it stands for. -/
theorem compressorBound : Obligations.CompressorBound := fun hash hist src table hstart =>
  ⟨Scan.block_ne_nil _, length_compressCore_le hash hist src table hstart, compressCore_of_short hash hist table hstart⟩

end Sys2Proof.Machine
end

section
/-!
PROOF. The block decoder on one encoded sequence: the element equations of `BlockParser.advance` where the bytes it needs are
there, the length loops, the match copy, and what a whole sequence leaves (rules R113, R219, R255 to R267).
-/

namespace Sys2Proof.Machine

/-! ## The byte at the parser's place -/

theorem lt_length_of_drop {bs t : List Byte} {i : Nat} {b : Byte} (h : bs.drop i = b :: t) : i < bs.length := by
  have := congrArg List.length h
  simp only [List.length_drop, List.length_cons] at this
  omega

theorem byteAt_of_drop {bs t : List Byte} {i : Nat} {b : Byte} (h : bs.drop i = b :: t) : byteAt bs i = b := by
  have := byteAt_take_drop bs i 1 Nat.one_pos
  rw [h] at this
  exact this.symm

theorem drop_add_of_drop {bs xs t : List Byte} {i : Nat} (h : bs.drop i = xs ++ t) : bs.drop (i + xs.length) = t := by
  rw [← List.drop_drop, h, List.drop_left]

theorem add_length_le_of_drop {bs xs t : List Byte} {i : Nat} (h : bs.drop i = xs ++ t) (hxs : xs ≠ []) :
    i + xs.length + t.length = bs.length := by
  have := congrArg List.length h
  have := List.length_pos_iff.mpr hxs
  simp only [List.length_drop, List.length_append] at *
  omega

@[simp] theorem hiNibble_tokenByte (l m : BitVec 4) : hiNibble (tokenByte l m) = l := BitVec.extractLsb'_append_eq_left

@[simp] theorem loNibble_tokenByte (l m : BitVec 4) : loNibble (tokenByte l m) = m := BitVec.extractLsb'_append_eq_right

/-! ## Length values -/

theorem lenNibble_eq_15_iff (v : Nat) : lenNibble v = 15 ↔ 15 ≤ v := by
  rw [← BitVec.toNat_inj]
  simp only [lenNibble, BitVec.ofNat_eq_ofNat, BitVec.toNat_ofNat]
  omega

theorem toNat_lenNibble (v : Nat) : (lenNibble v).toNat = min v 15 := by
  simp only [lenNibble, BitVec.toNat_ofNat]
  omega

theorem lenExtBytes_of_lt {v : Nat} (h : v < 15) : lenExtBytes v = [] := if_pos h

/-- The extension of a long length value: full bytes and a last one, which together make the value (rule R113). -/
theorem lenExtBytes_of_le {v : Nat} (h : 15 ≤ v) : ∃ (k : Nat) (b : Byte),
    b ≠ 255 ∧ 15 + 255 * k + b.toNat = v ∧ lenExtBytes v = List.replicate k 255 ++ [b] := by
  refine ⟨(v - 15) / 255, BitVec.ofNat 8 ((v - 15) % 255), fun hb => ?_, ?_, if_neg (by omega)⟩
  · have := congrArg BitVec.toNat hb
    simp only [BitVec.ofNat_eq_ofNat, BitVec.toNat_ofNat] at this
    omega
  · simp only [BitVec.toNat_ofNat]
    omega

/-! ## The match copy -/

theorem take_append_byteAt {bs : List Byte} {i : Nat} (h : i < bs.length) : bs.take i ++ [byteAt bs i] = bs.take (i + 1) := by
  rw [List.take_succ_eq_append_getElem h]
  simp [byteAt, h]

/-- A copy from a source whose bytes agree with those at the copy's place gives the bytes there (rule R264). -/
theorem take_append_matchBytes {buf : List Byte} {s m : Nat} (hms : m < s) (len : Nat) (hlen : s + len ≤ buf.length)
    (hagree : ∀ i < len, byteAt buf (m + i) = byteAt buf (s + i)) :
    buf.take s ++ matchBytes (buf.take s) (s - m) len = buf.take (s + len) := by
  induction len generalizing s m with
  | zero => simp [matchBytes]
  | succ n ih =>
    have hsource : byteAt (buf.take s) ((buf.take s).length - (s - m)) = byteAt buf s := by
      rw [List.length_take, show min s buf.length - (s - m) = m by omega]
      have hhead := hagree 0 (by omega)
      simpa [byteAt, hms] using hhead
    have htail := ih (s := s + 1) (m := m + 1) (by omega) (by omega) fun i hi => by
      have := hagree (i + 1) (by omega)
      rwa [show m + (i + 1) = m + 1 + i by omega, show s + (i + 1) = s + 1 + i by omega] at this
    rw [Nat.add_sub_add_right, ← take_append_byteAt (by omega)] at htail
    rw [matchBytes, hsource, List.append_cons, htail, Nat.add_right_comm, Nat.add_assoc]

namespace BlockParser

theorem run_add (m n : Nat) (p : BlockParser) : run (m + n) p = run n (run m p) := by
  induction m generalizing p with
  | zero => rw [Nat.zero_add]; rfl
  | succ m ih => rw [Nat.succ_add]; exact ih p.advance

/-! ## One element, its bytes being there -/

theorem advance_token {p : BlockParser} {b : Byte} {t : List Byte} (h : p.phase = .token) (hd : p.src.drop p.ip = b :: t) :
    p.advance = p.takeToken (hiNibble b) (loNibble b) := by
  simp [advance, h, lt_length_of_drop hd, byteAt_of_drop hd]

theorem advance_litExt {p : BlockParser} {b : Byte} {t : List Byte} (h : p.phase = .litExt) (hd : p.src.drop p.ip = b :: t) :
    p.advance = p.takeLitExt b := by
  simp [advance, h, lt_length_of_drop hd, byteAt_of_drop hd]

theorem advance_matchExt {p : BlockParser} {b : Byte} {t : List Byte} (h : p.phase = .matchExt)
    (hd : p.src.drop p.ip = b :: t) : p.advance = p.takeMatchExt b := by
  simp [advance, h, lt_length_of_drop hd, byteAt_of_drop hd]

theorem advance_literals {p : BlockParser} {lit t : List Byte} (h : p.phase = .literals) (hll : p.ll = lit.length)
    (hip : p.ip ≤ p.src.length) (hd : p.src.drop p.ip = lit ++ t) : p.advance = p.takeLiterals lit := by
  have hlen := congrArg List.length hd
  simp only [List.length_drop, List.length_append] at hlen
  simp only [advance, h, hll, hd, if_neg (show ¬p.src.length < p.ip + lit.length by omega), List.take_left]

theorem advance_offset {p : BlockParser} {off : Nat} {t : List Byte} (h : p.phase = .offset) (hoff : off < 65536)
    (hd : p.src.drop p.ip = bytesLE 2 off ++ t) : p.advance = p.takeOffset off := by
  have hlen := congrArg List.length hd
  simp only [List.length_drop, List.length_append, length_bytesLE] at hlen
  have hle : le16 p.src p.ip = off := by
    rw [le16, hd, List.take_left' (length_bytesLE 2 off), leNat_bytesLE]
    omega
  simp only [advance, h, hle, if_neg (show ¬p.src.length < p.ip + 2 by omega)]

/-! ## The length loops -/

/-- The extension of a literal length, its last byte the first that is not 255 (rule R256). -/
theorem run_litExt {k : Nat} {b : Byte} {t : List Byte} (hb : b ≠ 255) {p : BlockParser} (h : p.phase = .litExt)
    (hd : p.src.drop p.ip = List.replicate k 255 ++ b :: t) :
    run (k + 1) p = { p with ip := p.ip + (k + 1), ll := p.ll + 255 * k + b.toNat, phase := .literals } := by
  induction k generalizing p with
  | zero =>
    rw [run, advance_litExt h hd]
    simp only [takeLitExt, if_neg hb, run, Nat.zero_add, Nat.mul_zero, Nat.add_zero]
  | succ k ih =>
    rw [run, advance_litExt h hd, ih (p := p.takeLitExt 255) (by simp [takeLitExt])
      (drop_add_of_drop (xs := [255]) hd)]
    have hfull : (255 : Byte).toNat = 255 := rfl
    simp only [takeLitExt, mk.injEq, true_and, and_true]
    omega

/-- The extension of a match length; the copy follows its last byte (rule R262). -/
theorem run_matchExt {k : Nat} {b : Byte} {t : List Byte} (hb : b ≠ 255) {p : BlockParser} (h : p.phase = .matchExt)
    (hd : p.src.drop p.ip = List.replicate k 255 ++ b :: t) :
    run (k + 1) p = copyMatch { p with ip := p.ip + (k + 1), ml := p.ml + 255 * k + b.toNat } := by
  induction k generalizing p with
  | zero =>
    rw [run, advance_matchExt h hd]
    simp only [takeMatchExt, if_neg hb, run, Nat.zero_add, Nat.mul_zero, Nat.add_zero]
  | succ k ih =>
    rw [run, advance_matchExt h hd, ih (p := p.takeMatchExt 255) (by simp [takeMatchExt])
      (drop_add_of_drop (xs := [255]) hd)]
    have hfull : (255 : Byte).toNat = 255 := rfl
    simp only [takeMatchExt, if_true, h]
    congr 2 <;> omega

/-! ## The halves of a sequence -/

/-- The parser once a sequence's token and literal length are read (rules R255, R256). -/
def atLiterals (p : BlockParser) (k : Nat) (m : BitVec 4) : BlockParser :=
  { p with
    tok := p.ip
    token := tokenByte (lenNibble k) m
    ip := p.ip + (1 + (lenExtBytes k).length)
    ll := k
    phase := .literals }

/-- A token and the literal length it begins (rules R111, R113, R255, R256). -/
theorem run_literalLength {p : BlockParser} {k : Nat} {m : BitVec 4} {t : List Byte} (h : p.phase = .token)
    (hd : p.src.drop p.ip = tokenByte (lenNibble k) m :: (lenExtBytes k ++ t)) :
    run (1 + (lenExtBytes k).length) p = p.atLiterals k m := by
  rw [run_add, run, run, advance_token h hd, hiNibble_tokenByte, loNibble_tokenByte]
  by_cases hk : 15 ≤ k
  · obtain ⟨n, b, hb, hv, hext⟩ := lenExtBytes_of_le hk
    have hphase : (p.takeToken (lenNibble k) m).phase = .litExt := by simp [(lenNibble_eq_15_iff k).mpr hk]
    have hrest : p.src.drop (p.ip + 1) = List.replicate n 255 ++ b :: t := by
      simpa [hext] using drop_add_of_drop (xs := [_]) hd
    have hlen : (lenExtBytes k).length = n + 1 := by simp [hext]
    rw [hlen, run_litExt hb hphase hrest]
    simp only [takeToken, atLiterals, toNat_lenNibble, hlen, mk.injEq, true_and, and_true]
    omega
  · simp only [lenExtBytes_of_lt (Nat.lt_of_not_le hk), List.length_nil, run, takeToken, atLiterals, lenNibble_eq_15_iff,
      if_neg hk, toNat_lenNibble, Nat.min_eq_left (Nat.le_of_not_le hk)]

/-- The parser after a copied match of `len` bytes at distance `off` (rules R263, R264). -/
def afterMatch (p : BlockParser) (off len : Nat) : BlockParser :=
  { p with
    ip := p.ip + (2 + (lenExtBytes (len - Config.minMatch)).length)
    off := off
    ml := len
    out := p.out ++ matchBytes (p.hist ++ p.out) off len
    marks := p.marks ++ [{ start := p.out.length, stop := p.out.length + len, tok := p.tok }]
    phase := .token }

theorem copyMatch_of_le {p : BlockParser} (h : p.out.length + p.ml ≤ p.cap) : p.copyMatch = { p with
    out := p.out ++ matchBytes (p.hist ++ p.out) p.off p.ml
    marks := p.marks ++ [{ start := p.out.length, stop := p.out.length + p.ml, tok := p.tok }]
    phase := .token } := if_neg (by omega)

/-- An offset and the match length that follows it (rules R115, R261 to R264). -/
theorem run_match {p : BlockParser} {off len : Nat} {t : List Byte} (h : p.phase = .offset)
    (hlen : Config.minMatch ≤ len) (htok : loNibble p.token = lenNibble (len - Config.minMatch)) (hpos : 0 < off)
    (hoff : off ≤ Config.maxOffset)
    (hwin : off ≤ p.out.length + p.hist.length) (hcap : p.out.length + len ≤ p.cap)
    (hd : p.src.drop p.ip = bytesLE 2 off ++ (lenExtBytes (len - Config.minMatch) ++ t)) :
    run (1 + (lenExtBytes (len - Config.minMatch)).length) p = p.afterMatch off len := by
  rw [run_add, run, run, advance_offset h (Nat.lt_succ_of_le hoff) hd]
  simp only [takeOffset, if_neg (Nat.pos_iff_ne_zero.mp hpos), if_neg (Nat.not_lt.mpr hwin), htok, lenNibble_eq_15_iff,
    toNat_lenNibble]
  by_cases hk : 15 ≤ len - Config.minMatch
  · obtain ⟨n, b, hb, hv, hext⟩ := lenExtBytes_of_le hk
    have hrest : p.src.drop (p.ip + 2) = List.replicate n 255 ++ b :: t := by
      simpa [hext] using drop_add_of_drop hd
    have hml : min (len - Config.minMatch) 15 + Config.minMatch + 255 * n + b.toNat = len := by omega
    rw [if_pos hk, show (lenExtBytes (len - Config.minMatch)).length = n + 1 by simp [hext], run_matchExt hb rfl hrest,
      copyMatch_of_le (by simpa [hml] using hcap)]
    simp only [afterMatch, hml, hext, List.length_append, List.length_replicate, List.length_singleton]
    simp only [Nat.add_assoc p.ip]
  · have hml : min (len - Config.minMatch) 15 + Config.minMatch = len := by omega
    rw [if_neg hk, lenExtBytes_of_lt (Nat.lt_of_not_le hk), copyMatch_of_le (by simpa [hml] using hcap)]
    simp only [afterMatch, hml, lenExtBytes_of_lt (Nat.lt_of_not_le hk), List.length_nil, run]

/-- The parser once a sequence's literals are copied, before it is known whether they end the block (rules R257, R258). -/
def withLiterals (p : BlockParser) (lit : List Byte) (m : BitVec 4) : BlockParser :=
  { p.atLiterals lit.length m with
    out := p.out ++ lit
    ip := p.ip + (1 + (lenExtBytes lit.length).length) + lit.length }

/-- A sequence up to its literals, which end the block where no byte follows them (rules R255 to R259). -/
theorem run_literals {p : BlockParser} {lit t : List Byte} {m : BitVec 4} (h : p.phase = .token)
    (hcap : p.out.length + lit.length ≤ p.cap)
    (hd : p.src.drop p.ip = tokenByte (lenNibble lit.length) m :: (lenExtBytes lit.length ++ (lit ++ t))) :
    run (1 + (lenExtBytes lit.length).length + 1) p =
      if t = [] then (p.withLiterals lit m).tailCheck else { p.withLiterals lit m with phase := .offset } := by
  have hsplit : p.src.drop p.ip = (tokenByte (lenNibble lit.length) m :: lenExtBytes lit.length) ++ (lit ++ t) := hd
  have hlen := add_length_le_of_drop hsplit (List.cons_ne_nil _ _)
  have hrest := drop_add_of_drop hsplit
  simp only [List.length_cons, List.length_append] at hlen hrest
  rw [Nat.add_comm _ 1] at hrest
  have hlit : (p.atLiterals lit.length m).advance = (p.atLiterals lit.length m).takeLiterals lit :=
    advance_literals rfl rfl (by simp only [atLiterals]; omega) hrest
  have hend : p.ip + (1 + (lenExtBytes lit.length).length) + lit.length = p.src.length ↔ t = [] := by
    rw [← List.length_eq_zero_iff]
    omega
  rw [run_add, run_literalLength h hd, run, run, hlit]
  simp only [takeLiterals, atLiterals, if_neg (Nat.not_lt.mpr hcap), hend, withLiterals]

/-- The bytes after a sequence's literals. -/
theorem drop_withLiterals {p : BlockParser} {lit t : List Byte} {m : BitVec 4}
    (hd : p.src.drop p.ip = tokenByte (lenNibble lit.length) m :: (lenExtBytes lit.length ++ (lit ++ t))) :
    p.src.drop (p.withLiterals lit m).ip = t := by
  have hrest := drop_add_of_drop (xs := tokenByte (lenNibble lit.length) m :: (lenExtBytes lit.length ++ lit))
    (by simpa using hd)
  convert hrest using 2
  simp only [withLiterals, List.length_cons, List.length_append]
  omega

/-! ## A whole sequence -/

/-- The parser after a sequence's literals, its offset still to come. -/
def beforeOffset (p : BlockParser) (lit : List Byte) (len : Nat) : BlockParser :=
  { p.withLiterals lit (lenNibble (len - Config.minMatch)) with phase := .offset }

theorem length_beforeOffset_out (p : BlockParser) (lit : List Byte) (len : Nat) :
    (p.beforeOffset lit len).out.length = p.out.length + lit.length := List.length_append

/-- A sequence with a match takes no more rounds than it has bytes (rules R219, R255 to R264). -/
theorem run_encodeSeq {p : BlockParser} {lit rest : List Byte} {off len : Nat} (h : p.phase = .token)
    (hd : p.src.drop p.ip = encodeSeq lit off len ++ rest) (hlen : Config.minMatch ≤ len) (hpos : 0 < off)
    (hoff : off ≤ Config.maxOffset) (hwin : off ≤ p.out.length + lit.length + p.hist.length)
    (hcap : p.out.length + lit.length + len ≤ p.cap) :
    (∃ k ≤ (encodeSeq lit off len).length, run k p = (p.beforeOffset lit len).afterMatch off len)
    ∧ p.src.drop ((p.beforeOffset lit len).afterMatch off len).ip = rest := by
  have hd' : p.src.drop p.ip = tokenByte (lenNibble lit.length) (lenNibble (len - Config.minMatch)) :: (lenExtBytes lit.length
      ++ (lit ++ (bytesLE 2 off ++ (lenExtBytes (len - Config.minMatch) ++ rest)))) := by
    simp [hd, encodeSeq, tokenByte]
  have hlits := run_literals h (show p.out.length + lit.length ≤ p.cap by omega) hd'
  rw [if_neg (by simp [bytesLE])] at hlits
  have hafter : p.src.drop (p.beforeOffset lit len).ip = bytesLE 2 off ++ (lenExtBytes (len - Config.minMatch) ++ rest) :=
    drop_withLiterals hd'
  have hout := p.length_beforeOffset_out lit len
  have hmatch := run_match (p := p.beforeOffset lit len) rfl hlen (loNibble_tokenByte _ _) hpos hoff
    (show off ≤ (p.beforeOffset lit len).out.length + p.hist.length by omega)
    (show (p.beforeOffset lit len).out.length + len ≤ p.cap by omega) hafter
  constructor
  · refine ⟨1 + (lenExtBytes lit.length).length + 1 + (1 + (lenExtBytes (len - Config.minMatch)).length), ?_, ?_⟩
    · rw [length_encodeSeq]
      omega
    · rw [run_add, hlits]
      exact hmatch
  · have hend := drop_add_of_drop (xs := bytesLE 2 off ++ lenExtBytes (len - Config.minMatch)) (by simpa using hafter)
    rwa [List.length_append, length_bytesLE] at hend

/-- The parser stands before a token: `rest` is still to read, history and output make `win`, and no match so far offends the
tail rule of a block of `n` bytes (rules R265, R266). -/
structure Before (p : BlockParser) (hist : List Byte) (cap n : Nat) (rest win : List Byte) : Prop where
  phase : p.phase = .token
  cap_eq : p.cap = cap
  drop_ip : p.src.drop p.ip = rest
  hist_eq : p.hist = hist
  window : hist ++ p.out = win
  marks : ∀ m ∈ p.marks, badTail n m = false

/-- A sequence with a match is decoded to its literals and its match (rules R219, R255 to R264). -/
theorem Before.run_encodeSeq {p : BlockParser} {hist rest win lit : List Byte} {cap n off len : Nat}
    (h : p.Before hist cap n (encodeSeq lit off len ++ rest) win) (hlen : Config.minMatch ≤ len) (hpos : 0 < off)
    (hoff : off ≤ Config.maxOffset) (hwin : off ≤ (win ++ lit).length)
    (hstart : (win ++ lit).length + Config.mfLimit ≤ hist.length + n)
    (hstop : (win ++ lit).length + len + Config.lastLiterals ≤ hist.length + n) (hcap : n ≤ cap) :
    ∃ k ≤ (encodeSeq lit off len).length,
      (run k p).Before hist cap n rest (win ++ lit ++ matchBytes (win ++ lit) off len) := by
  obtain ⟨hphase, rfl, hrest, rfl, rfl, hmarks⟩ := h
  simp only [List.length_append] at hwin hstart hstop
  obtain ⟨⟨k, hk, hrun⟩, hdrop⟩ := BlockParser.run_encodeSeq hphase hrest hlen hpos hoff (by omega) (by omega)
  refine ⟨k, hk, ?_⟩
  rw [hrun]
  exact {
    phase := rfl
    cap_eq := rfl
    drop_ip := hdrop
    hist_eq := rfl
    window := by simp [afterMatch, beforeOffset, withLiterals, atLiterals]
    marks := fun m hm => by
      obtain hm | rfl := List.mem_append.mp hm |>.imp_right List.mem_singleton.mp
      · exact hmarks m hm
      · simp only [badTail, length_beforeOffset_out, Bool.or_eq_false_iff, decide_eq_false_iff_not]
        omega }

/-- With every match within the tail rule the block ends well (rule R266). -/
theorem tailCheck_of_marks {p : BlockParser} (h : ∀ m ∈ p.marks, badTail p.out.length m = false) :
    p.tailCheck = { p with phase := .ended none } := by
  have hfind : p.marks.find? (badTail p.out.length) = none := List.find?_eq_none.mpr (by simpa using h)
  cases hstrict : p.strictTail <;> simp only [tailCheck, hfind, hstrict]

/-- The last sequence ends the block with its literals (rules R219, R259, R266). -/
theorem Before.run_encodeLast {p : BlockParser} {hist src win lit : List Byte} {cap : Nat}
    (h : p.Before hist cap src.length (encodeLast lit) win) (hwin : win ++ lit = hist ++ src) (hcap : src.length ≤ cap) :
    ∃ k ≤ (encodeLast lit).length + 1, (run k p).phase = .ended none ∧ (run k p).out = src := by
  obtain ⟨hphase, rfl, hrest, rfl, rfl, hmarks⟩ := h
  have hout : p.out ++ lit = src := List.append_cancel_left (by rw [← hwin, List.append_assoc])
  have hd : p.src.drop p.ip = tokenByte (lenNibble lit.length) 0 :: (lenExtBytes lit.length ++ (lit ++ [])) := by
    simp [hrest, encodeLast, tokenByte]
  have hrun := run_literals hphase (by rw [← List.length_append, hout]; exact hcap) hd
  have hmarks' : ∀ m ∈ (p.withLiterals lit 0).marks, badTail (p.withLiterals lit 0).out.length m = false := by
    simpa only [withLiterals, atLiterals, hout] using hmarks
  rw [if_pos rfl, tailCheck_of_marks hmarks'] at hrun
  exact ⟨1 + (lenExtBytes lit.length).length + 1, by rw [length_encodeLast]; omega, by rw [hrun], by rw [hrun]; exact hout⟩

end BlockParser

/-- A parse that ends within the decoder's rounds is what the decoder answers (rules R265, R267). -/
theorem blockDecode_of_run {strictTail : Bool} {src hist : List Byte} {cap k : Nat} {st : Option (Detail × Nat)}
    (hk : k ≤ 2 * src.length + 2)
    (hphase : (BlockParser.run k (BlockParser.start src cap hist strictTail)).phase = .ended st) :
    blockDecode strictTail src cap hist = ((BlockParser.run k (BlockParser.start src cap hist strictTail)).out, st) := by
  obtain ⟨r, hr⟩ := Nat.exists_eq_add_of_le hk
  simp only [blockDecode, hr, BlockParser.run_add, BlockParser.run_ended hphase, BlockParser.status, hphase]

/-! ## Every scan decodes -/

theorem take_append_slice (bs : List Byte) {a b : Nat} (h : a ≤ b) : bs.take a ++ slice bs a b = bs.take b := by
  rw [slice, ← List.take_add, Nat.add_sub_cancel' h]

namespace Scan

/-- Every position in the table lies before the scan position (rules R46, R50). -/
def Listed (c : Scan) : Prop := ∀ h v, Table.get c.table h = some v → v < c.hstart + c.pos

/-- The emitted sequences decode to the input up to `anchor`, whatever follows them (rule R222 (a)). -/
def Decodes (hist : List Byte) (n : Nat) (c : Scan) : Prop :=
  ∀ (rest : List Byte) (cap : Nat) (strictTail : Bool), n ≤ cap → ∃ k ≤ c.emitted.length,
    (BlockParser.run k (BlockParser.start (c.emitted ++ rest) cap hist strictTail)).Before hist cap n rest
      (c.buf.take c.anchor)

theorem decodes_start (hist src : List Byte) (table : HashTable) (hstart : Nat) :
    (start hist src table hstart).Decodes hist src.length := fun rest cap strictTail _ =>
  ⟨0, Nat.le_refl _, by constructor <;> simp [BlockParser.run, BlockParser.start, start]⟩

/-- Entering the scan position in the table and moving past it keeps the table's positions behind the scan. -/
theorem Listed.set {c : Scan} (h : c.Listed) (i : Nat) {pos : Nat} (hpos : c.pos < pos) :
    ∀ k v, Table.get (Table.set c.table i (c.hstart + c.pos)) k = some v → v < c.hstart + pos := fun k v hv => by
  rw [Table.get_set] at hv
  split at hv
  · cases hv
    omega
  · have := h k v hv
    omega

/-- An emitted match of earlier bytes decodes (rules R219, R222 (a), (d)). -/
theorem Decodes.hit {hist src : List Byte} {c : Scan} {s m len : Nat} (h : c.Decodes hist src.length)
    (hp : c.Placed hist src) (hl : c.Listed) (ha : c.active = true) (hm : c.Match s m len) (hash : Word → Nat) :
    (c.hit hash s m len).Decodes hist src.length := fun rest cap strictTail hcap => by
  have hstop := hm.stop_add_le hp ha
  have hbuf : c.buf.length = hist.length + src.length := by rw [hp.buf, List.length_append]
  have hstart : s + Config.mfLimit ≤ hist.length + src.length := by
    obtain ⟨hlen, hpos⟩ := (active_iff c).mp ha
    have := hm.start_le
    simp only [plimit, hp.base, hp.len, Config.mfLimit] at *
    omega
  have hms : m < s := by
    obtain ⟨i, hi⟩ := hm.listed
    have := hl i _ hi
    have := hm.start_le
    omega
  have hlits := take_append_slice c.buf hm.anchor_le
  have hs : (c.buf.take s).length = s := by rw [List.length_take]; omega
  obtain ⟨k, hk, hbefore⟩ := h (encodeSeq (slice c.buf c.anchor s) (s - m) len ++ rest) cap strictTail hcap
  obtain ⟨k', hk', hbefore'⟩ := hbefore.run_encodeSeq hm.minMatch_le (by omega) hm.offset_le
    (by rw [hlits, hs]; omega) (by rw [hlits, hs]; exact hstart) (by rw [hlits, hs]; exact hstop) hcap
  rw [hlits, take_append_matchBytes hms len (by omega) hm.agree, ← BlockParser.run_add, ← List.append_assoc] at hbefore'
  exact ⟨k + k', by simp only [Scan.hit, List.length_append]; omega, hbefore'⟩

/-- What the round trip needs of a scan, kept by every scan position (rules R212 to R217, R222). -/
structure Sound (hist src : List Byte) (c : Scan) : Prop where
  placed : c.Placed hist src
  listed : c.Listed
  decodes : c.Decodes hist src.length

theorem Sound.advance {hist src : List Byte} {hash : Word → Nat} {c : Scan} (ha : c.active = true) (h : c.Sound hist src) :
    (c.advance hash).Sound hist src := by
  obtain hmiss | ⟨s, m, len, hm, hhit⟩ := advance_cases hash ha h.placed.anchor_le
  · exact hmiss ▸ ⟨h.placed.miss hash, h.listed.set _ (Nat.lt_succ_self _), h.decodes⟩
  · exact hhit ▸ ⟨h.placed.hit ha hm hash, h.listed.set _ hm.pos_lt, h.decodes.hit h.placed h.listed ha hm hash⟩

/-- The block of a sound scan decodes to the input (rules R222 (a), (c), R267). -/
theorem Sound.blockDecode_block {hist src : List Byte} {c : Scan} (h : c.Sound hist src) (strictTail : Bool) {cap : Nat}
    (hcap : src.length ≤ cap) : blockDecode strictTail c.block cap hist = (src, none) := by
  obtain ⟨hp, -, hdec⟩ := h
  let lit := slice c.buf c.anchor (c.base + c.len)
  have hwin : c.buf.take c.anchor ++ lit = hist ++ src := by
    rw [take_append_slice _ (by rw [hp.base, hp.len]; exact hp.anchor_le_end), hp.base, hp.len, hp.buf,
      ← List.length_append, List.take_length]
  obtain ⟨k, hk, hbefore⟩ := hdec (encodeLast lit) cap strictTail hcap
  obtain ⟨k', hk', hphase, hout⟩ := hbefore.run_encodeLast hwin hcap
  rw [← BlockParser.run_add] at hphase hout
  have hlen : c.block.length = c.emitted.length + (encodeLast lit).length := List.length_append
  exact (blockDecode_of_run (src := c.block) (by omega) hphase).trans (Prod.ext hout rfl)

end Scan

/-- Settles O23: every scan position keeps that the sequences emitted so far decode to the input before `anchor`, and the last
sequence completes it. -/
theorem compressorRoundTrip : Obligations.CompressorRoundTrip := fun hash strictTail hist src table hstart _ hlisted hcap =>
  (Scan.run_induction (P := Scan.Sound hist src) (fun _ => Scan.Sound.advance (hash := hash)) (src.length + 1)
    ⟨Scan.placed_start hist src table hstart, hlisted, Scan.decodes_start hist src table hstart⟩).blockDecode_block
      strictTail hcap

end Sys2Proof.Machine
end

section
/-!
PROOF. The machine after reset (rules R9, R32, R491), the operand checks of a command that uses both buffers as the first failing
check of rule R85, and COMPRESS (rules R202, R203).
-/

namespace Sys2Proof.Machine

/-- Settles O17: the reset state is one value, on which the invariant evaluates. -/
theorem resetMeetsInvariant : Obligations.ResetMeetsInvariant := by
  unfold Obligations.ResetMeetsInvariant
  decide

/-! ## The check order -/

theorem firstError_append (xs ys : List (Bool × Err)) : firstError (xs ++ ys) = (firstError xs).or (firstError ys) := by
  induction xs with
  | nil => rfl
  | cons x xs ih =>
    obtain ⟨_ | _, e⟩ := x
    · exact ih
    · rfl

/-- The checks of rule R85 in the order of rule R454, for a command that uses both buffers. -/
theorem State.firstError_bothBufferChecks (s : State) : firstError s.bothBufferChecks = s.bufferFault true true := by
  simp [firstError, State.bothBufferChecks, State.bufferFault, State.pastEnd, intersects, and_assoc]

/-- PARAM0[31:1] (rule R151). -/
theorem State.storeSizeCheck_iff (s : State) : s.storeSizeCheck.1 = true ↔ s.args.param0.toNat / 2 ≠ 0 := by
  have hlt := s.args.param0.isLt
  rw [State.storeSizeCheck, bne_iff_ne, ne_eq, ← BitVec.toNat_inj, BitVec.extractLsb'_toNat, Nat.shiftRight_eq_div_pow]
  simp only [BitVec.ofNat_eq_ofNat, BitVec.toNat_ofNat]
  omega

/-- PARAM0[0] (rule R151). -/
theorem State.storeSize_iff (s : State) : s.storeSize = true ↔ s.args.param0.toNat % 2 = 1 := by
  simp [State.storeSize, BitVec.getLsbD, Nat.testBit_zero]

/-- The checks before the buffers of COMPRESS and DECOMPRESS (rules R202, R250). -/
theorem State.firstError_blockOperands (s : State) (h : BitVec 8) (rsvd : BitVec 16) :
    firstError [rsvdCheck rsvd, noHandleCheck h, s.storeSizeCheck] =
      if rsvd ≠ 0 then some .badParam
      else if h ≠ 0 then some .badHandle
      else if s.args.param0.toNat / 2 ≠ 0 then some .badParam
      else none := by
  have hp := s.storeSizeCheck_iff
  simp only [firstError, rsvdCheck, noHandleCheck, bne_iff_ne]
  simp only [hp]
  rfl

/-! ## COMPRESS -/

theorem State.storeHeader_eq (s : State) : s.storeHeader = if s.args.param0.toNat % 2 = 1 then bytesLE 4 s.srcLen else [] := by
  simp only [State.storeHeader, s.storeSize_iff]

/-- The checks of COMPRESS in order (rule R202). -/
theorem State.firstError_compressChecks (s : State) (h : BitVec 8) (rsvd : BitVec 16) :
    firstError (s.compressChecks h rsvd) =
      if rsvd ≠ 0 then some .badParam
      else if h ≠ 0 then some .badHandle
      else if s.args.param0.toNat / 2 ≠ 0 then some .badParam
      else (s.bufferFault true true).or
        (if s.dstCap < s.srcLen + s.srcLen / 255 + 16 + s.storeHeader.length then some .capacityBound else none) := by
  have hcapacity : firstError [(decide (s.dstCap < bound s.srcLen + s.storeHeader.length), .capacityBound)]
      = if s.dstCap < s.srcLen + s.srcLen / 255 + 16 + s.storeHeader.length then some .capacityBound else none := by
    simp only [firstError, decide_eq_true_eq]
    rfl
  rw [State.compressChecks, firstError_append, firstError_append, s.firstError_blockOperands, s.firstError_bothBufferChecks,
    hcapacity]
  split_ifs <;> simp

theorem State.exec_compress_of_error {s : State} {h : BitVec 8} {rsvd : BitVec 16} {e : Err}
    (he : firstError (s.compressChecks h rsvd) = some e) : exec (.compress h rsvd) s = s.raise h e := by
  simp only [exec, execCompress, he]

theorem State.exec_compress_of_none {s : State} {h : BitVec 8} {rsvd : BitVec 16} (hs : s.undisturbed = true)
    (hn : firstError (s.compressChecks h rsvd) = none) : exec (.compress h rsvd) s =
      s.finish (s.compressReport s.storeHeader (compressCore s.hash [] s.sourceBytes [] 0).1) := by
  obtain ⟨-, hholes, hraced⟩ := s.undisturbed_iff.mp hs
  simp only [exec, execCompress, hn, State.withSource_of_no_holes hholes, State.source_eq s hraced, State.sourceBytes]

/-- A legal HASH_LOG is one the hash bounds are proved for (rule R9). -/
theorem Params.hashLog_le_of_wf {p : Params} (h : p.wf = true) : p.hashLog ≤ 32 := by
  simp only [Params.wf, Bool.and_eq_true, decide_eq_true_eq] at h
  omega

/-- Settles O21: each check in its turn, then the block of the compressor core. -/
theorem compressResult : Obligations.CompressResult := by
  refine ⟨fun s x hp => ⟨State.hash_lt (Params.hashLog_le_of_wf hp) x, fun hk => State.hash_of_knuth hk x⟩, ?_⟩
  intro h rsvd s hs
  have hchecks := s.firstError_compressChecks h rsvd
  have hraise : ∀ e, firstError (s.compressChecks h rsvd) = some e → s.RunsTo (.compress h rsvd) (s.failure h e) :=
    fun _ he => State.runsTo_of_raise hs (State.exec_compress_of_error he)
  simp only [← s.storeHeader_eq]
  by_cases hr : rsvd ≠ 0
  · rw [if_pos hr] at hchecks ⊢
    exact hraise _ hchecks
  rw [if_neg hr] at hchecks ⊢
  by_cases hh : h ≠ 0
  · rw [if_pos hh] at hchecks ⊢
    exact hraise _ hchecks
  rw [if_neg hh] at hchecks ⊢
  by_cases hparam : s.args.param0.toNat / 2 ≠ 0
  · rw [if_pos hparam] at hchecks ⊢
    exact hraise _ hchecks
  rw [if_neg hparam] at hchecks ⊢
  cases hb : s.bufferFault true true with
  | some e =>
    rw [hb] at hchecks
    exact hraise _ hchecks
  | none =>
    rw [hb, Option.none_or] at hchecks
    dsimp only
    by_cases hcap : s.dstCap < s.srcLen + s.srcLen / 255 + 16 + s.storeHeader.length
    · rw [if_pos hcap] at hchecks ⊢
      exact hraise _ hchecks
    · rw [if_neg hcap] at hchecks ⊢
      obtain rfl : h = 0 := not_not.mp hh
      exact State.runsTo_of_finish hs (State.exec_compress_of_none hs hchecks)

end Sys2Proof.Machine
end

section
/-!
PROOF. How far the output of the block decoder and of the frame decompressor goes (rules R257, R263, R385).
-/

namespace Sys2Proof.Machine

@[simp] theorem length_matchBytes (win : List Byte) (off n : Nat) : (matchBytes win off n).length = n := by
  induction n generalizing win with
  | zero => rfl
  | succ n ih => simp [matchBytes, ih]

namespace BlockParser

/-- The capacity is `cap` and the output within it (rules R257, R263). -/
structure Within (cap : Nat) (p : BlockParser) : Prop where
  cap_eq : p.cap = cap
  length_out_le : p.out.length ≤ cap

theorem Within.of_same {cap : Nat} {p q : BlockParser} (h : p.Within cap) (hcap : q.cap = p.cap) (hout : q.out = p.out) :
    q.Within cap := ⟨hcap.trans h.cap_eq, hout ▸ h.length_out_le⟩

theorem Within.tailCheck {cap : Nat} {p : BlockParser} (h : p.Within cap) : p.tailCheck.Within cap := by
  unfold BlockParser.tailCheck
  split <;> exact h.of_same rfl rfl

theorem Within.copyMatch {cap : Nat} {p : BlockParser} (h : p.Within cap) : p.copyMatch.Within cap := by
  obtain ⟨rfl, hout⟩ := h
  unfold BlockParser.copyMatch
  split
  · exact ⟨rfl, hout⟩
  · exact ⟨rfl, by rw [List.length_append, length_matchBytes]; omega⟩

theorem Within.takeMatchExt {cap : Nat} {p : BlockParser} (h : p.Within cap) (v : Byte) : (p.takeMatchExt v).Within cap := by
  have hp : Within cap { p with ip := p.ip + 1, ml := p.ml + v.toNat } := h.of_same rfl rfl
  unfold BlockParser.takeMatchExt
  split
  · exact h.of_same rfl rfl
  · exact hp.copyMatch

theorem Within.takeLiterals {cap : Nat} {p : BlockParser} (h : p.Within cap) (bs : List Byte) :
    (p.takeLiterals bs).Within cap := by
  obtain ⟨rfl, hout⟩ := h
  unfold BlockParser.takeLiterals
  split
  · exact ⟨rfl, hout⟩
  · have hp : Within p.cap { p with out := p.out ++ bs, ip := p.ip + bs.length } :=
      ⟨rfl, by rw [List.length_append]; omega⟩
    dsimp only
    split
    · exact hp.tailCheck
    · exact ⟨rfl, hp.length_out_le⟩

theorem Within.takeOffset {cap : Nat} {p : BlockParser} (h : p.Within cap) (off : Nat) : (p.takeOffset off).Within cap := by
  have hp : Within cap { p with ip := p.ip + 2, off := off, ml := (loNibble p.token).toNat + Config.minMatch } :=
    h.of_same rfl rfl
  unfold BlockParser.takeOffset
  dsimp only
  split_ifs
  · exact h.of_same rfl rfl
  · exact h.of_same rfl rfl
  · exact h.of_same rfl rfl
  · exact hp.copyMatch

/-- Every element keeps the output within the capacity (rules R255 to R264). -/
theorem Within.advance {cap : Nat} {p : BlockParser} (h : p.Within cap) : p.advance.Within cap := by
  cases hphase : p.phase <;> simp only [BlockParser.advance, hphase]
  case token => split <;> exact h.of_same rfl rfl
  case litExt => split <;> exact h.of_same rfl rfl
  case literals =>
    split
    · exact h.of_same rfl rfl
    · exact h.takeLiterals _
  case offset =>
    split
    · exact h.of_same rfl rfl
    · exact h.takeOffset _
  case matchExt =>
    split
    · exact h.takeMatchExt _
    · exact h.of_same rfl rfl
  case ended => exact h

theorem Within.run {cap : Nat} {p : BlockParser} (h : p.Within cap) (n : Nat) : (run n p).Within cap := by
  induction n generalizing p with
  | zero => exact h
  | succ n ih => exact ih h.advance

end BlockParser

/-- The block decoder's output stays within its capacity, whatever its input (rules R257, R263, R267). -/
theorem length_blockDecode_le (strictTail : Bool) (src : List Byte) (cap : Nat) (hist : List Byte) :
    (blockDecode strictTail src cap hist).1.length ≤ cap :=
  (BlockParser.Within.run (p := BlockParser.start src cap hist strictTail) ⟨rfl, Nat.zero_le _⟩ _).length_out_le

/-- The frame decompressor delivers no more than its capacity (rule R385). -/
theorem length_frameLoop_out_le (rules : FrameRules) {cap : Nat} (bs : List Byte) {r : FrameRun} (h : r.out.length ≤ cap) :
    (frameLoop rules cap bs r).1.out.length ≤ cap := by
  have hdeliver := FrameRun.deliver_length_le h
  induction bs generalizing r with
  | nil => exact hdeliver
  | cons b bs ih =>
    simp only [frameLoop]
    split_ifs
    · exact hdeliver
    · exact hdeliver
    · have heat : ((r.deliver cap).eat rules b).1.out.length ≤ cap := hdeliver
      split
      · rename_i heq
        rwa [heq] at heat
      · rename_i heq
        rw [heq] at heat
        exact ih heat (FrameRun.deliver_length_le heat)

end Sys2Proof.Machine
end

section
/-!
PROOF. Every command is a function of its operands and source bytes (rules R87, R457) and writes inside its destination buffer
(rule R84): the two ways a command ends, the walk through every command that shows which one it takes, and what follows from it.
-/

namespace Sys2Proof.Machine

/-! ## The two ways a command ends -/

/-- The machine `u` with the operands of `s`: what a command is a function of, besides its source bytes (rule R457). -/
def State.withOperands (u s : State) : State :=
  { u with params := s.params, args := s.args, slots := s.slots, info := s.info }

/-- The output fits in `cap` bytes, and RESULT_LEN counts it where the command has a destination (rules R39, R41). -/
structure Report.Fits (dest : Bool) (cap : Nat) (r : Report) : Prop where
  length_out_le : r.out.length ≤ cap
  resultLen_eq : dest = true → r.resultLen = r.out.length

/-- A meaning `f` ends with a report that the operands of `s` fix, at once or once the source buffer is read. -/
inductive Ends (s : State) (dest : Bool) (f : State → Result) : Prop where
  | finish (r : Report) (hfit : r.Fits dest s.dstCap)
      (heq : ∀ u : State, f (u.withOperands s) = (u.withOperands s).finish r := by intros; rfl)
  | withSource (r : List Byte → Report) (hfit : ∀ src, src.length = s.srcLen → (r src).Fits dest s.dstCap)
      (heq : ∀ u : State, f (u.withOperands s) = (u.withOperands s).withSource fun src => (u.withOperands s).finish (r src))

namespace Ends

variable {s : State} {dest : Bool} {f g : State → Result}

theorem congr (h : ∀ u : State, f (u.withOperands s) = g (u.withOperands s)) (hg : Ends s dest g) : Ends s dest f := by
  cases hg with
  | finish r hfit heq => exact .finish r hfit fun u => (h u).trans (heq u)
  | withSource r hfit heq => exact .withSource r hfit fun u => (h u).trans (heq u)

/-- A failing check writes nothing (rule R456 (a)). -/
theorem raise (h : BitVec 8) (e : Err) : Ends s dest fun t => t.raise h e :=
  .finish (s.failure h e) ⟨Nat.zero_le _, fun _ => rfl⟩

/-! The rules for a command's steps. Their side conditions, that a step looks at the operands only, hold by computation. -/

/-- The checks of rule R454, then the rest of the command where every one passes. -/
theorem check {h : BitVec 8} {checks : State → List (Bool × Err)} (hg : firstError (checks s) = none → Ends s dest g)
    (hchecks : ∀ u : State, checks (u.withOperands s) = checks s := by intros; rfl) :
    Ends s dest fun t => match firstError (checks t) with
      | some e => t.raise h e
      | none => g t := by
  cases he : firstError (checks s) with
  | some e => exact (raise h e).congr fun u => by simp only [hchecks, he]
  | none => exact (hg he).congr fun u => by simp only [hchecks, he]

/-- A lookup in the contexts, an error where there is nothing, then the rest of the command with what is there. `pick` is the
command's own case distinction on the lookup. -/
theorem lookup {α : Type} {h : BitVec 8} {e : Err} {find : State → Option α} {g : α → State → Result}
    {pick : Option α → (Unit → Result) → (α → Result) → Result} (hg : ∀ c, Ends s dest (g c))
    (hfind : ∀ u : State, find (u.withOperands s) = find s := by intros; rfl)
    (hnone : ∀ x y, pick none x y = x () := by intros; rfl) (hsome : ∀ c x y, pick (some c) x y = y c := by intros; rfl) :
    Ends s dest fun t => pick (find t) (fun _ => t.raise h e) fun c => g c t := by
  cases hc : find s with
  | none => exact (raise h e).congr fun u => by rw [hfind, hc, hnone]
  | some c => exact (hg c).congr fun u => by rw [hfind, hc, hsome]

/-- The source is read, then the command ends with a report that its bytes fix. -/
theorem source {k : State → List Byte → Result} (r : List Byte → Report)
    (hfit : ∀ src, src.length = s.srcLen → (r src).Fits dest s.dstCap)
    (hk : ∀ (u : State) (src : List Byte), k (u.withOperands s) src = (u.withOperands s).finish (r src) := by intros; rfl) :
    Ends s dest fun t => t.withSource (k t) :=
  .withSource r hfit fun u => congrArg (u.withOperands s).withSource (funext (hk u))

end Ends

/-! ## The reports' output -/

/-- No check fails where none is reported (rule R454). -/
theorem firstError_eq_none_iff (checks : List (Bool × Err)) : firstError checks = none ↔ ∀ x ∈ checks, x.1 = false := by
  induction checks with
  | nil => simp [firstError]
  | cons x checks ih =>
    obtain ⟨_ | _, e⟩ := x <;> simp [firstError, ih]

/-- A capacity check that stands in a list of passed checks. -/
theorem le_of_capacity_check {checks : List (Bool × Err)} (hnone : firstError checks = none) {need cap : Nat} {e : Err}
    (hmem : (decide (cap < need), e) ∈ checks) : need ≤ cap := by
  simpa using (firstError_eq_none_iff checks).mp hnone _ hmem

section

variable {dest : Bool} {cap : Nat}

theorem Report.Fits.of_no_output {r : Report} (hout : r.out = []) (hlen : dest = true → r.resultLen = 0) : r.Fits dest cap :=
  ⟨by simp [hout], fun hd => by simp [hout, hlen hd]⟩

theorem State.failure_fits (s : State) (h : BitVec 8) (e : Err) : (s.failure h e).Fits dest cap := .of_no_output rfl fun _ => rfl

theorem State.decompressReport_fits (s : State) (n : Nat) {out : List Byte} (hout : out.length ≤ cap)
    (st : Option (Detail × Nat)) : (s.decompressReport n out st).Fits dest cap := by
  cases st <;> exact ⟨hout, fun _ => rfl⟩

theorem State.legacyReport_fits (s : State) (size n : Nat) {out : List Byte} (hout : out.length ≤ cap)
    (st : Option (Detail × Nat)) : (s.legacyReport size n out st).Fits dest cap := by
  cases st with
  | some e => exact ⟨hout, fun _ => rfl⟩
  | none =>
    unfold State.legacyReport
    dsimp only
    split <;> exact ⟨hout, fun _ => rfl⟩

theorem State.streamDecompressReport_fits (s : State) (h : BitVec 8) (c : DStream) {out : List Byte} (hout : out.length ≤ cap)
    (st : Option (Detail × Nat)) : (s.streamDecompressReport h c out st).Fits dest cap := by
  cases st <;> exact ⟨hout, fun _ => rfl⟩

/-- A declared size that raises no error is within the capacity (rule R251). -/
theorem le_of_legacySizeError {size : Nat} (h : legacySizeError size cap = none) : size ≤ cap := by
  unfold legacySizeError at h
  split_ifs at h
  omega

/-- A legacy container is decoded within the declared size, and that within the capacity (rule R251). -/
theorem State.legacyDecode_fits (s : State) (src : List Byte) : (s.legacyDecode src cap).Fits dest cap := by
  have herror : ∀ e, (s.legacyHeaderError e).Fits dest cap := fun _ => .of_no_output rfl fun _ => rfl
  unfold State.legacyDecode
  split
  · exact herror _
  · split
    · exact herror _
    · rename_i hsize
      exact s.legacyReport_fits _ _ ((length_blockDecode_le ..).trans (le_of_legacySizeError hsize)) _

end

/-! ## Each command -/

/-- The report of DECOMPRESS on its source bytes (rule R250). -/
def State.decompressOf (s : State) (src : List Byte) : Report :=
  if s.storeSize then s.legacyDecode src s.dstCap
  else
    s.decompressReport src.length (blockDecode s.params.strictTail src s.dstCap []).1
      (blockDecode s.params.strictTail src s.dstCap []).2

theorem State.decompressOf_fits (s : State) (src : List Byte) : (s.decompressOf src).Fits true s.dstCap := by
  unfold State.decompressOf
  split
  · exact s.legacyDecode_fits src
  · exact s.decompressReport_fits _ (length_blockDecode_le ..) _

/-- The report of FRAME_INFO on its source bytes (rule R383). -/
def State.frameInfoOf (s : State) (h : BitVec 8) (c : FDecomp) (src : List Byte) : Report :=
  match parseHeader src with
  | .bad d pos => { s.success h with err := some (.corrupt d, pos) }
  | .ok i hl =>
    { s.success h with
      consumed := hl
      slots := setSlot s.slots h (some (.fdecomp { c.headerDone i with fpos := hl }))
      info := setInfo i hl }

theorem State.frameInfoOf_fits (s : State) (h : BitVec 8) (c : FDecomp) (src : List Byte) :
    (s.frameInfoOf h c src).Fits false s.dstCap := by
  unfold State.frameInfoOf
  split <;> exact .of_no_output rfl nofun

/-- The report of FRAME_UPDATE and FRAME_END: their output and context, or CAPACITY where the output does not fit (rules R344,
R345). -/
def State.frameOutput (s : State) (h : BitVec 8) (consumed : Nat) (r : List Byte × FComp) : Report :=
  if s.dstCap < r.1.length then s.failure h .capacityOutput
  else
    { s.success h with
      out := r.1
      resultLen := r.1.length
      consumed := consumed
      slots := setSlot s.slots h (some (.fcomp r.2)) }

theorem State.frameOutput_fits (s : State) (h : BitVec 8) (consumed : Nat) (r : List Byte × FComp) :
    (s.frameOutput h consumed r).Fits true s.dstCap := by
  unfold State.frameOutput
  split
  · exact s.failure_fits h _
  · exact ⟨by dsimp only; omega, fun _ => rfl⟩

section

variable (h : BitVec 8) (rsvd : BitVec 16) (s : State)

theorem execBound_ends : Ends s false (execBound h rsvd) :=
  .check fun _ => .finish { s.success h with resultLen := bound s.args.param0.toNat } (.of_no_output rfl nofun)

theorem execCompress_ends : Ends s true (execCompress h rsvd) :=
  .check fun hchecks =>
  .source (fun src => s.compressReport s.storeHeader (compressCore s.hash [] src [] 0).1) fun src hsrc =>
    have hcap : bound s.srcLen + s.storeHeader.length ≤ s.dstCap :=
      le_of_capacity_check (e := .capacityBound) hchecks (by simp [State.compressChecks])
    have hcore := length_compressCore_le s.hash [] src [] 0
    ⟨by simp only [bound] at hcap; simp only [State.compressReport, List.length_append]; omega, fun _ => rfl⟩

theorem execDecompress_ends : Ends s true (execDecompress h rsvd) :=
  .check fun _ =>
  .source s.decompressOf (fun src _ => s.decompressOf_fits src) fun _ _ => (apply_ite _ _ _ _).symm

theorem execIllegalCommand_ends (op : BitVec 8) : Ends s false (execIllegalCommand op h rsvd) := .raise h _

theorem execCtxCreate_ends : Ends s false (execCtxCreate h rsvd) :=
  .check fun _ => .lookup fun n =>
  .finish { s.success (BitVec.ofNat 8 n) with
    resultLen := n
    slots := setSlot s.slots (BitVec.ofNat 8 n) (some (newContext s.kindField s.blockSizeField)) }
    (.of_no_output rfl nofun)

theorem execCtxDestroy_ends : Ends s false (execCtxDestroy h rsvd) :=
  .finish { s.success h with slots := setSlot s.slots h none } (.of_no_output rfl nofun)

theorem execCtxReset_ends : Ends s false (execCtxReset h rsvd) :=
  .check fun _ => .lookup fun c =>
  .finish { s.success h with slots := setSlot s.slots h (some c.reinit) } (.of_no_output rfl nofun)

theorem execCtxLoadDict_ends : Ends s false (execCtxLoadDict h rsvd) :=
  .check fun _ => .lookup fun c => .check fun _ =>
  .source (fun src => { s.success h with
    consumed := s.srcLen
    slots := setSlot s.slots h (some (withDict s.hash (lastWindow src) c)) })
    fun _ _ => .of_no_output rfl nofun

theorem execStreamCompress_ends : Ends s true (execStreamCompress h rsvd) :=
  .check fun _ => .lookup fun c => .check fun hchecks =>
  .source
    (fun src =>
      let r := compressCore s.hash c.hist src c.table (c.spos - c.hist.length)
      s.streamCompressReport h c src r.1 r.2)
    fun src hsrc =>
    have hcap : bound s.srcLen ≤ s.dstCap :=
      le_of_capacity_check (e := .capacityBound) hchecks (by simp [State.streamCompressChecks])
    have hcore := length_compressCore_le s.hash c.hist src c.table (c.spos - c.hist.length)
    ⟨by simp only [bound] at hcap; simp only [State.streamCompressReport]; omega, fun _ => rfl⟩

theorem execStreamDecompress_ends : Ends s true (execStreamDecompress h rsvd) :=
  .check fun _ => .lookup fun c => .check fun _ =>
  .source
    (fun src =>
      let r := blockDecode s.params.strictTail src (min s.dstCap c.blockSize) c.hist
      s.streamDecompressReport h c r.1 r.2)
    fun _ _ => s.streamDecompressReport_fits h c ((length_blockDecode_le ..).trans (Nat.min_le_left ..)) _

/-- FRAME_BEGIN from its preferences on, which the operands fix (rule R342). -/
theorem beginFrame_ends {p : State → Prefs} (hp : ∀ u : State, p (u.withOperands s) = p s) :
    Ends s true fun t => t.beginFrame h (p t) :=
  .congr (g := fun t => t.beginFrame h (p s)) (fun u => by rw [hp]) <|
  .check fun hchecks =>
  .finish { s.success h with
    out := (p s).header
    resultLen := (p s).header.length
    slots := setSlot s.slots h (some (.fcomp { FComp.initial with prefs := p s, fstate := .headerEmitted })) }
    ⟨le_of_capacity_check (e := .capacityOutput) hchecks (by simp), fun _ => rfl⟩

theorem execFrameBegin_ends : Ends s true (execFrameBegin h rsvd) :=
  .check fun _ => .lookup fun _ => .check fun _ => .check fun _ => beginFrame_ends h s fun _ => rfl

theorem execFrameUpdate_ends : Ends s true (execFrameUpdate h rsvd) :=
  .check fun _ => .lookup fun c => .check fun _ =>
  .source (fun src => s.frameOutput h s.srcLen (updateFrame s.hash c src)) (fun _ _ => s.frameOutput_fits h _ _)
    fun _ _ => (apply_ite _ _ _ _).symm

theorem execFrameEnd_ends : Ends s true (execFrameEnd h rsvd) :=
  .check fun _ => .lookup fun c => .check fun _ =>
  .finish (s.frameOutput h 0 (endFrame s.hash c)) (s.frameOutput_fits h _ _) fun _ => (apply_ite _ _ _ _).symm

theorem execFrameInfo_ends : Ends s false (execFrameInfo h rsvd) :=
  .check fun _ => .lookup fun c => .check fun _ =>
  .source (s.frameInfoOf h c) (fun src _ => s.frameInfoOf_fits h c src)
    fun _ src => by unfold State.frameInfoOf; cases parseHeader src <;> rfl

theorem execFrameDecompress_ends : Ends s true (execFrameDecompress h rsvd) :=
  .check fun _ => .lookup fun c => .check fun _ =>
  .source
    (fun src =>
      let r := frameLoop s.frameRules s.dstCap src (s.frameStart c)
      s.frameReport h r.1 r.2)
    fun src _ => ⟨length_frameLoop_out_le _ src (Nat.zero_le _), fun _ => rfl⟩

end

/-- Every command ends in one of the two ways (rules R84, R457). -/
theorem exec_ends (i : Instr) (hi : i.isCommand = true) (s : State) : Ends s (usesDest i) (exec i) := by
  cases i with
  | bound h rsvd => exact execBound_ends h rsvd s
  | compress h rsvd => exact execCompress_ends h rsvd s
  | decompress h rsvd => exact execDecompress_ends h rsvd s
  | ctxCreate h rsvd => exact execCtxCreate_ends h rsvd s
  | ctxDestroy h rsvd => exact execCtxDestroy_ends h rsvd s
  | ctxReset h rsvd => exact execCtxReset_ends h rsvd s
  | ctxLoadDict h rsvd => exact execCtxLoadDict_ends h rsvd s
  | streamCompress h rsvd => exact execStreamCompress_ends h rsvd s
  | streamDecompress h rsvd => exact execStreamDecompress_ends h rsvd s
  | frameBegin h rsvd => exact execFrameBegin_ends h rsvd s
  | frameUpdate h rsvd => exact execFrameUpdate_ends h rsvd s
  | frameEnd h rsvd => exact execFrameEnd_ends h rsvd s
  | frameInfo h rsvd => exact execFrameInfo_ends h rsvd s
  | frameDecompress h rsvd => exact execFrameDecompress_ends h rsvd s
  | illegalCommand op h rsvd => exact execIllegalCommand_ends h rsvd s op
  | _ => simp [Instr.isCommand, siteOf] at hi

/-! ## What a command writes, and what it depends on -/

/-- The end of a command, raced or not, leaves every byte outside the destination buffer alone (rules R84, R495). -/
theorem State.read_memAfter_other {s : State} {out : List Byte} (hout : out.length ≤ s.dstCap) {a : Nat}
    (ha : a < s.dstAddr ∨ s.dstAddr + s.dstCap ≤ a) : Memory.read (s.memAfter out) a = Memory.read s.mem a := by
  have hwrite : Memory.read (Memory.writeBytes s.mem s.dstAddr out) a = Memory.read s.mem a :=
    Memory.read_writeBytes_other _ _ _ (by omega)
  unfold State.memAfter
  dsimp only
  split
  · exact hwrite
  · exact (s.read_scramble_other _ _ _ _ ha).trans hwrite

/-- A command that answers a state has completed with output within its destination, or has stuck the engine. -/
theorem Ends.next_cases {s t : State} {dest : Bool} {f : State → Result} (h : Ends s dest f) (ht : f s = .next t) :
    (∃ r : Report, r.Fits dest s.dstCap ∧ t = s.completed r) ∨ t = { s with busy := true, stuck := true } := by
  cases h with
  | finish r hfit heq =>
    exact (State.finish_next ((heq s).symm.trans ht)).imp_left fun htr => ⟨r, hfit, htr⟩
  | withSource r hfit heq =>
    obtain hread | hstuck := State.withSource_next ((heq s).symm.trans ht)
    · exact (State.finish_next hread).imp_left fun htr => ⟨r s.source, hfit _ s.length_source, htr⟩
    · exact .inr hstuck

/-- Settles O13: a completed command writes its report's output, which fits in the destination buffer, and a stuck one nothing. -/
theorem noWriteOutsideDestination : Obligations.NoWriteOutsideDestination := by
  intro i s t a hi ht ha
  obtain ⟨r, hfit, rfl⟩ | rfl := (exec_ends i hi s).next_cases ht
  · exact State.read_memAfter_other hfit.length_out_le ha
  · rfl

/-- Without a race the command reads the host's bytes (rule R83). -/
theorem State.source_eq_sourceBytes {s : State} (h : s.raced = []) : s.source = s.sourceBytes := s.source_eq h

/-- Undisturbed machines with the same operands and source bytes complete a command with one report. -/
theorem Ends.common_report {s : State} {dest : Bool} {f : State → Result} (h : Ends s dest f) : ∃ r : Report,
    r.Fits dest s.dstCap ∧ ∀ u : State, (u.withOperands s).undisturbed = true →
      (u.withOperands s).sourceBytes = s.sourceBytes → f (u.withOperands s) = .next ((u.withOperands s).completed r) := by
  cases h with
  | finish r hfit heq =>
    refine ⟨r, hfit, fun u hu _ => ?_⟩
    obtain ⟨-, hholes, -⟩ := (State.undisturbed_iff _).mp hu
    rw [heq, State.finish_of_no_holes hholes]
  | withSource r hfit heq =>
    refine ⟨r s.sourceBytes, hfit _ (Memory.length_readBytes ..), fun u hu hsrc => ?_⟩
    obtain ⟨-, hholes, hraced⟩ := (State.undisturbed_iff _).mp hu
    rw [heq, State.withSource_of_no_holes hholes, State.finish_of_no_holes hholes, State.source_eq_sourceBytes hraced, hsrc]

theorem State.withOperands_of_eq {u s : State} (hparams : s.params = u.params) (hargs : s.args = u.args)
    (hslots : s.slots = u.slots) (hinfo : s.info = u.info) : u.withOperands s = u := by
  simp only [State.withOperands, hparams, hargs, hslots, hinfo]

/-- The output bytes a completed command leaves at its destination (rules R14, R86). -/
theorem State.read_completed_out {s : State} (hs : s.undisturbed = true) {r : Report} {k : Nat} (hk : k < r.out.length) :
    Memory.read (s.completed r).mem (s.dstAddr + k) = byteAt r.out k := by
  rw [(State.endsWith_completed hs r).memory, if_pos (by omega), Nat.add_sub_cancel_left]

/-- Settles O15: both machines complete the command with the report that their common operands and source bytes fix. -/
theorem commandsAreDeterministic : Obligations.CommandsAreDeterministic := by
  intro i s₁ s₂ hi hs₁ hs₂ hparams hargs hslots hinfo hsrc
  obtain ⟨r, hfit, hrun⟩ := (exec_ends i hi s₁).common_report
  have hsame := State.withOperands_of_eq hparams hargs hslots hinfo
  have hrun₂ := hrun s₂
  rw [hsame] at hrun₂
  refine ⟨_, _, hrun s₁ hs₁ rfl, hrun₂ hs₂ hsrc.symm, rfl, rfl, rfl, fun hdest k hk => ?_⟩
  have hlen : k < r.out.length := by
    rw [← hfit.resultLen_eq hdest]
    exact hk.trans_le (Nat.mod_le ..)
  exact (State.read_completed_out hs₁ hlen).trans (State.read_completed_out hs₂ hlen).symm

end Sys2Proof.Machine
end

section
/-!
PROOF. The elements of a frame's header on the working registers of FRAME_DECOMPRESS: where a header is still open, the
bytes that are collected, and what the last byte of a header does (rules R121 to R126, R130, R131, R381, R387).
-/

namespace Sys2Proof.Machine

/-! ## Bits of a byte -/

/-- A bit as a number (rule R11). -/
theorem flagNat_getLsbD {w : Nat} (b : BitVec w) (i : Nat) : flagNat (b.getLsbD i) = b.toNat / 2 ^ i % 2 := by
  rw [BitVec.getLsbD, Nat.testBit_eq_decide_div_mod_eq, flagNat]
  split <;> simp_all

theorem headerLength_eq (flg : Byte) : headerLength flg = 7 + 8 * (flg.toNat / 8 % 2) + 4 * (flg.toNat % 2) := by
  simp only [headerLength, flagNat_getLsbD, Nat.pow_zero, Nat.div_one, Nat.reducePow]

theorem seven_le_headerLength (flg : Byte) : 7 ≤ headerLength flg := by
  rw [headerLength]
  omega

/-! ## Bytes of the front of a string -/

theorem byteAt_append_left {xs : List Byte} {i : Nat} (h : i < xs.length) (ys : List Byte) :
    byteAt (xs ++ ys) i = byteAt xs i := by
  rw [byteAt, byteAt, List.getD_append _ _ _ _ h]

theorem le32_append_left {xs : List Byte} {i : Nat} (h : i + 4 ≤ xs.length) (ys : List Byte) :
    le32 (xs ++ ys) i = le32 xs i := by
  rw [le32, le32, List.drop_append_of_le_length (by omega), List.take_append_of_le_length (by simp; omega)]

theorem le32_bytesLE_append {n : Nat} (hn : n < 256 ^ 4) (ys : List Byte) : le32 (bytesLE 4 n ++ ys) 0 = n := by
  rw [le32, List.drop_zero, List.take_left' (length_bytesLE 4 n), leNat_bytesLE, Nat.mod_eq_of_lt hn]

theorem leNat_wordBytes (w : Word) : leNat (wordBytes w) = w.toNat := by
  rw [wordBytes, leNat_bytesLE, Nat.mod_eq_of_lt (show w.toNat < 256 ^ 4 from w.isLt)]

/-! ## A header still open -/

/-- The bytes `f` do not reach the end of their header: ParseHeader asks for more (rules R121, R130, R381). -/
def HeaderOpen (f : List Byte) : Prop :=
  f.length < 4 ∨ isSkippable (le32 f 0) = true ∧ f.length < 8 ∨ le32 f 0 = magicLz4 ∧ f.length < headerLength (byteAt f 4)

theorem checkHeader_ne_truncated (f : List Byte) (hl pos : Nat) : checkHeader f hl ≠ .bad .truncated pos := by
  unfold checkHeader
  dsimp only
  split_ifs <;> simp

theorem not_isSkippable_magicLz4 : isSkippable magicLz4 = false := by decide

theorem parseHeader_of_magic {f : List Byte} (h4 : 4 ≤ f.length) (hm : le32 f 0 = magicLz4) : parseHeader f =
    if f.length < headerLength (byteAt f 4) then .bad .truncated f.length
    else checkHeader f (headerLength (byteAt f 4)) := by
  have hHL := seven_le_headerLength (byteAt f 4)
  simp only [parseHeader, if_neg (Nat.not_lt.mpr h4), hm, not_isSkippable_magicLz4, ne_eq, not_true_eq_false,
    Bool.false_eq_true, if_false]
  by_cases h5 : f.length < 5
  · rw [if_pos h5, if_pos (by omega)]
  · rw [if_neg h5]

theorem parseHeader_eq_truncated_iff (f : List Byte) : parseHeader f = .bad .truncated f.length ↔ HeaderOpen f := by
  unfold HeaderOpen
  by_cases h4 : f.length < 4
  · simp [parseHeader, h4]
  by_cases hm : le32 f 0 = magicLz4
  · rw [parseHeader_of_magic (by omega) hm]
    simp [h4, hm, not_isSkippable_magicLz4, checkHeader_ne_truncated]
  · by_cases hs : isSkippable (le32 f 0) = true <;> simp [parseHeader, h4, hs, hm]

theorem HeaderOpen.of_append {f g : List Byte} (h : HeaderOpen (f ++ g)) : HeaderOpen f := by
  unfold HeaderOpen at *
  by_cases h4 : f.length < 4
  · exact .inl h4
  rw [le32_append_left (by omega), List.length_append] at h
  refine .inr (h.resolve_left (by omega) |>.imp (.imp_right (by omega)) (.imp_right fun hlen => ?_))
  have hHL := seven_le_headerLength (byteAt f 4)
  by_cases h5 : f.length < 5
  · omega
  · rw [byteAt_append_left (by omega)] at hlen
    omega

/-! ## One byte of an element -/

/-- A byte that is only collected (rule R386). -/
theorem frameLoop_of_goOn {rules : FrameRules} {cap : Nat} {b : Byte} {r : FrameRun} {c : FDecomp} (hp : r.ctx.pending = [])
    (hs : r.ctx.stage ≠ .ended) (hf : r.ctx.feed rules b = c.goOn) (bs : List Byte) :
    frameLoop rules cap (b :: bs) r = frameLoop rules cap bs { r with ctx := c, used := r.used + 1 } := by
  have heat : r.eat rules b = ({ r with ctx := c, used := r.used + 1 }, none) := by
    rw [FrameRun.eat, hf]
    rfl
  rw [frameLoop_cons hp hs, heat]

/-- The last byte of an element that leaves no output waiting (rule R385). -/
theorem frameLoop_singleton {rules : FrameRules} {cap : Nat} {b : Byte} {r : FrameRun} (hp : r.ctx.pending = [])
    (hs : r.ctx.stage ≠ .ended) (hf : (r.ctx.feed rules b).ctx.pending = []) :
    frameLoop rules cap [b] r = r.eat rules b := by
  rw [frameLoop_cons hp hs]
  rcases heat : r.eat rules b with ⟨r', _ | e⟩
  · have hr' : r'.ctx = (r.ctx.feed rules b).ctx := congrArg (fun x => x.1.ctx) heat.symm
    exact frameLoop_nil_of_empty (by rw [hr', hf]) rules cap
  · rfl

/-! ## The bytes of a header element -/

theorem FDecomp.feed_hdr {c : FDecomp} (hs : c.stage = .hdr) (rules : FrameRules) (b : Byte) :
    c.feed rules b = FDecomp.feedHdr { c with acc := c.acc ++ [b], fpos := c.fpos + 1 } := by
  simp [FDecomp.feed, FDecomp.tick, hs]

/-- Where the magic number is incomplete or a legal one, stage HDR goes by the verdict of ParseHeader (rule R387). -/
theorem FDecomp.feedHdr_of_legal_magic {c : FDecomp} (h : c.acc.length < 4 ∨ isSkippable (le32 c.acc 0) = true ∨
    le32 c.acc 0 = magicLz4) : c.feedHdr =
      match parseHeader c.acc with
      | .bad .truncated _ => c.goOn
      | .bad d pos => { c with acc := [] }.fail d pos
      | .ok i hl => { ctx := { c with acc := [] }.headerDone i, header := some (i, hl), error := none } := by
  have hmagic : ¬(4 ≤ c.acc.length ∧ le32 c.acc 0 ≠ magicLz4 ∧ ¬isSkippable (le32 c.acc 0)) := by
    rintro ⟨hlen, hne, hns⟩
    obtain h | h | h := h
    · omega
    · exact hns h
    · exact hne h
  rw [FDecomp.feedHdr]
  exact if_neg hmagic

/-- Stage HDR collects a byte of a header that stays open (rule R387). -/
theorem FDecomp.feedHdr_of_open {c : FDecomp} (h : HeaderOpen c.acc) : c.feedHdr = c.goOn := by
  rw [FDecomp.feedHdr_of_legal_magic (h.imp_right (.imp And.left And.left)), (parseHeader_eq_truncated_iff c.acc).mpr h]

theorem FDecomp.headerDone_of_skippable (c : FDecomp) {i : FrameInfo} (h : i.skippable = true) : c.headerDone i =
    { c with
      info := i
      skipLeft := i.skip
      stage := if i.skip = 0 then .ended else .skip
      dstate := if i.skip = 0 then .complete else .frameInfoKnown } := by
  simp only [FDecomp.headerDone, h, if_true]
  split_ifs <;> rfl

theorem FDecomp.headerDone_of_frame (c : FDecomp) {i : FrameInfo} (h : i.skippable = false) : c.headerDone i =
    { c with info := i, dstate := .frameInfoKnown, hist := c.dict, total := 0, content := [], stage := .blkHdr } := by
  simp only [FDecomp.headerDone, h, Bool.false_eq_true, if_false]

theorem FDecomp.headerDone_pending (c : FDecomp) (i : FrameInfo) : (c.headerDone i).pending = c.pending := by
  cases h : i.skippable
  · rw [FDecomp.headerDone_of_frame c h]
  · rw [FDecomp.headerDone_of_skippable c h]

theorem FDecomp.feedHdr_pending (c : FDecomp) : c.feedHdr.ctx.pending = c.pending := by
  unfold FDecomp.feedHdr
  split
  · rfl
  · split
    · rfl
    · rfl
    · exact FDecomp.headerDone_pending _ _

/-- The working registers once the bytes `bs` are collected into the header (rule R387). -/
def FrameRun.collected (r : FrameRun) (bs : List Byte) : FrameRun :=
  { r with
    ctx := { r.ctx with acc := r.ctx.acc ++ bs, fpos := r.ctx.fpos + bs.length }
    used := r.used + bs.length }

@[simp] theorem FrameRun.collected_stage (r : FrameRun) (bs : List Byte) : (r.collected bs).ctx.stage = r.ctx.stage := rfl

@[simp] theorem FrameRun.collected_pending (r : FrameRun) (bs : List Byte) :
    (r.collected bs).ctx.pending = r.ctx.pending := rfl

theorem frameLoop_of_open {rules : FrameRules} {cap : Nat} {bs : List Byte} {r : FrameRun} (hp : r.ctx.pending = [])
    (hs : r.ctx.stage = .hdr) (ho : HeaderOpen (r.ctx.acc ++ bs)) (ys : List Byte) :
    frameLoop rules cap (bs ++ ys) r = frameLoop rules cap ys (r.collected bs) := by
  induction bs generalizing r with
  | nil => simp [FrameRun.collected]
  | cons b bs ih =>
    rw [List.append_cons] at ho
    have hfeed : r.ctx.feed rules b = (r.collected [b]).ctx.goOn := by
      rw [FDecomp.feed_hdr hs, FDecomp.feedHdr_of_open ho.of_append]
      rfl
    rw [List.cons_append, frameLoop_of_goOn hp (by simp [hs]) hfeed]
    refine (ih (r := r.collected [b]) hp hs ho).trans ?_
    simp [FrameRun.collected, Nat.add_assoc, Nat.add_comm 1]

section

variable {s : State} {h : BitVec 8} {rest : List Byte} {cap : Nat} {run : FrameRun}

/-- The bytes of an element, by what the loop answers on them (rule R385). -/
theorem State.frameElement_of_loop (hw : s.work = .frame h rest cap run none) {bytes : List Byte} {n : Nat} {c : FDecomp}
    {info : Info} {e : Option (Detail × Nat)}
    (hloop : frameLoop s.frameRules cap bytes run = ({ ctx := c, info := info, used := run.used + n, out := run.out }, e)) :
    s.frameElement bytes = .next (s.afterElement h rest cap run n c info e) := by
  rw [State.frameElement_eq hw, hloop]
  simp only [Nat.add_sub_cancel_left]
  rfl

/-- A header element that leaves the header open is collected (rule R387). -/
theorem State.frameElement_of_open (hw : s.work = .frame h rest cap run none) (hp : run.ctx.pending = [])
    (hs : run.ctx.stage = .hdr) {acc bytes : List Byte} (hacc : run.ctx.acc = acc) (ho : HeaderOpen (acc ++ bytes)) :
    s.frameElement bytes = .next (s.afterElement h rest cap run bytes.length
      { run.ctx with acc := acc ++ bytes, fpos := run.ctx.fpos + bytes.length } run.info none) := by
  subst hacc
  refine State.frameElement_of_loop hw ?_
  rw [← List.append_nil bytes, frameLoop_of_open hp hs ho, List.append_nil]
  exact frameLoop_nil_of_empty (r := run.collected bytes) hp _ _

/-- A header element whose last byte may end the header (rule R387). -/
theorem State.frameElement_of_lastByte (hw : s.work = .frame h rest cap run none) (hp : run.ctx.pending = [])
    (hs : run.ctx.stage = .hdr) {acc bytes : List Byte} (hacc : run.ctx.acc = acc) (hne : bytes ≠ [])
    (ho : HeaderOpen (acc ++ bytes.dropLast)) {f : FeedResult}
    (hf : FDecomp.feedHdr { run.ctx with acc := acc ++ bytes, fpos := run.ctx.fpos + bytes.length } = f) :
    s.frameElement bytes = .next (s.afterElement h rest cap run bytes.length f.ctx
      (match f.header with
        | some (i, n) => setInfo i n
        | none => run.info) f.error) := by
  subst hacc
  obtain ⟨bs, b, rfl⟩ := (List.eq_nil_or_concat' bytes).resolve_left hne
  rw [List.dropLast_concat] at ho
  have hfeed : (run.collected bs).ctx.feed s.frameRules b = f := by
    rw [FDecomp.feed_hdr ((run.collected_stage bs).trans hs), ← hf]
    simp only [FrameRun.collected, List.append_assoc, List.length_append, List.length_singleton, Nat.add_assoc]
  have hpending : f.ctx.pending = [] := by
    rw [← hf, FDecomp.feedHdr_pending]
    exact hp
  refine State.frameElement_of_loop hw ?_
  rw [frameLoop_of_open hp hs ho, frameLoop_singleton ((run.collected_pending bs).trans hp) (by simp [hs])
    (by rw [hfeed, hpending]), FrameRun.eat, hfeed, List.length_append]
  rfl

end

/-! ## The verdict on a complete header -/

theorem parseHeader_of_skippable {f : List Byte} (h8 : 8 ≤ f.length) (hs : isSkippable (le32 f 0) = true) :
    parseHeader f = .ok (skippableInfo (le32 f 4)) 8 := by
  simp only [parseHeader, if_neg (show ¬f.length < 4 by omega), hs, if_true, if_neg (Nat.not_lt.mpr h8)]

/-- All 16 skippable magic numbers are recognised (rules R130, R381). -/
theorem isSkippable_add (x : BitVec 4) : isSkippable (magicSkippable + x.toNat) = true := by
  have := x.isLt
  simp only [isSkippable, magicSkippable, beq_iff_eq]
  omega

/-- The INFO registers of a skippable frame (rules R43, R384). -/
theorem setInfo_skippable (size : Word) : setInfo (skippableInfo size.toNat) 8 =
    { flags := 0x10000, blockSize := 0, csizeLo := size, csizeHi := 0, dictId := 0, hdrLen := 8 } := by
  have hhi : size.toNat / 4294967296 = 0 := Nat.div_eq_of_lt size.isLt
  simp [setInfo, skippableInfo, FrameInfo.flagsWord, flagNat, Config.blockMax, hhi]

/-! ## The magic numbers -/

/-- The legacy magic is refused at its last byte (rules R131, R387). -/
theorem FDecomp.feedHdr_legacyMagic {c : FDecomp} (h : c.acc = bytesLE 4 magicLegacy) : c.feedHdr = c.fail .badMagic 0 := by
  rw [FDecomp.feedHdr, h, if_pos (by decide)]

theorem le32_skippableMagic (x : BitVec 4) (ys : List Byte) :
    le32 (bytesLE 4 (magicSkippable + x.toNat) ++ ys) 0 = magicSkippable + x.toNat :=
  le32_bytesLE_append (by have := x.isLt; simp only [magicSkippable]; omega) ys

/-- The size word ends the header of a skippable frame (rules R130, R387). -/
theorem FDecomp.feedHdr_skippable {c : FDecomp} {x : BitVec 4} {size : Word}
    (h : c.acc = bytesLE 4 (magicSkippable + x.toNat) ++ wordBytes size) : c.feedHdr =
      { ctx := FDecomp.headerDone { c with acc := [] } (skippableInfo size.toNat)
        header := some (skippableInfo size.toNat, 8)
        error := none } := by
  have hskip : isSkippable (le32 c.acc 0) = true := by rw [h, le32_skippableMagic, isSkippable_add]
  have hsize : le32 c.acc 4 = size.toNat := by
    rw [h, le32, List.drop_left' (length_bytesLE ..), List.take_of_length_le (by simp [wordBytes]), leNat_wordBytes]
  rw [FDecomp.feedHdr_of_legal_magic (.inr (.inl hskip)), parseHeader_of_skippable (by simp [h, wordBytes]) hskip, hsize]

/-- The header of a skippable frame is open until the last byte of its size (rule R130). -/
theorem headerOpen_skippable (x : BitVec 4) (size : Word) :
    HeaderOpen (bytesLE 4 (magicSkippable + x.toNat) ++ wordBytes size).dropLast := by
  rw [List.dropLast_append_of_ne_nil (by simp [wordBytes, bytesLE])]
  refine .inr (.inl ⟨?_, by simp [wordBytes]⟩)
  rw [le32_skippableMagic, isSkippable_add]

/-- Settles O51: the magic of an LZ4 frame leaves the header open, the skippable magic does so until the last byte of its
size, and the legacy one is refused at its last byte. -/
theorem magicElements : Obligations.MagicElements := by
  intro s h rest cap run hw hp hs hacc
  refine ⟨?_, ?_, fun x size => ?_⟩
  · have ho : HeaderOpen (encode .frameMagic) := .inr (.inr (by decide))
    exact State.frameElement_of_open hw hp hs hacc ho
  · have ho : HeaderOpen (encode .legacyMagicRefused).dropLast := .inl (by decide)
    exact State.frameElement_of_lastByte (bytes := encode .legacyMagicRefused) hw hp hs hacc (by decide) ho
      (FDecomp.feedHdr_legacyMagic rfl)
  · have hne : encode (.skippableMagic x size) ≠ [] := by simp [encode, wordBytes, bytesLE]
    have helem := State.frameElement_of_lastByte hw hp hs hacc hne (headerOpen_skippable x size)
      (FDecomp.feedHdr_skippable rfl)
    rw [FDecomp.headerDone_of_skippable _ rfl] at helem
    simp only [setInfo_skippable] at helem
    exact helem

/-! ## The header fields -/

/-- The header of an LZ4 frame is open while its length is below what its FLG byte gives (rule R121). -/
theorem headerOpen_of_magic {f g : List Byte} (h4 : 4 ≤ f.length) (hm : le32 f 0 = magicLz4)
    (hlen : (f ++ g).length < headerLength (byteAt (f ++ g) 4)) : HeaderOpen (f ++ g) :=
  .inr (.inr ⟨by rw [le32_append_left h4, hm], hlen⟩)

theorem skippable_of_checkHeader {f : List Byte} {hl n : Nat} {i : FrameInfo} (h : checkHeader f hl = .ok i n) :
    i.skippable = false := by
  unfold checkHeader at h
  dsimp only at h
  split_ifs at h
  cases h
  rfl

/-- Stage HDR at the last byte of an LZ4 frame's header takes the verdict of ParseHeader (rule R387). -/
theorem FDecomp.feedHdr_of_complete {c : FDecomp} (h4 : 4 ≤ c.acc.length) (hm : le32 c.acc 0 = magicLz4)
    (hlen : c.acc.length = headerLength (byteAt c.acc 4)) : c.feedHdr =
      match parseHeader c.acc with
      | .bad d pos => { ctx := { c with acc := [], dstate := .failed }, header := none, error := some (d, pos) }
      | .ok i n =>
        { ctx := { c with
            acc := []
            info := i
            hist := c.dict
            total := 0
            content := []
            stage := .blkHdr
            dstate := .frameInfoKnown }
          header := some (i, n)
          error := none } := by
  rw [FDecomp.feedHdr_of_legal_magic (.inr (.inr hm)), parseHeader_of_magic h4 hm, if_neg (by omega)]
  cases hcheck : checkHeader c.acc (headerLength (byteAt c.acc 4)) with
  | bad d pos =>
    cases d with
    | truncated => exact absurd hcheck (checkHeader_ne_truncated _ _ pos)
    | _ => rfl
  | ok i n =>
    dsimp only
    rw [FDecomp.headerDone_of_frame _ (skippable_of_checkHeader hcheck)]

/-- Settles O52: FLG, BD, the content size and the dictionary ID leave the header open, and HC brings it to its length, where
ParseHeader gives the verdict. -/
theorem headerFieldElements : Obligations.HeaderFieldElements := by
  intro s h rest cap run hw hp hs h4 hm c flg hl
  replace hm : le32 c.acc 0 = magicLz4 := hm
  have hcollect : ∀ bytes : List Byte, (c.acc ++ bytes).length < headerLength (byteAt (c.acc ++ bytes) 4) →
      s.frameElement bytes = .next (s.afterElement h rest cap run bytes.length
        { c with acc := c.acc ++ bytes, fpos := c.fpos + bytes.length } run.info none) := fun bytes hlen =>
    State.frameElement_of_open hw hp hs rfl (headerOpen_of_magic h4 hm hlen)
  have hHL : ∀ bytes : List Byte, 5 ≤ c.acc.length → headerLength (byteAt (c.acc ++ bytes) 4) = hl := fun bytes h5 => by
    rw [byteAt_append_left h5, headerLength_eq]
  refine ⟨fun v i b k q r d hlen => ?_, fun r7 bsid low hlen => ?_, fun size hlen hflag => ?_, fun ident hlen hflag => ?_,
    fun v h6 hlen => ?_⟩
  · refine hcollect [flgByte v i b k q r d] ?_
    have := seven_le_headerLength (byteAt (c.acc ++ [flgByte v i b k q r d]) 4)
    rw [List.length_append, List.length_singleton]
    omega
  · refine hcollect [bdByte r7 bsid low] ?_
    have := seven_le_headerLength (byteAt (c.acc ++ [bdByte r7 bsid low]) 4)
    rw [List.length_append, List.length_singleton]
    omega
  · refine hcollect (bytesLE 8 size.toNat) ?_
    rw [hHL _ (by omega), List.length_append, length_bytesLE]
    omega
  · refine hcollect (bytesLE 4 ident.toNat) ?_
    rw [hHL _ (by omega), List.length_append, length_bytesLE]
    omega
  · have h5 : 5 ≤ c.acc.length := by omega
    have ho : HeaderOpen (c.acc ++ [v].dropLast) := headerOpen_of_magic h4 hm (by
      rw [hHL _ h5, List.length_append, List.dropLast_singleton, List.length_nil]
      omega)
    have helem := State.frameElement_of_lastByte hw hp hs rfl (by simp) ho
      (FDecomp.feedHdr_of_complete (by simp; omega) ((le32_append_left h4 [v]).trans hm)
        ((List.length_append ..).trans (hlen.trans (hHL [v] h5).symm)))
    refine helem.trans ?_
    dsimp only
    cases parseHeader (c.acc ++ [v]) <;> rfl

end Sys2Proof.Machine
end

section
/-!
PROOF. The header the frame compressor writes, from numbers and back through ParseHeader (rules R121, R341, R381, R399 (a)).
-/

namespace Sys2Proof.Machine

/-! ## The fields of a header byte -/

theorem flgByte_fields (v : BitVec 2) (i b s c r d : Bool) :
    (flgByte v i b s c r d).extractLsb' 6 2 = v ∧ (flgByte v i b s c r d).getLsbD 5 = i
    ∧ (flgByte v i b s c r d).getLsbD 4 = b ∧ (flgByte v i b s c r d).getLsbD 3 = s
    ∧ (flgByte v i b s c r d).getLsbD 2 = c ∧ (flgByte v i b s c r d).getLsbD 1 = r
    ∧ (flgByte v i b s c r d).getLsbD 0 = d := by
  revert v i b s c r d
  decide

theorem bdByte_fields (r : Bool) (bsid : BitVec 3) (low : BitVec 4) :
    (bdByte r bsid low).getLsbD 7 = r ∧ (bdByte r bsid low).extractLsb' 4 3 = bsid ∧ loNibble (bdByte r bsid low) = low := by
  revert r bsid low
  decide

/-! ## The header from numbers -/

theorem headerChecksum_eq (bs : List Byte) : headerChecksum bs = byteOf ((xxh32 bs).toNat / 256 % 256) := by
  apply BitVec.eq_of_toNat_eq
  rw [headerChecksum, byteOf, BitVec.extractLsb'_toNat, Nat.shiftRight_eq_div_pow, BitVec.toNat_ofNat, Nat.mod_mod]

theorem flgByte_eq_byteOf (i b s c : Bool) :
    flgByte 1 i b s c false false = byteOf (0x40 + 32 * flagNat i + 16 * flagNat b + 8 * flagNat s + 4 * flagNat c) := by
  revert i b s c
  decide

theorem bdByte_eq_byteOf {n : Nat} (h : n < 8) : bdByte false (BitVec.ofNat 3 n) 0 = byteOf (16 * n) := by
  revert n
  decide

/-- The header FRAME_BEGIN writes is that of rule R341. -/
theorem Prefs.header_eq_specHeader {p : Prefs} (h : p.bsid < 8) : p.header = p.specHeader := by
  simp only [Prefs.header, Prefs.specHeader, headerChecksum_eq, Prefs.headerBody, Prefs.flg, flgByte_eq_byteOf,
    bdByte_eq_byteOf h]
  rfl

/-! ## The header parses back -/

theorem bsidOk_iff (n : Nat) : bsidOk n = true ↔ 4 ≤ n ∧ n ≤ 7 := by simp [bsidOk]

theorem Prefs.length_headerBody (p : Prefs) : p.headerBody.length = if p.csize = 0 then 2 else 10 := by
  rw [Prefs.headerBody]
  split <;> simp

theorem Prefs.length_header (p : Prefs) : p.header.length = p.headerBody.length + 5 := by
  simp only [Prefs.header, List.length_append, length_bytesLE, List.length_singleton]
  omega

theorem Prefs.headerLength_flg (p : Prefs) : headerLength p.flg = p.header.length := by
  obtain ⟨-, -, -, hs, -, -, hd⟩ := flgByte_fields 1 p.indep p.bcrc (p.csize != 0) p.ccrc false false
  rw [headerLength, Prefs.flg, hs, hd, p.length_header, p.length_headerBody]
  by_cases h : p.csize = 0 <;> simp [h, flagNat]

theorem Prefs.byteAt_header_flg (p : Prefs) (rest : List Byte) : byteAt (p.header ++ rest) 4 = p.flg := rfl

theorem Prefs.byteAt_header_bd (p : Prefs) (rest : List Byte) :
    byteAt (p.header ++ rest) 5 = bdByte false (BitVec.ofNat 3 p.bsid) 0 := rfl

theorem Prefs.drop_header (p : Prefs) (rest : List Byte) :
    (p.header ++ rest).drop 4 = p.headerBody ++ headerChecksum p.headerBody :: rest := by
  simp only [Prefs.header, List.append_assoc, List.singleton_append]
  exact List.drop_left' (length_bytesLE ..)

theorem Prefs.le64_header {p : Prefs} (h0 : p.csize ≠ 0) (hcsize : p.csize < 2 ^ 64) (rest : List Byte) :
    le64 (p.header ++ rest) 6 = p.csize := by
  have hdrop : (p.header ++ rest).drop 6 = bytesLE 8 p.csize ++ headerChecksum p.headerBody :: rest := by
    rw [← List.drop_drop (i := 2) (j := 4), p.drop_header, Prefs.headerBody, if_neg h0]
    rfl
  rw [le64, hdrop, List.take_left' (length_bytesLE ..), leNat_bytesLE]
  exact Nat.mod_eq_of_lt hcsize

/-- The checks of rule R382 pass on a header the compressor writes. -/
theorem Prefs.checkHeader_header {p : Prefs} (hbsid : bsidOk p.bsid = true) (rest : List Byte) :
    checkHeader (p.header ++ rest) p.header.length = .ok (frameInfoOf (p.header ++ rest)) p.header.length := by
  obtain ⟨hge, hle⟩ := (bsidOk_iff p.bsid).mp hbsid
  have hbody : ((p.header ++ rest).drop 4).take (p.header.length - 1 - 4) = p.headerBody := by
    rw [p.drop_header, List.take_left' (by rw [p.length_header]; omega)]
  have hhc : byteAt (p.header ++ rest) (p.header.length - 1) = headerChecksum p.headerBody := by
    have hlen : p.header.length - 1 = 4 + p.headerBody.length := by
      rw [p.length_header]
      omega
    refine byteAt_of_drop (t := rest) ?_
    rw [hlen, ← List.drop_drop, p.drop_header, List.drop_left]
  obtain ⟨hv, -, -, -, -, hr, -⟩ := flgByte_fields 1 p.indep p.bcrc (p.csize != 0) p.ccrc false false
  obtain ⟨hr7, hid, hlow⟩ := bdByte_fields false (BitVec.ofNat 3 p.bsid) 0
  have hn : ¬(BitVec.ofNat 3 p.bsid).toNat < 4 := by
    rw [BitVec.toNat_ofNat]
    omega
  simp only [checkHeader, Prefs.byteAt_header_flg, Prefs.byteAt_header_bd, hbody, hhc, Prefs.flg, hv, hr, hr7, hid, hlow, hn]
  simp

theorem Prefs.frameInfoOf_header {p : Prefs} (hbsid : bsidOk p.bsid = true) (hcsize : p.csize < 2 ^ 64) (rest : List Byte) :
    frameInfoOf (p.header ++ rest) =
      { skippable := false
        indep := p.indep
        bcrc := p.bcrc
        csflag := p.csize != 0
        ccrc := p.ccrc
        dflag := false
        bsid := p.bsid
        csize := p.csize
        dictid := 0
        skip := 0 } := by
  obtain ⟨hge, hle⟩ := (bsidOk_iff p.bsid).mp hbsid
  obtain ⟨-, hi, hb, hs, hc, -, hd⟩ := flgByte_fields 1 p.indep p.bcrc (p.csize != 0) p.ccrc false false
  obtain ⟨-, hid, -⟩ := bdByte_fields false (BitVec.ofNat 3 p.bsid) 0
  have hn : (BitVec.ofNat 3 p.bsid).toNat = p.bsid := by
    rw [BitVec.toNat_ofNat]
    omega
  have hsize : (if (p.csize != 0) = true then le64 (p.header ++ rest) 6 else 0) = p.csize := by
    by_cases h0 : p.csize = 0
    · simp [h0]
    · rw [if_pos (by simpa using h0), p.le64_header h0 hcsize]
  simp only [frameInfoOf, Prefs.byteAt_header_flg, Prefs.byteAt_header_bd, Prefs.flg, hi, hb, hs, hc, hd, hid, hn, hsize]
  simp

/-- Settles O43: a written header passes every check, and each field reads back what it was written from. -/
theorem frameHeaderParsesBack : Obligations.FrameHeaderParsesBack := by
  intro p rest hbsid hcsize
  rw [← Prefs.header_eq_specHeader (Nat.lt_succ_of_le ((bsidOk_iff p.bsid).mp hbsid).2)]
  refine ⟨by rw [p.length_header, p.length_headerBody]; split <;> rfl, ?_⟩
  have hmagic : le32 (p.header ++ rest) 0 = magicLz4 := by
    simp only [Prefs.header, List.append_assoc]
    exact le32_bytesLE_append (by decide) _
  have hlen : headerLength (byteAt (p.header ++ rest) 4) = p.header.length := p.headerLength_flg
  rw [parseHeader_of_magic (by simp [Prefs.header]) hmagic, hlen, if_neg (by simp),
    Prefs.checkHeader_header hbsid, Prefs.frameInfoOf_header hbsid hcsize]

end Sys2Proof.Machine
end

section
/-!
PROOF. ILLEGAL_COMMAND, the encoding of length values, and the elements of a block that the length fields, the literals and the
legacy container are read by (rules R112, R113, R118, R150, R251, R256 to R259, R266).
-/

namespace Sys2Proof.Machine

/-- Settles O19: the command raises its error at once. -/
theorem illegalCommandResult : Obligations.IllegalCommandResult := fun _ _ _ _ hs => State.runsTo_of_raise hs rfl

/-- Settles O22: full bytes and a last one below 255 are the quotient and the remainder of the division by 255. -/
theorem lengthFieldEncoding : Obligations.LengthFieldEncoding := by
  intro v
  have hlong : 15 ≤ v →
      lenExtBytes v = List.replicate ((v - 15) / 255) 0xFF ++ [byteOf ((v - 15) % 255)] := fun h => if_neg (Nat.not_lt.mpr h)
  refine ⟨fun h => ⟨by rw [lenNibble, Nat.min_eq_left (by omega)], lenExtBytes_of_lt h⟩,
    fun h => ⟨(lenNibble_eq_15_iff v).mpr h, hlong h⟩, fun k b hb hv => ?_⟩
  have hlt : b.toNat < 255 := by
    have := b.isLt
    have : b.toNat ≠ 255 := fun h => hb (BitVec.eq_of_toNat_eq h)
    omega
  have hbyte : byteOf ((v - 15) % 255) = b := by
    rw [show (v - 15) % 255 = b.toNat by omega, byteOf, BitVec.ofNat_toNat, BitVec.setWidth_eq]
  rw [hlong (by omega), hbyte, show (v - 15) / 255 = k by omega]

/-! ## Where the engine stands in a block -/

section

variable {s : State} {o : BlockOwner} {p : BlockParser}

/-- Inside a block the engine's turn is the block decompressor's. -/
theorem State.engineTurn_of_block (hw : s.work = .block o p) : s.engineTurn = s.blockTurn o p := by
  rw [State.engineTurn, hw]

/-- A place that reads one byte finds none at the end of the block. -/
theorem decode_lenExt_of_end (h : p.src.length ≤ p.ip) : decode .lenExt (p.src.drop p.ip) = .error .tooShort := by
  rw [List.drop_of_length_le h]
  rfl

theorem decode_lenExt_of_lt (h : p.ip < p.src.length) :
    decode .lenExt (p.src.drop p.ip) = .ok (.lenExt (byteAt p.src p.ip), p.src.drop (p.ip + 1)) := by
  simp only [decode, takeBytes_drop 1 p.ip p.src h, Except.map, byteAt_take_drop _ _ 1 Nat.one_pos, List.drop_drop]

theorem BlockParser.fetch_lenExt_of_end (hp : p.phase = .litExt ∨ p.phase = .matchExt) (h : p.src.length ≤ p.ip) :
    p.fetch = some (.error (.truncated, p.ip)) := by
  obtain hp | hp := hp <;> simp only [BlockParser.fetch, hp, decode_lenExt_of_end h]

theorem BlockParser.fetch_lenExt_of_lt (hp : p.phase = .litExt ∨ p.phase = .matchExt) (h : p.ip < p.src.length) :
    p.fetch = some (.ok (.lenExt (byteAt p.src p.ip))) := by
  obtain hp | hp := hp <;> simp only [BlockParser.fetch, hp, decode_lenExt_of_lt h]

theorem execLenExt_of_litExt (hw : s.work = .block o p) (hp : p.phase = .litExt) (v : Byte) :
    exec (.lenExt v) s = .next { s with work := .block o (p.takeLitExt v) } := by
  simp only [exec, execLenExt, hw, hp]

theorem execLenExt_of_matchExt (hw : s.work = .block o p) (hp : p.phase = .matchExt) (v : Byte) :
    exec (.lenExt v) s = .next { s with work := .block o (p.takeMatchExt v) } := by
  simp only [exec, execLenExt, hw, hp]

end

/-- Settles O27: the fetch at a length extension, and the byte's effect on either length. -/
theorem lengthExtensionElement : Obligations.LengthExtensionElement := by
  intro s o p v hw
  refine ⟨fun hp => ?_, fun hp => execLenExt_of_litExt hw hp v, fun hp => ?_⟩
  · rw [State.engineTurn_of_block hw, State.blockTurn]
    refine ⟨fun hend => ?_, fun hlt => ?_⟩
    · rw [BlockParser.fetch_lenExt_of_end hp hend]
      rfl
    · rw [BlockParser.fetch_lenExt_of_lt hp hlt]
  · rw [execLenExt_of_matchExt hw hp]
    refine ⟨?_, fun hv hcap => ?_, fun hv hcap => ?_⟩
    · rintro rfl
      simp [BlockParser.takeMatchExt, ← hp]
    · rw [BlockParser.takeMatchExt, if_neg hv, BlockParser.copyMatch, if_pos hcap]
      rfl
    · rw [BlockParser.takeMatchExt, if_neg hv, BlockParser.copyMatch_of_le hcap]

/-! ## The end of a block -/

namespace BlockParser

/-- The verdict at the end of a block: the first match that breaks the tail rule, where STRICT_TAIL is set (rules R259,
R266). -/
def tailStatus (p : BlockParser) : Option (Detail × Nat) :=
  if p.strictTail then (p.marks.find? (badTail p.out.length)).map fun m => (.tailRule, m.tok) else none

theorem tailCheck_eq (p : BlockParser) : p.tailCheck = { p with phase := .ended p.tailStatus } := by
  cases hstrict : p.strictTail
  · simp only [tailCheck, tailStatus, hstrict, Bool.false_eq_true, if_false]
  · cases hfind : p.marks.find? (badTail p.out.length) <;>
      simp only [tailCheck, tailStatus, hstrict, hfind, if_true, Option.map_none, Option.map_some, fail]

theorem badTail_eq_false_iff (n : Nat) (m : Mark) : badTail n m = false ↔ m.start + 12 ≤ n ∧ m.stop + 5 ≤ n := by
  simp only [badTail, Bool.or_eq_false_iff, decide_eq_false_iff_not, Nat.not_lt]
  rfl

theorem badTail_iff (n : Nat) (m : Mark) : badTail n m = true ↔ n < m.start + 12 ∨ n < m.stop + 5 := by
  simp only [badTail, Bool.or_eq_true, decide_eq_true_eq]
  rfl

theorem tailStatus_eq_none {p : BlockParser} (h : p.strictTail = false ∨ ∀ m ∈ p.marks, badTail p.out.length m = false) :
    p.tailStatus = none := by
  obtain h | h := h
  · rw [tailStatus, h]
    rfl
  · rw [tailStatus, List.find?_eq_none.mpr (by simpa using h), Option.map_none, ite_self]

theorem tailStatus_eq_some {p : BlockParser} {m : Mark} {before after : List Mark} (hs : p.strictTail = true)
    (hmarks : p.marks = before ++ m :: after) (hbefore : ∀ x ∈ before, badTail p.out.length x = false)
    (hm : badTail p.out.length m = true) : p.tailStatus = some (.tailRule, m.tok) := by
  have hfind : p.marks.find? (badTail p.out.length) = some m := by
    rw [hmarks, List.find?_append, List.find?_eq_none.mpr (by simpa using hbefore), List.find?_cons_of_pos hm]
    rfl
  rw [tailStatus, if_pos hs, hfind]
  rfl

/-- Literals within the capacity (rules R258, R259). -/
theorem takeLiterals_of_le {p : BlockParser} {bs : List Byte} (h : p.out.length + bs.length ≤ p.cap) : p.takeLiterals bs =
    if p.ip + bs.length = p.src.length then BlockParser.tailCheck { p with out := p.out ++ bs, ip := p.ip + bs.length }
    else { p with out := p.out ++ bs, ip := p.ip + bs.length, phase := .offset } := if_neg (Nat.not_lt.mpr h)

end BlockParser

theorem execLiterals_of_literals {s : State} {o : BlockOwner} {p : BlockParser} (hw : s.work = .block o p)
    (hp : p.phase = .literals) (bs : List Byte) :
    exec (.literals bs) s = .next { s with work := .block o (p.takeLiterals bs) } := by
  simp only [exec, execLiterals, hw, hp]

/-- Settles O28: the two bounds checks, the copy, and at the end of the block the verdict of the tail rule. -/
theorem literalField : Obligations.LiteralField := by
  intro s o p hw hp hip
  have hturn : s.engineTurn = .next { s with work := .block o p.advance } := by
    rw [State.engineTurn_of_block hw, State.blockTurn_advance hw hip (by simp [hp])]
  refine ⟨fun hpast => ?_, fun hle => ?_, fun bs => ?_⟩
  · rw [hturn, BlockParser.advance, hp]
    dsimp only
    rw [if_pos hpast]
    rfl
  · rw [hturn, execLiterals_of_literals hw hp, BlockParser.advance, hp]
    dsimp only
    rw [if_neg (Nat.not_lt.mpr hle)]
  · rw [execLiterals_of_literals hw hp]
    refine ⟨fun hcap => ?_, fun hcap hne => ?_, fun hcap hend => ?_⟩
    · rw [BlockParser.takeLiterals, if_pos hcap]
      rfl
    · rw [BlockParser.takeLiterals_of_le hcap, if_neg hne]
    · rw [BlockParser.takeLiterals_of_le hcap, if_pos hend, BlockParser.tailCheck_eq]
      simp only [← List.length_append, ← BlockParser.badTail_eq_false_iff, ← BlockParser.badTail_iff]
      exact ⟨_, rfl, fun hok => BlockParser.tailStatus_eq_none hok,
        fun m before after hs hmarks hbefore hm => BlockParser.tailStatus_eq_some hs hmarks hbefore hm⟩

/-! ## The legacy size -/

section

variable {s : State} {src : List Byte} {cap : Nat} {size : Word}

theorem execLegacySize_of_error (hw : s.work = .legacy src cap) {e : Err} (he : legacySizeError size.toNat cap = some e) :
    exec (.legacySize size) s = s.finish (s.failure 0 e) := by
  simp only [exec, execLegacySize, hw, he]
  rfl

theorem execLegacySize_of_none (hw : s.work = .legacy src cap) (he : legacySizeError size.toNat cap = none) :
    exec (.legacySize size) s = .next { s with
      work := .block (.legacy size.toNat src.length)
        (BlockParser.start (src.drop 4) size.toNat [] s.params.strictTail) } := by
  simp only [exec, execLegacySize, hw, he]

end

/-- Settles O32: the two checks of the size in order, then the parser's start state. -/
theorem legacySizeElement : Obligations.LegacySizeElement := by
  intro s src cap size hs hw
  have hsize : size.toNat ≤ 0x7E000000 → ¬Config.maxInputSize < size.toNat := Nat.not_lt.mpr
  have hfail : ∀ e, legacySizeError size.toNat cap = some e → s.RunsTo (.legacySize size) (s.failure 0 e) := fun _ he =>
    State.runsTo_of_finish hs (execLegacySize_of_error hw he)
  refine ⟨fun hbig => hfail _ (if_pos hbig), fun hle hcap => hfail _ ?_, fun hle hcap => execLegacySize_of_none hw ?_⟩
  · rw [legacySizeError, if_neg (hsize hle), if_pos hcap]
  · rw [legacySizeError, if_neg (hsize hle), if_neg (Nat.not_lt.mpr hcap)]

end Sys2Proof.Machine
end

section
/-!
PROOF. PREFS and what FRAME_BEGIN does from its preferences on (rules R152, R340, R341, R342).
-/

namespace Sys2Proof.Machine

/-- The checks of rule R85 in order, for a command that uses the destination buffer only. -/
theorem State.firstError_destChecks (s : State) : firstError s.destChecks = s.bufferFault false true := by
  simp [firstError, State.destChecks, State.bufferFault, State.pastEnd]

theorem firstError_prefsChecks (bsid : BitVec 3) (r3 : Bool) (high : BitVec 24) : firstError (prefsChecks bsid r3 high) =
    if high ≠ 0 ∨ r3 = true ∨ bsid = 1 ∨ bsid = 2 ∨ bsid = 3 then some .badParam else none := by
  simp only [firstError, prefsChecks, Bool.or_eq_true, bne_iff_ne, beq_iff_eq, or_assoc]

/-- Any preferences word selects a block size ID of 3 bits (rule R340). -/
theorem bsid_prefsOf_lt (bsid : BitVec 3) (indep ccrc bcrc auto : Bool) (csize : Nat) :
    (prefsOf bsid indep ccrc bcrc auto csize).bsid < 8 := by
  have := bsid.isLt
  simp only [prefsOf, Config.defaultBsid]
  split <;> omega

/-- FRAME_BEGIN from its preferences on, in the order of rule R342. -/
theorem State.beginFrame_runsTo {s : State} (hs : s.undisturbed = true) {i : Instr} {h : BitVec 8} {p : Prefs}
    (hp : p.bsid < 8) (hexec : exec i s = s.beginFrame h p) : s.RunsTo i
      (match s.bufferFault false true with
      | some e => s.failure h e
      | none =>
        if s.dstCap < p.specHeader.length then s.failure h .capacityOutput
        else
          { s.success h with
            out := p.specHeader
            resultLen := p.specHeader.length
            slots := setSlot s.slots h (some (.fcomp { FComp.initial with prefs := p, fstate := .headerEmitted })) }) := by
  rw [State.beginFrame, firstError_append, s.firstError_destChecks, Prefs.header_eq_specHeader hp] at hexec
  cases hb : s.bufferFault false true with
  | some e =>
    rw [hb] at hexec
    exact State.runsTo_of_raise hs hexec
  | none =>
    rw [hb, Option.none_or] at hexec
    by_cases hcap : s.dstCap < p.specHeader.length
    · simp only [firstError, hcap, decide_true, if_true] at hexec ⊢
      exact State.runsTo_of_raise hs hexec
    · simp only [firstError, hcap, decide_false, Bool.false_eq_true, if_false] at hexec ⊢
      exact State.runsTo_of_finish hs hexec

/-- Settles O42: the check of the word, then FRAME_BEGIN from its preferences on. -/
theorem prefsElement : Obligations.PrefsElement := by
  intro h s bsid r3 indep ccrc bcrc auto high hs hw
  have hexec : exec (.prefs bsid r3 indep ccrc bcrc auto high) s
      = s.beginWithPrefs h bsid r3 indep ccrc bcrc auto high := by
    simp only [exec, execPrefs, hw]
  rw [State.beginWithPrefs, firstError_prefsChecks] at hexec
  dsimp only
  by_cases hbad : high ≠ 0 ∨ r3 = true ∨ bsid = 1 ∨ bsid = 2 ∨ bsid = 3
  · rw [if_pos hbad] at hexec ⊢
    exact State.runsTo_of_raise hs hexec
  · rw [if_neg hbad] at hexec ⊢
    exact State.beginFrame_runsTo hs (bsid_prefsOf_lt ..) hexec

end Sys2Proof.Machine
end

section
/-!
PROOF. The 4 bytes of a word collected by the frame decompressor, and the header words of block records (rules R127, R128,
R386, R389, R392, R400).
-/

namespace Sys2Proof.Machine

/-! ## The bytes of a word -/

/-- The stages that collect the 4 bytes of a word (rules R389, R391, R394). -/
def Stage.inWord (st : Stage) : Prop := st = .blkHdr ∨ st = .blkCrc ∨ st = .ccrc

theorem Stage.inWord.ne_ended {st : Stage} (h : st.inWord) : st ≠ .ended := by
  obtain rfl | rfl | rfl := h <;> decide

theorem DState.fed_fed (d : DState) : d.fed.fed = d.fed := by cases d <;> rfl

namespace FDecomp

theorem feed_blkHdr {c : FDecomp} (hs : c.stage = .blkHdr) (rules : FrameRules) (b : Byte) : c.feed rules b =
    feedBlkHdr rules c.fpos { c with dstate := c.dstate.fed, fpos := c.fpos + 1, acc := c.acc ++ [b] } := by
  simp [feed, tick, hs, DState.fed]

theorem feed_blkCrc {c : FDecomp} (hs : c.stage = .blkCrc) (rules : FrameRules) (b : Byte) : c.feed rules b =
    feedBlkCrc rules c.fpos { c with dstate := c.dstate.fed, fpos := c.fpos + 1, acc := c.acc ++ [b] } := by
  simp [feed, tick, hs, DState.fed]

theorem feed_ccrc {c : FDecomp} (hs : c.stage = .ccrc) (rules : FrameRules) (b : Byte) : c.feed rules b =
    feedCcrc c.fpos { c with dstate := c.dstate.fed, fpos := c.fpos + 1, acc := c.acc ++ [b] } := by
  simp [feed, tick, hs, DState.fed]

/-- A block header word is not read before its 4 bytes are there, and under rule R400 not from more than 4. -/
theorem feedBlkHdr_of_not_ready {rules : FrameRules} {c : FDecomp} (h : wordReady rules c.acc.length = false) (x : Nat) :
    c.feedBlkHdr rules x = c.goOn := by
  rw [feedBlkHdr, h]
  rfl

/-- The first three bytes of a word are collected (rules R389, R391, R394). -/
theorem feed_of_open_word {c : FDecomp} (hs : c.stage.inWord) (hlen : c.acc.length < 3) (rules : FrameRules) (b : Byte) :
    c.feed rules b = goOn { c with dstate := c.dstate.fed, fpos := c.fpos + 1, acc := c.acc ++ [b] } := by
  have hne : (c.acc ++ [b]).length ≠ 4 := by
    rw [List.length_append, List.length_singleton]
    omega
  obtain hs | hs | hs := hs
  · rw [feed_blkHdr hs]
    refine feedBlkHdr_of_not_ready ?_ _
    rw [wordReady_of_le (by simp; omega), beq_eq_false_iff_ne]
    exact hne
  · rw [feed_blkCrc hs, feedBlkCrc, if_neg hne]
  · rw [feed_ccrc hs, feedCcrc, if_neg hne]

/-- What a block header word of value `w` does, `x` the frame offset of its last byte (rules R389, R393). -/
def takeWord (rules : FrameRules) (x w : Nat) (c : FDecomp) : FeedResult :=
  if w = 0 then endMark { c with acc := [], boff := x - 3, bword := w }
  else blockHeader rules x { c with acc := [], boff := x - 3, bword := w }

theorem feedBlkHdr_of_ready {rules : FrameRules} {c : FDecomp} (h : wordReady rules c.acc.length = true) (x : Nat) :
    c.feedBlkHdr rules x = c.takeWord rules x (le32 c.acc 0) := by
  rw [feedBlkHdr, h]
  rfl

end FDecomp

/-- The working registers once the bytes `bs` of a word are collected (rule R386). -/
def FrameRun.collectedWord (r : FrameRun) (bs : List Byte) : FrameRun :=
  { r with
    ctx := { r.ctx with dstate := r.ctx.dstate.fed, fpos := r.ctx.fpos + bs.length, acc := r.ctx.acc ++ bs }
    used := r.used + bs.length }

@[simp] theorem FrameRun.collectedWord_stage (r : FrameRun) (bs : List Byte) :
    (r.collectedWord bs).ctx.stage = r.ctx.stage := rfl

@[simp] theorem FrameRun.collectedWord_pending (r : FrameRun) (bs : List Byte) :
    (r.collectedWord bs).ctx.pending = r.ctx.pending := rfl

section

variable {rules : FrameRules} {cap : Nat} {run : FrameRun}

/-- The loop over the bytes of a word before its last one. -/
theorem frameLoop_of_open_word {bs : List Byte} (hp : run.ctx.pending = []) (hs : run.ctx.stage.inWord) (hne : bs ≠ [])
    (hlen : (run.ctx.acc ++ bs).length < 4) (ys : List Byte) :
    frameLoop rules cap (bs ++ ys) run = frameLoop rules cap ys (run.collectedWord bs) := by
  induction bs generalizing run with
  | nil => exact absurd rfl hne
  | cons b bs ih =>
    rw [List.length_append, List.length_cons] at hlen
    have hstep : frameLoop rules cap (b :: (bs ++ ys)) run = frameLoop rules cap (bs ++ ys) (run.collectedWord [b]) :=
      frameLoop_of_goOn hp hs.ne_ended (FDecomp.feed_of_open_word hs (by omega) rules b) _
    rw [List.cons_append, hstep]
    by_cases hbs : bs = []
    · rw [hbs, List.nil_append]
    · rw [ih (run := run.collectedWord [b]) hp hs hbs (by simp [FrameRun.collectedWord]; omega)]
      simp [FrameRun.collectedWord, DState.fed_fed, Nat.add_assoc, Nat.add_comm 1]

/-- The loop over a block header word that leaves no output waiting (rule R389). -/
theorem frameLoop_of_blockWord (hp : run.ctx.pending = []) (hs : run.ctx.stage = .blkHdr) (hacc : run.ctx.acc = [])
    {w : Word} {c : FDecomp} {e : Option (Detail × Nat)}
    (hf : FDecomp.takeWord rules (run.ctx.fpos + 3) w.toNat
      { run.ctx with dstate := run.ctx.dstate.fed, fpos := run.ctx.fpos + 4 } = { ctx := c, header := none, error := e })
    (hpending : c.pending = []) :
    frameLoop rules cap (wordBytes w) run = ({ run with ctx := c, used := run.used + 4 }, e) := by
  have hlen : (wordBytes w).length = 4 := length_bytesLE ..
  have hw : le32 (wordBytes w) 0 = w.toNat := by
    rw [le32, List.drop_zero, List.take_of_length_le hlen.le, leNat_wordBytes]
  obtain ⟨bs, b, hbytes⟩ := (List.eq_nil_or_concat' (wordBytes w)).resolve_left fun h => by simp [h] at hlen
  rw [hbytes] at hlen hw ⊢
  have hbs : bs.length = 3 := by simpa using hlen
  have hfeed : (run.collectedWord bs).ctx.feed rules b = { ctx := c, header := none, error := e } := by
    rw [FDecomp.feed_blkHdr (c := (run.collectedWord bs).ctx) hs, FDecomp.feedBlkHdr_of_ready, ← hf]
    · simp only [FrameRun.collectedWord, hacc, List.nil_append, hbs, hw, DState.fed_fed]
      rfl
    · simp [FrameRun.collectedWord, hacc, hbs, FDecomp.wordReady]
  rw [frameLoop_of_open_word hp (.inl hs) (by rintro rfl; simp at hbs) (by simp [hacc, hbs]),
    frameLoop_singleton (r := run.collectedWord bs) hp (by simp [hs]) (by rw [hfeed, hpending]), FrameRun.eat, hfeed]
  simp only [FrameRun.collectedWord, hbs]

end

/-! ## The words of block records -/

theorem toNat_blockHeaderWord (stored : Bool) (len : BitVec 31) :
    (blockHeaderWord stored len).toNat = (if stored then 2 ^ 31 else 0) + len.toNat := by
  rw [blockHeaderWord, BitVec.toNat_append, ← Nat.shiftLeft_add_eq_or_of_lt len.isLt]
  cases stored <;> rfl

namespace FDecomp

variable {rules : FrameRules} {x w : Nat} {c : FDecomp}

/-- A length above BLOCK_MAX fails at the word's first byte (rule R389). -/
theorem takeWord_of_too_large (h : Config.blockMax c.info.bsid < w % 2 ^ 31) : c.takeWord rules x w =
    { ctx := { c with acc := [], boff := x - 3, bword := w, dstate := .failed }
      header := none
      error := some (.blockTooLarge, x - 3) } := by
  rw [takeWord, if_neg (by rintro rfl; simp at h), blockHeader]
  exact if_pos h

/-- A length from 1 on asks for the payload (rules R389, R390). -/
theorem takeWord_of_payload (hpos : 0 < w % 2 ^ 31) (hmax : w % 2 ^ 31 ≤ Config.blockMax c.info.bsid) :
    c.takeWord rules x w =
      goOn { c with acc := [], boff := x - 3, bword := w, poff := x + 1, payload := [], stage := .blkData } := by
  rw [takeWord, if_neg (by rintro rfl; simp at hpos), blockHeader]
  dsimp only
  rw [if_neg (Nat.not_lt.mpr hmax), if_pos hpos]

/-- A stored block of no bytes with a checksum (rules R389, R391). -/
theorem takeWord_of_empty_crc (hw : w = 2 ^ 31) (hcrc : c.info.bcrc = true) : c.takeWord rules x w =
    goOn { c with acc := [], boff := x - 3, bword := w, poff := x + 1, payload := [], stage := .blkCrc } := by
  subst hw
  rw [takeWord, if_neg (by decide), blockHeader]
  dsimp only
  rw [Nat.mod_self, if_neg (Nat.not_lt_zero _), if_neg (Nat.lt_irrefl 0), if_pos hcrc]

/-- A stored block of no bytes without a checksum is dispatched at once (rules R389, R392). -/
theorem takeWord_of_empty (hw : w = 2 ^ 31) (hcrc : c.info.bcrc = false) : c.takeWord rules x w =
    goOn (deliverBlock { c with acc := [], boff := x - 3, bword := w, poff := x + 1, payload := [] } []) := by
  subst hw
  rw [takeWord, if_neg (by decide), blockHeader]
  dsimp only
  rw [Nat.mod_self, if_neg (Nat.not_lt_zero _), if_neg (Nat.lt_irrefl 0), if_neg (by simp [hcrc]), processBlock,
    if_pos (Nat.le_refl _)]

/-- With 4 or more bytes collected, rule R389 reads the word from the first 4. -/
theorem feed_blkHdr_of_four_le (hs : c.stage = .blkHdr) (hlen : 4 ≤ c.acc.length) (hrules : rules.exactWord = false)
    (b : Byte) : c.feed rules b = feed rules { c with acc := c.acc.take 3 } (byteAt c.acc 3) := by
  have hword : le32 (c.acc ++ [b]) 0 = le32 (c.acc.take 3 ++ [byteAt c.acc 3]) 0 := by
    rw [le32_append_left hlen, take_append_byteAt (by omega), le32, le32, List.drop_zero, List.drop_zero, List.take_take]
    rfl
  have hfour : (c.acc.take 3 ++ [byteAt c.acc 3]).length = 4 := by
    rw [List.length_append, List.length_take_of_le (by omega), List.length_singleton]
  rw [feed_blkHdr hs, feed_blkHdr (c := { c with acc := c.acc.take 3 }) hs, feedBlkHdr_of_ready, feedBlkHdr_of_ready, hword]
  · rfl
  · rw [hfour, wordReady_of_le (Nat.le_refl 4)]
    rfl
  · rw [wordReady_of_lt (by simp; omega), hrules]
    rfl

end FDecomp

/-- A block header word that leaves no output waiting, as an element (rules R127, R389). -/
theorem State.frameElement_of_blockWord {s : State} {h : BitVec 8} {rest : List Byte} {cap : Nat} {run : FrameRun}
    (hw : s.work = .frame h rest cap run none) (hp : run.ctx.pending = []) (hs : run.ctx.stage = .blkHdr)
    (hacc : run.ctx.acc = []) {w : Word} {c : FDecomp} {e : Option (Detail × Nat)}
    (hf : FDecomp.takeWord s.frameRules (run.ctx.fpos + 3) w.toNat
      { run.ctx with dstate := run.ctx.dstate.fed, fpos := run.ctx.fpos + 4 } = { ctx := c, header := none, error := e })
    (hpending : c.pending = []) :
    s.frameElement (wordBytes w) = .next (s.afterElement h rest cap run 4 c run.info e) :=
  State.frameElement_of_loop hw (frameLoop_of_blockWord hp hs hacc hf hpending)

/-- The header word of a block of either kind: its bytes, its value and the length in it (rule R127). -/
theorem exists_blockWord {i : Instr} {len : BitVec 31} {n : Nat}
    (hi : (i = .blockStored len ∧ n = 2 ^ 31 + len.toNat) ∨ (i = .blockCompressed len ∧ n = len.toNat)) (s : State) :
    ∃ w : Word, exec i s = s.frameElement (wordBytes w) ∧ w.toNat = n ∧ n % 2 ^ 31 = len.toNat := by
  have hlt := len.isLt
  obtain ⟨rfl, rfl⟩ | ⟨rfl, rfl⟩ := hi
  · exact ⟨blockHeaderWord true len, rfl, toNat_blockHeaderWord true len, by omega⟩
  · exact ⟨blockHeaderWord false len, rfl, by simp [toNat_blockHeaderWord], by omega⟩

/-- Settles O53: bytes of a word are collected until it is read, and the word read goes by its length. -/
theorem blockWordElements : Obligations.BlockWordElements := by
  refine ⟨fun rules c b hs => ⟨fun hopen => ?_, fun hlen hrules => FDecomp.feed_blkHdr_of_four_le hs hlen hrules b⟩,
    fun s h rest cap run len hw hp hs hacc => ?_⟩
  · obtain hlen | ⟨hlen, hrules⟩ := hopen
    · exact FDecomp.feed_of_open_word (.inl hs) hlen rules b
    · rw [FDecomp.feed_blkHdr hs, FDecomp.feedBlkHdr_of_not_ready]
      · rfl
      · rw [FDecomp.wordReady_of_lt (by simp; omega), hrules]
        rfl
  · intro c word
    have helem : ∀ (w : Word) {c' : FDecomp} {e : Option (Detail × Nat)},
        FDecomp.takeWord s.frameRules (run.ctx.fpos + 3) w.toNat
          { c with dstate := c.dstate.fed, fpos := c.fpos + 4 } = { ctx := c', header := none, error := e } →
        c'.pending = [] → s.frameElement (wordBytes w) = .next (s.afterElement h rest cap run 4 c' run.info e) :=
      fun _ _ _ => State.frameElement_of_blockWord hw hp hs hacc
    have hword : len.toNat = 0 → (blockHeaderWord true len).toNat = 2 ^ 31 := fun hzero => by
      rw [toNat_blockHeaderWord, hzero, if_pos rfl, Nat.add_zero]
    refine ⟨fun i n hi hbig => ?_, fun i n hi hpos hmax => ?_, fun hzero hcrc => ?_, fun hzero hcrc => ?_⟩
    · obtain ⟨w, hexec, rfl, hn⟩ := exists_blockWord hi s
      rw [hexec, helem w (FDecomp.takeWord_of_too_large (hn ▸ hbig)) hp]
      simp [c, word, hacc]
    · obtain ⟨w, hexec, rfl, hn⟩ := exists_blockWord hi s
      rw [hexec, helem w (FDecomp.takeWord_of_payload (hn ▸ hpos) (hn ▸ hmax)) hp]
      simp [c, word, hacc]
    · refine (helem _ (FDecomp.takeWord_of_empty_crc (hword hzero) hcrc) hp).trans ?_
      simp [hword hzero, c, word, hacc]
    · refine (helem _ (FDecomp.takeWord_of_empty (hword hzero) hcrc) ((List.append_nil _).trans hp)).trans ?_
      simp [FDecomp.deliverBlock, lastWindow, lastK, Config.window, hword hzero, c, word, hacc, hs]

end Sys2Proof.Machine
end

section
/-!
PROOF. Where the positions in the compressor's table lie after a block, chunks through a pair of streams, and BOUND (rules R50,
R200, R201, R212, R221, R304 to R306).
-/

namespace Sys2Proof.Machine

/-! ## The table after a block -/

namespace Scan

/-- Match or not, a scan position enters the table, and the places of the input stay (rules R212, R216). -/
theorem advance_input (hash : Word → Nat) (c : Scan) :
    (c.advance hash).table = Table.set c.table (hash (hashInput c.buf c.pos)) (c.hstart + c.pos)
    ∧ (c.advance hash).hstart = c.hstart ∧ (c.advance hash).base = c.base ∧ (c.advance hash).len = c.len := by
  unfold advance
  dsimp only
  split <;> exact ⟨rfl, rfl, rfl, rfl⟩

/-- The input ends at the absolute position `stop`, and every position in the table lies before it (rules R46, R50). -/
structure TableBefore (stop : Nat) (c : Scan) : Prop where
  stop_eq : c.hstart + (c.base + c.len) = stop
  get_lt : ∀ h v, Table.get c.table h = some v → v < stop

theorem TableBefore.advance {stop : Nat} {hash : Word → Nat} {c : Scan} (ha : c.active = true) (h : c.TableBefore stop) :
    (c.advance hash).TableBefore stop := by
  obtain ⟨htable, hhstart, hbase, hlen⟩ := c.advance_input hash
  refine ⟨by rw [hhstart, hbase, hlen, h.stop_eq], fun k v hv => ?_⟩
  rw [htable, Table.get_set] at hv
  split at hv
  · obtain ⟨hlong, hpos⟩ := (active_iff c).mp ha
    have hstop := h.stop_eq
    cases hv
    simp only [plimit, Config.mfLimit] at *
    omega
  · exact h.get_lt k v hv

end Scan

/-- The table a block leaves holds no position past the block's input (rules R50, R221). -/
theorem lt_of_get_compressCore (hash : Word → Nat) {hist src : List Byte} {table : HashTable} {hstart : Nat}
    (hlisted : ∀ h v, Table.get table h = some v → v < hstart + hist.length) :
    ∀ h v, Table.get (compressCore hash hist src table hstart).2 h = some v → v < hstart + (hist.length + src.length) :=
  (Scan.run_induction (P := Scan.TableBefore _) (fun _ => Scan.TableBefore.advance (hash := hash)) (src.length + 1)
    ⟨rfl, fun h v hv => Nat.lt_of_lt_of_le (hlisted h v hv) (by simp only [Scan.start]; omega)⟩).get_lt

/-! ## Chunks through two streams -/

@[simp] theorem CStream.push_hist (c : CStream) (src : List Byte) (table : HashTable) :
    (c.push src table).hist = lastWindow (c.hist ++ src) := by rw [CStream.push]

@[simp] theorem CStream.push_spos (c : CStream) (src : List Byte) (table : HashTable) :
    (c.push src table).spos = c.spos + src.length := rfl

@[simp] theorem CStream.push_table (c : CStream) (src : List Byte) (table : HashTable) : (c.push src table).table = table := rfl

/-- A CSTREAM and a DSTREAM at the same place of one sequence of chunks: the same history, which ends at the CSTREAM's
position, and a table of earlier positions (rules R46, R47, R50, R51). -/
structure StreamsAgree (c : CStream) (d : DStream) : Prop where
  hist_eq : c.hist = d.hist
  length_hist_le : c.hist.length ≤ c.spos
  get_lt : ∀ h v, Table.get c.table h = some v → v < c.spos

/-- The position of the first byte of the history, the `hstart` of rule R221, counts up to the stream's position. -/
theorem StreamsAgree.hstart_add {c : CStream} {d : DStream} (h : StreamsAgree c d) :
    c.spos - c.hist.length + c.hist.length = c.spos := Nat.sub_add_cancel h.length_hist_le

/-- A chunk that goes through both streams leaves them agreeing (rules R304, R305). -/
theorem StreamsAgree.push {c : CStream} {d : DStream} (h : StreamsAgree c d) (hash : Word → Nat) (x : List Byte) :
    StreamsAgree (c.push x (compressCore hash c.hist x c.table (c.spos - c.hist.length)).2)
      { d with hist := lastWindow (d.hist ++ x) } where
  hist_eq := by rw [CStream.push_hist, h.hist_eq]
  length_hist_le := by
    have hwindow := length_lastWindow_le_length (c.hist ++ x)
    have hle := h.length_hist_le
    rw [List.length_append] at hwindow
    rw [CStream.push_hist, CStream.push_spos]
    omega
  get_lt := by
    have hlt := lt_of_get_compressCore hash (src := x) (h.hstart_add.symm ▸ h.get_lt)
    simpa only [CStream.push_table, CStream.push_spos, ← Nat.add_assoc, h.hstart_add] using hlt

/-- One chunk comes back where the streams agree (rules R222 (a), R306). -/
theorem StreamsAgree.blockDecode_compressCore {c : CStream} {d : DStream} (h : StreamsAgree c d) (hash : Word → Nat)
    (strictTail : Bool) {x : List Byte} {cap : Nat} (hcap : x.length ≤ cap) :
    blockDecode strictTail (compressCore hash c.hist x c.table (c.spos - c.hist.length)).1 cap d.hist = (x, none) :=
  h.hist_eq ▸ compressorRoundTrip hash strictTail c.hist x c.table (c.spos - c.hist.length) cap
    (h.hstart_add.symm ▸ h.get_lt) hcap

/-- Chunks come back where the streams agree (rule R306). -/
theorem StreamsAgree.decompressChunks_compressChunks (hash : Word → Nat) (strictTail : Bool) (cap : Nat)
    {chunks : List (List Byte)} {c : CStream} {d : DStream} (h : StreamsAgree c d)
    (hfit : ∀ x ∈ chunks, x.length ≤ d.blockSize ∧ x.length ≤ cap) :
    decompressChunks strictTail cap d (compressChunks hash c chunks) = some chunks := by
  induction chunks generalizing c d with
  | nil => rfl
  | cons x xs ih =>
    obtain ⟨⟨hblock, hcap⟩, hrest⟩ := List.forall_mem_cons.mp hfit
    have hchunk := h.blockDecode_compressCore hash strictTail (Nat.le_min.mpr ⟨hcap, hblock⟩)
    have htail := ih (h.push hash x) hrest
    simp only [compressChunks, decompressChunks, hchunk, htail, Option.map_some]

/-- Settles O40: each chunk comes back from a block compressed behind the same history, and leaves the two streams
agreeing for the next. -/
theorem streamEquivalence : Obligations.StreamEquivalence := fun hash strictTail cap _ _ _ hhist hspos hlisted hfit =>
  StreamsAgree.decompressChunks_compressChunks hash strictTail cap ⟨hhist, hspos, hlisted⟩ hfit

/-! ## BOUND -/

/-- The checks of BOUND (rule R201). -/
def State.boundChecks (s : State) (h : BitVec 8) (rsvd : BitVec 16) : List (Bool × Err) :=
  [rsvdCheck rsvd, noHandleCheck h, (decide (Config.maxInputSize < s.args.param0.toNat), .lengthTooLarge)]

theorem State.firstError_boundChecks (s : State) (h : BitVec 8) (rsvd : BitVec 16) :
    firstError (s.boundChecks h rsvd) =
      if rsvd ≠ 0 then some .badParam
      else if h ≠ 0 then some .badHandle
      else if 0x7E000000 < s.args.param0.toNat then some .lengthTooLarge
      else none := by
  simp only [State.boundChecks, firstError, rsvdCheck, noHandleCheck, bne_iff_ne, decide_eq_true_eq]
  rfl

theorem State.exec_bound_of_error {s : State} {h : BitVec 8} {rsvd : BitVec 16} {e : Err}
    (he : firstError (s.boundChecks h rsvd) = some e) : exec (.bound h rsvd) s = s.raise h e := by
  rw [State.boundChecks] at he
  simp only [exec, execBound, he]

theorem State.exec_bound_of_none {s : State} {h : BitVec 8} {rsvd : BitVec 16}
    (hn : firstError (s.boundChecks h rsvd) = none) :
    exec (.bound h rsvd) s = s.finish { s.success h with resultLen := bound s.args.param0.toNat } := by
  rw [State.boundChecks] at hn
  simp only [exec, execBound, hn]

/-- Settles O20: the first failing check, or the bound of a length that passes them all. -/
theorem boundResult : Obligations.BoundResult := by
  refine ⟨fun h rsvd s hs => ?_, fun n hn => by omega⟩
  have hchecks := s.firstError_boundChecks h rsvd
  dsimp only
  split_ifs at hchecks ⊢
  case neg => exact State.runsTo_of_finish hs (State.exec_bound_of_none hchecks)
  all_goals exact State.runsTo_of_raise hs (State.exec_bound_of_error hchecks)

end Sys2Proof.Machine
end

section
/-!
PROOF. The fetch and the elements TOKEN and OFFSET, the match copy byte by byte, and where the block decoder's parse can end
(rules R252 to R255, R260 to R269).
-/

namespace Sys2Proof.Machine

/-! ## The match copy, byte by byte -/

/-- The byte a growing window holds at its old end is the one just put there. -/
theorem byteAt_append_length (win : List Byte) (b : Byte) (bs : List Byte) : byteAt (win ++ b :: bs) win.length = b := by
  simp [byteAt]

/-- Settles O30: the first byte is read `off` places back, and the rest is the copy from the window grown by it. -/
theorem matchCopyIsPeriodic : Obligations.MatchCopyIsPeriodic := by
  intro win off ml hpos hwin
  refine ⟨length_matchBytes win off ml, fun k hk => ?_⟩
  induction ml generalizing win k with
  | zero => omega
  | succ ml ih =>
    cases k with
    | zero =>
      rw [matchBytes, Nat.add_zero, byteAt_append_length, byteAt_append_left (by omega)]
    | succ k =>
      have hrest := ih (win ++ [byteAt win (win.length - off)]) (by rw [List.length_append]; omega) k (by omega)
      rwa [List.length_append, List.length_singleton, ← List.append_cons, Nat.add_right_comm, Nat.add_assoc] at hrest

/-! ## Where a parse can end -/

/-- The details a block can fail with; TAIL_RULE only where STRICT_TAIL is set (rules R265, R266). -/
def BlockDetail (strictTail : Bool) (d : Detail) : Prop :=
  d ∈ [.truncated, .offsetZero, .offsetOutOfWindow, .literalPastSource, .outputOverflow]
    ∨ (d = .tailRule ∧ strictTail = true)

/-- A failing verdict rule R252 allows on a block of `n` bytes: one of the details, at an index inside the block, or at its
end for TRUNCATED. -/
structure VerdictInside (strictTail : Bool) (n : Nat) (e : Detail × Nat) : Prop where
  detail : BlockDetail strictTail e.1
  pos_le : e.2 ≤ n
  pos_lt : e.1 ≠ .truncated → e.2 < n

/-- TRUNCATED may stand at the end of the block. -/
theorem VerdictInside.truncated (strictTail : Bool) {n pos : Nat} (h : pos ≤ n) :
    VerdictInside strictTail n (.truncated, pos) :=
  ⟨by simp [BlockDetail], h, fun hne => absurd rfl hne⟩

/-- Every detail may stand at a byte of the block. -/
theorem VerdictInside.of_lt {strictTail : Bool} {n pos : Nat} {d : Detail} (h : pos < n) (hd : BlockDetail strictTail d) :
    VerdictInside strictTail n (d, pos) :=
  ⟨hd, Nat.le_of_lt h, fun _ => h⟩

namespace BlockParser

/-- On a block of `n` bytes, not empty, the parser's place is within the block, the tokens it remembers are bytes of it, and an
error it has ended with is one the block can end with (rules R252, R265, R266). -/
structure Inside (strictTail : Bool) (n : Nat) (p : BlockParser) : Prop where
  length_src : p.src.length = n
  strictTail_eq : p.strictTail = strictTail
  ip_le : p.ip ≤ n
  tok_lt : p.tok < n
  marks_lt : ∀ m ∈ p.marks, m.tok < n
  verdict : ∀ e, p.phase = .ended (some e) → VerdictInside strictTail n e

variable {strictTail : Bool} {n : Nat} {p : BlockParser}

theorem inside_start {src : List Byte} (h : 0 < src.length) (cap : Nat) (hist : List Byte) (strictTail : Bool) :
    (start src cap hist strictTail).Inside strictTail src.length where
  length_src := rfl
  strictTail_eq := rfl
  ip_le := Nat.zero_le _
  tok_lt := h
  marks_lt := by simp [start]
  verdict := by simp [start]

theorem Inside.fail (h : p.Inside strictTail n) {d : Detail} {pos : Nat} (he : VerdictInside strictTail n (d, pos)) :
    (p.fail d pos).Inside strictTail n :=
  { h with
    verdict := fun e hphase => by
      cases hphase
      exact he }

theorem Inside.fail_truncated (h : p.Inside strictTail n) : (p.fail .truncated p.ip).Inside strictTail n :=
  h.fail (.truncated strictTail h.ip_le)

/-- A failing check of a sequence reports the place of its token. -/
theorem Inside.fail_tok (h : p.Inside strictTail n) {d : Detail} (hd : d = .literalPastSource ∨ d = .outputOverflow) :
    (p.fail d p.tok).Inside strictTail n :=
  h.fail (.of_lt h.tok_lt (by obtain rfl | rfl := hd <;> simp [BlockDetail]))

theorem Inside.tailCheck (h : p.Inside strictTail n) : p.tailCheck.Inside strictTail n := by
  rw [tailCheck_eq]
  refine { h with verdict := fun e hphase => ?_ }
  have hstatus : p.tailStatus = some e := by simpa using hphase
  unfold tailStatus at hstatus
  split at hstatus
  case isFalse => cases hstatus
  case isTrue hstrict =>
    obtain ⟨m, hfind, rfl⟩ := Option.map_eq_some_iff.mp hstatus
    exact .of_lt (h.marks_lt m (List.mem_of_find?_eq_some hfind)) (.inr ⟨rfl, h.strictTail_eq ▸ hstrict⟩)

theorem Inside.copyMatch (h : p.Inside strictTail n) : p.copyMatch.Inside strictTail n := by
  unfold BlockParser.copyMatch
  split
  · exact h.fail_tok (.inr rfl)
  · refine { h with marks_lt := fun m hm => ?_, verdict := by simp }
    obtain hm | rfl := (List.mem_append.mp hm).imp_right List.mem_singleton.mp
    · exact h.marks_lt m hm
    · exact h.tok_lt

theorem Inside.takeToken (h : p.Inside strictTail n) (hip : p.ip < n) (l m : BitVec 4) :
    (p.takeToken l m).Inside strictTail n :=
  { h with
    ip_le := hip
    tok_lt := hip
    verdict := fun e => by rw [takeToken_phase]; split <;> simp }

theorem Inside.takeLitExt (h : p.Inside strictTail n) (hip : p.ip < n) (v : Byte) :
    (p.takeLitExt v).Inside strictTail n :=
  { h with
    ip_le := hip
    verdict := fun e => by unfold BlockParser.takeLitExt; dsimp only; split <;> simp }

theorem Inside.takeMatchExt (h : p.Inside strictTail n) (hip : p.ip < n) (v : Byte) :
    (p.takeMatchExt v).Inside strictTail n := by
  unfold BlockParser.takeMatchExt
  split
  · exact { h with ip_le := hip, verdict := by simp }
  · exact Inside.copyMatch { h with ip_le := hip }

theorem Inside.takeLiterals (h : p.Inside strictTail n) {bs : List Byte} (hip : p.ip + bs.length ≤ n) :
    (p.takeLiterals bs).Inside strictTail n := by
  unfold BlockParser.takeLiterals
  dsimp only
  split_ifs
  · exact h.fail_tok (.inr rfl)
  · exact Inside.tailCheck { h with ip_le := hip }
  · exact { h with ip_le := hip, verdict := by simp }

theorem Inside.takeOffset (h : p.Inside strictTail n) (hip : p.ip + 2 ≤ n) (off : Nat) :
    (p.takeOffset off).Inside strictTail n := by
  have hlt : p.ip < n := by omega
  unfold BlockParser.takeOffset
  dsimp only
  split_ifs
  · exact h.fail (.of_lt hlt (by simp [BlockDetail]))
  · exact h.fail (.of_lt hlt (by simp [BlockDetail]))
  · exact { h with ip_le := hip, verdict := by simp }
  · exact Inside.copyMatch { h with ip_le := hip }

/-- Every element leaves the parser within its block (rules R255 to R266). -/
theorem Inside.advance (h : p.Inside strictTail n) : p.advance.Inside strictTail n := by
  have hlen := h.length_src
  cases hphase : p.phase <;> simp only [BlockParser.advance, hphase]
  case token =>
    split
    · exact h.takeToken (by omega) _ _
    · exact h.fail_truncated
  case litExt =>
    split
    · exact h.takeLitExt (by omega) _
    · exact h.fail_truncated
  case literals =>
    split
    · exact h.fail_tok (.inl rfl)
    · exact h.takeLiterals (by rw [List.length_take]; omega)
  case offset =>
    split
    · exact h.fail_truncated
    · exact h.takeOffset (by omega) _
  case matchExt =>
    split
    · exact h.takeMatchExt (by omega) _
    · exact h.fail_truncated
  case ended => exact h

theorem Inside.run (h : p.Inside strictTail n) (fuel : Nat) : (run fuel p).Inside strictTail n := by
  induction fuel generalizing p with
  | zero => exact h
  | succ fuel ih => exact ih h.advance

/-- What a parse within its block answers is a verdict on the block, also where it stops before its end. -/
theorem Inside.verdict_of_status (h : p.Inside strictTail n) {e : Detail × Nat} (he : p.status = some e) :
    VerdictInside strictTail n e := by
  cases hphase : p.phase <;> simp only [status, hphase] at he
  case ended => exact h.verdict e (he ▸ hphase)
  all_goals
    cases he
    exact .truncated strictTail h.ip_le

end BlockParser

/-- The empty block has no token. -/
theorem blockDecode_nil (strictTail : Bool) (cap : Nat) (hist : List Byte) :
    blockDecode strictTail [] cap hist = ([], some (.truncated, 0)) :=
  blockDecode_of_run (k := 1) (Nat.le_succ 1) rfl

theorem verdictInside_of_blockDecode {strictTail : Bool} {src hist : List Byte} {cap : Nat} {e : Detail × Nat}
    (h : (blockDecode strictTail src cap hist).2 = some e) : VerdictInside strictTail src.length e := by
  obtain rfl | hne := eq_or_ne src []
  · rw [blockDecode_nil] at h
    cases h
    exact .truncated strictTail (Nat.le_refl 0)
  · exact ((BlockParser.inside_start (List.length_pos_iff.mpr hne) cap hist strictTail).run _).verdict_of_status h

/-- Settles O31: the output's length is bounded by every element, and so is the place at which the parse can end. -/
theorem decoderStaysInBounds : Obligations.DecoderStaysInBounds := fun strictTail src cap hist =>
  ⟨length_blockDecode_le strictTail src cap hist,
    fun d pos h => by
      obtain ⟨hdetail, hle, hlt⟩ := verdictInside_of_blockDecode h
      exact ⟨hdetail, hle, hlt⟩,
    blockDecode_nil strictTail cap hist⟩

/-! ## The elements at the parser's place -/

section

variable {s : State} {o : BlockOwner} {p : BlockParser}

/-- A turn of the engine inside a block is one element of its parse. -/
theorem State.engineTurn_advance (hw : s.work = .block o p) (hip : p.ip ≤ p.src.length) (hp : ∀ st, p.phase ≠ .ended st) :
    s.engineTurn = .next { s with work := .block o p.advance } := by
  rw [State.engineTurn_of_block hw, State.blockTurn_advance hw hip hp]

theorem BlockParser.fetch_token_of_end (hp : p.phase = .token) (h : p.src.length ≤ p.ip) :
    p.fetch = some (.error (.truncated, p.ip)) := by
  simp only [BlockParser.fetch, hp, List.drop_of_length_le h]
  rfl

theorem execToken_of_token (hw : s.work = .block o p) (hp : p.phase = .token) (l m : BitVec 4) :
    exec (.token l m) s = .next { s with work := .block o (p.takeToken l m) } := by
  simp only [exec, execToken, hw, hp]

theorem execOffset_of_offset (hw : s.work = .block o p) (hp : p.phase = .offset) (off : BitVec 16) :
    exec (.offset off) s = .next { s with work := .block o (p.takeOffset off.toNat) } := by
  simp only [exec, execOffset, hw, hp]

end

/-! ## TOKEN -/

/-- Settles O26: the fetch before a token, and the token's effect on the working registers. -/
theorem tokenElement : Obligations.TokenElement := by
  intro s o p hw hp
  refine ⟨fun hend => ?_, fun hlt => ?_, fun l m => ?_⟩
  · rw [State.engineTurn_of_block hw, State.blockTurn, BlockParser.fetch_token_of_end hp hend]
    rfl
  · refine ⟨hiNibble (byteAt p.src p.ip), loNibble (byteAt p.src p.ip), (tokenByte_nibbles _).symm, ?_⟩
    rw [State.engineTurn_advance hw (Nat.le_of_lt hlt) (by simp [hp]), execToken_of_token hw hp, BlockParser.advance, hp]
    dsimp only
    rw [if_pos hlt]
  · have hnibble : l = 15 ↔ l.toNat = 15 := BitVec.toNat_eq
    rw [execToken_of_token hw hp, BlockParser.takeToken]
    simp only [hnibble]
    rfl

/-! ## OFFSET -/

/-- The two bytes of a 16-bit field (rule R12). -/
theorem le16_eq {bs : List Byte} {i : Nat} (h : i + 2 ≤ bs.length) :
    le16 bs i = (byteAt bs i).toNat + 256 * (byteAt bs (i + 1)).toNat := by
  have hfirst : bs.drop i = bs[i] :: bs.drop (i + 1) := List.drop_eq_getElem_cons _
  have hsecond : bs.drop (i + 1) = bs[i + 1] :: bs.drop (i + 2) := List.drop_eq_getElem_cons _
  rw [le16, byteAt_of_drop hfirst, byteAt_of_drop hsecond, hfirst, hsecond]
  rfl

theorem le16_lt (bs : List Byte) (i : Nat) : le16 bs i < 2 ^ 16 :=
  (leNat_lt _).trans_le (Nat.pow_le_pow_right (n := 256) (by decide) (List.length_take_le 2 _))

theorem toNat_loNibble (b : Byte) : (loNibble b).toNat = b.toNat % 16 := by
  rw [loNibble, BitVec.extractLsb'_toNat, Nat.shiftRight_zero]

theorem loNibble_eq_15_iff (b : Byte) : loNibble b = 15 ↔ b.toNat % 16 = 15 := by
  rw [BitVec.toNat_eq, toNat_loNibble]
  rfl

namespace BlockParser

/-- The registers once an offset has passed its checks, the match length without its extension (rules R261, R262). -/
def withOffset (p : BlockParser) (off : Nat) : BlockParser :=
  { p with ip := p.ip + 2, off := off, ml := p.token.toNat % 16 + 4 }

variable {p : BlockParser} {off : Nat}

theorem copyMatch_of_lt (h : p.cap < p.out.length + p.ml) : p.copyMatch = p.fail .outputOverflow p.tok := if_pos h

theorem takeOffset_of_zero (h : off = 0) : p.takeOffset off = p.fail .offsetZero p.ip := if_pos h

theorem takeOffset_of_outOfWindow (h : p.out.length + p.hist.length < off) :
    p.takeOffset off = p.fail .offsetOutOfWindow p.ip := by
  rw [takeOffset, if_neg (by omega), if_pos h]

theorem takeOffset_of_inWindow (hpos : off ≠ 0) (hwin : off ≤ p.out.length + p.hist.length) : p.takeOffset off =
    if p.token.toNat % 16 = 15 then { p.withOffset off with phase := .matchExt } else (p.withOffset off).copyMatch := by
  simp only [takeOffset, if_neg hpos, if_neg (Nat.not_lt.mpr hwin), loNibble_eq_15_iff, toNat_loNibble]
  rfl

end BlockParser

/-- Settles O29: the fetch of the field, its two checks, and the match it begins. -/
theorem offsetField : Obligations.OffsetField := by
  intro s o p hw hp hip
  have hturn := State.engineTurn_advance hw hip (by simp [hp])
  rw [BlockParser.advance, hp] at hturn
  dsimp only at hturn
  refine ⟨fun hshort => ?_, fun hle => ?_, fun off => ?_⟩
  · rw [hturn, if_pos hshort]
    rfl
  · rw [hturn, if_neg (Nat.not_lt.mpr hle), ← le16_eq hle, execOffset_of_offset hw hp, BitVec.toNat_ofNat,
      Nat.mod_eq_of_lt (le16_lt _ _)]
  · rw [execOffset_of_offset hw hp]
    refine ⟨fun hzero => ?_, fun hout => ?_, fun hne hwin => ?_⟩
    · rw [BlockParser.takeOffset_of_zero (congrArg BitVec.toNat hzero)]
      rfl
    · rw [BlockParser.takeOffset_of_outOfWindow hout]
      rfl
    · have hpos : off.toNat ≠ 0 := fun h => hne (BitVec.eq_of_toNat_eq h)
      rw [BlockParser.takeOffset_of_inWindow hpos hwin]
      refine ⟨fun hext => ?_, fun hext hcap => ?_, fun hext hcap => ?_⟩
      · rw [if_pos hext, BlockParser.withOffset, hext]
      · rw [if_neg hext, BlockParser.copyMatch_of_lt hcap]
        rfl
      · rw [if_neg hext, BlockParser.copyMatch_of_le hcap]
        rfl

end Sys2Proof.Machine
end

section
/-!
PROOF. The context slots after one is set, CTX_DESTROY and CTX_RESET (rules R301, R302), and the stream commands as the first
failing check of rule R454 or the report of their source bytes (rules R304, R305).
-/

namespace Sys2Proof.Machine

/-! ## Context slots -/

theorem slotAt_of_ne_zero {h : BitVec 8} (hh : h ≠ 0) (slots : List (Option Ctx)) :
    slotAt slots h = slots[h.toNat - 1]?.getD none := by
  rw [slotAt, if_neg hh, List.getD_eq_getElem?_getD]

theorem setSlot_of_ne_zero {h : BitVec 8} (hh : h ≠ 0) (slots : List (Option Ctx)) (c : Option Ctx) :
    setSlot slots h c = slots.set (h.toNat - 1) c := if_neg hh

/-- Handle 0 names no context (rule R45). -/
theorem ne_zero_of_slotAt {slots : List (Option Ctx)} {h : BitVec 8} {c : Ctx} (hc : slotAt slots h = some c) : h ≠ 0 := by
  rintro rfl
  simp [slotAt] at hc

/-- A slot that holds a context is set in place. -/
theorem setSlot_of_slotAt {slots : List (Option Ctx)} {h : BitVec 8} {c : Ctx} (hc : slotAt slots h = some c)
    (d : Option Ctx) : setSlot slots h d = slots.set (h.toNat - 1) d := setSlot_of_ne_zero (ne_zero_of_slotAt hc) slots d

/-- A freed slot names no context. -/
theorem slotAt_setSlot_none (slots : List (Option Ctx)) (h : BitVec 8) : slotAt (setSlot slots h none) h = none := by
  by_cases hh : h = 0
  · simp [slotAt, hh]
  · rw [slotAt_of_ne_zero hh, setSlot_of_ne_zero hh, List.getElem?_set_self']
    cases slots[h.toNat - 1]? <;> rfl

/-- Distinct handles name distinct slots. -/
theorem slotAt_setSlot_of_ne {h k : BitVec 8} (hk : k ≠ h) (slots : List (Option Ctx)) (c : Option Ctx) :
    slotAt (setSlot slots h c) k = slotAt slots k := by
  by_cases hh : h = 0
  · simp [setSlot, hh]
  by_cases hk0 : k = 0
  · simp [slotAt, hk0]
  have hne : h.toNat - 1 ≠ k.toNat - 1 := by bv_omega
  rw [slotAt_of_ne_zero hk0, slotAt_of_ne_zero hk0, setSlot_of_ne_zero hh, List.getElem?_set_ne hne]

/-- Freeing a slot that is free already, or is none, changes no slot (rule R301). -/
theorem setSlot_none_of_slotAt {slots : List (Option Ctx)} {h : BitVec 8} (hc : slotAt slots h = none) :
    setSlot slots h none = slots := by
  by_cases hh : h = 0
  · exact if_pos hh
  rw [slotAt_of_ne_zero hh] at hc
  rw [setSlot_of_ne_zero hh]
  by_cases hlt : h.toNat - 1 < slots.length
  · rw [List.getElem?_eq_getElem hlt, Option.getD_some] at hc
    rw [← hc, List.set_getElem_self]
  · exact List.set_eq_of_length_le (Nat.not_lt.mp hlt)

/-- Settles O35: the command completes with the slot it names set free. -/
theorem ctxDestroyNeverFails : Obligations.CtxDestroyNeverFails := fun h _ s hs =>
  ⟨_, State.finish_of_no_holes (s.undisturbed_iff.mp hs).2.1 _, State.endsWith_completed hs _,
    slotAt_setSlot_none s.slots h, fun _ hk => slotAt_setSlot_of_ne hk s.slots none, setSlot_none_of_slotAt⟩

/-! ## A command as its checks and what follows -/

/-- The outcome `x` of a command begun in `s` is the state that the report `r` describes. -/
def State.Leaves (s : State) (x : Result) (r : Report) : Prop := ∃ t, x = .next t ∧ s.EndsWith r t

/-- A command that makes these checks in order and goes on with `x` where every one passes (rule R454). -/
def State.checked (s : State) (h : BitVec 8) (checks : List (Bool × Err)) (x : Result) : Result :=
  match firstError checks with
  | some e => s.raise h e
  | none => x

theorem State.runsTo_of_leaves {s : State} {i : Instr} {x : Result} {r : Report} (hexec : exec i s = x) (hx : s.Leaves x r) :
    s.RunsTo i r := by rwa [← hexec] at hx

section

variable {s : State} {h : BitVec 8} {x : Result} {r : Report}

theorem State.leaves_finish (hs : s.undisturbed = true) (r : Report) : s.Leaves (s.finish r) r :=
  ⟨_, State.finish_of_no_holes (s.undisturbed_iff.mp hs).2.1 r, State.endsWith_completed hs r⟩

theorem State.leaves_raise (hs : s.undisturbed = true) (h : BitVec 8) (e : Err) : s.Leaves (s.raise h e) (s.failure h e) :=
  State.leaves_finish hs _

/-- One check, then the others. -/
theorem State.leaves_check (hs : s.undisturbed = true) {bad : Bool} {e : Err} {checks : List (Bool × Err)} {p : Prop}
    [Decidable p] (hbad : bad = true ↔ p) (hx : s.Leaves (s.checked h checks x) r) :
    s.Leaves (s.checked h ((bad, e) :: checks) x) (if p then s.failure h e else r) := by
  by_cases hp : p
  · obtain rfl : bad = true := hbad.mpr hp
    rw [if_pos hp]
    exact State.leaves_raise hs h e
  · obtain rfl : bad = false := Bool.eq_false_iff.mpr (mt hbad.mp hp)
    rw [if_neg hp]
    exact hx

/-- Step 2 of rule R454. -/
theorem State.leaves_rsvdCheck (hs : s.undisturbed = true) {rsvd : BitVec 16} (hx : s.Leaves x r) :
    s.Leaves (s.checked h [rsvdCheck rsvd] x) (if rsvd ≠ 0 then s.failure h .badParam else r) :=
  State.leaves_check (checks := []) hs bne_iff_ne hx

/-- The checks of rule R85 for both buffers, then the others. -/
theorem State.leaves_bufferChecks (hs : s.undisturbed = true) {checks : List (Bool × Err)}
    (hx : s.Leaves (s.checked h checks x) r) :
    s.Leaves (s.checked h (s.bothBufferChecks ++ checks) x)
      (match s.bufferFault true true with
      | some e => s.failure h e
      | none => r) := by
  rw [State.checked, firstError_append, s.firstError_bothBufferChecks]
  cases s.bufferFault true true with
  | some e => exact State.leaves_raise hs h e
  | none => exact hx

/-- The source is read, then the command ends with the report its bytes fix. -/
theorem State.leaves_source (hs : s.undisturbed = true) {f : List Byte → Report} (hr : f s.sourceBytes = r) :
    s.Leaves (s.withSource fun src => s.finish (f src)) r := by
  obtain ⟨-, hholes, hraced⟩ := s.undisturbed_iff.mp hs
  rw [State.withSource_of_no_holes hholes, State.source_eq_sourceBytes hraced, hr]
  exact State.leaves_finish hs r

end

/-! ## CTX_RESET -/

/-- The initial context of a context's kind is the one written out from its kind code and block size (rules R46 to R49). -/
theorem Ctx.reinit_eq_fresh (c : Ctx) : c.reinit = Ctx.fresh c.kindCode c.blockSize := by
  cases c <;> rfl

/-- Settles O36: the handle is looked up once CMD[31:16] passes, and a context it names is set to its initial one. -/
theorem ctxResetResult : Obligations.CtxResetResult := by
  intro h rsvd s hs
  refine State.runsTo_of_leaves rfl (State.leaves_rsvdCheck hs ?_)
  cases hslot : slotAt s.slots h with
  | none => exact State.leaves_raise hs h .badHandle
  | some c =>
    dsimp only
    rw [setSlot_of_slotAt hslot, c.reinit_eq_fresh]
    exact State.leaves_finish hs _

/-! ## STREAM_COMPRESS -/

/-- The context after the chunk in the source buffer, field by field (rules R51, R304). -/
theorem CStream.push_sourceBytes (c : CStream) (s : State) (table : HashTable) :
    c.push s.sourceBytes table =
      { blockSize := c.blockSize
        hist := (c.hist ++ s.sourceBytes).drop ((c.hist ++ s.sourceBytes).length - 65536)
        table := table
        spos := c.spos + s.srcLen } := by
  rw [CStream.push, State.sourceBytes, Memory.length_readBytes]
  rfl

/-- Settles O38: CMD[31:16], the handle, the checks of its context in turn, then the block of the source bytes. -/
theorem streamCompressResult : Obligations.StreamCompressResult := by
  intro h rsvd s hs
  refine State.runsTo_of_leaves rfl (State.leaves_rsvdCheck hs ?_)
  rw [State.cstreamAt]
  cases hslot : slotAt s.slots h with
  | none => exact State.leaves_raise hs h .badHandle
  | some ctx =>
    cases ctx with
    | cstream c =>
      refine State.leaves_bufferChecks hs (State.leaves_check hs decide_eq_true_iff
        (State.leaves_check hs decide_eq_true_iff ?_))
      refine State.leaves_source hs (f := fun src =>
        let r := compressCore s.hash c.hist src c.table (c.spos - c.hist.length)
        s.streamCompressReport h c src r.1 r.2) ?_
      rw [State.streamCompressReport, CStream.push_sourceBytes, setSlot_of_slotAt hslot]
    | dstream _ | fcomp _ | fdecomp _ => exact State.leaves_raise hs h .badHandle

/-! ## STREAM_DECOMPRESS -/

/-- Settles O39: CMD[31:16], the handle, a context not FAILED, the buffers, then the verdict of the block decoder. -/
theorem streamDecompressResult : Obligations.StreamDecompressResult := by
  intro h rsvd s hs
  refine State.runsTo_of_leaves rfl (State.leaves_rsvdCheck hs ?_)
  rw [State.dstreamAt]
  cases hslot : slotAt s.slots h with
  | none => exact State.leaves_raise hs h .badHandle
  | some ctx =>
    cases ctx with
    | dstream c =>
      refine State.leaves_check hs beq_iff_eq (State.leaves_bufferChecks (checks := []) hs ?_)
      refine State.leaves_source hs (f := fun src =>
        let r := blockDecode s.params.strictTail src (min s.dstCap c.blockSize) c.hist
        s.streamDecompressReport h c r.1 r.2) ?_
      obtain ⟨out, _ | ⟨d, pos⟩⟩ := blockDecode s.params.strictTail s.sourceBytes (min s.dstCap c.blockSize) c.hist
      · rw [State.streamDecompressReport, setSlot_of_slotAt hslot]
        rfl
      · rw [State.streamDecompressReport, setSlot_of_slotAt hslot]
        rfl
    | cstream _ | fcomp _ | fdecomp _ => exact State.leaves_raise hs h .badHandle

end Sys2Proof.Machine
end

section
/-!
PROOF. The frame compressor's blocks: the record of one block, the records of consecutive blocks, and the blocks FRAME_UPDATE and
FRAME_END cut the content into (rules R343 to R347).
-/

namespace Sys2Proof.Machine

/-! ## One block -/

/-- The block and the table the compressor core gives: with no history for independent blocks, else with the context's (rule
R343). -/
def compressBlock (hash : Word → Nat) (c : FComp) (b : List Byte) : List Byte × HashTable :=
  if c.prefs.indep then compressCore hash [] b [] 0 else compressCore hash c.hist b c.table (c.spos - c.hist.length)

/-- What a linked block reads and moves on, as a CSTREAM of blocks of BLOCK_MAX bytes (rules R46, R48). -/
def FComp.stream (c : FComp) : CStream where
  blockSize := Config.blockMax c.prefs.bsid
  hist := c.hist
  table := c.table
  spos := c.spos

/-- The context with what a linked block moves on. -/
def FComp.setStream (c : FComp) (s : CStream) : FComp := { c with hist := s.hist, table := s.table, spos := s.spos }

@[simp] theorem FComp.setStream_prefs (c : FComp) (s : CStream) : (c.setStream s).prefs = c.prefs := rfl
@[simp] theorem FComp.setStream_hist (c : FComp) (s : CStream) : (c.setStream s).hist = s.hist := rfl
@[simp] theorem FComp.setStream_spos (c : FComp) (s : CStream) : (c.setStream s).spos = s.spos := rfl

theorem FComp.setStream_setPending (c : FComp) (q : List Byte) (s : CStream) :
    { c with pending := q }.setStream s = { c.setStream s with pending := q } := rfl

theorem FComp.stream_setStream {c : FComp} {s : CStream} (h : s.blockSize = c.stream.blockSize) :
    (c.setStream s).stream = s := by
  obtain ⟨⟩ := s
  cases h
  rfl

theorem compressBlock_eq (hash : Word → Nat) (c : FComp) (b : List Byte) : compressBlock hash c b =
    if c.prefs.indep then compressCore hash [] b [] 0
    else compressCore hash c.stream.hist b c.stream.table (c.stream.spos - c.stream.hist.length) := rfl

theorem makeBlock_eq (hash : Word → Nat) (c : FComp) (b : List Byte) : makeBlock hash c b =
    (blockRecord c.prefs.bcrc (compressBlock hash c b).1 b,
      if c.prefs.indep then c else c.setStream (c.stream.push b (compressBlock hash c b).2)) := by
  unfold makeBlock compressBlock
  split
  · rfl
  · simp only [FComp.setStream, CStream.push, FComp.stream]

/-- A stored block's record (rules R127, R343). -/
theorem blockRecord_of_stored {block content : List Byte} (h : content.length ≤ block.length) (bcrc : Bool) :
    blockRecord bcrc block content =
      bytesLE 4 (2 ^ 31 + content.length) ++ content ++ (if bcrc then bytesLE 4 (xxh32 content).toNat else []) := by
  rw [blockRecord, choosePayload, if_pos h]
  rfl

/-- A compressed block's record (rules R127, R343). -/
theorem blockRecord_of_compressed {block content : List Byte} (h : block.length < content.length) (bcrc : Bool) :
    blockRecord bcrc block content =
      bytesLE 4 block.length ++ block ++ (if bcrc then bytesLE 4 (xxh32 block).toNat else []) := by
  rw [blockRecord, choosePayload, if_neg (Nat.not_le.mpr h)]
  simp only [Bool.false_eq_true, if_false, Nat.zero_add]

/-- Settles O44: the record by the sizes of the block and the content, the context by the preference for independent blocks. -/
theorem makeBlockRule : Obligations.MakeBlockRule := by
  intro hash c b
  simp only [makeBlock_eq, FComp.setStream, CStream.push, FComp.stream, lastWindow, lastK, Config.window]
  rw [← compressBlock]
  by_cases h : b.length ≤ (compressBlock hash c b).1.length
  · simp only [blockRecord_of_stored h, if_pos h]
  · simp only [blockRecord_of_compressed (Nat.not_le.mp h), if_neg h]

/-! ## Consecutive blocks -/

section

variable (hash : Word → Nat)

theorem makeBlock_prefs (c : FComp) (b : List Byte) : (makeBlock hash c b).2.prefs = c.prefs := by
  rw [makeBlock_eq]
  dsimp only
  split
  · rfl
  · exact c.setStream_prefs _

/-- No block rests on the pending bytes (rule R343). -/
theorem makeBlock_setPending (c : FComp) (b q : List Byte) : makeBlock hash { c with pending := q } b =
    ((makeBlock hash c b).1, { (makeBlock hash c b).2 with pending := q }) := by
  rw [makeBlock_eq, makeBlock_eq]
  refine Prod.ext rfl ?_
  dsimp only
  split
  · rfl
  · exact c.setStream_setPending q _

theorem makeBlocks_append (xs ys : List (List Byte)) (c : FComp) :
    makeBlocks hash (xs ++ ys) c = makeBlocks hash xs c ++ makeBlocks hash ys (afterBlocks hash xs c) := by
  induction xs generalizing c with
  | nil => rfl
  | cons x xs ih => simp only [List.cons_append, makeBlocks, afterBlocks, ih, List.append_assoc]

theorem afterBlocks_append (xs ys : List (List Byte)) (c : FComp) :
    afterBlocks hash (xs ++ ys) c = afterBlocks hash ys (afterBlocks hash xs c) := by
  induction xs generalizing c with
  | nil => rfl
  | cons x xs ih => exact ih _

/-- What a linked block moves on (rule R343). -/
theorem makeBlock_stream (c : FComp) (b : List Byte) : (makeBlock hash c b).2.stream =
    if c.prefs.indep then c.stream else c.stream.push b (compressBlock hash c b).2 := by
  rw [makeBlock_eq]
  dsimp only
  split
  · rfl
  · exact FComp.stream_setStream (by rw [CStream.push])

/-- A record rests on the preferences and on what a linked block reads (rule R343). -/
theorem makeBlocks_congr (blocks : List (List Byte)) {c d : FComp} (hprefs : c.prefs = d.prefs)
    (hstream : c.stream = d.stream) : makeBlocks hash blocks c = makeBlocks hash blocks d
      ∧ (afterBlocks hash blocks c).stream = (afterBlocks hash blocks d).stream := by
  induction blocks generalizing c d with
  | nil => exact ⟨rfl, hstream⟩
  | cons b bs ih =>
    have hcompress : compressBlock hash c b = compressBlock hash d b := by
      rw [compressBlock_eq, compressBlock_eq, hprefs, hstream]
    have hrecord : (makeBlock hash c b).1 = (makeBlock hash d b).1 := by
      rw [makeBlock_eq, makeBlock_eq, hprefs, hcompress]
    obtain ⟨hblocks, hafter⟩ := ih (c := (makeBlock hash c b).2) (d := (makeBlock hash d b).2)
      (by rw [makeBlock_prefs, makeBlock_prefs, hprefs])
      (by rw [makeBlock_stream, makeBlock_stream, hprefs, hstream, hcompress])
    exact ⟨by rw [makeBlocks, makeBlocks, hrecord, hblocks], hafter⟩

theorem makeBlocks_setPending (blocks : List (List Byte)) (c : FComp) (q : List Byte) :
    makeBlocks hash blocks { c with pending := q } = makeBlocks hash blocks c :=
  (makeBlocks_congr hash blocks (c := { c with pending := q }) (d := c) rfl rfl).1

theorem afterBlocks_setPending (blocks : List (List Byte)) (c : FComp) (q : List Byte) :
    afterBlocks hash blocks { c with pending := q } = { afterBlocks hash blocks c with pending := q } := by
  induction blocks generalizing c with
  | nil => rfl
  | cons b bs ih => simp only [afterBlocks, makeBlock_setPending, ih]

@[simp] theorem afterBlocks_prefs (blocks : List (List Byte)) (c : FComp) :
    (afterBlocks hash blocks c).prefs = c.prefs := by
  induction blocks generalizing c with
  | nil => rfl
  | cons b bs ih => exact (ih _).trans (makeBlock_prefs hash c b)

/-- Independent blocks leave the context as it was (rule R343). -/
theorem afterBlocks_of_indep {c : FComp} (h : c.prefs.indep = true) (blocks : List (List Byte)) :
    afterBlocks hash blocks c = c := by
  induction blocks with
  | nil => rfl
  | cons b bs ih => rw [afterBlocks, makeBlock_eq, if_pos h, ih]

end

/-- The last `WINDOW` bytes are those of the last `WINDOW` bytes and what follows (rule R51). -/
theorem lastWindow_lastWindow_append (xs ys : List Byte) : lastWindow (lastWindow xs ++ ys) = lastWindow (xs ++ ys) := by
  have hdrop : lastWindow xs ++ ys = (xs ++ ys).drop (xs.length - Config.window) :=
    (List.drop_append_of_le_length (Nat.sub_le ..)).symm
  rw [hdrop, lastWindow, lastWindow, lastK, lastK, List.drop_drop, List.length_drop, List.length_append]
  exact congrArg (List.drop · (xs ++ ys)) (by omega)

theorem lastWindow_of_le {xs : List Byte} (h : xs.length ≤ Config.window) : lastWindow xs = xs := by
  rw [lastWindow, lastK, Nat.sub_eq_zero_of_le h, List.drop_zero]

/-- Linked blocks move the history and the position on by their bytes (rules R51, R343). -/
theorem afterBlocks_of_linked (hash : Word → Nat) (blocks : List (List Byte)) {c : FComp} (h : c.prefs.indep = false) :
    (afterBlocks hash blocks c).spos = c.spos + blocks.flatten.length
    ∧ lastWindow (afterBlocks hash blocks c).hist = lastWindow (c.hist ++ blocks.flatten)
    ∧ (c.hist.length ≤ Config.window → (afterBlocks hash blocks c).hist.length ≤ Config.window) := by
  induction blocks generalizing c with
  | nil => simp [afterBlocks]
  | cons b bs ih =>
    have hmake : (makeBlock hash c b).2 = c.setStream (c.stream.push b (compressBlock hash c b).2) := by
      simp [makeBlock_eq, h]
    obtain ⟨hspos, hhist, hlen⟩ := ih (c := c.setStream (c.stream.push b (compressBlock hash c b).2))
      (by rwa [FComp.setStream_prefs])
    rw [FComp.setStream_hist, CStream.push_hist] at hhist hlen
    rw [FComp.setStream_spos, CStream.push_spos] at hspos
    rw [afterBlocks, hmake, hspos, hhist, List.flatten_cons, List.length_append, ← Nat.add_assoc, ← List.append_assoc]
    exact ⟨rfl, lastWindow_lastWindow_append _ _, fun _ => hlen (length_lastWindow_le _)⟩

/-! ## The blocks the content is cut into -/

/-- `bs` is cut into full blocks of `n` bytes and a rest below `n` bytes (rule R347). -/
structure Cut (n : Nat) (bs : List Byte) (full : List (List Byte)) (last : List Byte) : Prop where
  length_full : ∀ b ∈ full, b.length = n
  length_last : last.length < n
  eq_append : bs = full.flatten ++ last

theorem Cut.cons {n : Nat} {bs last : List Byte} {full : List (List Byte)} (hle : n ≤ bs.length)
    (h : Cut n (bs.drop n) full last) : Cut n bs (bs.take n :: full) last where
  length_full := List.forall_mem_cons.mpr ⟨List.length_take_of_le hle, h.length_full⟩
  length_last := h.length_last
  eq_append := by rw [List.flatten_cons, List.append_assoc, ← h.eq_append, List.take_append_drop]

/-- The block sizes of rule R124. -/
theorem blockMax_bounds {n : Nat} (h : bsidOk n = true) : 0 < Config.blockMax n ∧ Config.blockMax n ≤ 4194304 := by
  obtain ⟨hge, hle⟩ := (bsidOk_iff n).mp h
  interval_cases n <;> decide

/-- The loop of rule R344 makes the full blocks of the pending bytes and leaves the rest pending. -/
theorem fullBlocks_eq (hash : Word → Nat) {fuel : Nat} {c : FComp} (hbsid : bsidOk c.prefs.bsid = true)
    (hfuel : c.pending.length ≤ fuel) : ∃ full last, Cut (Config.blockMax c.prefs.bsid) c.pending full last
      ∧ fullBlocks hash fuel c = (makeBlocks hash full c, { afterBlocks hash full c with pending := last }) := by
  have hpos := (blockMax_bounds hbsid).1
  induction fuel generalizing c with
  | zero => exact ⟨[], c.pending, ⟨nofun, by omega, rfl⟩, rfl⟩
  | succ fuel ih =>
    by_cases hfull : Config.blockMax c.prefs.bsid ≤ c.pending.length
    · have hprefs := makeBlock_prefs hash c (c.pending.take (Config.blockMax c.prefs.bsid))
      obtain ⟨full, last, hcut, hrest⟩ := ih
        (c := { (makeBlock hash c (c.pending.take (Config.blockMax c.prefs.bsid))).2 with
          pending := c.pending.drop (Config.blockMax c.prefs.bsid) })
        (by rwa [hprefs]) (by rw [List.length_drop]; omega) (by rwa [hprefs])
      refine ⟨_, last, Cut.cons hfull (hprefs ▸ hcut), ?_⟩
      rw [fullBlocks]
      simp only [hpos, hfull, and_self, if_true, hrest, makeBlocks_setPending, afterBlocks_setPending]
      rfl
    · refine ⟨[], c.pending, ⟨nofun, Nat.not_le.mp hfull, rfl⟩, ?_⟩
      rw [fullBlocks, if_neg fun h => hfull h.2]
      rfl

/-- The remaining bytes as one block, if there are any (rules R344, R345). -/
def restBlock (last : List Byte) : List (List Byte) := if last = [] then [] else [last]

theorem flatten_restBlock (last : List Byte) : (restBlock last).flatten = last := by
  rw [restBlock]
  split <;> simp_all

theorem flushPending_eq (hash : Word → Nat) (c : FComp) : flushPending hash c =
    (makeBlocks hash (restBlock c.pending) c, { afterBlocks hash (restBlock c.pending) c with pending := [] }) := by
  rw [flushPending, restBlock]
  split
  next h =>
    obtain ⟨⟩ := c
    cases h
    rfl
  next => simp [makeBlocks, afterBlocks]

/-- The blocks FRAME_UPDATE makes of the content cut into `full` and `last`: with AUTO_FLUSH the rest is one (rule R344). -/
def emittedBlocks (autoFlush : Bool) (full : List (List Byte)) (last : List Byte) : List (List Byte) :=
  full ++ if autoFlush then restBlock last else []

/-- FRAME_UPDATE emits the records of its blocks and keeps the rest pending without AUTO_FLUSH (rule R344). -/
theorem updateFrame_eq (hash : Word → Nat) {c : FComp} (src : List Byte) (hbsid : bsidOk c.prefs.bsid = true) :
    ∃ full last, Cut (Config.blockMax c.prefs.bsid) (c.pending ++ src) full last
      ∧ updateFrame hash c src =
        (makeBlocks hash (emittedBlocks c.prefs.autoFlush full last) c,
          { afterBlocks hash (emittedBlocks c.prefs.autoFlush full last) c with
            pending := if c.prefs.autoFlush then [] else last
            total := c.total + src.length
            content := c.content ++ src
            fstate := .updating }) := by
  obtain ⟨full, last, hcut, hfull⟩ :=
    fullBlocks_eq hash (c := { c with pending := c.pending ++ src }) hbsid (Nat.le_refl _)
  refine ⟨full, last, hcut, ?_⟩
  rw [makeBlocks_setPending, afterBlocks_setPending] at hfull
  have hprefs := afterBlocks_prefs hash full c
  simp only [updateFrame, hfull, emittedBlocks, makeBlocks_append, afterBlocks_append]
  generalize afterBlocks hash full c = d at hprefs
  rw [← hprefs]
  cases d.prefs.autoFlush with
  | false => simp only [Bool.false_eq_true, if_false, makeBlocks, afterBlocks]
  | true => simp only [if_true, flushPending_eq, makeBlocks_setPending, afterBlocks_setPending]

/-- Settles O46: the content is cut by the loop of rule R344, and linked blocks move the history and the position on. -/
theorem frameUpdateBlocks : Obligations.FrameUpdateBlocks := by
  intro hash c src hbsid
  obtain ⟨full, last, hcut, hupdate⟩ := updateFrame_eq hash src hbsid
  have hblocks : full ++ (if c.prefs.autoFlush = true ∧ last ≠ [] then [last] else [])
      = emittedBlocks c.prefs.autoFlush full last := by
    rw [emittedBlocks, restBlock]
    split_ifs <;> simp_all
  refine ⟨full, last, ?_⟩
  rw [hblocks, hupdate]
  refine ⟨hcut.length_full, hcut.length_last, hcut.eq_append, rfl, rfl, rfl, afterBlocks_prefs .., rfl, rfl,
    fun hindep => ?_, fun hlinked => ?_⟩
  · dsimp only
    rw [afterBlocks_of_indep hash hindep]
    exact ⟨rfl, rfl, rfl⟩
  · obtain ⟨hspos, hhist, hlen⟩ := afterBlocks_of_linked hash (emittedBlocks c.prefs.autoFlush full last) hlinked
    exact ⟨hspos, rfl, fun hle => (lastWindow_of_le (hlen hle)).symm.trans hhist⟩

end Sys2Proof.Machine
end

section
/-!
PROOF. FRAME_BEGIN, FRAME_UPDATE and FRAME_END as the first failing check of rule R454 or the report of what they emit (rules R340
to R346).
-/

namespace Sys2Proof.Machine

/-! ## The checks -/

/-- The checks of rule R85 for the destination buffer, then the others. -/
theorem State.leaves_destChecks {s : State} (hs : s.undisturbed = true) {h : BitVec 8} {x : Result} {r : Report}
    {checks : List (Bool × Err)} (hx : s.Leaves (s.checked h checks x) r) :
    s.Leaves (s.checked h (s.destChecks ++ checks) x)
      (match s.bufferFault false true with
      | some e => s.failure h e
      | none => r) := by
  rw [State.checked, firstError_append, s.firstError_destChecks]
  cases s.bufferFault false true with
  | some e => exact State.leaves_raise hs h e
  | none => exact hx

theorem FState.open_iff (st : FState) : st.open_ = true ↔ st = .headerEmitted ∨ st = .updating := by
  cases st <;> decide

theorem FState.not_open_iff (st : FState) : (!st.open_) = true ↔ st = .idle ∨ st = .ended := by
  cases st <;> decide

/-! ## FRAME_BEGIN -/

/-- A bit of a word from its number (rule R11). -/
theorem getLsbD_eq_decide {n : Nat} (w : BitVec n) (i : Nat) : w.getLsbD i = decide (w.toNat / 2 ^ i % 2 = 1) := by
  rw [BitVec.getLsbD, Nat.testBit_eq_decide_div_mod_eq]

theorem toNat_bsidField (w : Word) : (w.extractLsb' 0 3).toNat = w.toNat % 8 := BitVec.extractLsb'_toNat ..

theorem bsidField_eq_iff (w : Word) (b : BitVec 3) : w.extractLsb' 0 3 = b ↔ w.toNat % 8 = b.toNat := by
  rw [← BitVec.toNat_inj, toNat_bsidField]

/-- The preferences a word selects, from its number (rules R152, R340). -/
theorem prefsOf_word (w : Word) (csize : Nat) :
    prefsOf (w.extractLsb' 0 3) (w.getLsbD 4) (w.getLsbD 5) (w.getLsbD 6) (w.getLsbD 7) csize =
      { bsid := if w.toNat % 8 = 0 then 4 else w.toNat % 8
        indep := w.toNat / 16 % 2 = 1
        ccrc := w.toNat / 32 % 2 = 1
        bcrc := w.toNat / 64 % 2 = 1
        autoFlush := w.toNat / 128 % 2 = 1
        csize := csize } := by
  simp only [prefsOf, bsidField_eq_iff, toNat_bsidField, getLsbD_eq_decide]
  rfl

/-- The legality of a preferences word, from its number (rules R152, R340). -/
theorem prefsChecks_word (w : Word) :
    (w.extractLsb' 8 24 != 0 || w.getLsbD 3 || w.extractLsb' 0 3 == 1 || w.extractLsb' 0 3 == 2
      || w.extractLsb' 0 3 == 3) = true
    ↔ w.toNat / 256 ≠ 0 ∨ w.toNat / 8 % 2 = 1 ∨ 1 ≤ w.toNat % 8 ∧ w.toNat % 8 ≤ 3 := by
  have hhigh : w.extractLsb' 8 24 = 0 ↔ w.toNat / 256 = 0 := by
    rw [← BitVec.toNat_inj, BitVec.extractLsb'_toNat, Nat.shiftRight_eq_div_pow]
    have := w.isLt
    simp only [BitVec.reduceToNat, Nat.reducePow]
    omega
  simp only [Bool.or_eq_true, bne_iff_ne, beq_iff_eq, ne_eq, hhigh, bsidField_eq_iff, getLsbD_eq_decide, decide_eq_true_eq,
    BitVec.reduceToNat, Nat.reducePow]
  omega

/-- FRAME_BEGIN on a slot that holds a context, from its preferences on (rules R341, R342). -/
theorem State.leaves_beginFrame {s : State} (hs : s.undisturbed = true) {h : BitVec 8} {c : Ctx}
    (hslot : slotAt s.slots h = some c) {p q : Prefs} (hp : p.bsid < 8) (hpq : p = q) :
    s.Leaves (s.beginFrame h p)
      (match s.bufferFault false true with
      | some e => s.failure h e
      | none =>
        if s.dstCap < q.specHeader.length then s.failure h .capacityOutput
        else
          { s.success h with
            out := q.specHeader
            resultLen := q.specHeader.length
            slots := s.slots.set (h.toNat - 1)
              (some (.fcomp { FComp.initial with prefs := q, fstate := .headerEmitted })) }) := by
  subst hpq
  rw [← Prefs.header_eq_specHeader hp, ← setSlot_of_slotAt hslot]
  exact State.leaves_destChecks hs (State.leaves_check hs decide_eq_true_iff (State.leaves_finish hs _))

/-- Settles O41: CMD[31:16], the handle, no open frame, the preferences word, then FRAME_BEGIN from its preferences on. -/
theorem frameBeginResult : Obligations.FrameBeginResult := by
  intro h rsvd s hs
  refine State.runsTo_of_leaves rfl (State.leaves_rsvdCheck hs ?_)
  rw [State.fcompAt]
  cases hslot : slotAt s.slots h with
  | none => exact State.leaves_raise hs h .badHandle
  | some ctx =>
    cases ctx with
    | fcomp c =>
      refine State.leaves_check (checks := []) hs c.fstate.open_iff
        (State.leaves_check (checks := []) hs (prefsChecks_word s.args.param0) ?_)
      exact State.leaves_beginFrame hs hslot (bsid_prefsOf_lt ..) (prefsOf_word s.args.param0 s.contentSizeField)
    | cstream _ | dstream _ | fdecomp _ => exact State.leaves_raise hs h .badHandle

/-! ## FRAME_UPDATE -/

/-- The end of FRAME_UPDATE and FRAME_END: CAPACITY, or what they emit (rules R344, R345). -/
theorem State.finish_frameOutput (s : State) (h : BitVec 8) (consumed : Nat) (r : List Byte × FComp) :
    (if s.dstCap < r.1.length then s.raise h .capacityOutput
      else
        s.finish { s.success h with
          out := r.1
          resultLen := r.1.length
          consumed := consumed
          slots := setSlot s.slots h (some (.fcomp r.2)) }) = s.finish (s.frameOutput h consumed r) := by
  rw [State.frameOutput]
  split <;> rfl

theorem State.leaves_frameOutput {s : State} (hs : s.undisturbed = true) {h : BitVec 8} {consumed : Nat}
    {r : List Byte × FComp} {report : Report} (hr : s.frameOutput h consumed r = report) :
    s.Leaves
      (if s.dstCap < r.1.length then s.raise h .capacityOutput
      else
        s.finish { s.success h with
          out := r.1
          resultLen := r.1.length
          consumed := consumed
          slots := setSlot s.slots h (some (.fcomp r.2)) })
      report := by
  rw [State.finish_frameOutput, hr]
  exact State.leaves_finish hs report

/-- Settles O45: CMD[31:16], the handle, an open frame, the buffers, then what the source bytes emit. -/
theorem frameUpdateResult : Obligations.FrameUpdateResult := by
  intro h rsvd s hs
  refine State.runsTo_of_leaves rfl (State.leaves_rsvdCheck hs ?_)
  rw [State.fcompAt]
  cases hslot : slotAt s.slots h with
  | none => exact State.leaves_raise hs h .badHandle
  | some ctx =>
    cases ctx with
    | fcomp c =>
      refine State.leaves_check hs c.fstate.not_open_iff (State.leaves_bufferChecks (checks := []) hs ?_)
      simp only [State.finish_frameOutput]
      refine State.leaves_source hs (f := fun src => s.frameOutput h s.srcLen (updateFrame s.hash c src)) ?_
      rw [State.frameOutput, setSlot_of_slotAt hslot]
    | cstream _ | dstream _ | fdecomp _ => exact State.leaves_raise hs h .badHandle

/-! ## FRAME_END -/

/-- What FRAME_END emits and keeps (rule R345). -/
theorem endFrame_eq (hash : Word → Nat) (c : FComp) : endFrame hash c =
    ((if c.pending = [] then [] else (makeBlock hash c c.pending).1) ++ [0x00, 0x00, 0x00, 0x00]
        ++ (if c.prefs.ccrc then bytesLE 4 (xxh32 c.content).toNat else []),
      { (if c.pending = [] then c else (makeBlock hash c c.pending).2) with pending := [], fstate := .ended }) := by
  rw [endFrame, flushPending]
  split
  next h =>
    obtain ⟨⟩ := c
    cases h
    rfl
  next => rfl

/-- Settles O47: CMD[31:16], the handle, an open frame, the declared size, the destination, then what ends the frame. -/
theorem frameEndResult : Obligations.FrameEndResult := by
  intro h rsvd s hs
  refine State.runsTo_of_leaves rfl (State.leaves_rsvdCheck hs ?_)
  rw [State.fcompAt]
  cases hslot : slotAt s.slots h with
  | none => exact State.leaves_raise hs h .badHandle
  | some ctx =>
    cases ctx with
    | fcomp c =>
      have hsize : (c.prefs.csize != 0 && c.prefs.csize != c.total) = true
          ↔ c.prefs.csize ≠ 0 ∧ c.prefs.csize ≠ c.total := by simp
      refine State.leaves_check hs c.fstate.not_open_iff (State.leaves_check hs hsize
        (State.leaves_destChecks (checks := []) hs ?_))
      refine State.leaves_frameOutput (r := endFrame s.hash c) (consumed := 0) hs ?_
      rw [State.frameOutput, setSlot_of_slotAt hslot, endFrame_eq]
      rfl
    | cstream _ | dstream _ | fdecomp _ => exact State.leaves_raise hs h .badHandle

end Sys2Proof.Machine
end

section
/-!
PROOF. A whole frame as the records of blocks whose bytes are the content (rules R342 to R345, R348).
-/

namespace Sys2Proof.Machine

/-- From `c` the frame compressor takes `src` and emits `out`, the records of `blocks`, to reach `t`: the pending bytes and `src`
are the blocks' bytes and what then pends (rules R344, R345). -/
structure Emits (hash : Word → Nat) (c : FComp) (src out : List Byte) (blocks : List (List Byte)) (t : FComp) : Prop where
  block_size : ∀ b ∈ blocks, b ≠ [] ∧ b.length ≤ Config.blockMax c.prefs.bsid
  bytes_eq : c.pending ++ src = blocks.flatten ++ t.pending
  out_eq : out = makeBlocks hash blocks c
  pending_lt : t.pending.length < Config.blockMax c.prefs.bsid
  prefs_eq : t.prefs = c.prefs
  stream_eq : t.stream = (afterBlocks hash blocks c).stream
  content_eq : t.content = c.content ++ src

section

variable {hash : Word → Nat} {c t u : FComp} {src src' out out' : List Byte} {blocks blocks' : List (List Byte)}

theorem Emits.refl (hash : Word → Nat) (h : c.pending.length < Config.blockMax c.prefs.bsid) : Emits hash c [] [] [] c where
  block_size := nofun
  bytes_eq := List.append_nil _
  out_eq := rfl
  pending_lt := h
  prefs_eq := rfl
  stream_eq := rfl
  content_eq := (List.append_nil _).symm

theorem Emits.trans (h : Emits hash c src out blocks t) (h' : Emits hash t src' out' blocks' u) :
    Emits hash c (src ++ src') (out ++ out') (blocks ++ blocks') u := by
  have hprefs : t.prefs = (afterBlocks hash blocks c).prefs := h.prefs_eq.trans (afterBlocks_prefs ..).symm
  obtain ⟨hmake, hafter⟩ := makeBlocks_congr hash blocks' hprefs h.stream_eq
  exact {
    block_size := fun b hb => (List.mem_append.mp hb).elim (h.block_size b) fun hb => h.prefs_eq ▸ h'.block_size b hb
    bytes_eq := by
      rw [← List.append_assoc, h.bytes_eq, List.append_assoc, h'.bytes_eq, List.flatten_append, List.append_assoc]
    out_eq := by rw [makeBlocks_append, h.out_eq, h'.out_eq, hmake]
    pending_lt := h.prefs_eq ▸ h'.pending_lt
    prefs_eq := h'.prefs_eq.trans h.prefs_eq
    stream_eq := by rw [h'.stream_eq, hafter, afterBlocks_append]
    content_eq := by rw [h'.content_eq, h.content_eq, List.append_assoc] }

theorem block_size_restBlock {n : Nat} {last : List Byte} (h : last.length < n) :
    ∀ b ∈ restBlock last, b ≠ [] ∧ b.length ≤ n := by
  rw [restBlock]
  split
  · exact nofun
  next hne => exact List.forall_mem_singleton.mpr ⟨hne, h.le⟩

/-- The blocks of one FRAME_UPDATE are not empty and fit in BLOCK_MAX, and their bytes are those that no longer pend. -/
theorem Cut.emittedBlocks_cover {n : Nat} {bs last : List Byte} {full : List (List Byte)} (h : Cut n bs full last)
    (autoFlush : Bool) : (∀ b ∈ emittedBlocks autoFlush full last, b ≠ [] ∧ b.length ≤ n)
      ∧ bs = (emittedBlocks autoFlush full last).flatten ++ if autoFlush then [] else last := by
  have hfull : ∀ b ∈ full, b ≠ [] ∧ b.length ≤ n := fun b hb =>
    have hlen := h.length_full b hb
    ⟨List.ne_nil_of_length_pos (hlen ▸ Nat.zero_lt_of_lt h.length_last), hlen.le⟩
  cases autoFlush with
  | false => exact ⟨by simpa [emittedBlocks] using hfull, by simpa [emittedBlocks] using h.eq_append⟩
  | true =>
    refine ⟨fun b hb => (List.mem_append.mp hb).elim (hfull b) (block_size_restBlock h.length_last b), ?_⟩
    rw [emittedBlocks, if_pos rfl, if_pos rfl, List.flatten_append, flatten_restBlock, List.append_nil, h.eq_append]

theorem emits_updateFrame (hash : Word → Nat) (src : List Byte) (hbsid : bsidOk c.prefs.bsid = true) :
    ∃ blocks, Emits hash c src (updateFrame hash c src).1 blocks (updateFrame hash c src).2 := by
  obtain ⟨full, last, hcut, hupdate⟩ := updateFrame_eq hash src hbsid
  obtain ⟨hsize, hbytes⟩ := hcut.emittedBlocks_cover c.prefs.autoFlush
  rw [hupdate]
  exact ⟨_, {
    block_size := hsize
    bytes_eq := hbytes
    out_eq := rfl
    pending_lt := by
      dsimp only
      split
      · exact (blockMax_bounds hbsid).1
      · exact hcut.length_last
    prefs_eq := afterBlocks_prefs ..
    stream_eq := rfl
    content_eq := rfl }⟩

theorem emits_updateFrames (hash : Word → Nat) (chunks : List (List Byte)) (hbsid : bsidOk c.prefs.bsid = true)
    (hpending : c.pending.length < Config.blockMax c.prefs.bsid) :
    ∃ blocks, Emits hash c chunks.flatten (updateFrames hash chunks c).1 blocks (updateFrames hash chunks c).2 := by
  induction chunks generalizing c with
  | nil => exact ⟨[], .refl hash hpending⟩
  | cons x xs ih =>
    obtain ⟨blocks, hfirst⟩ := emits_updateFrame hash x hbsid
    have hprefs := hfirst.prefs_eq
    obtain ⟨blocks', hrest⟩ := ih (by rwa [hprefs]) (by rw [hprefs]; exact hfirst.pending_lt)
    exact ⟨blocks ++ blocks', hfirst.trans hrest⟩

/-- FRAME_END makes a last block of what pends (rule R345). -/
theorem emits_flushPending (hash : Word → Nat) (h : c.pending.length < Config.blockMax c.prefs.bsid) :
    Emits hash c [] (flushPending hash c).1 (restBlock c.pending) { afterBlocks hash (restBlock c.pending) c with
      pending := []
      content := c.content } where
  block_size := block_size_restBlock h
  bytes_eq := by rw [flatten_restBlock]
  out_eq := by rw [flushPending_eq]
  pending_lt := Nat.zero_lt_of_lt h
  prefs_eq := afterBlocks_prefs ..
  stream_eq := rfl
  content_eq := (List.append_nil _).symm

end

/-- The context FRAME_BEGIN leaves (rule R342). -/
def FComp.begun (p : Prefs) : FComp := { FComp.initial with prefs := p, fstate := .headerEmitted }

/-- What ends a frame: four zero bytes and, if enabled, the checksum of the content (rules R128, R129, R345). -/
def frameTail (p : Prefs) (content : List Byte) : List Byte :=
  bytesLE 4 0 ++ if p.ccrc then bytesLE 4 (xxh32 content).toNat else []

/-- A whole frame is its header, the records of blocks that together are the content, and its end (rules R342 to R345). -/
theorem compressFrame_eq (hash : Word → Nat) {p : Prefs} (chunks : List (List Byte)) (hbsid : bsidOk p.bsid = true) :
    ∃ blocks, (∀ b ∈ blocks, b ≠ [] ∧ b.length ≤ Config.blockMax p.bsid) ∧ blocks.flatten = chunks.flatten
      ∧ compressFrame hash p chunks =
        p.specHeader ++ (makeBlocks hash blocks (FComp.begun p) ++ frameTail p chunks.flatten) := by
  obtain ⟨blocks, hupdates⟩ := emits_updateFrames hash (c := FComp.begun p) chunks hbsid (blockMax_bounds hbsid).1
  have hflush := emits_flushPending hash (hupdates.prefs_eq ▸ hupdates.pending_lt)
  have hall := hupdates.trans hflush
  refine ⟨_, hall.block_size, ?_, ?_⟩
  · simpa [FComp.begun, FComp.initial] using hall.bytes_eq.symm
  · have hcontent : (updateFrames hash chunks (FComp.begun p)).2.content = chunks.flatten := hupdates.content_eq
    have hprefs : (updateFrames hash chunks (FComp.begun p)).2.prefs = p := hupdates.prefs_eq
    rw [← hall.out_eq, compressFrame, ← FComp.begun, endFrame, hcontent, hprefs, frameTail]
    simp only [List.append_assoc]

end Sys2Proof.Machine
end

section
/-!
PROOF. A block record through the loop of FRAME_DECOMPRESS: its header word, its payload byte by byte, its checksum and the
dispatch of the block (rules R127, R389 to R392); and what ends a frame (rules R128, R129, R393, R394).
-/

namespace Sys2Proof.Machine

namespace FDecomp

/-! ## One byte -/

theorem feed_blkData {c : FDecomp} (hs : c.stage = .blkData) (rules : FrameRules) (b : Byte) : c.feed rules b =
    feedBlkData rules { c with dstate := c.dstate.fed, fpos := c.fpos + 1, payload := c.payload ++ [b] } := by
  simp [feed, tick, hs, DState.fed]

/-- A payload short of its length is collected (rule R390). -/
theorem feedBlkData_of_open {c : FDecomp} (h : c.payload.length ≠ c.bword % 2 ^ 31) (rules : FrameRules) :
    c.feedBlkData rules = c.goOn := if_neg h

/-- The payload's last byte asks for the checksum, or dispatches the block (rule R390). -/
theorem feedBlkData_of_full {c : FDecomp} (h : c.payload.length = c.bword % 2 ^ 31) (rules : FrameRules) :
    c.feedBlkData rules = if c.info.bcrc then goOn { c with stage := .blkCrc } else c.processBlock rules := if_pos h

/-- A byte of a word in any of the stages that collect one, `c.acc` holding it already (rules R389, R391, R394). -/
def feedWord (rules : FrameRules) (x : Nat) (c : FDecomp) : FeedResult :=
  match c.stage with
  | .blkCrc => c.feedBlkCrc rules x
  | .ccrc => c.feedCcrc x
  | _ => c.feedBlkHdr rules x

theorem feed_of_inWord {c : FDecomp} (hs : c.stage.inWord) (rules : FrameRules) (b : Byte) : c.feed rules b =
    feedWord rules c.fpos { c with dstate := c.dstate.fed, fpos := c.fpos + 1, acc := c.acc ++ [b] } := by
  obtain hs | hs | hs := hs
  · rw [feed_blkHdr hs, feedWord, hs]
  · rw [feed_blkCrc hs, feedWord, hs]
  · rw [feed_ccrc hs, feedWord, hs]

theorem le32_bytesLE_toNat (v : Word) : le32 (bytesLE 4 v.toNat) 0 = v.toNat := by
  rw [← List.append_nil (bytesLE 4 v.toNat), le32_bytesLE_append v.isLt]

/-- A block checksum that is the payload's dispatches the block (rule R391). -/
theorem feedWord_of_blockCrc {c : FDecomp} (hs : c.stage = .blkCrc) (rules : FrameRules) (x : Nat) :
    feedWord rules x { c with acc := bytesLE 4 (xxh32 c.payload).toNat } = processBlock rules { c with acc := [] } := by
  simp only [feedWord, hs, feedBlkCrc, length_bytesLE, le32_bytesLE_toNat, ne_eq, not_true_eq_false, if_true, if_false]

/-- A content checksum that is the content's completes the frame (rule R394). -/
theorem feedWord_of_contentCrc {c : FDecomp} (hs : c.stage = .ccrc) (rules : FrameRules) (x : Nat) :
    feedWord rules x { c with acc := bytesLE 4 (xxh32 c.content).toNat } =
      goOn { c with acc := [], stage := .ended, dstate := .complete } := by
  simp only [feedWord, hs, feedCcrc, length_bytesLE, le32_bytesLE_toNat, ne_eq, not_true_eq_false, if_true, if_false]

/-- The context once `n` more bytes after the header have been fed (rule R386). -/
def fed (c : FDecomp) (n : Nat) : FDecomp := { c with dstate := c.dstate.fed, fpos := c.fpos + n }

/-! ## The dispatch of a block -/

/-- The block's payload gives the bytes `blk`: it is stored, or decodes to them (rule R392). -/
def Gives (rules : FrameRules) (c : FDecomp) (w : Nat) (payload blk : List Byte) : Prop :=
  2 ^ 31 ≤ w ∧ blk = payload ∨ w < 2 ^ 31
    ∧ blockDecode rules.strictTail payload (Config.blockMax c.info.bsid) c.blockHistory = (blk, none)

theorem processBlock_of_gives {rules : FrameRules} {c : FDecomp} {blk : List Byte}
    (h : c.Gives rules c.bword c.payload blk) : c.processBlock rules = goOn (c.deliverBlock blk) := by
  obtain ⟨hw, rfl⟩ | ⟨hw, hdecode⟩ := h
  · exact if_pos hw
  · rw [processBlock, if_neg (Nat.not_le.mpr hw), hdecode]

/-- `d` is past the collecting of a block's bytes that `c` stands before: the content, its history and the header are `c`'s. -/
structure SameContent (c d : FDecomp) : Prop where
  info : d.info = c.info
  dict : d.dict = c.dict
  hist : d.hist = c.hist
  pending : d.pending = c.pending
  content : d.content = c.content
  total : d.total = c.total

end FDecomp

/-! ## The bytes of a record -/

/-- The working registers once the bytes `bs` of a payload are collected (rule R390). -/
def FrameRun.collectedPayload (r : FrameRun) (bs : List Byte) : FrameRun :=
  { r with
    ctx := { r.ctx with dstate := r.ctx.dstate.fed, fpos := r.ctx.fpos + bs.length, payload := r.ctx.payload ++ bs }
    used := r.used + bs.length }

section

variable {rules : FrameRules} {cap : Nat} {run : FrameRun} {d : FDecomp}

/-- The loop over a word whose last byte goes on with `d`. -/
theorem frameLoop_of_word {bs : List Byte} (hp : run.ctx.pending = []) (hs : run.ctx.stage.inWord)
    (hacc : run.ctx.acc = []) (hlen : bs.length = 4)
    (hf : FDecomp.feedWord rules (run.ctx.fpos + 3) { run.ctx.fed 4 with acc := bs } = d.goOn) (ys : List Byte) :
    frameLoop rules cap (bs ++ ys) run = frameLoop rules cap ys { run with ctx := d, used := run.used + 4 } := by
  obtain ⟨init, b, rfl⟩ := (List.eq_nil_or_concat' bs).resolve_left (by rintro rfl; simp at hlen)
  have hinit : init.length = 3 := by simpa using hlen
  have hfeed : (run.collectedWord init).ctx.feed rules b = d.goOn := by
    rw [FDecomp.feed_of_inWord (c := (run.collectedWord init).ctx) hs, ← hf]
    simp only [FrameRun.collectedWord, FDecomp.fed, DState.fed_fed, hacc, hinit, List.nil_append]
  rw [List.append_assoc, frameLoop_of_open_word hp hs (by rintro rfl; simp at hinit) (by simp [hacc, hinit]),
    List.singleton_append, frameLoop_of_goOn (r := run.collectedWord init) hp hs.ne_ended hfeed]
  simp only [FrameRun.collectedWord, hinit]

/-- The loop over the bytes of a payload before its last one. -/
theorem frameLoop_of_open_payload {bs : List Byte} (hp : run.ctx.pending = []) (hs : run.ctx.stage = .blkData)
    (hfed : run.ctx.dstate.fed = run.ctx.dstate) (hlen : (run.ctx.payload ++ bs).length < run.ctx.bword % 2 ^ 31)
    (ys : List Byte) : frameLoop rules cap (bs ++ ys) run = frameLoop rules cap ys (run.collectedPayload bs) := by
  induction bs generalizing run with
  | nil => simp [FrameRun.collectedPayload, hfed]
  | cons b bs ih =>
    rw [List.append_cons] at hlen
    have hfeed : run.ctx.feed rules b = (run.collectedPayload [b]).ctx.goOn := by
      rw [FDecomp.feed_blkData hs, FDecomp.feedBlkData_of_open]
      · rfl
      · rw [List.length_append] at hlen
        exact (Nat.lt_of_le_of_lt (Nat.le_add_right ..) hlen).ne
    rw [List.cons_append, frameLoop_of_goOn hp (by simp [hs]) hfeed]
    refine (ih (run := run.collectedPayload [b]) hp hs (DState.fed_fed _) hlen).trans ?_
    simp [FrameRun.collectedPayload, DState.fed_fed, Nat.add_assoc, Nat.add_comm 1]

/-- The loop over a payload whose last byte goes on with `d`. -/
theorem frameLoop_of_payload {bs : List Byte} (hp : run.ctx.pending = []) (hs : run.ctx.stage = .blkData)
    (hfed : run.ctx.dstate.fed = run.ctx.dstate) (hpayload : run.ctx.payload = []) (hne : bs ≠ [])
    (hlen : bs.length = run.ctx.bword % 2 ^ 31)
    (hf : FDecomp.feedBlkData rules (run.collectedPayload bs).ctx = d.goOn) (ys : List Byte) :
    frameLoop rules cap (bs ++ ys) run = frameLoop rules cap ys { run with ctx := d, used := run.used + bs.length } := by
  obtain ⟨init, b, rfl⟩ := (List.eq_nil_or_concat' bs).resolve_left hne
  rw [List.length_append, List.length_singleton] at hlen
  have hfeed : (run.collectedPayload init).ctx.feed rules b = d.goOn := by
    rw [FDecomp.feed_blkData (c := (run.collectedPayload init).ctx) hs, ← hf]
    simp [FrameRun.collectedPayload, DState.fed_fed, Nat.add_assoc]
  rw [List.append_assoc, frameLoop_of_open_payload hp hs hfed (by rw [hpayload, List.nil_append]; omega),
    List.singleton_append, frameLoop_of_goOn (r := run.collectedPayload init) hp (hs.trans_ne (by decide)) hfeed]
  simp [FrameRun.collectedPayload, Nat.add_assoc]

/-- The loop over a payload's checksum: the block's bytes join the output (rules R391, R392). -/
theorem frameLoop_of_blockCrc {blk : List Byte} (hp : run.ctx.pending = []) (hs : run.ctx.stage = .blkCrc)
    (hacc : run.ctx.acc = []) (hgives : run.ctx.Gives rules run.ctx.bword run.ctx.payload blk) (ys : List Byte) :
    frameLoop rules cap (bytesLE 4 (xxh32 run.ctx.payload).toNat ++ ys) run = frameLoop rules cap ys { run with
      ctx := FDecomp.deliverBlock { run.ctx.fed 4 with acc := [] } blk
      used := run.used + 4 } :=
  frameLoop_of_word hp (.inr (.inl hs)) hacc (length_bytesLE ..)
    ((FDecomp.feedWord_of_blockCrc (c := run.ctx.fed 4) hs rules _).trans
      (FDecomp.processBlock_of_gives (c := { run.ctx.fed 4 with acc := [] }) hgives)) ys

/-- The working registers past the header word `w` of a block, its payload next (rule R389). -/
def FrameRun.atPayload (r : FrameRun) (w : Nat) : FrameRun :=
  { r with
    ctx := { r.ctx with
      dstate := r.ctx.dstate.fed
      stage := .blkData
      acc := []
      fpos := r.ctx.fpos + 4
      bword := w
      boff := r.ctx.fpos
      poff := r.ctx.fpos + 4
      payload := [] }
    used := r.used + 4 }

/-- The loop over the header word of a block with a payload (rule R389). -/
theorem frameLoop_of_blockHeader {w : Nat} (hp : run.ctx.pending = []) (hs : run.ctx.stage = .blkHdr)
    (hacc : run.ctx.acc = []) (hw : w < 2 ^ 32) (hpos : 0 < w % 2 ^ 31)
    (hmax : w % 2 ^ 31 ≤ Config.blockMax run.ctx.info.bsid) (ys : List Byte) :
    frameLoop rules cap (bytesLE 4 w ++ ys) run = frameLoop rules cap ys (run.atPayload w) := by
  have hword : (BitVec.ofNat 32 w).toNat = w := Nat.mod_eq_of_lt hw
  have hloop := frameLoop_of_blockWord (rules := rules) (cap := cap) hp hs hacc (w := BitVec.ofNat 32 w)
    (FDecomp.takeWord_of_payload (by rwa [hword]) (by rwa [hword])) hp
  rw [wordBytes, hword] at hloop
  rw [frameLoop_append, hloop]
  rfl

/-- The working registers past the payload of a block with header word `w`, its checksum next (rule R390). -/
def FrameRun.atBlockCrc (r : FrameRun) (w : Nat) (payload : List Byte) : FrameRun :=
  { (r.atPayload w).collectedPayload payload with
    ctx := { ((r.atPayload w).collectedPayload payload).ctx with stage := .blkCrc } }

/-- The loop over a block record: the block's bytes join the output (rules R127, R389 to R392). -/
theorem frameLoop_of_record {w : Nat} {payload blk : List Byte} (hp : run.ctx.pending = []) (hs : run.ctx.stage = .blkHdr)
    (hacc : run.ctx.acc = []) (hw : w < 2 ^ 32) (hne : payload ≠ []) (hlen : payload.length = w % 2 ^ 31)
    (hmax : payload.length ≤ Config.blockMax run.ctx.info.bsid) (hgives : run.ctx.Gives rules w payload blk) :
    ∃ c n, (∀ ys, frameLoop rules cap
      (bytesLE 4 w ++ payload ++ (if run.ctx.info.bcrc then bytesLE 4 (xxh32 payload).toNat else []) ++ ys) run
        = frameLoop rules cap ys { run with ctx := c.deliverBlock blk, used := n })
      ∧ run.ctx.SameContent c ∧ c.acc = [] := by
  have hheader := frameLoop_of_blockHeader (rules := rules) (cap := cap) hp hs hacc hw
    (hlen ▸ List.length_pos_iff.mpr hne) (hlen ▸ hmax)
  have hfull := FDecomp.feedBlkData_of_full (c := ((run.atPayload w).collectedPayload payload).ctx) hlen rules
  cases hcrc : run.ctx.info.bcrc with
  | false =>
    have hpayload := frameLoop_of_payload (cap := cap) (run := run.atPayload w) hp rfl (DState.fed_fed _) rfl hne hlen
      ((hfull.trans (if_neg (hcrc ▸ Bool.false_ne_true))).trans (FDecomp.processBlock_of_gives hgives))
    refine ⟨((run.atPayload w).collectedPayload payload).ctx, (run.atPayload w).used + payload.length, fun ys => ?_,
      ⟨rfl, rfl, rfl, rfl, rfl, rfl⟩, rfl⟩
    rw [if_neg Bool.false_ne_true, List.append_nil, List.append_assoc, hheader, hpayload]
    rfl
  | true =>
    have hpayload := frameLoop_of_payload (cap := cap) (run := run.atPayload w) hp rfl (DState.fed_fed _) rfl hne hlen
      (hfull.trans (if_pos hcrc))
    have hsum := frameLoop_of_blockCrc (cap := cap) (run := run.atBlockCrc w payload) hp rfl rfl hgives
    refine ⟨{ (run.atBlockCrc w payload).ctx.fed 4 with acc := [] }, (run.atBlockCrc w payload).used + 4, fun ys => ?_,
      ⟨rfl, rfl, rfl, rfl, rfl, rfl⟩, rfl⟩
    rw [if_pos rfl, List.append_assoc, List.append_assoc, hheader, hpayload]
    exact hsum ys

/-! ## The end of a frame -/

/-- The end mark of a frame whose declared size, if any, is the content's (rule R393). -/
theorem FDecomp.endMark_of_size (hsize : d.info.csize = 0 ∨ d.info.csize = d.total) : d.endMark = goOn { d with
    stage := if d.info.ccrc then .ccrc else .ended
    dstate := if d.info.ccrc then d.dstate else .complete } := by
  have hmatch : ¬(d.info.csize ≠ 0 ∧ d.total ≠ d.info.csize) := fun ⟨hne, hne'⟩ => hsize.elim hne fun h => hne' h.symm
  rw [FDecomp.endMark, if_neg hmatch]
  cases d.info.ccrc <;> rfl

/-- The working registers past the end mark of a frame of the declared size (rule R393). -/
def FrameRun.pastEndMark (r : FrameRun) : FrameRun :=
  { r with
    ctx := { r.ctx.fed 4 with
      acc := []
      bword := 0
      boff := r.ctx.fpos
      stage := if r.ctx.info.ccrc then .ccrc else .ended
      dstate := if r.ctx.info.ccrc then r.ctx.dstate.fed else .complete }
    used := r.used + 4 }

/-- The loop over the end mark (rules R128, R393). -/
theorem frameLoop_of_endMark (hp : run.ctx.pending = []) (hs : run.ctx.stage = .blkHdr) (hacc : run.ctx.acc = [])
    (hsize : run.ctx.info.csize = 0 ∨ run.ctx.info.csize = run.ctx.total) :
    frameLoop rules cap (bytesLE 4 0) run = (run.pastEndMark, none) :=
  frameLoop_of_blockWord (w := 0) hp hs hacc
    (FDecomp.endMark_of_size (d := { run.ctx.fed 4 with acc := [], boff := run.ctx.fpos, bword := 0 }) hsize) hp

/-- The loop over a content checksum that is the content's (rule R394). -/
theorem frameLoop_of_contentCrc (hp : run.ctx.pending = []) (hs : run.ctx.stage = .ccrc) (hacc : run.ctx.acc = []) :
    frameLoop rules cap (bytesLE 4 (xxh32 run.ctx.content).toNat) run = ({ run with
      ctx := { run.ctx.fed 4 with acc := [], stage := .ended, dstate := .complete }
      used := run.used + 4 }, none) := by
  have hloop := frameLoop_of_word (rules := rules) (cap := cap) hp (.inr (.inr hs)) hacc (length_bytesLE ..)
    (FDecomp.feedWord_of_contentCrc (c := run.ctx.fed 4) hs rules _) []
  rw [List.append_nil] at hloop
  exact hloop.trans (frameLoop_nil_of_empty (by exact hp) rules cap)

end

end Sys2Proof.Machine
end

section
/-!
PROOF. The frame decompressor follows the frame compressor block by block, so that every frame written decodes to its content
(rules R348, R385 to R399).
-/

namespace Sys2Proof.Machine

/-! ## One block -/

/-- What a linked block reads and moves on, as a DSTREAM of blocks of BLOCK_MAX bytes (rules R47, R49). -/
def FDecomp.stream (c : FDecomp) : DStream where
  blockSize := Config.blockMax c.info.bsid
  hist := c.hist
  state := .ready

/-- The header information of a frame written with the preferences `p` (rules R341, R381). -/
def Prefs.frameInfo (p : Prefs) : FrameInfo where
  skippable := false
  indep := p.indep
  bcrc := p.bcrc
  csflag := p.csize != 0
  ccrc := p.ccrc
  dflag := false
  bsid := p.bsid
  csize := p.csize
  dictid := 0
  skip := 0

/-- The frame decompressor stands between two blocks, where the frame compressor in context `c` stood after the content `done`:
`done` is delivered, and for linked blocks the histories agree (rules R343, R392). -/
structure Follows (c : FComp) (done : List Byte) (r : FrameRun) : Prop where
  stage : r.ctx.stage = .blkHdr
  acc : r.ctx.acc = []
  pending : r.ctx.pending = []
  dict : r.ctx.dict = []
  info : r.ctx.info = c.prefs.frameInfo
  content : r.ctx.content = done
  total : r.ctx.total = done.length
  out : r.out = done
  linked : c.prefs.indep = false → StreamsAgree c.stream r.ctx.stream

section

variable {rules : FrameRules} {cap : Nat} {hash : Word → Nat} {c : FComp} {done b : List Byte} {r : FrameRun}

/-- What the block compressor makes of a block decodes, from the history the frame decompressor has there (rules R222 (a),
R343, R392). -/
theorem Follows.blockDecode_compressBlock (h : Follows c done r) (hash : Word → Nat) (strictTail : Bool)
    (hmax : b.length ≤ Config.blockMax c.prefs.bsid) : blockDecode strictTail (compressBlock hash c b).1
      (Config.blockMax r.ctx.info.bsid) r.ctx.blockHistory = (b, none) := by
  rw [FDecomp.blockHistory, h.info, h.dict, compressBlock]
  cases hindep : c.prefs.indep with
  | true =>
    rw [if_pos rfl, if_pos (by simpa [Prefs.frameInfo] using hindep)]
    exact compressorRoundTrip hash strictTail [] b [] 0 _ nofun hmax
  | false =>
    rw [if_neg (by decide), if_neg (by simp [Prefs.frameInfo, hindep])]
    exact (h.linked hindep).blockDecode_compressCore hash strictTail hmax

/-- The record of a block is a header word and a payload that gives the block (rules R127, R343, R392). -/
theorem Follows.exists_record (h : Follows c done r) (hash : Word → Nat) (rules : FrameRules)
    (hbsid : bsidOk c.prefs.bsid = true) (hne : b ≠ []) (hmax : b.length ≤ Config.blockMax c.prefs.bsid) :
    ∃ w payload, w < 2 ^ 32 ∧ payload ≠ [] ∧ payload.length = w % 2 ^ 31
      ∧ payload.length ≤ Config.blockMax c.prefs.bsid ∧ r.ctx.Gives rules w payload b
      ∧ (makeBlock hash c b).1 =
        bytesLE 4 w ++ payload ++ (if c.prefs.bcrc then bytesLE 4 (xxh32 payload).toNat else []) := by
  have hbound := (blockMax_bounds hbsid).2
  rw [makeBlock_eq]
  by_cases hstored : b.length ≤ (compressBlock hash c b).1.length
  · exact ⟨2 ^ 31 + b.length, b, by omega, hne, by omega, hmax, .inl ⟨Nat.le_add_right .., rfl⟩,
      blockRecord_of_stored hstored _⟩
  · have hsmaller := Nat.not_le.mp hstored
    have hlt : (compressBlock hash c b).1.length < 2 ^ 31 := by omega
    have hnil : (compressBlock hash c b).1 ≠ [] := by
      rw [compressBlock]
      split <;> exact Scan.block_ne_nil _
    exact ⟨_, _, by omega, hnil, (Nat.mod_eq_of_lt hlt).symm, by omega,
      .inr ⟨hlt, h.blockDecode_compressBlock hash rules.strictTail hmax⟩, blockRecord_of_compressed hsmaller _⟩

/-- A block delivered keeps the frame decompressor at the frame compressor's place (rules R343, R392). -/
theorem Follows.deliverBlock (h : Follows c done r) (hash : Word → Nat) {d : FDecomp} (hd : r.ctx.SameContent d)
    (hacc : d.acc = []) (n : Nat) (hcap : (done ++ b).length ≤ cap) :
    Follows (makeBlock hash c b).2 (done ++ b) (FrameRun.deliver cap { r with ctx := d.deliverBlock b, used := n }) := by
  have hpending : (d.deliverBlock b).pending = b := by
    rw [FDecomp.deliverBlock_pending, hd.pending, h.pending, List.nil_append]
  have hroom : min b.length (cap - r.out.length) = b.length := by
    rw [List.length_append] at hcap
    rw [h.out]
    omega
  have hprefs := makeBlock_prefs hash c b
  exact {
    stage := rfl
    acc := hacc
    pending := by
      dsimp only [FrameRun.deliver]
      rw [hpending, hroom, List.drop_length]
    dict := hd.dict.trans h.dict
    info := by rw [hprefs, ← h.info, ← hd.info]; rfl
    content := by rw [← h.content, ← hd.content]; rfl
    total := by rw [List.length_append, ← h.total, ← hd.total]; rfl
    out := by
      dsimp only [FrameRun.deliver]
      rw [hpending, hroom, List.take_length, h.out]
    linked := fun hlinked => by
      rw [hprefs] at hlinked
      have hpush := (h.linked hlinked).push hash b
      rw [makeBlock_stream, if_neg (by simp [hlinked]), compressBlock, if_neg (by simp [hlinked])]
      have hstream : (FrameRun.deliver cap { r with ctx := d.deliverBlock b, used := n }).ctx.stream =
          { r.ctx.stream with hist := lastWindow (r.ctx.stream.hist ++ b) } := by
        simp [FrameRun.deliver, FDecomp.stream, hd.info, hd.hist, h.info, Prefs.frameInfo, hlinked]
      rw [hstream]
      exact hpush }

/-- The loop over the record of a block. -/
theorem Follows.frameLoop_makeBlock (h : Follows c done r) (hash : Word → Nat) (rules : FrameRules)
    (hbsid : bsidOk c.prefs.bsid = true) (hne : b ≠ []) (hmax : b.length ≤ Config.blockMax c.prefs.bsid)
    (hcap : (done ++ b).length ≤ cap) : ∃ r', Follows (makeBlock hash c b).2 (done ++ b) r'
      ∧ ∀ ys, frameLoop rules cap ((makeBlock hash c b).1 ++ ys) r = frameLoop rules cap ys r' := by
  obtain ⟨w, payload, hw, hpayload, hlen, hsize, hgives, hrecord⟩ := h.exists_record hash rules hbsid hne hmax
  obtain ⟨d, n, hloop, hd, hacc⟩ := frameLoop_of_record (cap := cap) h.pending h.stage h.acc hw hpayload hlen
    (by rw [h.info]; exact hsize) hgives
  refine ⟨_, h.deliverBlock hash hd hacc n hcap, fun ys => ?_⟩
  rw [frameLoop_deliver, ← hloop, hrecord, h.info]
  rfl

/-- The loop over the records of consecutive blocks. -/
theorem Follows.frameLoop_makeBlocks (h : Follows c done r) (hash : Word → Nat) (rules : FrameRules)
    (hbsid : bsidOk c.prefs.bsid = true) {blocks : List (List Byte)}
    (hblocks : ∀ b ∈ blocks, b ≠ [] ∧ b.length ≤ Config.blockMax c.prefs.bsid)
    (hcap : (done ++ blocks.flatten).length ≤ cap) :
    ∃ r', Follows (afterBlocks hash blocks c) (done ++ blocks.flatten) r'
      ∧ ∀ ys, frameLoop rules cap (makeBlocks hash blocks c ++ ys) r = frameLoop rules cap ys r' := by
  induction blocks generalizing c done r with
  | nil => exact ⟨r, by simpa [afterBlocks] using h, fun ys => rfl⟩
  | cons b bs ih =>
    obtain ⟨⟨hne, hmax⟩, hrest⟩ := List.forall_mem_cons.mp hblocks
    rw [List.flatten_cons, ← List.append_assoc] at hcap ⊢
    have hprefs := makeBlock_prefs hash c b
    obtain ⟨r₁, h₁, hfirst⟩ := h.frameLoop_makeBlock hash rules hbsid hne hmax
      (Nat.le_trans (by simp) hcap)
    obtain ⟨r₂, h₂, hlast⟩ := ih h₁ (by rwa [hprefs]) (by rwa [hprefs]) hcap
    refine ⟨r₂, h₂, fun ys => ?_⟩
    rw [makeBlocks, List.append_assoc, hfirst, hlast]

/-! ## The end of a frame -/

/-- The loop over the end of a frame completes it (rules R393, R394). -/
theorem Follows.frameLoop_frameTail (h : Follows c done r) (rules : FrameRules) (cap : Nat)
    (hsize : c.prefs.csize = 0 ∨ c.prefs.csize = done.length) : ∃ r',
      frameLoop rules cap (frameTail c.prefs done) r = (r', none)
      ∧ r'.out = done ∧ r'.ctx.dstate = .complete ∧ r'.ctx.pending = [] := by
  have hmark := frameLoop_of_endMark (rules := rules) (cap := cap) h.pending h.stage h.acc
    (by rwa [h.info, h.total])
  have hccrc : r.ctx.info.ccrc = c.prefs.ccrc := by rw [h.info]; rfl
  rw [frameTail]
  cases hcrc : c.prefs.ccrc with
  | false =>
    rw [if_neg Bool.false_ne_true, List.append_nil]
    exact ⟨_, hmark, h.out, by simp [FrameRun.pastEndMark, hccrc, hcrc], h.pending⟩
  | true =>
    have hsum := frameLoop_of_contentCrc (rules := rules) (cap := cap) (run := r.pastEndMark) h.pending
      (by simp [FrameRun.pastEndMark, hccrc, hcrc]) rfl
    rw [if_pos rfl, frameLoop_append, hmark, ← h.content]
    exact ⟨_, hsum, h.out.trans h.content.symm, rfl, h.pending⟩

end

/-! ## The whole frame -/

/-- A loop that leaves no output waiting has consumed every byte (rule R385). -/
theorem used_of_frameLoop {rules : FrameRules} {cap : Nat} {bs : List Byte} {r r' : FrameRun}
    (h : frameLoop rules cap bs r = (r', none)) (hp : r'.ctx.pending = []) : r'.used = r.used + bs.length := by
  induction bs generalizing r with
  | nil =>
    cases h
    rfl
  | cons b bs ih =>
    simp only [frameLoop] at h
    split_ifs at h with hfull hended
    · cases h
      exact absurd hp hfull
    · cases h
    · split at h
      · cases h
      next r₁ heat =>
        have hused : r₁.used = r.used + 1 := congrArg (fun x => x.1.used) heat.symm
        rw [ih h, hused, List.length_cons]
        omega

/-- The working registers of FRAME_DECOMPRESS on a fresh context (rule R385). -/
def FrameRun.fresh (info : Info) : FrameRun := { ctx := FDecomp.initial, info := info, used := 0, out := [] }

theorem Prefs.header_eq_of_bsidOk {p : Prefs} (h : bsidOk p.bsid = true) : p.header = p.specHeader :=
  Prefs.header_eq_specHeader (Nat.lt_succ_of_le ((bsidOk_iff p.bsid).mp h).2)

/-- A written header is open until its last byte (rules R121, R341). -/
theorem Prefs.exists_headerOpen (p : Prefs) : ∃ front b, p.header = front ++ [b] ∧ HeaderOpen front := by
  have hflg : headerLength p.flg = p.headerBody.length + 5 := p.headerLength_flg.trans p.length_header
  refine ⟨_, _, rfl, headerOpen_of_magic (by simp) (by decide) (show _ < headerLength p.flg from ?_)⟩
  rw [hflg, List.length_append, length_bytesLE]
  omega

/-- The last byte of a written header parses it (rules R341, R387). -/
theorem Prefs.feedHdr_header {p : Prefs} (hbsid : bsidOk p.bsid = true) (hcsize : p.csize < 2 ^ 64) {d : FDecomp}
    (hacc : d.acc = p.header) : d.feedHdr =
      { ctx := FDecomp.headerDone { d with acc := [] } p.frameInfo
        header := some (p.frameInfo, p.header.length)
        error := none } := by
  have hmagic : le32 d.acc 0 = magicLz4 := by
    rw [hacc]
    simp only [Prefs.header, List.append_assoc]
    exact le32_bytesLE_append (by decide) _
  obtain ⟨-, hparse⟩ := frameHeaderParsesBack p [] hbsid hcsize
  rw [List.append_nil, ← Prefs.header_eq_of_bsidOk hbsid, ← hacc] at hparse
  rw [FDecomp.feedHdr_of_legal_magic (.inr (.inr hmagic)), hparse, hacc]
  rfl

/-- The working registers past a written header, on a fresh context (rule R387). -/
def FrameRun.pastHeader (p : Prefs) : FrameRun where
  ctx := FDecomp.initial.pastHeader p.frameInfo p.header.length
  info := setInfo p.frameInfo p.header.length
  used := p.header.length
  out := []

/-- The loop over a written header, on a fresh context (rules R341, R387). -/
theorem frameLoop_header {p : Prefs} (hbsid : bsidOk p.bsid = true) (hcsize : p.csize < 2 ^ 64) (rules : FrameRules)
    (cap : Nat) (info : Info) (ys : List Byte) :
    frameLoop rules cap (p.header ++ ys) (FrameRun.fresh info) = frameLoop rules cap ys (FrameRun.pastHeader p) := by
  obtain ⟨front, b, hheader, hopen⟩ := p.exists_headerOpen
  have hlen : p.header.length = front.length + 1 := by rw [hheader, List.length_append, List.length_singleton]
  have hfeed : ((FrameRun.fresh info).collected front).ctx.feed rules b =
      { ctx := FDecomp.initial.pastHeader p.frameInfo p.header.length
        header := some (p.frameInfo, p.header.length)
        error := none } := by
    rw [FDecomp.feed_hdr rfl, Prefs.feedHdr_header hbsid hcsize hheader.symm, FDecomp.headerDone_of_frame _ rfl]
    simp [FrameRun.collected, FrameRun.fresh, FDecomp.initial, FDecomp.pastHeader, Prefs.frameInfo, hlen]
  rw [hheader, List.append_assoc, frameLoop_of_open (r := FrameRun.fresh info) rfl rfl hopen, List.singleton_append,
    frameLoop_cons (r := (FrameRun.fresh info).collected front) rfl Stage.noConfusion, FrameRun.eat, hfeed]
  simp [FrameRun.collected, FrameRun.fresh, FrameRun.pastHeader, hlen]

/-- Past the header the frame decompressor follows the context FRAME_BEGIN leaves (rules R342, R387). -/
theorem follows_pastHeader (p : Prefs) : Follows (FComp.begun p) [] (FrameRun.pastHeader p) where
  stage := rfl
  acc := rfl
  pending := rfl
  dict := rfl
  info := rfl
  content := rfl
  total := rfl
  out := rfl
  linked := fun _ => ⟨rfl, Nat.le_refl 0, nofun⟩

/-- Settles O57: past the header, each block's record delivers the block, and the end of the frame completes it. -/
theorem frameRoundTrip : Obligations.FrameRoundTrip := by
  intro hash rules p chunks cap info hbsid hsize hcsize hcap
  obtain ⟨blocks, hblocks, hcontent, hframe⟩ := compressFrame_eq hash chunks hbsid
  obtain ⟨r₁, h₁, hrecords⟩ := (follows_pastHeader p).frameLoop_makeBlocks (cap := cap) hash rules hbsid hblocks
    (by rwa [hcontent])
  rw [List.nil_append, hcontent] at h₁
  have hprefs : (afterBlocks hash blocks (FComp.begun p)).prefs = p := afterBlocks_prefs ..
  obtain ⟨r, htail, hout, hcomplete, hpending⟩ := h₁.frameLoop_frameTail rules cap (by rwa [hprefs])
  have hloop : frameLoop rules cap (compressFrame hash p chunks) (FrameRun.fresh info) = (r, none) := by
    rw [hframe, ← Prefs.header_eq_of_bsidOk hbsid,
      frameLoop_header hbsid hcsize, hrecords, ← htail, hprefs]
  exact ⟨r, hloop, hout, (used_of_frameLoop hloop hpending).trans (Nat.zero_add _), hcomplete, hpending⟩

end Sys2Proof.Machine
end

section
/-!
PROOF. XXH32 tells apart any two byte strings that differ in one byte: every step of rule R435 is injective in the hash state
and in the bytes it takes in (rules R399 (b), R431, R434, R435).
-/

namespace Sys2Proof.Machine

/-! ## Strings that differ in one byte -/

/-- Two byte strings that differ in exactly one byte. -/
inductive DifferInOneByte : List Byte → List Byte → Prop
  | here {x y : Byte} (h : x ≠ y) (after : List Byte) : DifferInOneByte (x :: after) (y :: after)
  | there (b : Byte) {xs ys : List Byte} (h : DifferInOneByte xs ys) : DifferInOneByte (b :: xs) (b :: ys)

namespace DifferInOneByte

theorem append_cons {x y : Byte} (h : x ≠ y) (before after : List Byte) :
    DifferInOneByte (before ++ x :: after) (before ++ y :: after) := by
  induction before with
  | nil => exact .here h after
  | cons b before ih => exact .there b ih

variable {xs ys : List Byte}

theorem length_eq (h : DifferInOneByte xs ys) : xs.length = ys.length := by
  induction h with
  | here _ after => rfl
  | there b _ ih => exact congrArg (· + 1) ih

/-- The byte lies in the first `n` bytes or behind them. -/
theorem take_or_drop (h : DifferInOneByte xs ys) (n : Nat) :
    DifferInOneByte (xs.take n) (ys.take n) ∧ xs.drop n = ys.drop n
      ∨ xs.take n = ys.take n ∧ DifferInOneByte (xs.drop n) (ys.drop n) := by
  induction h generalizing n with
  | here hxy after =>
    cases n with
    | zero => exact .inr ⟨rfl, .here hxy after⟩
    | succ n => exact .inl ⟨.here hxy (after.take n), rfl⟩
  | there b h ih =>
    cases n with
    | zero => exact .inr ⟨rfl, .there b h⟩
    | succ n => exact (ih n).imp (.imp_left (.there b)) (.imp_left (congrArg (b :: ·)))

theorem leNat_ne (h : DifferInOneByte xs ys) : leNat xs ≠ leNat ys := by
  induction h with
  | here hxy after =>
    have := mt BitVec.eq_of_toNat_eq hxy
    simp only [leNat]
    omega
  | there b _ ih =>
    simp only [leNat]
    omega

end DifferInOneByte

/-! ## A hash that takes in the bytes of a string -/

/-- Two runs of a hash, in the states `a` and `b` with `xs` and `ys` still to be taken in, that a change of one byte has led
apart already, or that meet it in the bytes to come. -/
def LedApart {σ : Type} (differ : σ → σ → Prop) (a b : σ) (xs ys : List Byte) : Prop :=
  differ a b ∧ xs = ys ∨ a = b ∧ DifferInOneByte xs ys

/-- One step of a hash takes in the first `size` bytes, and leads apart what differs in the state or in one of these bytes. -/
structure LeadsApart {σ : Type} (differ : σ → σ → Prop) (size : Nat) (step : σ → List Byte → σ) : Prop where
  of_state : ∀ {a b : σ}, differ a b → ∀ xs, differ (step a xs) (step b xs)
  of_bytes : ∀ {xs ys : List Byte}, DifferInOneByte (xs.take size) (ys.take size) → ∀ a, differ (step a xs) (step a ys)
  congr_take : ∀ {xs ys : List Byte}, xs.take size = ys.take size → ∀ a, step a xs = step a ys

/-- `k` steps over consecutive pieces of `size` bytes. -/
def foldPieces {σ : Type} (size : Nat) (step : σ → List Byte → σ) : Nat → σ → List Byte → σ
  | 0, a, _ => a
  | k + 1, a, bs => foldPieces size step k (step a bs) (bs.drop size)

section

variable {σ : Type} {differ : σ → σ → Prop} {size : Nat} {step : σ → List Byte → σ} {a b : σ} {xs ys : List Byte}

theorem LedApart.length_eq (h : LedApart differ a b xs ys) : xs.length = ys.length := by
  obtain ⟨-, rfl⟩ | ⟨-, h⟩ := h
  · rfl
  · exact h.length_eq

theorem LedApart.map {τ : Type} {differ' : τ → τ → Prop} {f : σ → τ} (hf : ∀ {a b}, differ a b → differ' (f a) (f b))
    (h : LedApart differ a b xs ys) : LedApart differ' (f a) (f b) xs ys :=
  h.imp (.imp_left hf) (.imp_left (congrArg f))

/-- Runs stay apart through a step, or meet the changed byte in it or later. -/
theorem LeadsApart.ledApart_step (hstep : LeadsApart differ size step) (h : LedApart differ a b xs ys) :
    LedApart differ (step a xs) (step b ys) (xs.drop size) (ys.drop size) := by
  obtain ⟨hab, rfl⟩ | ⟨rfl, h⟩ := h
  · exact .inl ⟨hstep.of_state hab xs, rfl⟩
  · exact (h.take_or_drop size).imp (.imp_left (hstep.of_bytes · a)) (.imp_left (hstep.congr_take · a))

theorem LeadsApart.ledApart_foldPieces (hstep : LeadsApart differ size step) (k : Nat) (h : LedApart differ a b xs ys) :
    LedApart differ (foldPieces size step k a xs) (foldPieces size step k b ys) (xs.drop (size * k)) (ys.drop (size * k)) := by
  induction k generalizing a b xs ys with
  | zero => exact h
  | succ k ih =>
    have hrest := ih (hstep.ledApart_step h)
    rwa [List.drop_drop, List.drop_drop, Nat.add_comm, ← Nat.mul_succ] at hrest

end

namespace XXH32

/-! ## The steps of the hash are injective -/

/-- Multiplication by a word that has an inverse modulo 2^32, as the five constants of rule R430 have. -/
theorem mul_injective {m inv : Word} (h : m * inv = 1) : Function.Injective (· * m) :=
  Function.LeftInverse.injective (g := (· * inv)) fun v =>
    (BitVec.mul_assoc v m inv).trans (h ▸ BitVec.mul_one v)

theorem mul_p1_injective : Function.Injective (· * p1) := mul_injective (inv := 244002641) (by decide)
theorem mul_p2_injective : Function.Injective (· * p2) := mul_injective (inv := 3066638151) (by decide)
theorem mul_p3_injective : Function.Injective (· * p3) := mul_injective (inv := 2828982549) (by decide)
theorem mul_p4_injective : Function.Injective (· * p4) := mul_injective (inv := 2701016015) (by decide)
theorem mul_p5_injective : Function.Injective (· * p5) := mul_injective (inv := 2923004241) (by decide)

/-- Bit `i` of a word stands `r` places higher after a rotation, around the word's end. -/
theorem rotl_injective {r : Nat} (hr : r < 32) : Function.Injective (rotl · r) := by
  intro v w h
  refine BitVec.eq_of_getLsbD_eq fun i hi => ?_
  have hbit := congrArg (BitVec.getLsbD · ((i + r) % 32)) h
  simp only [rotl, BitVec.getLsbD_rotateLeft_of_le hr] at hbit
  by_cases hwrap : i + r < 32
  · simpa [Nat.mod_eq_of_lt hwrap, hwrap] using hbit
  · have hmod : (i + r) % 32 = i + r - 32 := by omega
    have hlow : i + r - 32 < r := by omega
    have hback : 32 - r + (i + r - 32) = i := by omega
    simpa [hmod, hlow, hback] using hbit

/-- A word that is its own right shift is 0. -/
theorem eq_zero_of_eq_shift {r : Nat} (hr : 0 < r) {d : Word} (h : d = d >>> r) : d = 0 := by
  have hnat : d.toNat = d.toNat / 2 ^ r := by
    rw [← Nat.shiftRight_eq_div_pow, ← BitVec.toNat_ushiftRight, ← h]
  refine BitVec.eq_of_toNat_eq (Nat.eq_zero_of_not_pos fun hpos => ?_)
  exact (Nat.div_lt_self hpos (Nat.one_lt_two_pow hr.ne')).ne' hnat

/-- Two words with one image differ by their own difference shifted, hence not at all. -/
theorem xor_shift_injective {r : Nat} (hr : 0 < r) : Function.Injective fun v : Word => v ^^^ (v >>> r) := by
  intro v w h
  have hsame : (v ^^^ (v >>> r)) ^^^ (w ^^^ (w >>> r)) = 0 := BitVec.xor_eq_zero_iff.mpr h
  have hdiff : (v ^^^ w) ^^^ ((v ^^^ w) >>> r) = 0 := by
    rw [BitVec.ushiftRight_xor_distrib, ← hsame]
    ac_rfl
  exact BitVec.xor_eq_zero_iff.mp (eq_zero_of_eq_shift hr (BitVec.xor_eq_zero_iff.mp hdiff))

theorem avalanche_injective : Function.Injective avalanche :=
  (xor_shift_injective (r := 16) (by decide)).comp <| mul_p3_injective.comp <|
    (xor_shift_injective (r := 13) (by decide)).comp <| mul_p2_injective.comp <| xor_shift_injective (r := 15) (by decide)

theorem round_injective_acc (lane : Word) : Function.Injective (round · lane) :=
  mul_p1_injective.comp <| (rotl_injective (by decide)).comp fun _ _ => (BitVec.add_left_inj _).mp

theorem round_injective_lane (acc : Word) : Function.Injective (round acc) :=
  mul_p1_injective.comp <| (rotl_injective (by decide)).comp fun _ _ h => mul_p2_injective ((BitVec.add_right_inj _).mp h)

/-! ## The words of a string -/

theorem lane_eq_lane_drop (bs : List Byte) (i : Nat) : lane bs i = lane (bs.drop i) 0 := by
  rw [lane, lane, le32, le32, List.drop_zero]

theorem lane_zero_congr {xs ys : List Byte} (h : xs.take 4 = ys.take 4) : lane xs 0 = lane ys 0 := by
  rw [lane, lane, le32, le32, List.drop_zero, List.drop_zero, h]

theorem lane_zero_ne {xs ys : List Byte} (h : DifferInOneByte (xs.take 4) (ys.take 4)) : lane xs 0 ≠ lane ys 0 := by
  have hlt : ∀ bs : List Byte, leNat (bs.take 4) < 2 ^ 32 := fun bs =>
    (leNat_lt _).trans_le (Nat.pow_le_pow_right (n := 256) (by decide) (List.length_take_le 4 bs))
  intro heq
  have hnat := congrArg BitVec.toNat heq
  simp only [lane, le32, List.drop_zero, BitVec.toNat_ofNat, Nat.mod_eq_of_lt (hlt _)] at hnat
  exact h.leNat_ne hnat

/-- The changed byte lies in the first word or behind it. -/
theorem lane_zero_ne_or {xs ys : List Byte} (h : DifferInOneByte xs ys) :
    lane xs 0 ≠ lane ys 0 ∧ xs.drop 4 = ys.drop 4 ∨ lane xs 0 = lane ys 0 ∧ DifferInOneByte (xs.drop 4) (ys.drop 4) :=
  (h.take_or_drop 4).imp (.imp_left lane_zero_ne) (.imp_left lane_zero_congr)

/-! ## The stripes -/

/-- Exactly one of the four accumulators differs. -/
inductive Acc.DifferInOne : Acc → Acc → Prop
  | v1 {v w : Word} (h : v ≠ w) (b c d : Word) : DifferInOne ⟨v, b, c, d⟩ ⟨w, b, c, d⟩
  | v2 {v w : Word} (h : v ≠ w) (a c d : Word) : DifferInOne ⟨a, v, c, d⟩ ⟨a, w, c, d⟩
  | v3 {v w : Word} (h : v ≠ w) (a b d : Word) : DifferInOne ⟨a, b, v, d⟩ ⟨a, b, w, d⟩
  | v4 {v w : Word} (h : v ≠ w) (a b c : Word) : DifferInOne ⟨a, b, c, v⟩ ⟨a, b, c, w⟩

theorem Acc.DifferInOne.stripe {a b : Acc} (h : a.DifferInOne b) (bs : List Byte) :
    (a.stripe bs).DifferInOne (b.stripe bs) := by
  cases h with
  | v1 h => exact .v1 ((round_injective_acc _).ne h) ..
  | v2 h => exact .v2 ((round_injective_acc _).ne h) ..
  | v3 h => exact .v3 ((round_injective_acc _).ne h) ..
  | v4 h => exact .v4 ((round_injective_acc _).ne h) ..

/-- The four rotated accumulators are summed, so that a change of one of them shows. -/
theorem Acc.DifferInOne.converge_ne {a b : Acc} (h : a.DifferInOne b) : a.converge ≠ b.converge := by
  have hrotl : ∀ {r : Nat} {v w : Word}, r < 32 → v ≠ w → rotl v r ≠ rotl w r := fun hr => (rotl_injective hr).ne
  cases h with
  | v1 h => simpa [converge] using hrotl (by decide) h
  | v2 h => simpa [converge] using hrotl (by decide) h
  | v3 h => simpa [converge] using hrotl (by decide) h
  | v4 h => simpa [converge] using hrotl (by decide) h

theorem Acc.stripe_eq (a : Acc) (bs : List Byte) : a.stripe bs =
    { v1 := round a.v1 (lane bs 0)
      v2 := round a.v2 (lane (bs.drop 4) 0)
      v3 := round a.v3 (lane ((bs.drop 4).drop 4) 0)
      v4 := round a.v4 (lane (((bs.drop 4).drop 4).drop 4) 0) } := by
  simp only [List.drop_drop]
  rw [Acc.stripe, lane_eq_lane_drop bs 4, lane_eq_lane_drop bs 8, lane_eq_lane_drop bs 12]

/-- A stripe reads no more than 16 bytes. -/
theorem Acc.stripe_take (a : Acc) (bs : List Byte) : a.stripe (bs.take 16) = a.stripe bs := by
  simp [Acc.stripe, lane, le32, List.drop_take, List.take_take]

/-- A byte changed in the stripe is in one of its four words. -/
theorem Acc.stripe_differInOne {xs ys : List Byte} (h : DifferInOneByte (xs.take 16) (ys.take 16)) (a : Acc) :
    (a.stripe xs).DifferInOne (a.stripe ys) := by
  rw [← a.stripe_take xs, ← a.stripe_take ys, Acc.stripe_eq, Acc.stripe_eq]
  obtain ⟨h1, hrest⟩ | ⟨h1, h⟩ := lane_zero_ne_or h
  · rw [hrest]
    exact .v1 ((round_injective_lane _).ne h1) ..
  rw [h1]
  obtain ⟨h2, hrest⟩ | ⟨h2, h⟩ := lane_zero_ne_or h
  · rw [hrest]
    exact .v2 ((round_injective_lane _).ne h2) ..
  rw [h2]
  obtain ⟨h3, hrest⟩ | ⟨h3, h⟩ := lane_zero_ne_or h
  · rw [hrest]
    exact .v3 ((round_injective_lane _).ne h3) ..
  rw [h3]
  obtain ⟨h4, -⟩ | ⟨-, h⟩ := lane_zero_ne_or h
  · exact .v4 ((round_injective_lane _).ne h4) ..
  · simp only [List.drop_drop, List.drop_of_length_le (List.length_take_le ..)] at h
    cases h

theorem leadsApart_stripe : LeadsApart Acc.DifferInOne 16 Acc.stripe where
  of_state := Acc.DifferInOne.stripe
  of_bytes := Acc.stripe_differInOne
  congr_take h a := by rw [← a.stripe_take, h, a.stripe_take]

theorem stripes_eq_foldPieces (k : Nat) (a : Acc) (bs : List Byte) : stripes k a bs = foldPieces 16 Acc.stripe k a bs := by
  induction k generalizing a bs with
  | zero => rfl
  | succ k ih => exact ih ..

/-- The hash behind the stripes, or the one a short string starts its tail with (rule R435). -/
def afterStripes (bs : List Byte) : Word :=
  if 16 ≤ bs.length then (stripes (bs.length / 16) Acc.init bs).converge else p5

theorem ledApart_afterStripes {xs ys : List Byte} (h : DifferInOneByte xs ys) :
    LedApart (· ≠ ·) (afterStripes xs) (afterStripes ys)
      (xs.drop (16 * (xs.length / 16))) (ys.drop (16 * (xs.length / 16))) := by
  have hlen := h.length_eq
  by_cases h16 : 16 ≤ xs.length
  · have hstripes := leadsApart_stripe.ledApart_foldPieces (xs.length / 16) (a := Acc.init) (.inr ⟨rfl, h⟩)
    rw [afterStripes, afterStripes, if_pos h16, if_pos (hlen ▸ h16), ← hlen, stripes_eq_foldPieces, stripes_eq_foldPieces]
    exact hstripes.map Acc.DifferInOne.converge_ne
  · have hzero : 16 * (xs.length / 16) = 0 := by omega
    rw [afterStripes, afterStripes, if_neg h16, if_neg (hlen ▸ h16), hzero]
    exact .inr ⟨rfl, h⟩

/-! ## The tail -/

/-- One word of the tail (rule R435). -/
def tailWord (h : Word) (bs : List Byte) : Word := rotl (h + lane bs 0 * p3) 17 * p4

theorem tailWords_eq_foldPieces (k : Nat) (h : Word) (bs : List Byte) : tailWords k h bs = foldPieces 4 tailWord k h bs := by
  induction k generalizing h bs with
  | zero => rfl
  | succ k ih => exact ih ..

theorem rotl_mul_p4_injective : Function.Injective fun v => rotl v 17 * p4 :=
  mul_p4_injective.comp (rotl_injective (by decide))

theorem leadsApart_tailWord : LeadsApart (· ≠ ·) 4 tailWord where
  of_state h bs := rotl_mul_p4_injective.ne (mt (BitVec.add_left_inj _).mp h)
  of_bytes h a := rotl_mul_p4_injective.ne (mt (BitVec.add_right_inj _).mp (mul_p3_injective.ne (lane_zero_ne h)))
  congr_take h a := by rw [tailWord, tailWord, lane_zero_congr h]

theorem rotl_mul_p1_injective : Function.Injective fun v => rotl v 11 * p1 :=
  mul_p1_injective.comp (rotl_injective (by decide))

theorem tailBytes_injective (bs : List Byte) : Function.Injective (tailBytes · bs) := by
  induction bs with
  | nil => exact Function.injective_id
  | cons b bs ih => exact ih.comp <| rotl_mul_p1_injective.comp fun _ _ => (BitVec.add_left_inj _).mp

theorem zeroExtend_injective : Function.Injective fun b : Byte => b.zeroExtend 32 := fun _ _ h => by
  have hback := congrArg (BitVec.setWidth 8) h
  simpa [BitVec.zeroExtend, BitVec.setWidth_setWidth_of_le] using hback

theorem tailBytes_ne_of_bytes {xs ys : List Byte} (h : DifferInOneByte xs ys) (v : Word) :
    tailBytes v xs ≠ tailBytes v ys := by
  induction h generalizing v with
  | here hxy after =>
    refine (tailBytes_injective after).ne (rotl_mul_p1_injective.ne ?_)
    exact mt (BitVec.add_right_inj _).mp ((mul_p5_injective.comp zeroExtend_injective).ne hxy)
  | there b _ ih => exact ih _

/-- What the tail makes of the hash (rule R435). -/
def throughTail (v : Word) (tail : List Byte) : Word :=
  tailBytes (tailWords (tail.length / 4) v tail) (tail.drop (4 * (tail.length / 4)))

theorem throughTail_ne {v w : Word} {xs ys : List Byte} (h : LedApart (· ≠ ·) v w xs ys) :
    throughTail v xs ≠ throughTail w ys := by
  have hwords := leadsApart_tailWord.ledApart_foldPieces (xs.length / 4) h
  rw [throughTail, throughTail, ← h.length_eq, tailWords_eq_foldPieces, tailWords_eq_foldPieces]
  obtain ⟨hne, hrest⟩ | ⟨heq, hrest⟩ := hwords
  · rw [hrest]
    exact (tailBytes_injective _).ne hne
  · rw [heq]
    exact tailBytes_ne_of_bytes hrest _

end XXH32

open XXH32 in
/-- XXH32 in its parts: the stripes and the length, the tail, the avalanche (rule R435). -/
theorem xxh32_eq (bs : List Byte) : xxh32 bs =
    avalanche (throughTail (afterStripes bs + BitVec.ofNat 32 bs.length) (bs.drop (16 * (bs.length / 16)))) := rfl

open XXH32 in
/-- Settles O60: the change leads the hash apart in the stripes, in the words of the tail or in its last bytes, and no later
step brings it together again. -/
theorem oneByteChangeIsDetected : Obligations.OneByteChangeIsDetected := by
  intro before after x y hxy
  have hdiff := DifferInOneByte.append_cons hxy before after
  rw [xxh32_eq, xxh32_eq]
  refine avalanche_injective.ne (throughTail_ne ?_)
  rw [← hdiff.length_eq]
  exact (ledApart_afterStripes hdiff).map (f := (· + _)) (mt (BitVec.add_left_inj _).mp)

end Sys2Proof.Machine
end

section
/-!
PROOF. A frame in pieces: what a command with little room does to its bytes, one with enough room does too, so that commands
in a row come together to one; and FRAME_INFO does what the loop does on the bytes of a header (rules R381, R383 to R387, R395,
R396, R398).
-/

namespace Sys2Proof.Machine

/-! ## What a byte adds to the output -/

/-- The block the byte completes, if any, joins the pending output; a byte that fails adds nothing (rules R392, R396). -/
def FeedResult.Extends (f : FeedResult) (pending : List Byte) : Prop :=
  ∃ blk, f.ctx.pending = pending ++ blk ∧ (f.error ≠ none → blk = [])

theorem FeedResult.extends_of_eq {f : FeedResult} {pending : List Byte} (h : f.ctx.pending = pending) : f.Extends pending :=
  ⟨[], h.trans (List.append_nil _).symm, fun _ => rfl⟩

namespace FDecomp

theorem processBlock_extends (rules : FrameRules) (c : FDecomp) : (c.processBlock rules).Extends c.pending := by
  unfold processBlock
  split
  · exact ⟨c.payload, rfl, fun h => absurd rfl h⟩
  · split
    · exact ⟨_, rfl, fun h => absurd rfl h⟩
    · exact FeedResult.extends_of_eq rfl

theorem endMark_extends (c : FDecomp) : c.endMark.Extends c.pending := by
  unfold endMark
  split_ifs <;> exact FeedResult.extends_of_eq rfl

theorem blockHeader_extends (rules : FrameRules) (x : Nat) (c : FDecomp) : (c.blockHeader rules x).Extends c.pending := by
  unfold blockHeader
  dsimp only
  split_ifs
  · exact FeedResult.extends_of_eq rfl
  · exact FeedResult.extends_of_eq rfl
  · exact FeedResult.extends_of_eq rfl
  · exact processBlock_extends rules { c with poff := x + 1, payload := [] }

theorem feedBlkHdr_extends (rules : FrameRules) (x : Nat) (c : FDecomp) : (c.feedBlkHdr rules x).Extends c.pending := by
  cases hready : wordReady rules c.acc.length with
  | false =>
    rw [feedBlkHdr_of_not_ready hready]
    exact FeedResult.extends_of_eq rfl
  | true =>
    rw [feedBlkHdr_of_ready hready, takeWord]
    split
    · exact endMark_extends _
    · exact blockHeader_extends rules x _

theorem feedBlkData_extends (rules : FrameRules) (c : FDecomp) : (c.feedBlkData rules).Extends c.pending := by
  unfold feedBlkData
  split_ifs
  · exact FeedResult.extends_of_eq rfl
  · exact processBlock_extends rules c
  · exact FeedResult.extends_of_eq rfl

theorem feedBlkCrc_extends (rules : FrameRules) (x : Nat) (c : FDecomp) : (c.feedBlkCrc rules x).Extends c.pending := by
  unfold feedBlkCrc
  split_ifs
  · exact FeedResult.extends_of_eq rfl
  · exact processBlock_extends rules { c with acc := [] }
  · exact FeedResult.extends_of_eq rfl

theorem feedCcrc_pending (x : Nat) (c : FDecomp) : (c.feedCcrc x).ctx.pending = c.pending := by
  unfold feedCcrc
  split_ifs <;> rfl

theorem feedSkip_pending (c : FDecomp) : c.feedSkip.ctx.pending = c.pending := by
  unfold feedSkip
  split <;> rfl

/-- In every stage (rules R386 to R394). -/
theorem feed_extends (rules : FrameRules) (c : FDecomp) (b : Byte) : (c.feed rules b).Extends c.pending := by
  unfold feed
  dsimp only
  split
  · exact FeedResult.extends_of_eq (feedHdr_pending _)
  · exact FeedResult.extends_of_eq (feedSkip_pending _)
  · exact feedBlkHdr_extends rules _ { c.tick with acc := c.tick.acc ++ [b] }
  · exact feedBlkData_extends rules { c.tick with payload := c.tick.payload ++ [b] }
  · exact feedBlkCrc_extends rules _ { c.tick with acc := c.tick.acc ++ [b] }
  · exact FeedResult.extends_of_eq (feedCcrc_pending _ _)
  · exact FeedResult.extends_of_eq rfl

end FDecomp

/-! ## A command among others -/

namespace FrameRun

/-- All the output of a run: what it has delivered and what is pending. -/
def produced (r : FrameRun) : List Byte := r.out ++ r.ctx.pending

/-- The run with its pending output delivered. -/
def flush (r : FrameRun) : FrameRun := { r with out := r.produced, ctx := { r.ctx with pending := [] } }

/-- The run of a command behind others that have consumed `used` bytes and delivered `out`. -/
def behind (used : Nat) (out : List Byte) (r : FrameRun) : FrameRun := { r with used := used + r.used, out := out ++ r.out }

variable {rules : FrameRules} {cap : Nat} {r : FrameRun}

theorem deliver_of_fits (h : r.produced.length ≤ cap) : r.deliver cap = r.flush := by
  have hroom : min r.ctx.pending.length (cap - r.out.length) = r.ctx.pending.length := by
    rw [produced, List.length_append] at h
    omega
  simp only [deliver, hroom, List.take_length, List.drop_length]
  rfl

@[simp] theorem produced_deliver (r : FrameRun) (cap : Nat) : (r.deliver cap).produced = r.produced := r.deliver_total cap

theorem flush_of_empty (h : r.ctx.pending = []) : r.flush = r := by
  rw [← deliver_of_fits (cap := r.produced.length) (Nat.le_refl _), deliver_of_empty h]

@[simp] theorem used_deliver (r : FrameRun) (cap : Nat) : (r.deliver cap).used = r.used := rfl

theorem produced_behind (used : Nat) (out : List Byte) (r : FrameRun) : (r.behind used out).produced = out ++ r.produced :=
  List.append_assoc ..

/-- Delivered before or not, the output of a command is the same behind others. -/
theorem flush_behind_deliver (used : Nat) (out : List Byte) (r : FrameRun) (cap : Nat) :
    ((r.deliver cap).behind used out).flush = (r.behind used out).flush := by
  simp only [flush, produced_behind, produced_deliver]
  rfl

/-- The same byte fed behind others. -/
theorem eat_behind (used : Nat) (out : List Byte) (b : Byte) (r : FrameRun) :
    (r.behind used out).eat rules b = ((r.eat rules b).1.behind used out, (r.eat rules b).2) := rfl

theorem used_eat {b : Byte} {r' : FrameRun} {e : Option (Detail × Nat)} (h : r.eat rules b = (r', e)) :
    r'.used = r.used + 1 := congrArg (fun x => x.1.used) h.symm

/-- A byte adds its block, if any, to the output. -/
theorem produced_eat {b : Byte} {r' : FrameRun} {e : Option (Detail × Nat)} (h : r.eat rules b = (r', e)) :
    r.produced <+: r'.produced := by
  obtain ⟨blk, hblk, -⟩ := r.ctx.feed_extends rules b
  have heat : r'.produced = r.out ++ (r.ctx.feed rules b).ctx.pending := congrArg (fun x => x.1.produced) h.symm
  rw [heat, hblk, ← List.append_assoc]
  exact List.prefix_append ..

/-- A byte that fails leaves nothing pending where nothing was. -/
theorem pending_eat_of_error {b : Byte} {r' : FrameRun} {e : Detail × Nat} (hp : r.ctx.pending = [])
    (h : r.eat rules b = (r', some e)) : r'.ctx.pending = [] := by
  obtain ⟨blk, hblk, herror⟩ := r.ctx.feed_extends rules b
  have hr' : r'.ctx = (r.ctx.feed rules b).ctx := congrArg (fun x => x.1.ctx) h.symm
  have he : (r.ctx.feed rules b).error = some e := congrArg Prod.snd h
  rw [hr', hblk, hp, herror (by rw [he]; exact Option.some_ne_none e)]
  rfl

end FrameRun

section

variable {rules : FrameRules} {cap : Nat} {r r' : FrameRun} {e : Option (Detail × Nat)}

/-- With room for all the output of a run the loop starts by delivering it all. -/
theorem frameLoop_flush (h : r.produced.length ≤ cap) (bs : List Byte) :
    frameLoop rules cap bs r = frameLoop rules cap bs r.flush := by
  rw [← frameLoop_deliver, FrameRun.deliver_of_fits h]

/-- A byte past the end of the frame is not consumed (rule R395). -/
theorem frameLoop_ended (hp : r.ctx.pending = []) (hs : r.ctx.stage = .ended) (b : Byte) (bs : List Byte) :
    frameLoop rules cap (b :: bs) r = (r, some (.trailingData, r.ctx.fpos)) := by
  simp only [frameLoop, FrameRun.deliver_of_empty hp, hp, hs, ne_eq, not_true_eq_false, if_false, if_true]

/-- What the loop can do at a byte: wait for room, refuse it as trailing data, or feed it (rule R385). -/
theorem frameLoop_cons_cases {b : Byte} {bs : List Byte} (h : frameLoop rules cap (b :: bs) r = (r', e)) :
    r' = r.deliver cap ∧ e = none
    ∨ (r.deliver cap).ctx.pending = [] ∧ (r.deliver cap).ctx.stage = .ended
      ∧ r' = r.deliver cap ∧ e = some (.trailingData, r.ctx.fpos)
    ∨ (r.deliver cap).ctx.pending = [] ∧ (r.deliver cap).ctx.stage ≠ .ended
      ∧ ((∃ d, (r.deliver cap).eat rules b = (r', some d) ∧ e = some d)
        ∨ ∃ r₁, (r.deliver cap).eat rules b = (r₁, none) ∧ frameLoop rules cap bs r₁ = (r', e)) := by
  simp only [frameLoop] at h
  split_ifs at h with hp hs
  · cases h
    exact .inl ⟨rfl, rfl⟩
  · cases h
    exact .inr (.inl ⟨not_not.mp hp, hs, rfl, rfl⟩)
  · refine .inr (.inr ⟨not_not.mp hp, hs, ?_⟩)
    split at h
    next heat =>
      cases h
      exact .inl ⟨_, heat, rfl⟩
    next heat => exact .inr ⟨_, heat, h⟩

/-- The loop consumes some of its bytes and only adds to the output. -/
theorem frameLoop_progress {bs : List Byte} (h : frameLoop rules cap bs r = (r', e)) :
    r.used ≤ r'.used ∧ r'.used ≤ r.used + bs.length ∧ r.produced <+: r'.produced := by
  induction bs generalizing r with
  | nil =>
    cases h
    exact ⟨Nat.le_refl _, Nat.le_refl _, (r.produced_deliver cap).symm ▸ List.prefix_rfl⟩
  | cons b bs ih =>
    rw [← r.produced_deliver cap, ← r.used_deliver cap, List.length_cons]
    obtain ⟨rfl, -⟩ | ⟨-, -, rfl, -⟩ | ⟨-, -, ⟨d, heat, -⟩ | ⟨r₁, heat, hrest⟩⟩ := frameLoop_cons_cases h
    · exact ⟨Nat.le_refl _, Nat.le_add_right .., List.prefix_rfl⟩
    · exact ⟨Nat.le_refl _, Nat.le_add_right .., List.prefix_rfl⟩
    · have hused := FrameRun.used_eat heat
      exact ⟨by omega, by omega, FrameRun.produced_eat heat⟩
    · have hused := FrameRun.used_eat heat
      obtain ⟨hge, hle, hmore⟩ := ih hrest
      exact ⟨by omega, by omega, (FrameRun.produced_eat heat).trans hmore⟩

/-- What the loop makes of its bytes with room for `cap`, it makes of them behind other commands with room for all the output:
the same error, or the same bytes left. -/
theorem frameLoop_behind {room : Nat} {bs : List Byte} (h : frameLoop rules cap bs r = (r', e)) {used : Nat} {out : List Byte}
    (hroom : (r'.behind used out).produced.length ≤ room) (ys : List Byte) :
    (∀ d, e = some d → frameLoop rules room (bs ++ ys) (r.behind used out) = ((r'.behind used out).flush, some d))
    ∧ (e = none → frameLoop rules room (bs ++ ys) (r.behind used out) =
        frameLoop rules room (bs.drop (r'.used - r.used) ++ ys) (r'.behind used out)) := by
  have hwait : ∀ {x : FrameRun}, x.produced <+: r'.produced → ∀ zs,
      frameLoop rules room zs (x.behind used out) = frameLoop rules room zs ((x.deliver cap).behind used out) := by
    intro x hx zs
    have hfits : (x.behind used out).produced.length ≤ room := by
      have hlen := hx.length_le
      simp only [FrameRun.produced_behind, List.length_append] at hroom ⊢
      omega
    have hfits' : ((x.deliver cap).behind used out).produced.length ≤ room := by
      rwa [FrameRun.produced_behind, FrameRun.produced_deliver, ← FrameRun.produced_behind]
    rw [frameLoop_flush hfits, frameLoop_flush hfits', FrameRun.flush_behind_deliver]
  induction bs generalizing r with
  | nil =>
    cases h
    exact ⟨nofun, fun _ => by simpa using hwait (by simp) ys⟩
  | cons b bs ih =>
    rw [hwait (frameLoop_progress h).2.2]
    obtain ⟨rfl, rfl⟩ | ⟨hp, hs, rfl, rfl⟩ | ⟨hp, hs, ⟨d, heat, rfl⟩ | ⟨r₁, heat, hrest⟩⟩ := frameLoop_cons_cases h
    · exact ⟨nofun, fun _ => by rw [FrameRun.used_deliver, Nat.sub_self, List.drop_zero]⟩
    · refine ⟨fun _ hd => hd ▸ ?_, nofun⟩
      rw [FrameRun.flush_of_empty (r := (r.deliver cap).behind used out) hp]
      exact frameLoop_ended (r := (r.deliver cap).behind used out) hp hs b _
    · have hempty : (r'.behind used out).ctx.pending = [] :=
        FrameRun.pending_eat_of_error (r' := r') hp heat
      refine ⟨fun _ hd => hd ▸ ?_, nofun⟩
      rw [FrameRun.flush_of_empty hempty, List.cons_append,
        frameLoop_cons (r := (r.deliver cap).behind used out) hp hs, FrameRun.eat_behind, heat]
    · have hused : r'.used - r.used = r'.used - r₁.used + 1 := by
        have hge := (frameLoop_progress hrest).1
        have heq := FrameRun.used_eat heat
        rw [FrameRun.used_deliver] at heq
        omega
      rw [List.cons_append, frameLoop_cons (r := (r.deliver cap).behind used out) hp hs, FrameRun.eat_behind, heat, hused,
        List.drop_succ_cons]
      exact ih hrest

/-! ## Commands in a row -/

/-- A run starts its next command with no bytes consumed and nothing delivered, behind itself. -/
theorem FrameRun.behind_self (run : FrameRun) : { run with used := 0, out := [] }.behind run.used run.out = run := by
  simp [behind]

/-- What the first of several commands leads to: its error ends them, or the others go on behind it (rule R398). -/
theorem framePieces_cons_cases {room : Nat} {piece left : List Byte} {later : List (Nat × List Byte)} {run : FrameRun}
    (h : framePieces rules ((room, piece) :: later) left run = (r, e)) : ∃ r₁ e₁,
      frameLoop rules room (left ++ piece) { run with used := 0, out := [] } = (r₁, e₁)
      ∧ ((∃ d, e₁ = some d ∧ e = some d ∧ r = r₁.behind run.used run.out)
        ∨ e₁ = none ∧ framePieces rules later ((left ++ piece).drop r₁.used) (r₁.behind run.used run.out) = (r, e)) := by
  refine ⟨_, _, rfl, ?_⟩
  simp only [framePieces] at h
  split at h
  next d he =>
    cases h
    exact .inl ⟨d, he, rfl, rfl⟩
  next he => exact .inr ⟨he, h⟩

/-- Commands in a row only add to the output. -/
theorem produced_prefix_framePieces {pieces : List (Nat × List Byte)} {left : List Byte} {run : FrameRun}
    (h : framePieces rules pieces left run = (r, e)) : run.produced <+: r.produced := by
  induction pieces generalizing left run with
  | nil =>
    cases h
    exact List.prefix_rfl
  | cons p later ih =>
    obtain ⟨r₁, e₁, hloop, hrest⟩ := framePieces_cons_cases h
    have hfirst : run.produced <+: (r₁.behind run.used run.out).produced := by
      rw [← run.behind_self, FrameRun.produced_behind, FrameRun.produced_behind, run.behind_self,
        List.prefix_append_right_inj]
      exact (frameLoop_progress hloop).2.2
    obtain ⟨d, -, -, rfl⟩ | ⟨-, hlater⟩ := hrest
    · exact hfirst
    · exact hfirst.trans (ih hlater)

/-- Commands in a row that fail or consume all their bytes come together to one command (rule R398). -/
theorem frameLoop_of_framePieces {pieces : List (Nat × List Byte)} {left : List Byte} {run : FrameRun}
    (h : framePieces rules pieces left run = (r, e))
    (hdone : e ≠ none ∨ r.used = run.used + (left ++ (pieces.map Prod.snd).flatten).length) (hcap : r.produced.length ≤ cap) :
    frameLoop rules cap (left ++ (pieces.map Prod.snd).flatten) run = (r.flush, e) := by
  induction pieces generalizing left run with
  | nil =>
    cases h
    obtain rfl : left = [] := by simpa using hdone
    exact congrArg (·, none) (FrameRun.deliver_of_fits hcap)
  | cons p later ih =>
    obtain ⟨r₁, e₁, hloop, hrest⟩ := framePieces_cons_cases h
    rw [List.map_cons, List.flatten_cons, ← List.append_assoc] at hdone ⊢
    obtain ⟨d, rfl, rfl, rfl⟩ | ⟨rfl, hlater⟩ := hrest
    · have hsame := (frameLoop_behind hloop hcap (later.map Prod.snd).flatten).1 d rfl
      rwa [run.behind_self] at hsame
    · have hfits := (produced_prefix_framePieces hlater).length_le.trans hcap
      have hsame := (frameLoop_behind hloop hfits (later.map Prod.snd).flatten).2 rfl
      rw [run.behind_self] at hsame
      refine hsame.trans (ih hlater (hdone.imp_right fun hused => ?_))
      obtain ⟨-, hle, -⟩ := frameLoop_progress hloop
      have hbehind : (r₁.behind run.used run.out).used = run.used + r₁.used := rfl
      simp only [List.length_append, List.length_drop, Nat.sub_zero] at hused hle ⊢
      omega

/-! ## FRAME_INFO -/

/-- Bytes consumed before only add to the count (rule R385). -/
theorem frameLoop_behind_used (used : Nat) (bs : List Byte) (r : FrameRun) : frameLoop rules cap bs (r.behind used []) =
    ((frameLoop rules cap bs r).1.behind used [], (frameLoop rules cap bs r).2) := by
  induction bs generalizing r with
  | nil => rfl
  | cons b bs ih =>
    by_cases hp : (r.deliver cap).ctx.pending = []
    · rw [← frameLoop_deliver _ _ _ r, ← frameLoop_deliver]
      by_cases hs : (r.deliver cap).ctx.stage = .ended
      · rw [frameLoop_ended hp hs]
        exact frameLoop_ended (r := (r.deliver cap).behind used []) hp hs b bs
      · rw [frameLoop_cons hp hs]
        refine (frameLoop_cons (r := (r.deliver cap).behind used []) hp hs ..).trans ?_
        rw [FrameRun.eat_behind]
        obtain ⟨r₁, _ | d⟩ := (r.deliver cap).eat rules b
        · exact ih r₁
        · rfl
    · rw [frameLoop_full hp]
      exact frameLoop_full (r := r.behind used []) hp rules _

end

section

variable {f g t : List Byte} {i : FrameInfo} {n : Nat}

theorem hdrLen_of_checkHeader {hl : Nat} (h : checkHeader f hl = .ok i n) : n = hl := by
  unfold checkHeader at h
  dsimp only at h
  split_ifs at h
  cases h
  rfl

/-- A header that parses is one of a skippable frame or of an LZ4 frame, and is there in full (rule R381). -/
theorem parseHeader_ok_cases (h : parseHeader f = .ok i n) : n ≤ f.length ∧
    (isSkippable (le32 f 0) = true ∧ n = 8 ∧ i = skippableInfo (le32 f 4)
      ∨ le32 f 0 = magicLz4 ∧ n = headerLength (byteAt f 4) ∧ checkHeader f n = .ok i n) := by
  by_cases h4 : f.length < 4
  · simp [parseHeader, h4] at h
  by_cases hs : isSkippable (le32 f 0) = true
  · by_cases h8 : f.length < 8
    · simp [parseHeader, h4, hs, h8] at h
    · rw [parseHeader_of_skippable (Nat.not_lt.mp h8) hs] at h
      cases h
      exact ⟨Nat.not_lt.mp h8, .inl ⟨hs, rfl, rfl⟩⟩
  by_cases hm : le32 f 0 = magicLz4
  · rw [parseHeader_of_magic (Nat.not_lt.mp h4) hm] at h
    split_ifs at h with hlen
    obtain rfl := hdrLen_of_checkHeader h
    exact ⟨Nat.not_lt.mp hlen, .inr ⟨hm, rfl, h⟩⟩
  · simp [parseHeader, h4, hs, hm] at h

theorem le64_append_left {xs : List Byte} {i : Nat} (h : i + 8 ≤ xs.length) (ys : List Byte) :
    le64 (xs ++ ys) i = le64 xs i := by
  rw [le64, le64, List.drop_append_of_le_length (by omega), List.take_append_of_le_length (by simp; omega)]

/-- The header fields are read from the bytes of the header only (rules R121, R381). -/
theorem frameInfoOf_append_left (hlen : g.length = headerLength (byteAt g 4)) (t : List Byte) :
    frameInfoOf (g ++ t) = frameInfoOf g := by
  have hHL := seven_le_headerLength (byteAt g 4)
  have h4 : byteAt (g ++ t) 4 = byteAt g 4 := byteAt_append_left (by omega) t
  have h5 : byteAt (g ++ t) 5 = byteAt g 5 := byteAt_append_left (by omega) t
  rw [headerLength] at hlen
  simp only [frameInfoOf, h4, h5]
  cases hsize : (byteAt g 4).getLsbD 3 <;> cases hdict : (byteAt g 4).getLsbD 0 <;>
    simp only [hsize, hdict, flagNat, Bool.false_eq_true, if_true, if_false] at hlen ⊢
  · rw [le32_append_left (by omega)]
  · rw [le64_append_left (by omega)]
  · rw [le64_append_left (by omega), le32_append_left (by omega)]

/-- The checks of an LZ4 frame's header read its bytes only (rules R121, R382). -/
theorem checkHeader_append_left (hlen : g.length = headerLength (byteAt g 4)) (t : List Byte) :
    checkHeader (g ++ t) g.length = checkHeader g g.length := by
  have hHL := seven_le_headerLength (byteAt g 4)
  have hbody : ((g ++ t).drop 4).take (g.length - 1 - 4) = (g.drop 4).take (g.length - 1 - 4) := by
    rw [List.drop_append_of_le_length (by omega), List.take_append_of_le_length (by rw [List.length_drop]; omega)]
  simp only [checkHeader, byteAt_append_left (show 4 < g.length by omega), byteAt_append_left (show 5 < g.length by omega),
    byteAt_append_left (show g.length - 1 < g.length by omega), hbody, frameInfoOf_append_left hlen]

/-- ParseHeader reads the bytes of the header only (rule R381). -/
theorem parseHeader_append_left (h : parseHeader (g ++ t) = .ok i g.length) : parseHeader g = .ok i g.length := by
  obtain ⟨-, ⟨hs, h8, rfl⟩ | ⟨hm, hlen, hcheck⟩⟩ := parseHeader_ok_cases h
  · rw [le32_append_left (by omega)] at hs
    rw [parseHeader_of_skippable h8.ge hs, le32_append_left (by omega), h8]
  · have h7 : 7 ≤ g.length := hlen ▸ seven_le_headerLength _
    rw [le32_append_left (by omega)] at hm
    rw [byteAt_append_left (by omega)] at hlen
    rw [parseHeader_of_magic (by omega) hm, if_neg (by omega), ← hlen, ← checkHeader_append_left hlen t, hcheck]

/-- A header that parses is open until its last byte (rule R381). -/
theorem exists_of_parseHeader_ok (h : parseHeader f = .ok i n) : ∃ front b t,
    f = front ++ b :: t ∧ front.length + 1 = n ∧ HeaderOpen front ∧ parseHeader (front ++ [b]) = .ok i n := by
  obtain ⟨hn, hcases⟩ := parseHeader_ok_cases h
  have hpos : 7 ≤ n := by
    obtain ⟨-, rfl, -⟩ | ⟨-, rfl, -⟩ := hcases
    · decide
    · exact seven_le_headerLength _
  obtain ⟨front, b, t, rfl, hlen⟩ : ∃ front b t, f = front ++ b :: t ∧ front.length + 1 = n :=
    ⟨f.take (n - 1), f[n - 1], f.drop (n - 1 + 1), by rw [← List.drop_eq_getElem_cons, List.take_append_drop],
      by rw [List.length_take]; omega⟩
  refine ⟨front, b, t, rfl, hlen, ?_, ?_⟩
  · rw [le32_append_left (by omega), byteAt_append_left (by omega)] at hcases
    exact .inr (hcases.imp (fun ⟨hs, h8, _⟩ => ⟨hs, by omega⟩) fun ⟨hm, hHL, _⟩ => ⟨hm, by omega⟩)
  · have hg : (front ++ [b]).length = n := (List.length_append ..).trans hlen
    rw [List.append_cons, ← hg] at h
    rw [← hg]
    exact parseHeader_append_left h

theorem FDecomp.feedHdr_of_ok {c : FDecomp} (h : parseHeader c.acc = .ok i n) : c.feedHdr =
    { ctx := { c with acc := [] }.headerDone i, header := some (i, n), error := none } := by
  rw [FDecomp.feedHdr_of_legal_magic, h]
  obtain ⟨-, ⟨hs, -, -⟩ | ⟨hm, -, -⟩⟩ := parseHeader_ok_cases h
  · exact .inr (.inl hs)
  · exact .inr (.inr hm)

theorem FDecomp.headerDone_eq_pastHeader (c : FDecomp) (i : FrameInfo) : c.headerDone i = c.pastHeader i c.fpos := by
  cases h : i.skippable
  · simp only [c.headerDone_of_frame h, FDecomp.pastHeader, h, Bool.false_eq_true, if_false]
  · simp only [c.headerDone_of_skippable h, FDecomp.pastHeader, h, if_true]

/-- The loop over the bytes of a header that parses (rules R384, R387). -/
theorem frameLoop_of_header {r : FrameRun} {front : List Byte} {b : Byte} (hp : r.ctx.pending = []) (hs : r.ctx.stage = .hdr)
    (hacc : r.ctx.acc = []) (hopen : HeaderOpen front) (hok : parseHeader (front ++ [b]) = .ok i n) (rules : FrameRules)
    (cap : Nat) (ys : List Byte) : frameLoop rules cap (front ++ b :: ys) r = frameLoop rules cap ys { r with
      ctx := r.ctx.pastHeader i (r.ctx.fpos + (front.length + 1))
      info := setInfo i n
      used := r.used + (front.length + 1) } := by
  have hfeed : (r.collected front).ctx.feed rules b =
      { ctx := r.ctx.pastHeader i (r.ctx.fpos + (front.length + 1)), header := some (i, n), error := none } := by
    have hcollected : parseHeader ((r.collected front).ctx.acc ++ [b]) = .ok i n := by
      simpa [FrameRun.collected, hacc] using hok
    rw [FDecomp.feed_hdr (by exact hs), FDecomp.feedHdr_of_ok hcollected, FDecomp.headerDone_eq_pastHeader]
    simp [FrameRun.collected, FDecomp.pastHeader, hacc, Nat.add_assoc]
  rw [frameLoop_of_open hp hs (by rwa [hacc]), frameLoop_cons (r := r.collected front) hp (by simp [hs]), FrameRun.eat, hfeed]
  rfl

end

/-- Settles O56: commands in a row come together to one; and the bytes of a header, open until the last one, take the loop to
the context FRAME_INFO leaves. -/
theorem splitInvariance : Obligations.SplitInvariance := by
  refine ⟨fun rules c info pieces cap r e => ?_, fun rules c info pre rest cap n i hidle hs hacc hp hfpos hparse => ?_⟩
  · intro frame h hdone hcap
    refine frameLoop_of_framePieces h (hdone.imp_right fun hused => ?_) hcap
    simpa [frame] using hused
  · obtain ⟨front, b, t, rfl, rfl, hopen, hok⟩ := exists_of_parseHeader_ok hparse
    have hdrop : (front ++ b :: t ++ rest).drop (front.length + 1) = t ++ rest := by simp
    rw [hdrop, List.append_assoc, List.cons_append, frameLoop_of_header (by exact hp) hs hacc hopen hok, hfpos, Nat.zero_add]
    exact frameLoop_behind_used (front.length + 1) (t ++ rest)
      { ctx := c.pastHeader i (front.length + 1), info := setInfo i (front.length + 1), used := 0, out := [] }

end Sys2Proof.Machine
end

section
/-!
PROOF. ParseHeader from numbers, and FRAME_INFO as the first failing check or the header of its source bytes (rules R381 to
R384, R387).
-/

namespace Sys2Proof.Machine

/-! ## ParseHeader from numbers -/

/-- The fields of a header, from its FLG and BD bytes as numbers (rules R123, R124, R381). -/
theorem frameInfoOf_eq (f : List Byte) :
    let flg := (byteAt f 4).toNat
    let bd := (byteAt f 5).toNat
    frameInfoOf f =
      { skippable := false
        indep := flg / 32 % 2 = 1
        bcrc := flg / 16 % 2 = 1
        csflag := flg / 8 % 2 = 1
        ccrc := flg / 4 % 2 = 1
        dflag := flg % 2 = 1
        bsid := bd / 16 % 8
        csize := if flg / 8 % 2 = 1 then leNat ((f.drop 6).take 8) else 0
        dictid := if flg % 2 = 1 then leNat ((f.drop (6 + 8 * (flg / 8 % 2))).take 4) else 0
        skip := 0 } := by
  intro flg bd
  have hdict : (if flg / 8 % 2 = 1 then 14 else 6) = 6 + 8 * (flg / 8 % 2) := by
    split <;> omega
  simp only [frameInfoOf, getLsbD_eq_decide, Nat.reducePow, Nat.div_one, decide_eq_true_eq, BitVec.extractLsb'_toNat,
    Nat.shiftRight_eq_div_pow, le64, le32, hdict, flg, bd]

/-- The checks of an LZ4 frame's header, from its FLG and BD bytes as numbers (rules R123, R124, R126, R382). -/
theorem checkHeader_eq (f : List Byte) (hl : Nat) :
    let flg := (byteAt f 4).toNat
    let bd := (byteAt f 5).toNat
    checkHeader f hl =
      if flg / 64 ≠ 1 then .bad .badVersion 4
      else if flg / 2 % 2 = 1 then .bad .reservedBit 4
      else if bd / 128 = 1 ∨ bd % 16 ≠ 0 then .bad .reservedBit 5
      else if bd / 16 % 8 < 4 then .bad .badBlockSizeId 5
      else if (byteAt f (hl - 1)).toNat ≠ (xxh32 ((f.drop 4).take (hl - 5))).toNat / 256 % 256 then
        .bad .headerChecksum (hl - 1)
      else .ok (frameInfoOf f) hl := by
  intro flg bd
  have hversion : (byteAt f 4).extractLsb' 6 2 ≠ (1 : BitVec 2) ↔ flg / 64 ≠ 1 := by
    have := (byteAt f 4).isLt
    rw [ne_eq, ← BitVec.toNat_inj, BitVec.extractLsb'_toNat, Nat.shiftRight_eq_div_pow]
    simp only [BitVec.reduceToNat, Nat.reducePow, flg]
    omega
  have hlow : loNibble (byteAt f 5) ≠ 0 ↔ bd % 16 ≠ 0 := by
    rw [ne_eq, ← BitVec.toNat_inj, toNat_loNibble]
    rfl
  have hhigh : (byteAt f 5).getLsbD 7 = true ↔ bd / 128 = 1 := by
    have := (byteAt f 5).isLt
    rw [getLsbD_eq_decide, decide_eq_true_eq]
    simp only [Nat.reducePow, bd]
    omega
  have hsum : byteAt f (hl - 1) ≠ headerChecksum ((f.drop 4).take (hl - 1 - 4)) ↔
      (byteAt f (hl - 1)).toNat ≠ (xxh32 ((f.drop 4).take (hl - 5))).toNat / 256 % 256 := by
    rw [headerChecksum_eq, ne_eq, ← BitVec.toNat_inj, byteOf, BitVec.toNat_ofNat, Nat.mod_mod, Nat.sub_sub]
  have hreserved : (byteAt f 4).getLsbD 1 = true ↔ flg / 2 % 2 = 1 := by
    rw [getLsbD_eq_decide, decide_eq_true_eq]
    rfl
  have hbsid : ((byteAt f 5).extractLsb' 4 3).toNat = bd / 16 % 8 := by
    rw [BitVec.extractLsb'_toNat, Nat.shiftRight_eq_div_pow]
  simp only [checkHeader, hversion, hreserved, hhigh, hlow, hbsid, hsum]

/-- Settles O48: the magic and the lengths, then the checks and the fields of an LZ4 frame's header. -/
theorem headerCheckOrder : Obligations.HeaderCheckOrder := by
  intro f n m flg bd hl hc
  have hskip : isSkippable (le32 f 0) = true ↔ m / 16 = 0x184D2A5 := beq_iff_eq
  have hmagic : le32 f 0 ≠ magicLz4 ↔ m ≠ 0x184D2204 := Iff.rfl
  simp only [parseHeader, hskip, hmagic, headerLength_eq, checkHeader_eq, frameInfoOf_eq]
  rfl

/-! ## FRAME_INFO -/

/-- The checks of rule R85 for the source buffer, then the others. -/
theorem State.leaves_sourceChecks {s : State} (hs : s.undisturbed = true) {h : BitVec 8} {x : Result} {r : Report}
    {checks : List (Bool × Err)} (hx : s.Leaves (s.checked h checks x) r) :
    s.Leaves (s.checked h (s.sourceChecks ++ checks) x)
      (match s.bufferFault true false with
      | some e => s.failure h e
      | none => r) := by
  have hfault : firstError s.sourceChecks = s.bufferFault true false := by
    simp [firstError, State.sourceChecks, State.bufferFault, State.pastEnd]
  rw [State.checked, firstError_append, hfault]
  cases s.bufferFault true false with
  | some e => exact State.leaves_raise hs h e
  | none => exact hx

theorem State.checked_nil (s : State) (h : BitVec 8) (x : Result) : s.checked h [] x = x := rfl

/-- The source is read, then the command ends with the report it fixes. -/
theorem State.leaves_withSource {s : State} (hs : s.undisturbed = true) {k : List Byte → Result} {r : Report}
    (hk : k s.sourceBytes = s.finish r) : s.Leaves (s.withSource k) r := by
  obtain ⟨-, hholes, hraced⟩ := s.undisturbed_iff.mp hs
  rw [State.withSource_of_no_holes hholes, State.source_eq_sourceBytes hraced, hk]
  exact State.leaves_finish hs r

/-- A parsed header takes a context past it, whichever offset it stood at (rules R383, R387). -/
theorem FDecomp.headerDone_at (c : FDecomp) (i : FrameInfo) (n : Nat) :
    { c.headerDone i with fpos := n } = c.pastHeader i n := by
  rw [FDecomp.headerDone_eq_pastHeader, FDecomp.pastHeader, FDecomp.pastHeader]
  split <;> rfl

/-- Settles O49: CMD[31:16], the handle, a context that is idle, the source buffer, then the header of the source bytes. -/
theorem frameInfoResult : Obligations.FrameInfoResult := by
  intro h rsvd s hs
  refine State.runsTo_of_leaves rfl (State.leaves_rsvdCheck hs ?_)
  rw [State.fdecompAt]
  cases hslot : slotAt s.slots h with
  | none => exact State.leaves_raise hs h .badHandle
  | some ctx =>
    cases ctx with
    | fdecomp c =>
      refine State.leaves_check hs beq_iff_eq (State.leaves_check hs bne_iff_ne
        (State.leaves_sourceChecks (checks := []) hs ?_))
      rw [State.checked_nil]
      refine State.leaves_withSource hs ?_
      dsimp only
      cases parseHeader s.sourceBytes with
      | bad d pos => rfl
      | ok i hl =>
        dsimp only
        rw [setSlot_of_slotAt hslot, c.headerDone_at]
        rfl
    | cstream _ | dstream _ | fcomp _ => exact State.leaves_raise hs h .badHandle

end Sys2Proof.Machine
end

section
/-!
PROOF. What a byte of FRAME_DECOMPRESS leads to, the end mark and the checksums as elements, and FRAME_DECOMPRESS as the first
failing check or what its loop makes of the source bytes (rules R385, R386, R388, R390 to R396).
-/

namespace Sys2Proof.Machine

/-! ## The loop behind a byte fed -/

/-- The working registers once `n` bytes are consumed and the last of them did `f` (rules R384, R385). -/
def FrameRun.fedTo (r : FrameRun) (n : Nat) (f : FeedResult) : FrameRun :=
  { r with
    ctx := f.ctx
    used := r.used + n
    info := match f.header with
      | some (i, hl) => setInfo i hl
      | none => r.info }

/-- The loop on `ys` behind the `n` bytes the last of which did `f`: none where that byte failed (rule R385). -/
def frameLoopFrom (rules : FrameRules) (cap : Nat) (ys : List Byte) (r : FrameRun) (n : Nat) (f : FeedResult) :
    FrameRun × Option (Detail × Nat) :=
  match f.error with
  | some e => (r.fedTo n f, some e)
  | none => frameLoop rules cap ys (r.fedTo n f)

section

variable {rules : FrameRules} {cap : Nat} {run : FrameRun}

theorem frameLoopFrom_goOn (ys : List Byte) (n : Nat) (c : FDecomp) : frameLoopFrom rules cap ys run n c.goOn =
    frameLoop rules cap ys { run with ctx := c, used := run.used + n } := rfl

theorem frameLoopFrom_fail (ys : List Byte) (n : Nat) (c : FDecomp) (d : Detail) (pos : Nat) :
    frameLoopFrom rules cap ys run n (c.fail d pos) =
      ({ run with ctx := { c with dstate := .failed }, used := run.used + n }, some (d, pos)) := rfl

/-- Only the count of the bytes, the registers and the output of the run before them enter. -/
theorem frameLoopFrom_congr {run' : FrameRun} {m n : Nat} (hused : run'.used + m = run.used + n) (hinfo : run'.info = run.info)
    (hout : run'.out = run.out) (ys : List Byte) (f : FeedResult) :
    frameLoopFrom rules cap ys run' m f = frameLoopFrom rules cap ys run n f := by
  simp only [frameLoopFrom, FrameRun.fedTo, hused, hinfo, hout]

theorem frameLoop_eq_frameLoopFrom (hp : run.ctx.pending = []) (hs : run.ctx.stage ≠ .ended) (b : Byte) (ys : List Byte) :
    frameLoop rules cap (b :: ys) run = frameLoopFrom rules cap ys run 1 (run.ctx.feed rules b) := by
  have heat : run.eat rules b = (run.fedTo 1 (run.ctx.feed rules b), (run.ctx.feed rules b).error) := rfl
  rw [frameLoop_cons hp hs, heat, frameLoopFrom]
  cases (run.ctx.feed rules b).error <;> rfl

/-- The loop over the 4 bytes of a word (rules R389, R391, R394). -/
theorem frameLoop_word (hp : run.ctx.pending = []) (hs : run.ctx.stage.inWord) (hacc : run.ctx.acc = []) {bs : List Byte}
    (hlen : bs.length = 4) (ys : List Byte) : frameLoop rules cap (bs ++ ys) run =
      frameLoopFrom rules cap ys run 4 (FDecomp.feedWord rules (run.ctx.fpos + 3) { run.ctx.fed 4 with acc := bs }) := by
  obtain ⟨init, b, rfl⟩ := (List.eq_nil_or_concat' bs).resolve_left (by rintro rfl; simp at hlen)
  have hinit : init.length = 3 := by simpa using hlen
  have hfeed : (run.collectedWord init).ctx.feed rules b =
      FDecomp.feedWord rules (run.ctx.fpos + 3) { run.ctx.fed 4 with acc := init ++ [b] } := by
    rw [FDecomp.feed_of_inWord (c := (run.collectedWord init).ctx) hs]
    simp only [FrameRun.collectedWord, FDecomp.fed, DState.fed_fed, hacc, hinit, List.nil_append]
  rw [List.append_assoc, frameLoop_of_open_word hp hs (by rintro rfl; simp at hinit) (by simp [hacc, hinit]),
    List.singleton_append, frameLoop_eq_frameLoopFrom (run := run.collectedWord init) hp hs.ne_ended, hfeed]
  have hused : (run.collectedWord init).used + 1 = run.used + 4 := by simp only [FrameRun.collectedWord, hinit]
  exact frameLoopFrom_congr hused rfl rfl ys _

/-- The loop over bytes of a payload (rule R390). -/
theorem frameLoop_payload {bs : List Byte} (hp : run.ctx.pending = []) (hs : run.ctx.stage = .blkData) (hne : bs ≠ [])
    (hlen : run.ctx.payload.length + bs.length ≤ run.ctx.bword % 2 ^ 31) (ys : List Byte) :
    frameLoop rules cap (bs ++ ys) run =
      frameLoopFrom rules cap ys run bs.length (FDecomp.feedBlkData rules (run.collectedPayload bs).ctx) := by
  induction bs generalizing run with
  | nil => exact absurd rfl hne
  | cons b bs ih =>
    have hfeed : run.ctx.feed rules b = FDecomp.feedBlkData rules (run.collectedPayload [b]).ctx :=
      FDecomp.feed_blkData hs rules b
    rw [List.cons_append, frameLoop_eq_frameLoopFrom hp (by simp [hs]), hfeed]
    by_cases hbs : bs = []
    · subst hbs
      rfl
    · have hpos := List.length_pos_iff.mpr hbs
      rw [List.length_cons] at hlen
      have hopen : (run.collectedPayload [b]).ctx.payload.length ≠ (run.collectedPayload [b]).ctx.bword % 2 ^ 31 := by
        simp only [FrameRun.collectedPayload, List.length_append, List.length_singleton]
        omega
      rw [FDecomp.feedBlkData_of_open hopen, frameLoopFrom_goOn]
      refine (ih (run := run.collectedPayload [b]) hp hs hbs (by simp [FrameRun.collectedPayload]; omega)).trans ?_
      have hctx : ((run.collectedPayload [b]).collectedPayload bs).ctx = (run.collectedPayload (b :: bs)).ctx := by
        simp [FrameRun.collectedPayload, DState.fed_fed, Nat.add_assoc, Nat.add_comm 1]
      rw [hctx]
      have hused : (run.collectedPayload [b]).used + bs.length = run.used + (b :: bs).length := by
        simp only [FrameRun.collectedPayload, List.length_cons, List.length_nil]
        omega
      exact frameLoopFrom_congr hused rfl rfl ys _

/-- The loop behind the last byte of a block (rule R392). -/
theorem frameLoopFrom_processBlock (ys : List Byte) (n : Nat) (c : FDecomp) :
    frameLoopFrom rules cap ys run n (c.processBlock rules) =
      let eaten (c' : FDecomp) : FrameRun := { run with ctx := c', used := run.used + n }
      if 2 ^ 31 ≤ c.bword then frameLoop rules cap ys (eaten (c.deliverBlock c.payload))
      else match blockDecode rules.strictTail c.payload (Config.blockMax c.info.bsid) c.blockHistory with
        | (blk, none) => frameLoop rules cap ys (eaten (c.deliverBlock blk))
        | (_, some (d, pos)) => (eaten { c with dstate := .failed }, some (d, c.poff + pos)) := by
  rw [FDecomp.processBlock]
  split
  · rfl
  · obtain ⟨blk, _ | ⟨d, pos⟩⟩ := blockDecode rules.strictTail c.payload (Config.blockMax c.info.bsid) c.blockHistory <;> rfl

end

/-! ## The end mark and the checksums -/

/-- Delivery, without the length of what is pending (rule R385). -/
theorem FrameRun.deliver_eq (r : FrameRun) (cap : Nat) : r.deliver cap = { r with
    out := r.out ++ r.ctx.pending.take (cap - r.out.length)
    ctx := { r.ctx with pending := r.ctx.pending.drop (cap - r.out.length) } } := by
  by_cases h : r.ctx.pending.length ≤ cap - r.out.length
  · simp only [deliver, Nat.min_eq_left h, List.take_length, List.take_of_length_le h, List.drop_length,
      List.drop_of_length_le h]
  · simp only [deliver, Nat.min_eq_right (Nat.le_of_not_le h)]

/-- The bytes of an element that may deliver output, by what the loop answers on them (rule R385). -/
theorem State.frameElement_of_loop_out {s : State} {h : BitVec 8} {rest : List Byte} {cap : Nat} {run : FrameRun}
    (hw : s.work = .frame h rest cap run none) {bytes out : List Byte} {n : Nat} {c : FDecomp} {info : Info}
    {e : Option (Detail × Nat)}
    (hloop : frameLoop s.frameRules cap bytes run = ({ ctx := c, info := info, used := run.used + n, out := out }, e)) :
    s.frameElement bytes = .next (s.afterElement h rest cap { run with out := out } n c info e) := by
  rw [State.frameElement_eq hw, hloop]
  simp only [Nat.add_sub_cancel_left]
  rfl

/-- Settles O54: the word 0 at a block record is the end mark, whose checks fall in turn. -/
theorem endMarkElement : Obligations.EndMarkElement := by
  intro s h rest cap run hw hp hs hacc c marked
  have helem : ∀ {d : FDecomp} {e : Option (Detail × Nat)},
      FDecomp.endMark { marked with acc := [] } = { ctx := d, header := none, error := e } → d.pending = [] →
      exec .endMark s = .next (s.afterElement h rest cap run 4 d run.info e) := fun hmark =>
    State.frameElement_of_blockWord (w := 0) hw hp hs hacc hmark
  have hmarked : { marked with acc := [] } = marked := by simp [marked, c, hacc]
  rw [hmarked] at helem
  split_ifs with hsize hccrc
  · exact helem (if_pos hsize) hp
  · exact helem ((if_neg hsize).trans (if_pos hccrc)) hp
  · exact helem ((if_neg hsize).trans (if_neg hccrc)) hp

theorem le32_wordBytes_ne_iff (v w : Word) : le32 (wordBytes v) 0 ≠ w.toNat ↔ v ≠ w := by
  rw [wordBytes, FDecomp.le32_bytesLE_toNat, ne_eq, BitVec.toNat_inj]

/-- The block checksum is compared, then the block dispatched (rule R391). -/
theorem FDecomp.feedWord_blockCrc {c : FDecomp} (hs : c.stage = .blkCrc) (rules : FrameRules) (x : Nat) (v : Word) :
    feedWord rules x { c with acc := wordBytes v } =
      if v ≠ xxh32 c.payload then { c with acc := wordBytes v }.fail .blockChecksum (x - 3)
      else { c with acc := [] }.processBlock rules := by
  have hlen : (wordBytes v).length = 4 := length_bytesLE ..
  simp only [feedWord, hs, feedBlkCrc, hlen, le32_wordBytes_ne_iff, if_true]

/-- The content checksum is compared, then the frame completes (rule R394). -/
theorem FDecomp.feedWord_contentCrc {c : FDecomp} (hs : c.stage = .ccrc) (rules : FrameRules) (x : Nat) (v : Word) :
    feedWord rules x { c with acc := wordBytes v } =
      if v ≠ xxh32 c.content then { c with acc := wordBytes v }.fail .contentChecksum (x - 3)
      else { c with acc := [], stage := .ended, dstate := .complete }.goOn := by
  have hlen : (wordBytes v).length = 4 := length_bytesLE ..
  simp only [feedWord, hs, feedCcrc, hlen, le32_wordBytes_ne_iff, if_true]

/-- Settles O55: a checksum is compared before its block is dispatched, and the content's before the frame completes. -/
theorem checksumElements : Obligations.ChecksumElements := by
  intro s h rest cap run v hw hp hacc c fed window delivered after
  have hlen : (wordBytes v).length = 4 := length_bytesLE ..
  have hword : c.stage.inWord → frameLoop s.frameRules cap (wordBytes v) run = frameLoopFrom s.frameRules cap [] run 4
      (FDecomp.feedWord s.frameRules (c.fpos + 3) { fed with acc := wordBytes v }) := fun hs => by
    have hloop := frameLoop_word (rules := s.frameRules) (cap := cap) hp hs hacc hlen []
    rwa [List.append_nil] at hloop
  have hfed : { fed with acc := [] } = fed := by simp [fed, c, hacc]
  have hafter : ∀ blk, frameLoop s.frameRules cap (wordBytes v) run = frameLoop s.frameRules cap []
      { run with ctx := fed.deliverBlock blk, used := run.used + 4 } → s.frameElement (wordBytes v) = .next (after blk) := by
    intro blk hloop
    have hempty : (fed.deliverBlock blk).pending = blk := by simp [fed, c, hp]
    rw [frameLoop, FrameRun.deliver_eq, hempty] at hloop
    exact State.frameElement_of_loop_out hw hloop
  refine ⟨fun hs => ?_, fun hs => ?_⟩
  · have hloop := hword (.inr (.inl hs))
    rw [FDecomp.feedWord_blockCrc (c := fed) hs, hfed] at hloop
    split_ifs at hloop ⊢ with hsum hstored
    · rw [frameLoopFrom_fail] at hloop
      exact State.frameElement_of_loop hw hloop
    · rw [frameLoopFrom_processBlock, if_pos (by exact hstored)] at hloop
      exact hafter c.payload hloop
    · have hdecode : blockDecode s.frameRules.strictTail fed.payload (Config.blockMax fed.info.bsid) fed.blockHistory =
          blockDecode s.params.strictTail c.payload (Config.blockMax c.info.bsid) window := rfl
      rw [frameLoopFrom_processBlock, if_neg (by exact hstored), hdecode] at hloop
      generalize blockDecode s.params.strictTail c.payload (Config.blockMax c.info.bsid) window = decoded at hloop ⊢
      obtain ⟨blk, _ | ⟨d, pos⟩⟩ := decoded
      · exact hafter blk hloop
      · exact State.frameElement_of_loop hw hloop
  · have hloop := hword (.inr (.inr hs))
    rw [FDecomp.feedWord_contentCrc (c := fed) hs] at hloop
    split_ifs at hloop ⊢ with hsum
    · rw [frameLoopFrom_fail] at hloop
      exact State.frameElement_of_loop hw hloop
    · have hdone : { fed with acc := [], stage := .ended, dstate := .complete } =
          { fed with stage := .ended, dstate := .complete } := by simp [fed, c, hacc]
      rw [frameLoopFrom_goOn, hdone, frameLoop_nil_of_empty (by exact hp)] at hloop
      exact State.frameElement_of_loop hw hloop

/-! ## FRAME_DECOMPRESS -/

/-- Setting a slot to the context it holds changes no slot. -/
theorem set_of_slotAt {slots : List (Option Ctx)} {h : BitVec 8} {c : Ctx} (hc : slotAt slots h = some c) :
    slots.set (h.toNat - 1) (some c) = slots := by
  have hget := (slotAt_of_ne_zero (ne_zero_of_slotAt hc) slots).symm.trans hc
  rw [Option.getD_eq_iff] at hget
  obtain ⟨hlt, heq⟩ := List.getElem?_eq_some_iff.mp (hget.resolve_right (by simp))
  rw [← heq, List.set_getElem_self]

/-- The report of FRAME_DECOMPRESS at the end of its loop, field by field (rules R385, R396). -/
theorem State.frameReport_eq {s : State} {h : BitVec 8} {c : Ctx} (hslot : slotAt s.slots h = some c) (r : FrameRun)
    (e : Option (Detail × Nat)) : s.frameReport h r e =
      { s.success h with
        out := r.out
        resultLen := r.out.length
        consumed := r.used
        err := match e with
          | some (d, pos) => some (.corrupt d, pos)
          | none => none
        info := r.info
        slots := s.slots.set (h.toNat - 1) (some (.fdecomp r.ctx)) } := by
  rw [State.frameReport, setSlot_of_slotAt hslot]
  obtain _ | ⟨d, pos⟩ := e <;> rfl

/-- CMD[31:16], the handle, a context not FAILED, the buffers, then what the loop makes of the source bytes (rule R385). -/
theorem frameDecompress_runsTo (h : BitVec 8) (rsvd : BitVec 16) (s : State) (hs : s.undisturbed = true) :
    s.RunsTo (.frameDecompress h rsvd)
      (if rsvd ≠ 0 then s.failure h .badParam
       else match slotAt s.slots h with
        | some (.fdecomp c) =>
          if c.dstate = .failed then s.failure h .contextFailed
          else match s.bufferFault true true with
          | some e => s.failure h e
          | none =>
            let r := frameLoop s.frameRules s.dstCap s.sourceBytes { ctx := c, info := s.info, used := 0, out := [] }
            { s.success h with
              out := r.1.out
              resultLen := r.1.out.length
              consumed := r.1.used
              err := match r.2 with
                | some (d, pos) => some (.corrupt d, pos)
                | none => none
              info := r.1.info
              slots := s.slots.set (h.toNat - 1) (some (.fdecomp r.1.ctx)) }
        | _ => s.failure h .badHandle) := by
  refine State.runsTo_of_leaves rfl (State.leaves_rsvdCheck hs ?_)
  rw [State.fdecompAt]
  cases hslot : slotAt s.slots h with
  | none => exact State.leaves_raise hs h .badHandle
  | some ctx =>
    cases ctx with
    | fdecomp c =>
      refine State.leaves_check hs beq_iff_eq (State.leaves_bufferChecks (checks := []) hs ?_)
      exact State.leaves_source hs (f := fun src =>
        let r := frameLoop s.frameRules s.dstCap src (s.frameStart c)
        s.frameReport h r.1 r.2) (State.frameReport_eq hslot ..)
    | cstream _ | dstream _ | fcomp _ => exact State.leaves_raise hs h .badHandle

/-! ## User data -/

/-- The working registers once `n` bytes of user data are skipped (rule R388). -/
def FrameRun.skipped (r : FrameRun) (n : Nat) : FrameRun :=
  { r with
    used := r.used + n
    ctx := { r.ctx with
      fpos := r.ctx.fpos + n
      skipLeft := r.ctx.skipLeft - n
      stage := if n = r.ctx.skipLeft then .ended else .skip
      dstate := if n = r.ctx.skipLeft then .complete else r.ctx.dstate.fed } }

theorem FrameRun.skipped_skipped {r : FrameRun} {m : Nat} (hm : m < r.ctx.skipLeft) (n : Nat) :
    (r.skipped m).skipped n = r.skipped (m + n) := by
  have hlast : n = r.ctx.skipLeft - m ↔ m + n = r.ctx.skipLeft := by omega
  simp only [skipped, hlast, hm.ne, if_false, DState.fed_fed, Nat.add_assoc, Nat.sub_sub]

theorem FDecomp.feed_skip {c : FDecomp} (hs : c.stage = .skip) (hpos : 0 < c.skipLeft) (rules : FrameRules) (b : Byte) :
    c.feed rules b = goOn { c with
      fpos := c.fpos + 1
      skipLeft := c.skipLeft - 1
      stage := if 1 = c.skipLeft then .ended else .skip
      dstate := if 1 = c.skipLeft then .complete else c.dstate.fed } := by
  have hlast : c.skipLeft - 1 = 0 ↔ 1 = c.skipLeft := by omega
  simp only [feed, tick, hs, feedSkip, hlast]
  split <;> simp [goOn, DState.fed]

/-- The loop over bytes of user data, the last of which may complete the frame (rule R388). -/
theorem frameLoop_skip {rules : FrameRules} {cap : Nat} {bs : List Byte} {run : FrameRun} (hp : run.ctx.pending = [])
    (hs : run.ctx.stage = .skip) (hne : bs ≠ []) (hlen : bs.length ≤ run.ctx.skipLeft) (ys : List Byte) :
    frameLoop rules cap (bs ++ ys) run = frameLoop rules cap ys (run.skipped bs.length) := by
  induction bs generalizing run with
  | nil => exact absurd rfl hne
  | cons b bs ih =>
    have hfeed := FDecomp.feed_skip hs (Nat.lt_of_lt_of_le (Nat.zero_lt_succ _) hlen) rules b
    rw [List.cons_append, frameLoop_of_goOn hp (by simp [hs]) hfeed]
    by_cases hbs : bs = []
    · subst hbs
      rfl
    · have hpos := List.length_pos_iff.mpr hbs
      rw [List.length_cons] at hlen
      have hskip : (run.skipped 1).ctx.stage = .skip := if_neg (by omega)
      refine (ih (run := run.skipped 1) hp hskip hbs (by simp only [FrameRun.skipped]; omega)).trans ?_
      rw [FrameRun.skipped_skipped (by omega), List.length_cons, Nat.add_comm]

/-! ## The loop -/

/-- The loop stops while output is waiting for room and where the input ends (rule R385). -/
theorem frameLoop_stops {rules : FrameRules} {cap : Nat} {rest : List Byte} {run : FrameRun}
    (h : (run.deliver cap).ctx.pending ≠ [] ∨ rest = []) : frameLoop rules cap rest run = (run.deliver cap, none) := by
  obtain h | rfl := h
  · exact frameLoop_full h rules rest
  · rfl

/-- The block's bytes with nothing pending are all that is pending (rule R392). -/
theorem FDecomp.deliverBlock_of_empty {c : FDecomp} (hp : c.pending = []) (blk : List Byte) : c.deliverBlock blk =
    { c with
      pending := blk
      content := c.content ++ blk
      total := c.total + blk.length
      hist := if c.info.indep then c.hist else (c.hist ++ blk).drop ((c.hist ++ blk).length - 65536)
      payload := []
      stage := .blkHdr } := by
  rw [deliverBlock, hp]
  rfl

/-- On a context past its end with nothing pending FRAME_DECOMPRESS reports the first byte and keeps all (rule R395). -/
theorem frameDecompress_runsTo_of_complete {h : BitVec 8} {c : FDecomp} {s : State} (hs : s.undisturbed = true)
    (hslot : slotAt s.slots h = some (.fdecomp c)) (hcomplete : c.dstate = .complete) (hended : c.stage = .ended)
    (hp : c.pending = []) (hsrc : 0 < s.srcLen) (hfault : s.bufferFault true true = none) :
    s.RunsTo (.frameDecompress h 0) { s.success h with err := some (.corrupt .trailingData, c.fpos) } := by
  have hrun := frameDecompress_runsTo h 0 s hs
  obtain ⟨b, bs, hbytes⟩ := List.exists_cons_of_length_pos (l := s.sourceBytes)
    (by rwa [State.sourceBytes, Memory.length_readBytes])
  have hloop := frameLoop_ended (rules := s.frameRules) (cap := s.dstCap)
    (r := { ctx := c, info := s.info, used := 0, out := [] }) hp hended b bs
  simp only [hslot, hcomplete, hfault, hbytes, hloop, set_of_slotAt hslot, reduceCtorEq, ne_eq, not_true_eq_false,
    if_false] at hrun
  exact hrun

/-- Settles O50: the report of the loop over the source bytes, and what each kind of byte leads to in the loop. -/
theorem frameDecompressResult : Obligations.FrameDecompressResult := by
  refine ⟨frameDecompress_runsTo, fun h c s => frameDecompress_runsTo_of_complete, fun rules cap rest run => ?_⟩
  intro loop c room delivered
  have hdeliver : run.deliver cap = delivered := run.deliver_eq cap
  refine ⟨by rw [← hdeliver]; exact (frameLoop_deliver ..).symm, fun hstop => ?_, fun hp =>
    ⟨fun hs hne => ?_, fun b hs => ?_, fun bs hs hne hlen => frameLoop_skip hp hs hne hlen rest, fun bs hs hne hlen => ?_⟩⟩
  · rw [← hdeliver]
    exact frameLoop_stops (by rwa [hdeliver])
  · obtain ⟨b, bs, rfl⟩ := List.exists_cons_of_ne_nil hne
    exact frameLoop_ended hp hs b bs
  · exact frameLoop_eq_frameLoopFrom hp hs b rest
  · intro fed eaten dispatched
    have hpayload : loop (bs ++ rest) run = frameLoopFrom rules cap rest run bs.length (fed.feedBlkData rules) :=
      frameLoop_payload hp hs hne hlen rest
    have hcount : fed.payload.length = c.payload.length + bs.length := List.length_append ..
    rw [hpayload]
    by_cases hopen : c.payload.length + bs.length ≠ c.bword % 2 ^ 31
    · rw [if_pos hopen, FDecomp.feedBlkData_of_open (by rwa [hcount])]
      rfl
    rw [if_neg hopen, FDecomp.feedBlkData_of_full (by rw [hcount]; exact not_not.mp hopen)]
    by_cases hcrc : c.info.bcrc = true
    · rw [if_pos hcrc, if_pos (by exact hcrc)]
      rfl
    rw [if_neg hcrc, if_neg (by exact hcrc), frameLoopFrom_processBlock]
    simp only [FDecomp.deliverBlock_of_empty (c := fed) hp]
    rfl

end Sys2Proof.Machine
end

section
/-!
PROOF. The known values of XXH32, each by running rule R435 on its input, and the header checksums read off them (rules R437 (a),
R438).
-/

namespace Sys2Proof.Machine

/-- The second byte of a known hash is the header checksum (rule R437 (a)). -/
theorem headerChecksum_of_xxh32_eq {bs : List Byte} {w : Word} (h : xxh32 bs = w) :
    headerChecksum bs = w.extractLsb' 8 8 := by
  rw [headerChecksum, h]

/-- Settles O59: every hash evaluates, and the hashes of the three header bodies hold their header checksums. -/
theorem xxh32KnownValues : Obligations.Xxh32KnownValues := by
  have hindependent : xxh32 [0x60, 0x40] = 0x301A8268 := by decide
  have hcontentChecksum : xxh32 [0x64, 0x40] = 0x95C0A77C := by decide
  have hcontentSize : xxh32 [0x7C, 0x40, 0x64, 0x00, 0x00, 0x00, 0x00, 0x00, 0x00, 0x00] = 0x69345EB0 := by decide
  refine ⟨?empty, ?byte, ?threeBytes, ?word, ?stripe, ?stripeAndByte, ?ascending, ?constant,
    hindependent, hcontentChecksum, hcontentSize, headerChecksum_of_xxh32_eq hindependent,
    headerChecksum_of_xxh32_eq hcontentChecksum, headerChecksum_of_xxh32_eq hcontentSize⟩
  -- The tail alone, then one or two stripes before it.
  case empty | byte | threeBytes | word => decide
  case stripe | stripeAndByte | ascending | constant => decide

end Sys2Proof.Machine
end

section
/-!
PROOF. The errors of a command: every command of an engine with memory everywhere ends in success, in an error that keeps partial
output, or with the report of a failing check (rules R452, R454 to R456); and the interrupt output at every step that moves it
(rule R461).
-/

namespace Sys2Proof.Machine

/-! ## The three kinds of end -/

/-- The errors found in the source's bytes, which keep what was done before them (rule R456 (b)). -/
def Err.IsLate (e : Err) : Prop := (∃ d, e = .corrupt d) ∨ e = .chunkOutput

theorem Err.IsLate.corrupt (d : Detail) : (Err.corrupt d).IsLate := .inl ⟨d, rfl⟩

/-- How a command ends: in success, in a late error, or with the report of a failing check (rule R456). -/
inductive Report.Ending (s : State) (r : Report) : Prop where
  | success (herr : r.err = none)
  | late (e : Err) (pos : Nat) (herr : r.err = some (e, pos)) (he : e.IsLate)
  | early (h : BitVec 8) (e : Err) (heq : r = s.failure h e)

/-- The result is the end of a command with one of these endings. -/
def State.Concludes (s : State) (x : Result) : Prop := ∃ r : Report, r.Ending s ∧ x = s.finish r

namespace State.Concludes

variable {s : State} {h : BitVec 8} {x y : Result}

theorem finish {r : Report} (hr : r.Ending s) : s.Concludes (s.finish r) := ⟨r, hr, rfl⟩

theorem success {r : Report} (herr : r.err = none := by rfl) : s.Concludes (s.finish r) := finish (.success herr)

theorem raise (e : Err) : s.Concludes (s.raise h e) := finish (.early h e rfl)

theorem check {checks : List (Bool × Err)} (hx : s.Concludes x) : s.Concludes (s.checked h checks x) := by
  unfold State.checked
  split
  · exact raise _
  · exact hx

/-- A lookup in the contexts, an error where there is nothing (rule R454). `pick` is the command's own case distinction on it. -/
theorem lookup {α : Type} {o : Option α} {e : Err} {g : α → Result}
    {pick : Option α → (Unit → Result) → (α → Result) → Result} (hg : ∀ c, s.Concludes (g c))
    (hnone : ∀ x y, pick none x y = x () := by intros; rfl) (hsome : ∀ c x y, pick (some c) x y = y c := by intros; rfl) :
    s.Concludes (pick o (fun _ => s.raise h e) g) := by
  cases o with
  | none => exact hnone .. ▸ raise e
  | some c => exact hsome .. ▸ hg c

theorem ite {p : Prop} [Decidable p] (hx : s.Concludes x) (hy : s.Concludes y) : s.Concludes (if p then x else y) := by
  split
  · exact hx
  · exact hy

theorem source (hholes : s.params.holes = []) {k : List Byte → Result} (hk : ∀ src, s.Concludes (k src)) :
    s.Concludes (s.withSource k) := by
  rw [State.withSource_of_no_holes hholes]
  exact hk _

end State.Concludes

/-! ## The reports of the decoders -/

theorem State.decompressReport_ending (s : State) (n : Nat) (out : List Byte) (st : Option (Detail × Nat)) :
    (s.decompressReport n out st).Ending s := by
  cases st with
  | none => exact .success rfl
  | some e => exact .late _ _ rfl (.corrupt _)

/-- A legacy container fails before any write, or with an error found in its bytes (rule R251). -/
theorem State.legacyDecode_ending (s : State) (src : List Byte) (cap : Nat) : (s.legacyDecode src cap).Ending s := by
  unfold State.legacyDecode State.legacyReport
  split
  · exact .early 0 _ rfl
  split
  · exact .early 0 _ rfl
  dsimp only
  split
  · exact .late _ _ rfl (.corrupt _)
  split
  · exact .success rfl
  · exact .late _ _ rfl (.corrupt _)

theorem isLate_streamError (c : DStream) (dstCap : Nat) (d : Detail) : (streamError c dstCap d).IsLate := by
  unfold streamError
  split
  · exact .inr rfl
  · exact .corrupt d

theorem State.streamDecompressReport_ending (s : State) (h : BitVec 8) (c : DStream) (out : List Byte)
    (st : Option (Detail × Nat)) : (s.streamDecompressReport h c out st).Ending s := by
  cases st with
  | none => exact .success rfl
  | some e => exact .late _ _ rfl (isLate_streamError c _ _)

theorem State.frameReport_ending (s : State) (h : BitVec 8) (r : FrameRun) (e : Option (Detail × Nat)) :
    (s.frameReport h r e).Ending s := by
  cases e with
  | none => exact .success rfl
  | some e => exact .late _ _ rfl (.corrupt _)

/-! ## Each command -/

section

variable {s : State} (hholes : s.params.holes = [])
include hholes

open State.Concludes

/-- Every command of an engine with memory everywhere ends with one of the endings (rules R452, R456). -/
theorem exec_concludes {i : Instr} (hi : i.isCommand = true) : s.Concludes (exec i s) := by
  cases i with
  | bound => exact check success
  | compress => exact check (source hholes fun _ => success)
  | decompress =>
    exact check (source hholes fun src =>
      ite (finish (s.legacyDecode_ending src _)) (finish (s.decompressReport_ending ..)))
  | ctxCreate => exact check (lookup fun _ => success)
  | ctxDestroy => exact success
  | ctxReset => exact check (lookup fun _ => success)
  | ctxLoadDict => exact check (lookup fun _ => check (source hholes fun _ => success))
  | streamCompress => exact check (lookup fun _ => check (source hholes fun _ => success))
  | streamDecompress =>
    exact check (lookup fun c => check (source hholes fun _ => finish (s.streamDecompressReport_ending _ c _ _)))
  | frameBegin => exact check (lookup fun _ => check (check (check success)))
  | frameUpdate => exact check (lookup fun _ => check (source hholes fun _ => ite (raise _) success))
  | frameEnd => exact check (lookup fun _ => check (ite (raise _) success))
  | frameInfo =>
    exact check (lookup fun _ => check (source hholes fun _ => by
      split
      · exact finish (.late _ _ rfl (.corrupt _))
      · exact success))
  | frameDecompress =>
    exact check (lookup fun _ => check (source hholes fun _ => finish (s.frameReport_ending ..)))
  | illegalCommand => exact raise _
  | _ => simp [Instr.isCommand, siteOf] at hi

/-- The state such a command leaves (rule R36). -/
theorem exec_completes {i : Instr} (hi : i.isCommand = true) :
    ∃ r : Report, r.Ending s ∧ exec i s = .next (s.completed r) := by
  obtain ⟨r, hr, hexec⟩ := exec_concludes hholes hi
  exact ⟨r, hr, by rw [hexec, State.finish_of_no_holes hholes]⟩

end

/-! ## The errors of the checks -/

/-- CORRUPT_INPUT is class 3 and ChunkTooLarge(OUTPUT) is 0x0206 (rules R450, R451). -/
theorem Err.IsLate.word {e : Err} (he : e.IsLate) : e.word.extractLsb' 0 8 = 3 ∨ e.word = 0x0206 := by
  obtain ⟨d, rfl⟩ | rfl := he
  · left
    cases d <;> decide
  · exact .inr rfl

/-- Settles O14: the error code tells the ending, and the report of a failing check changes nothing. -/
theorem earlyErrorsChangeNothing : Obligations.EarlyErrorsChangeNothing := by
  intro i s t hi hs ht hclass hcorrupt hchunk
  obtain ⟨-, hholes, hraced⟩ := s.undisturbed_iff.mp hs
  obtain ⟨r, hr, hexec⟩ := exec_completes hholes hi
  obtain rfl : s.completed r = t := Host.Outcome.next.inj (hexec.symm.trans ht)
  have hcode : (s.completed r).readReg 0x03C = errCodeWord r.err := rfl
  rw [hcode] at hclass hcorrupt hchunk
  cases hr with
  | success herr => simp [herr, errCodeWord] at hclass
  | late e pos herr he =>
    rw [herr] at hcorrupt hchunk
    exact (he.word.elim hcorrupt hchunk).elim
  | early h e heq =>
    subst heq
    have hoffset : BitVec.ofNat 32 (errOffset (s.failure h e).err / 2 ^ 32) = 0 := by simp [errOffset]
    exact ⟨s.memAfter_of_no_race hraced [], rfl, rfl, rfl, rfl, rfl, hoffset, s.statusWord_completed _⟩

/-! ## The registers behind the interrupt output -/

/-- CTRL bit 0 reads IE (rule R35). -/
theorem State.getLsbD_ctrlWord (s : State) : s.ctrlWord.getLsbD 0 = s.ie := by
  have hbit : ∀ ie, (BitVec.ofNat 32 (flagNat ie)).getLsbD 0 = ie := by decide
  exact hbit s.ie

/-- STATUS bit 1 reads DONE (rule R36). -/
theorem State.getLsbD_statusWord (s : State) : s.statusWord.getLsbD 1 = s.done := by
  have hbit : ∀ busy done error,
      (BitVec.ofNat 32 (flagNat busy + 2 * flagNat done + 4 * flagNat error)).getLsbD 1 = done := by decide
  exact hbit s.busy s.done s.errorFlag

/-! ## A step that takes a host event -/

/-- An aligned offset inside register space is the register at its bus address (rules R33 (a), R54). -/
theorem State.registerAt_regAddr {s : State} {off : Nat} (halign : off % 4 = 0) (hlt : off < 4096) :
    s.registerAt (s.regAddr off) 4 = some off := by
  simp [State.registerAt, State.regAddr, State.inRegisterSpace, inRange, halign, hlt]

theorem step_of_regWrite {s : State} {off : Nat} {v : Word} {later : List HostEvent}
    (hinbox : s.inbox = .regWrite (s.regAddr off) 4 v :: later) (halign : off % 4 = 0) (hlt : off < 4096) :
    step s = .next ({ s with inbox := later }.writeReg off v) := by
  have hreg : State.registerAt { s with inbox := later } (s.regAddr off) 4 = some off :=
    State.registerAt_regAddr halign hlt
  simp only [step, State.turn, hinbox, hostTurn, hreg]

theorem step_of_platformReset {s : State} {later : List HostEvent} (hinbox : s.inbox = .platformReset :: later) :
    step s = .next { s with inbox := later }.deviceReset := by
  simp only [step, State.turn, hinbox, hostTurn]

/-! ## The interrupt output after the steps that move it -/

theorem State.irq_completed (s : State) (r : Report) : (s.completed r).irq = s.ie := Bool.and_true _

@[simp] theorem State.irq_deviceReset (s : State) : s.deviceReset.irq = false := rfl

@[simp] theorem State.irq_acceptCmd (s : State) (w : Word) : (s.acceptCmd w).irq = false := Bool.and_false _

theorem State.irq_writeReg_ctrl (s : State) (v : Word) :
    (s.writeReg 0x004 v).irq = (v.getLsbD 0 && s.done && !v.getLsbD 1) := by
  simp only [State.writeReg]
  cases v.getLsbD 1
  · exact (Bool.and_true _).symm
  · exact (Bool.and_false _).symm

theorem State.irq_writeReg_status (s : State) (v : Word) : (s.writeReg 0x008 v).irq = (s.irq && !v.getLsbD 1) := by
  simp only [State.writeReg]
  cases v.getLsbD 1
  · exact (Bool.and_true _).symm
  · exact (Bool.and_false _).trans (Bool.and_false _).symm

theorem State.irq_writeReg_cmd (s : State) (w : Word) (hidle : s.busy = false) : (s.writeReg 0x00C w).irq = false := by
  simp [State.writeReg, hidle]

/-- Settles O10: the two bits as the host reads them, then each step that moves one of them. -/
theorem interruptOutput : Obligations.InterruptOutput := by
  refine ⟨fun s => ?registers, fun i s t hi ht hholes => ?command, fun s v later hinbox => ?ctrl,
    fun s v later hinbox => ?status, fun s w later hinbox hidle => ?cmd, fun s later hinbox => ?reset⟩
  case registers => exact (congrArg₂ _ s.getLsbD_ctrlWord s.getLsbD_statusWord).symm
  case command =>
    obtain ⟨r, -, hexec⟩ := exec_completes hholes hi
    obtain rfl : s.completed r = t := Host.Outcome.next.inj (hexec.symm.trans ht)
    exact s.irq_completed r
  case ctrl => exact ⟨_, step_of_regWrite hinbox rfl (by decide), State.irq_writeReg_ctrl _ v⟩
  case status => exact ⟨_, step_of_regWrite hinbox rfl (by decide), State.irq_writeReg_status _ v⟩
  case cmd => exact ⟨_, step_of_regWrite hinbox rfl (by decide), State.irq_writeReg_cmd _ w hidle⟩
  case reset => exact ⟨_, step_of_platformReset hinbox, State.irq_deviceReset _⟩

end Sys2Proof.Machine
end

section
/-!
PROOF. The device reset (rules R490, R491): the reset values as the host reads them, the two steps that perform it, and what an
abandoned command leaves in memory; and the reset state, which waits for a write of CMD (rule R493).
-/

namespace Sys2Proof.Machine

/-! ## Registers and slots after a reset -/

/-- Behind a register other than ID stands a field that the reset sets to 0, or nothing (rules R32, R491). -/
theorem State.readReg_deviceReset (s : State) (off : Nat) :
    s.deviceReset.readReg off = if off = 0 then 0x4C5A3401 else 0 := by
  have hhigh : s.deviceReset.readHigh 0 = 0 := ite_self _
  by_cases hid : off = 0
  · subst hid
    rfl
  · rw [if_neg hid]
    unfold State.readReg
    split
    case h_1 => exact absurd rfl hid
    case h_5 | h_8 => exact hhigh
    all_goals rfl

theorem slotAt_replicate_none (n : Nat) (h : BitVec 8) : slotAt (List.replicate n none) h = none := by
  by_cases hh : h = 0
  · exact if_pos hh
  · rw [slotAt_of_ne_zero hh, List.getElem?_replicate]
    split <;> rfl

/-- A reset of the engine at reset changes nothing. -/
theorem State.deviceReset_reset : State.reset.deviceReset = State.reset := rfl

/-! ## The steps of an idle and of a busy engine -/

/-- The engine runs the command it has accepted (rules R30, R37). -/
theorem step_of_command {s : State} (hinbox : s.inbox = []) (hbusy : s.busy = true) (hstuck : s.stuck = false)
    (hwork : s.work = .idle) : step s = exec (decodeCommand s.args.cmd) s := by
  simp only [step, State.turn, hinbox, State.engineMoves, State.engineReady, hbusy, hstuck, Bool.not_false, Bool.and_self,
    if_true, State.engineTurn, hwork]

/-- An idle engine fetches nothing (rule R493). -/
theorem step_of_idle {s : State} (hinbox : s.inbox = []) (hidle : s.busy = false) : step s = .next s := by
  simp only [step, State.turn, hinbox, State.engineMoves, State.engineReady, hidle, Bool.false_and, Bool.false_eq_true, if_false]

theorem State.writeReg_cmd_of_idle {s : State} (hidle : s.busy = false) (w : Word) :
    s.writeReg 0x00C w = s.acceptCmd w := if_neg (Bool.eq_false_iff.mp hidle)

theorem State.writeReg_ctrl_of_srst (s : State) {v : Word} (hsrst : v.getLsbD 1 = true) :
    s.writeReg 0x004 v = s.deviceReset := if_pos hsrst

/-- Both sources of the device reset perform it (rules R35, R490). -/
theorem step_of_deviceReset {s : State} {later : List HostEvent}
    (h : s.inbox = .platformReset :: later ∨
      ∃ v : Word, v.getLsbD 1 = true ∧ s.inbox = .regWrite (s.regAddr 0x004) 4 v :: later) :
    step s = .next { s with inbox := later }.deviceReset := by
  obtain hinbox | ⟨v, hsrst, hinbox⟩ := h
  · exact step_of_platformReset hinbox
  · rw [step_of_regWrite hinbox rfl (by decide), State.writeReg_ctrl_of_srst _ hsrst]

/-! ## The memory of an abandoned command -/

/-- A merged byte keeps its value, or lies in the range and takes the new one (rule R491). -/
theorem State.read_mergeAbandoned (s : State) (new : List Host.Cell) {m : List Host.Cell} (hm : Memory.wf m = true)
    (k a n x : Nat) : Memory.read (s.mergeAbandoned new k a n m) x = Memory.read m x
      ∨ a ≤ x ∧ x < a + n ∧ Memory.read (s.mergeAbandoned new k a n m) x = Memory.read new x := by
  induction n generalizing k a m with
  | zero => exact .inl rfl
  | succ n ih =>
    unfold State.mergeAbandoned
    split
    case isFalse =>
      exact (ih hm (k + 1) (a + 1)).imp_right fun ⟨hlo, hhi, hread⟩ => ⟨by omega, by omega, hread⟩
    case isTrue =>
      obtain hkept | ⟨hlo, hhi, hread⟩ := ih (Memory.wf_write hm a (Memory.read new a)) (k + 1) (a + 1)
      · rw [hkept, Memory.read_write m hm]
        split
        case isTrue hx => exact .inr ⟨hx.ge, by omega, by rw [hx]⟩
        case isFalse => exact .inl rfl
      · exact .inr ⟨by omega, by omega, hread⟩

/-- What the abandoned command would have left is what it leaves with memory everywhere. -/
theorem State.exec_of_wouldComplete {s u : State} (h : s.wouldComplete = some u) :
    exec s.command { s with work := .idle, params := { s.params with holes := [] } } = .next u := by
  unfold State.wouldComplete at h
  split at h
  · cases h
  · split at h
    case h_1 hexec => exact hexec.trans (congrArg _ (Option.some.inj h))
    all_goals cases h

/-- The reset leaves memory alone, or merges in what the running command would have written (rule R491). -/
theorem State.abandonedMem_cases {s : State} (hraced : s.raced = []) :
    s.abandonedMem = s.mem
      ∨ s.busy = true ∧ usesDest s.command = true ∧ ∃ u, s.wouldComplete = some u
        ∧ s.abandonedMem = s.mergeAbandoned u.mem 0 s.dstAddr u.results.resultLen.toNat s.mem := by
  by_cases hrun : (s.busy && usesDest s.command) = true
  · rw [State.abandonedMem, if_pos hrun]
    cases s.wouldComplete with
    | none => exact .inl rfl
    | some u =>
      obtain ⟨hbusy, hdest⟩ := Bool.and_eq_true_iff.mp hrun
      exact .inr ⟨hbusy, hdest, u, rfl, by simp only [hraced, if_true]⟩
  · exact .inl (if_neg hrun)

/-- A byte of memory after the reset (rule R491). -/
theorem State.read_abandonedMem {s : State} (hm : Memory.wf s.mem = true) (hraced : s.raced = []) (a : Nat) :
    Memory.read s.abandonedMem a = Memory.read s.mem a
      ∨ (s.busy = true ∧ usesDest s.command = true ∧ s.dstAddr ≤ a
        ∧ ∃ u, exec s.command { s with work := .idle, params := { s.params with holes := [] } } = .next u
          ∧ a < s.dstAddr + u.results.resultLen.toNat ∧ Memory.read s.abandonedMem a = Memory.read u.mem a) := by
  obtain hkept | ⟨hbusy, hdest, u, hu, hmerged⟩ := State.abandonedMem_cases hraced
  · exact .inl (by rw [hkept])
  · rw [hmerged]
    exact (s.read_mergeAbandoned u.mem hm ..).imp_right fun ⟨hlo, hhi, hread⟩ =>
      ⟨hbusy, hdest, hlo, u, State.exec_of_wouldComplete hu, hhi, hread⟩

/-- Settles O6: the step is the device reset from either source, and only its memory depends on the command it abandons. -/
theorem deviceResetEffects : Obligations.DeviceResetEffects := by
  intro s later hsource hm hraced
  exact ⟨_, step_of_deviceReset hsource, State.readReg_deviceReset _, rfl, rfl, rfl, rfl, rfl, rfl, rfl,
    State.read_abandonedMem (s := { s with inbox := later }) hm hraced⟩

/-- Settles O5: the reset state is its own device reset; the engine is idle, and a write of CMD is accepted and then run. -/
theorem resetStateWaitsForCommand : Obligations.ResetStateWaitsForCommand := by
  have hregisters := State.deviceReset_reset ▸ State.readReg_deviceReset State.reset
  refine ⟨hregisters, rfl, slotAt_replicate_none _, step_of_idle rfl rfl, fun w => ?_⟩
  refine ⟨State.reset.acceptCmd w, ?_, step_of_command rfl rfl rfl rfl⟩
  rw [step_of_regWrite rfl rfl (by decide), State.writeReg_cmd_of_idle rfl]
  rfl

end Sys2Proof.Machine
end

section
/-!
PROOF. The decoder and the encoder are inverse at every place (rules R37, R110 to R131, R150 to R154): the fields of a word put
together and taken apart, the bytes an element takes, then each row of the opcode table.
-/

namespace Sys2Proof

open Machine

/-! ## The fields of a word -/

/-- Two fields side by side, as a number (rule R11). -/
theorem toNat_append_eq_add {m n : Nat} (x : BitVec m) (y : BitVec n) : (x ++ y).toNat = 2 ^ n * x.toNat + y.toNat := by
  rw [BitVec.toNat_append, ← Nat.shiftLeft_add_eq_or_of_lt y.isLt, Nat.shiftLeft_eq, Nat.mul_comm]

theorem toNat_commandWord (op h : BitVec 8) (r : BitVec 16) :
    (commandWord op h r).toNat = 65536 * r.toNat + 256 * h.toNat + op.toNat := by
  rw [commandWord, toNat_append_eq_add, toNat_append_eq_add]
  omega

/-- The OPCODE field of a CMD word (rule R37). -/
theorem opcode_commandWord (op h : BitVec 8) (r : BitVec 16) : (commandWord op h r).extractLsb' 0 8 = op := by
  simp only [← BitVec.toNat_inj, BitVec.extractLsb'_toNat, toNat_commandWord, Nat.shiftRight_eq_div_pow]
  omega

/-- The HANDLE field of a CMD word (rule R37). -/
theorem handle_commandWord (op h : BitVec 8) (r : BitVec 16) : (commandWord op h r).extractLsb' 8 8 = h := by
  simp only [← BitVec.toNat_inj, BitVec.extractLsb'_toNat, toNat_commandWord, Nat.shiftRight_eq_div_pow]
  omega

/-- CMD[31:16] (rule R37). -/
theorem rsvd_commandWord (op h : BitVec 8) (r : BitVec 16) : (commandWord op h r).extractLsb' 16 16 = r := by
  simp only [← BitVec.toNat_inj, BitVec.extractLsb'_toNat, toNat_commandWord, Nat.shiftRight_eq_div_pow]
  omega

/-- A CMD word is made of its fields (rule R37). -/
theorem commandWord_of_fields (w : Word) :
    commandWord (w.extractLsb' 0 8) (w.extractLsb' 8 8) (w.extractLsb' 16 16) = w := by
  simp only [← BitVec.toNat_inj, toNat_commandWord, BitVec.extractLsb'_toNat, Nat.shiftRight_eq_div_pow]
  omega

theorem toNat_prefsWord (bsid : BitVec 3) (r3 i c b a : Bool) (rh : BitVec 24) :
    (prefsWord bsid r3 i c b a rh).toNat = bsid.toNat + 8 * r3.toNat + 16 * i.toNat + 32 * c.toNat + 64 * b.toNat
      + 128 * a.toNat + 256 * rh.toNat := by
  simp only [prefsWord, toNat_append_eq_add, BitVec.toNat_ofBool]
  omega

/-- A bit from a word's number (rule R11). -/
theorem getLsbD_of_toNat {n : Nat} {w : BitVec n} {i : Nat} {b : Bool} (h : w.toNat / 2 ^ i % 2 = b.toNat) :
    w.getLsbD i = b := by
  rw [getLsbD_eq_decide, h]
  cases b <;> rfl

/-- The fields of a preferences word are read back (rule R152). -/
theorem decodePrefs_prefsWord (bsid : BitVec 3) (r3 i c b a : Bool) (rh : BitVec 24) :
    decodePrefs (prefsWord bsid r3 i c b a rh) = .prefs bsid r3 i c b a rh := by
  have hnum := toNat_prefsWord bsid r3 i c b a rh
  have hbsid := bsid.isLt
  have hr3 := r3.toNat_lt
  have hi := i.toNat_lt
  have hc := c.toNat_lt
  have hb := b.toNat_lt
  have ha := a.toNat_lt
  have hlow : (prefsWord bsid r3 i c b a rh).extractLsb' 0 3 = bsid := by
    rw [← BitVec.toNat_inj, BitVec.extractLsb'_toNat, hnum, Nat.shiftRight_eq_div_pow]
    omega
  have hhigh : (prefsWord bsid r3 i c b a rh).extractLsb' 8 24 = rh := by
    rw [← BitVec.toNat_inj, BitVec.extractLsb'_toNat, hnum, Nat.shiftRight_eq_div_pow]
    omega
  rw [decodePrefs, hlow, hhigh, getLsbD_of_toNat (b := r3) (by omega), getLsbD_of_toNat (b := i) (by omega),
    getLsbD_of_toNat (b := c) (by omega), getLsbD_of_toNat (b := b) (by omega), getLsbD_of_toNat (b := a) (by omega)]

theorem toNat_ofBool_getLsbD {n : Nat} (w : BitVec n) (i : Nat) : (BitVec.ofBool (w.getLsbD i)).toNat = w.toNat / 2 ^ i % 2 := by
  rw [BitVec.toNat_ofBool, BitVec.getLsbD, Nat.toNat_testBit]

/-- A preferences word is made of its fields (rule R152). -/
theorem encode_decodePrefs (w : Word) : encode (decodePrefs w) = wordBytes w := by
  rw [decodePrefs, encode]
  congr 1
  simp only [← BitVec.toNat_inj, prefsWord, toNat_append_eq_add, toNat_ofBool_getLsbD, BitVec.extractLsb'_toNat,
    Nat.shiftRight_eq_div_pow]
  omega

/-- A FLG byte is made of its fields (rule R123). -/
theorem encode_decodeFlg (b : Byte) : encode (decodeFlg b) = [b] := by
  rw [decodeFlg, encode]
  congr 1
  simp only [← BitVec.toNat_inj, flgByte, toNat_append_eq_add, toNat_ofBool_getLsbD, BitVec.extractLsb'_toNat,
    Nat.shiftRight_eq_div_pow]
  omega

/-- A BD byte is made of its fields (rule R124). -/
theorem encode_decodeBd (b : Byte) : encode (decodeBd b) = [b] := by
  rw [decodeBd, encode]
  congr 1
  simp only [← BitVec.toNat_inj, bdByte, toNat_append_eq_add, toNat_ofBool_getLsbD, BitVec.extractLsb'_toNat,
    Nat.shiftRight_eq_div_pow]
  omega

theorem encode_decodeToken (b : Byte) : encode (decodeToken b) = [b] := congrArg (fun x => [x]) (tokenByte_nibbles b)

/-! ## Command words -/

/-- Every command word is the encoding of what it decodes to (rules R37, R150). -/
theorem encode_decodeCommand (w : Word) : encode (decodeCommand w) = wordBytes w := by
  have hword : ∀ op : BitVec 8, (w.extractLsb' 0 8).toNat = op.toNat →
      wordBytes (commandWord op (w.extractLsb' 8 8) (w.extractLsb' 16 16)) = wordBytes w := fun op hop => by
    rw [← BitVec.eq_of_toNat_eq hop, commandWord_of_fields]
  unfold decodeCommand
  dsimp only
  split
  case h_15 => exact hword _ rfl
  all_goals exact hword _ (by assumption)

theorem siteOf_decodeCommand (w : Word) : siteOf (decodeCommand w) = .command := by
  unfold decodeCommand
  dsimp only
  split <;> rfl

/-- An OPCODE in no row of the table is ILLEGAL_COMMAND (rule R150). -/
theorem decodeCommand_of_illegal {op : BitVec 8} (hop : legalOpcodes.contains op = false) (h : BitVec 8) (r : BitVec 16) :
    decodeCommand (commandWord op h r) = .illegalCommand op h r := by
  simp only [decodeCommand, opcode_commandWord, handle_commandWord, rsvd_commandWord]
  split
  case h_15 => rfl
  all_goals simp [legalOpcodes, ← BitVec.toNat_inj, *] at hop

/-- A legal command is read back from its CMD word (rules R37, R150). -/
theorem decodeCommand_encode {i : Instr} (hi : siteOf i = .command) (hwf : i.wf = true) :
    ∃ w, encode i = wordBytes w ∧ decodeCommand w = i := by
  cases i
  case illegalCommand op h r =>
    exact ⟨_, rfl, decodeCommand_of_illegal (by simpa only [Instr.wf, Bool.not_eq_true'] using hwf) h r⟩
  case bound h r | compress h r | decompress h r | ctxCreate h r | ctxDestroy h r | ctxReset h r | ctxLoadDict h r
      | streamCompress h r | streamDecompress h r | frameBegin h r | frameUpdate h r | frameEnd h r | frameInfo h r
      | frameDecompress h r =>
    refine ⟨_, rfl, ?_⟩
    simp only [decodeCommand, opcode_commandWord, handle_commandWord, rsvd_commandWord]
    rfl
  all_goals cases hi

/-! ## The bytes an element takes -/

theorem takeBytes_append (bs rest : List Byte) : takeBytes bs.length (bs ++ rest) = .ok (bs, rest) := by
  simp [takeBytes]

theorem takeBytes_ok {n : Nat} {bs : List Byte} {p : List Byte × List Byte} (h : takeBytes n bs = .ok p) :
    p.1.length = n ∧ p.1 ++ p.2 = bs := by
  unfold takeBytes at h
  split at h
  · cases h
  · cases h
    exact ⟨List.length_take_of_le (by omega), List.take_append_drop n bs⟩

/-- A field of `n` bytes as a number (rules R12, R81). -/
theorem ofNat_leNat_bytesLE {n : Nat} (w : BitVec (8 * n)) : BitVec.ofNat (8 * n) (leNat (bytesLE n w.toNat)) = w := by
  rw [leNat_bytesLE, show 256 ^ n = 2 ^ (8 * n) from (Nat.pow_mul 2 8 n).symm, Nat.mod_eq_of_lt w.isLt, BitVec.ofNat_toNat,
    BitVec.setWidth_eq]

/-- A field of `n` bytes is the little-endian encoding of its number (rule R12). -/
theorem bytesLE_ofNat_leNat {bs : List Byte} {n : Nat} (h : bs.length = n) :
    bytesLE n (BitVec.ofNat (8 * n) (leNat bs)).toNat = bs := by
  have hlt := leNat_lt bs
  subst h
  rw [BitVec.toNat_ofNat, Nat.pow_mul, Nat.mod_eq_of_lt hlt, bytesLE_leNat]

section

variable {i : Instr} {rest : List Byte}

/-- An element that stands in the bytes `bs`. -/
theorem decode_of_bytes {f : List Byte → Instr} {bs : List Byte} (hi : f bs = i) :
    (takeBytes bs.length (bs ++ rest)).map (fun p => (f p.1, p.2)) = .ok (i, rest) := by
  rw [takeBytes_append, ← hi]
  rfl

/-- An element that is one byte. -/
theorem decode_of_byte {f : Byte → Instr} {b : Byte} (hi : f b = i) :
    (takeBytes 1 ([b] ++ rest)).map (fun p => (f (byteAt p.1 0), p.2)) = .ok (i, rest) :=
  decode_of_bytes (bs := [b]) (f := fun bs => f (byteAt bs 0)) hi

/-- An element that is a number of `n` bytes. -/
theorem decode_of_field (n : Nat) {f : BitVec (8 * n) → Instr} {w : BitVec (8 * n)} (hi : f w = i) :
    (takeBytes n (bytesLE n w.toNat ++ rest)).map (fun p => (f (BitVec.ofNat (8 * n) (leNat p.1)), p.2)) = .ok (i, rest) := by
  have hbytes := decode_of_bytes (rest := rest) (bs := bytesLE n w.toNat) (f := fun bs => f (BitVec.ofNat (8 * n) (leNat bs)))
    (by rw [ofNat_leNat_bytesLE, hi])
  rwa [length_bytesLE] at hbytes

/-- An element that is a 32-bit word. -/
theorem decode_of_word {f : Word → Instr} {w : Word} (hi : f w = i) :
    (takeBytes 4 (wordBytes w ++ rest)).map (fun p => (f (BitVec.ofNat 32 (leNat p.1)), p.2)) = .ok (i, rest) :=
  decode_of_field 4 hi

/-- What is read from `n` bytes is encoded in them, where the reading of every `n` bytes is. -/
theorem encode_of_takeBytes {n : Nat} {site : Site} {f : List Byte → Instr} {bs : List Byte}
    (hf : ∀ xs : List Byte, xs.length = n → encode (f xs) = xs ∧ siteOf (f xs) = site)
    (h : (takeBytes n bs).map (fun p => (f p.1, p.2)) = .ok (i, rest)) : encode i ++ rest = bs ∧ siteOf i = site := by
  cases htake : takeBytes n bs with
  | error e => simp [htake, Except.map] at h
  | ok p =>
    obtain ⟨hlen, happend⟩ := takeBytes_ok htake
    obtain ⟨henc, hsite⟩ := hf p.1 hlen
    rw [htake] at h
    obtain ⟨rfl, rfl⟩ : f p.1 = i ∧ p.2 = rest := by simpa [Except.map] using h
    exact ⟨by rw [henc, happend], hsite⟩

/-- The same for a word. -/
theorem encode_of_word {site : Site} {f : Word → Instr} {bs : List Byte}
    (hf : ∀ w, encode (f w) = wordBytes w) (hsite : ∀ w, siteOf (f w) = site)
    (h : (takeBytes 4 bs).map (fun p => (f (BitVec.ofNat 32 (leNat p.1)), p.2)) = .ok (i, rest)) :
    encode i ++ rest = bs ∧ siteOf i = site :=
  encode_of_takeBytes (f := fun xs => f (BitVec.ofNat 32 (leNat xs)))
    (fun _ hlen => ⟨(hf _).trans (bytesLE_ofNat_leNat hlen), hsite _⟩) h

/-- The same for a byte. -/
theorem encode_of_byte {site : Site} {f : Byte → Instr} {bs : List Byte} (hf : ∀ b, encode (f b) = [b])
    (hsite : ∀ b, siteOf (f b) = site) (h : (takeBytes 1 bs).map (fun p => (f (byteAt p.1 0), p.2)) = .ok (i, rest)) :
    encode i ++ rest = bs ∧ siteOf i = site :=
  encode_of_takeBytes (f := fun xs => f (byteAt xs 0))
    (fun xs hlen => by
      obtain ⟨b, rfl⟩ := List.length_eq_one_iff.mp hlen
      exact ⟨hf b, hsite b⟩) h

end

/-! ## Magic numbers and block header words -/

/-- The first 4 bytes are the encoding of their number (rule R12). -/
theorem bytesLE_le32_append_drop {bs : List Byte} (h : 4 ≤ bs.length) : bytesLE 4 (le32 bs 0) ++ bs.drop 4 = bs := by
  have hlen : (bs.take 4).length = 4 := List.length_take_of_le h
  have hfield := bytesLE_leNat (bs.take 4)
  rw [hlen] at hfield
  rw [le32, List.drop_zero, hfield, List.take_append_drop]

theorem encode_decodeBlockWord (w : Word) : encode (decodeBlockWord w) = wordBytes w := by
  have hlt := w.isLt
  have hlow : (w.extractLsb' 0 31).toNat = w.toNat % 2 ^ 31 := BitVec.extractLsb'_toNat ..
  have hmsb : w.getLsbD 31 = decide (w.toNat / 2 ^ 31 % 2 = 1) := getLsbD_eq_decide w 31
  unfold decodeBlockWord
  split_ifs with hzero hstored
  · rw [hzero]
    rfl
  · refine congrArg wordBytes (BitVec.eq_of_toNat_eq ?_)
    rw [toNat_blockHeaderWord, hlow, if_pos rfl]
    rw [hmsb, decide_eq_true_eq] at hstored
    omega
  · refine congrArg wordBytes (BitVec.eq_of_toNat_eq ?_)
    rw [toNat_blockHeaderWord, hlow, if_neg (by decide)]
    rw [hmsb, decide_eq_true_eq] at hstored
    omega

theorem siteOf_decodeBlockWord (w : Word) : siteOf (decodeBlockWord w) = .blockWord := by
  unfold decodeBlockWord
  split_ifs <;> rfl

/-- The header word of a block that is not empty, or that is stored, is read back (rule R127). -/
theorem decodeBlockWord_blockHeaderWord {stored : Bool} {len : BitVec 31} (h : stored = true ∨ 1 ≤ len.toNat) :
    decodeBlockWord (blockHeaderWord stored len) = if stored then .blockStored len else .blockCompressed len := by
  have hnum := toNat_blockHeaderWord stored len
  have hlt := len.isLt
  have hzero : blockHeaderWord stored len ≠ 0 := fun h0 => by
    rw [h0] at hnum
    cases stored <;> simp at hnum h <;> omega
  have hlow : (blockHeaderWord stored len).extractLsb' 0 31 = len := BitVec.extractLsb'_append_eq_right
  have hmsb : (blockHeaderWord stored len).getLsbD 31 = stored := by
    rw [getLsbD_eq_decide, hnum]
    cases stored <;> simp <;> omega
  rw [decodeBlockWord, if_neg hzero, hmsb, hlow]

/-- A frame's magic number with what it is read as (rules R122, R130, R131). -/
theorem encode_of_decodeMagic {bs rest : List Byte} {i : Instr} (h : decodeMagic bs = .ok (i, rest)) :
    encode i ++ rest = bs ∧ siteOf i = .magic := by
  unfold decodeMagic at h
  dsimp only at h
  split_ifs at h with h4 hlz4 hlegacy hskip h8
  · cases h
    exact ⟨by rw [encode, ← hlz4, bytesLE_le32_append_drop (by omega)], rfl⟩
  · cases h
    exact ⟨by rw [encode, ← hlegacy, bytesLE_le32_append_drop (by omega)], rfl⟩
  · cases h
    refine ⟨?_, rfl⟩
    have hmagic : magicSkippable + (BitVec.ofNat 4 (le32 bs 0)).toNat = le32 bs 0 := by
      rw [isSkippable, beq_iff_eq] at hskip
      rw [BitVec.toNat_ofNat]
      simp only [magicSkippable] at hskip ⊢
      omega
    have hsize : wordBytes (BitVec.ofNat 32 (le32 bs 4)) ++ bs.drop 8 = bs.drop 4 := by
      have hlen : ((bs.drop 4).take 4).length = 4 := List.length_take_of_le (by rw [List.length_drop]; omega)
      rw [wordBytes, le32, bytesLE_ofNat_leNat hlen, ← List.drop_drop (i := 4) (j := 4), List.take_append_drop]
    rw [encode, hmagic, List.append_assoc, hsize, bytesLE_le32_append_drop (by omega)]

/-! ## The obligations -/

/-- Settles O2: at every place the bytes taken are the encoding of what they are read as. -/
theorem decodeThenEncode : Obligations.DecodeThenEncode := by
  intro site bs rest i h
  cases site with
  | command => exact encode_of_word encode_decodeCommand siteOf_decodeCommand h
  | prefs => exact encode_of_word encode_decodePrefs (fun _ => rfl) h
  | token => exact encode_of_byte encode_decodeToken (fun _ => rfl) h
  | lenExt => exact encode_of_byte (f := .lenExt) (fun _ => rfl) (fun _ => rfl) h
  | literals n => exact encode_of_takeBytes (f := .literals) (fun xs hlen => ⟨rfl, congrArg Site.literals hlen⟩) h
  | offset =>
    exact encode_of_takeBytes (f := fun xs => .offset (BitVec.ofNat 16 (leNat xs)))
      (fun xs hlen => ⟨bytesLE_ofNat_leNat hlen, rfl⟩) h
  | legacySize => exact encode_of_word (f := .legacySize) (fun _ => rfl) (fun _ => rfl) h
  | magic => exact encode_of_decodeMagic h
  | flg => exact encode_of_byte encode_decodeFlg (fun _ => rfl) h
  | bd => exact encode_of_byte encode_decodeBd (fun _ => rfl) h
  | contentSize =>
    exact encode_of_takeBytes (f := fun xs => .contentSize (BitVec.ofNat 64 (leNat xs)))
      (fun xs hlen => ⟨bytesLE_ofNat_leNat hlen, rfl⟩) h
  | dictId => exact encode_of_word (f := .dictId) (fun _ => rfl) (fun _ => rfl) h
  | hc => exact encode_of_byte (f := .hc) (fun _ => rfl) (fun _ => rfl) h
  | blockWord => exact encode_of_word encode_decodeBlockWord siteOf_decodeBlockWord h
  | blockChecksum => exact encode_of_word (f := .blockChecksum) (fun _ => rfl) (fun _ => rfl) h
  | contentChecksum => exact encode_of_word (f := .contentChecksum) (fun _ => rfl) (fun _ => rfl) h

/-- A magic number as it is written is read as its frame kind (rules R122, R130, R131). -/
theorem decodeMagic_bytesLE {m : Nat} (hm : m < 256 ^ 4) (rest : List Byte) : decodeMagic (bytesLE 4 m ++ rest) =
    if m = magicLz4 then .ok (.frameMagic, rest)
    else if m = magicLegacy then .ok (.legacyMagicRefused, rest)
    else if isSkippable m then
      if rest.length < 4 then .error .tooShort
      else .ok (.skippableMagic (BitVec.ofNat 4 m) (BitVec.ofNat 32 (le32 rest 0)), rest.drop 4)
    else .error .unknownMagic := by
  have hlen : (bytesLE 4 m ++ rest).length = 4 + rest.length := by rw [List.length_append, length_bytesLE]
  have hdrop : ∀ n, (bytesLE 4 m ++ rest).drop (4 + n) = rest.drop n := fun n => by
    rw [← List.drop_drop, List.drop_left' (length_bytesLE 4 m)]
  have hsize : le32 (bytesLE 4 m ++ rest) 4 = le32 rest 0 := by rw [le32, hdrop 0, le32]
  have hshort : (bytesLE 4 m ++ rest).length < 8 ↔ rest.length < 4 := by omega
  rw [decodeMagic, if_neg (by omega), le32_bytesLE_append hm]
  simp only [hsize, hdrop 0, hdrop 4, hshort, List.drop_zero]

/-- A skippable frame's magic number and size are read back (rule R130). -/
theorem decodeMagic_skippable (x : BitVec 4) (size : Word) (rest : List Byte) :
    decodeMagic (bytesLE 4 (magicSkippable + x.toNat) ++ (wordBytes size ++ rest)) = .ok (.skippableMagic x size, rest) := by
  have hx := x.isLt
  have hnum : magicSkippable = 407710288 := rfl
  have hlt : magicSkippable + x.toNat < 256 ^ 4 := by omega
  have hlz4 : magicSkippable + x.toNat ≠ magicLz4 := by simp only [magicLz4]; omega
  have hlegacy : magicSkippable + x.toNat ≠ magicLegacy := by simp only [magicLegacy]; omega
  have hlen : ¬(wordBytes size ++ rest).length < 4 := by rw [List.length_append, wordBytes, length_bytesLE]; omega
  have hsize : BitVec.ofNat 32 (le32 (wordBytes size ++ rest) 0) = size := by
    rw [wordBytes, le32_bytesLE_append size.isLt, BitVec.ofNat_toNat, BitVec.setWidth_eq]
  have hlow : BitVec.ofNat 4 (magicSkippable + x.toNat) = x := by
    apply BitVec.eq_of_toNat_eq
    rw [BitVec.toNat_ofNat]
    omega
  rw [decodeMagic_bytesLE hlt, if_neg hlz4, if_neg hlegacy, if_pos (isSkippable_add x), if_neg hlen, hsize, hlow,
    List.drop_left' (show (wordBytes size).length = 4 from length_bytesLE 4 _)]

/-- The fields of a FLG byte are read back (rule R123). -/
theorem decodeFlg_flgByte (v : BitVec 2) (i b s c r d : Bool) :
    decodeFlg (flgByte v i b s c r d) = .flg v i b s c r d := by
  obtain ⟨hversion, hindep, hbcrc, hsize, hccrc, hrsvd, hdict⟩ := flgByte_fields v i b s c r d
  rw [decodeFlg, hversion, hindep, hbcrc, hsize, hccrc, hrsvd, hdict]

/-- The fields of a BD byte are read back (rule R124). -/
theorem decodeBd_bdByte (r7 : Bool) (bsid : BitVec 3) (low : BitVec 4) :
    decodeBd (bdByte r7 bsid low) = .bd r7 bsid low := by
  obtain ⟨hrsvd, hbsid, hlow⟩ := bdByte_fields r7 bsid low
  rw [decodeBd, hrsvd, hbsid, ← loNibble, hlow]

/-- Settles O1: at the place of a legal instruction, its bytes are taken and its fields are read back. -/
theorem encodeThenDecode : Obligations.EncodeThenDecode := by
  intro i rest hwf
  by_cases hcommand : siteOf i = .command
  · obtain ⟨w, henc, hdec⟩ := decodeCommand_encode hcommand hwf
    rw [hcommand, henc]
    exact decode_of_word hdec
  cases i with
  | token l m => exact decode_of_byte (f := decodeToken) (by rw [decodeToken, hiNibble_tokenByte, loNibble_tokenByte])
  | lenExt v => exact decode_of_byte (f := .lenExt) rfl
  | literals bs => exact decode_of_bytes (f := .literals) rfl
  | offset off => exact decode_of_field 2 (f := .offset) rfl
  | legacySize size => exact decode_of_word (f := .legacySize) rfl
  | frameMagic => exact decodeMagic_bytesLE (by decide) rest
  | skippableMagic x size =>
    rw [encode, List.append_assoc]
    exact decodeMagic_skippable x size rest
  | legacyMagicRefused => exact decodeMagic_bytesLE (by decide) rest
  | flg v i b s c r d => exact decode_of_byte (f := decodeFlg) (decodeFlg_flgByte v i b s c r d)
  | bd r7 bsid low => exact decode_of_byte (f := decodeBd) (decodeBd_bdByte r7 bsid low)
  | contentSize size => exact decode_of_field 8 (f := .contentSize) rfl
  | dictId d => exact decode_of_word (f := .dictId) rfl
  | hc v => exact decode_of_byte (f := .hc) rfl
  | blockCompressed len =>
    have hpos : 1 ≤ len.toNat := of_decide_eq_true (Bool.and_eq_true_iff.mp hwf).1
    exact decode_of_word (decodeBlockWord_blockHeaderWord (.inr hpos))
  | blockStored len => exact decode_of_word (decodeBlockWord_blockHeaderWord (.inl rfl))
  | blockChecksum v => exact decode_of_word (f := .blockChecksum) rfl
  | endMark => exact decode_of_word (f := decodeBlockWord) rfl
  | contentChecksum v => exact decode_of_word (f := .contentChecksum) rfl
  | prefs bsid r3 i c b a rh => exact decode_of_word (decodePrefs_prefsWord bsid r3 i c b a rh)
  | _ => exact absurd rfl hcommand

/-- Settles O3: each word evaluates to its instruction. -/
theorem specWordsDecode : Obligations.SpecWordsDecode :=
  ⟨rfl, rfl, rfl, rfl, rfl, rfl, rfl, rfl, rfl, rfl, rfl, rfl, rfl, rfl, rfl, rfl, rfl⟩

end Sys2Proof
end

section
/-!
PROOF. DECOMPRESS and STREAM_DECOMPRESS as what follows their checks: the parse of a block ends within its rounds, the engine's
turns run it element by element, and its end is the command's (rules R30, R250, R251, R265, R268, R305).
-/

namespace Sys2Proof.Machine

/-! ## A parse ends -/

namespace BlockParser

/-- A bound on the elements still to come: each takes a byte or is a literal field, and a literal field follows a token. -/
def roundsLeft (p : BlockParser) : Nat :=
  match p.phase with
  | .ended _ => 0
  | .literals => 2 * (p.src.length - p.ip) + 2
  | .token | .litExt | .offset | .matchExt => 2 * (p.src.length - p.ip) + 1

/-- `q` comes after an element of `p`: in the same block, and nearer to the end. -/
structure Nears (p q : BlockParser) : Prop where
  src_eq : q.src = p.src
  ip_le : q.ip ≤ p.src.length
  rounds_lt : q.roundsLeft < p.roundsLeft

theorem roundsLeft_le (p : BlockParser) : p.roundsLeft ≤ 2 * (p.src.length - p.ip) + 2 := by
  unfold roundsLeft
  split <;> omega

theorem lt_roundsLeft {p : BlockParser} (hp : ∀ st, p.phase ≠ .ended st) : 2 * (p.src.length - p.ip) < p.roundsLeft := by
  unfold roundsLeft
  split
  case h_1 st hst => exact absurd hst (hp st)
  all_goals omega

theorem roundsLeft_of_ended {p : BlockParser} {st : Option (Detail × Nat)} (hp : p.phase = .ended st) : p.roundsLeft = 0 := by
  simp only [roundsLeft, hp]

theorem exists_ended_of_roundsLeft {p : BlockParser} (h : p.roundsLeft = 0) : ∃ st, p.phase = .ended st := by
  by_contra hp
  have := lt_roundsLeft fun st hst => hp ⟨st, hst⟩
  omega

section

variable {p q : BlockParser} (hp : ∀ st, p.phase ≠ .ended st)
include hp

/-- An element that takes a byte. -/
theorem Nears.of_ip_lt (hsrc : q.src = p.src) (hlt : p.ip < q.ip) (hle : q.ip ≤ p.src.length) : p.Nears q := by
  have hq := q.roundsLeft_le
  have hpos := lt_roundsLeft hp
  rw [hsrc] at hq
  exact ⟨hsrc, hle, by omega⟩

/-- The end of the parse. -/
theorem Nears.of_ended {st : Option (Detail × Nat)} (hsrc : q.src = p.src) (hle : q.ip ≤ p.src.length)
    (hq : q.phase = .ended st) : p.Nears q := by
  have hpos := lt_roundsLeft hp
  exact ⟨hsrc, hle, by rw [roundsLeft_of_ended hq]; omega⟩

/-- A failing check. -/
theorem Nears.fail (hip : p.ip ≤ p.src.length) (d : Detail) (pos : Nat) : p.Nears (p.fail d pos) :=
  .of_ended hp rfl hip rfl

end

@[simp] theorem copyMatch_src (p : BlockParser) : p.copyMatch.src = p.src := by
  unfold copyMatch
  split <;> rfl

@[simp] theorem copyMatch_ip (p : BlockParser) : p.copyMatch.ip = p.ip := by
  unfold copyMatch
  split <;> rfl

theorem Nears.takeMatchExt {p : BlockParser} (hp : p.phase = .matchExt) (hip : p.ip < p.src.length) (v : Byte) :
    p.Nears (p.takeMatchExt v) := by
  unfold BlockParser.takeMatchExt
  dsimp only
  split
  · exact .of_ip_lt (by simp [hp]) rfl (Nat.lt_succ_self _) hip
  · exact .of_ip_lt (by simp [hp]) (copyMatch_src _) (by rw [copyMatch_ip]; exact Nat.lt_succ_self _)
      (by rw [copyMatch_ip]; exact hip)

theorem Nears.takeOffset {p : BlockParser} (hp : p.phase = .offset) (hip : p.ip + 2 ≤ p.src.length) (off : Nat) :
    p.Nears (p.takeOffset off) := by
  have hend : ∀ st, p.phase ≠ .ended st := by simp [hp]
  unfold BlockParser.takeOffset
  dsimp only
  split_ifs
  · exact .fail hend (by omega) _ _
  · exact .fail hend (by omega) _ _
  · exact .of_ip_lt hend rfl (Nat.lt_add_of_pos_right Nat.two_pos) hip
  · exact .of_ip_lt hend (copyMatch_src _) (by rw [copyMatch_ip]; exact Nat.lt_add_of_pos_right Nat.two_pos)
      (by rw [copyMatch_ip]; exact hip)

/-- A literal field may be empty; the offset after it is not. -/
theorem Nears.takeLiterals {p : BlockParser} (hp : p.phase = .literals) {bs : List Byte}
    (hip : p.ip + bs.length ≤ p.src.length) : p.Nears (p.takeLiterals bs) := by
  have hend : ∀ st, p.phase ≠ .ended st := by simp [hp]
  unfold BlockParser.takeLiterals
  dsimp only
  split_ifs
  · exact .fail hend (by omega) _ _
  · rw [tailCheck_eq]
    exact .of_ended hend rfl hip rfl
  · exact ⟨rfl, hip, by simp only [roundsLeft, hp]; omega⟩

/-- Every element brings a parse nearer to its end (rule R265). -/
theorem Nears.advance {p : BlockParser} (hp : ∀ st, p.phase ≠ .ended st) (hip : p.ip ≤ p.src.length) :
    p.Nears p.advance := by
  cases hphase : p.phase <;> simp only [BlockParser.advance, hphase]
  case token =>
    split
    · exact .of_ip_lt hp rfl (Nat.lt_succ_self _) (by assumption)
    · exact .fail hp hip _ _
  case litExt =>
    split
    · exact .of_ip_lt hp rfl (Nat.lt_succ_self _) (by assumption)
    · exact .fail hp hip _ _
  case literals =>
    split
    · exact .fail hp hip _ _
    · exact .takeLiterals hphase (by rw [List.length_take, List.length_drop]; omega)
  case offset =>
    split
    · exact .fail hp hip _ _
    · exact .takeOffset hphase (by omega) _
  case matchExt =>
    split
    · exact .takeMatchExt hphase (by assumption) _
    · exact .fail hp hip _ _
  case ended st => exact absurd hphase (hp st)

end BlockParser

/-! ## The engine's turns inside a block -/

/-- One turn, then the others. -/
theorem State.turns_succ_of_next {s t : State} (h : s.engineTurn = .next t) (n : Nat) :
    State.turns (n + 1) s = State.turns n t := by
  rw [State.turns, h]

theorem State.turns_one (s : State) : State.turns 1 s = s.engineTurn := by
  rw [State.turns]
  cases s.engineTurn <;> rfl

/-- Enough rounds end a parse, and the turns of the engine that run it end its command (rules R30, R265). -/
theorem State.turns_block (s : State) (o : BlockOwner) (fuel : Nat) {p : BlockParser} (hip : p.ip ≤ p.src.length)
    (hfuel : p.roundsLeft ≤ fuel) : (BlockParser.run fuel p).src = p.src ∧
      ∃ n, State.turns n { s with work := .block o p } =
        { s with work := .block o (BlockParser.run fuel p) }.finish (s.blockReport o (BlockParser.run fuel p)) := by
  have hended : ∀ q st, q.phase = .ended st → State.turns 1 { s with work := .block o q } =
      { s with work := .block o q }.finish (s.blockReport o q) := fun q st hq => by
    rw [State.turns_one, State.engineTurn_of_block rfl, State.blockTurn_ended hq]
    rfl
  induction fuel generalizing p with
  | zero =>
    obtain ⟨st, hst⟩ := BlockParser.exists_ended_of_roundsLeft (Nat.le_zero.mp hfuel)
    exact ⟨rfl, 1, hended p st hst⟩
  | succ fuel ih =>
    by_cases hp : ∃ st, p.phase = .ended st
    · obtain ⟨st, hst⟩ := hp
      rw [BlockParser.run_ended hst]
      exact ⟨rfl, 1, hended p st hst⟩
    · have hp' : ∀ st, p.phase ≠ .ended st := fun st hst => hp ⟨st, hst⟩
      obtain ⟨hsrc, hle, hlt⟩ := BlockParser.Nears.advance hp' hip
      obtain ⟨hrun, n, hn⟩ := ih (hsrc ▸ hle) (by omega)
      refine ⟨hrun.trans hsrc, n + 1, ?_⟩
      rw [State.turns_succ_of_next (State.engineTurn_advance (s := { s with work := .block o p }) rfl hip hp')]
      exact hn

/-- The end of an undisturbed command does not depend on its working registers (rule R31). -/
theorem State.finish_withWork {s : State} (hs : s.undisturbed = true) (w : Work) (r : Report) :
    { s with work := w }.finish r = s.finish r := by
  obtain ⟨-, hholes, hraced⟩ := s.undisturbed_iff.mp hs
  have hmem : State.memAfter { s with work := w } r.out = s.memAfter r.out := by
    rw [State.memAfter_of_no_race (s := { s with work := w }) hraced, State.memAfter_of_no_race hraced]
    rfl
  rw [State.finish_of_no_holes (s := { s with work := w }) hholes, State.finish_of_no_holes hholes, State.completed,
    State.completed, hmem]
  rfl

/-- The turns from the start of a block end its command with what the block decoder answers (rules R265, R267). -/
theorem State.turns_blockDecode {s : State} (hs : s.undisturbed = true) (o : BlockOwner) (src : List Byte) (cap : Nat)
    (hist : List Byte) (strictTail : Bool) : ∃ (n : Nat) (p : BlockParser),
      State.turns n { s with work := .block o (BlockParser.start src cap hist strictTail) } = s.finish (s.blockReport o p)
      ∧ p.src = src ∧ p.out = (blockDecode strictTail src cap hist).1 ∧ p.status = (blockDecode strictTail src cap hist).2 := by
  have hfuel : (BlockParser.start src cap hist strictTail).roundsLeft ≤ 2 * src.length + 2 := BlockParser.roundsLeft_le _
  obtain ⟨hsrc, n, hn⟩ := s.turns_block o _ (Nat.zero_le _) hfuel
  exact ⟨n, _, hn.trans (State.finish_withWork hs _ _), hsrc, rfl, rfl⟩

/-- Two states that agree at a block's owner end it alike. -/
theorem State.turns_eq_finish {s : State} (hs : s.undisturbed = true) {o : BlockOwner} {src : List Byte} {cap : Nat}
    {hist : List Byte} {strictTail : Bool} {r : Report}
    (hr : ∀ p : BlockParser, p.src = src → p.out = (blockDecode strictTail src cap hist).1 →
      p.status = (blockDecode strictTail src cap hist).2 → s.blockReport o p = r) :
    ∃ n, State.turns n { s with work := .block o (BlockParser.start src cap hist strictTail) } = s.finish r := by
  obtain ⟨n, p, hn, hsrc, hout, hstatus⟩ := State.turns_blockDecode hs o src cap hist strictTail
  exact ⟨n, by rw [hn, hr p hsrc hout hstatus]⟩

/-! ## DECOMPRESS -/

/-- DECOMPRESS past its checks (rule R250). -/
theorem State.exec_decompress_of_none {s : State} {h : BitVec 8} {rsvd : BitVec 16} (hs : s.undisturbed = true)
    (hn : firstError (s.decompressChecks h rsvd) = none) :
    exec (.decompress h rsvd) s = s.finish (s.decompressOf s.sourceBytes) := by
  obtain ⟨-, hholes, hraced⟩ := s.undisturbed_iff.mp hs
  simp only [exec, execDecompress, hn, State.withSource_of_no_holes hholes, State.source_eq_sourceBytes hraced,
    State.decompressOf, apply_ite s.finish]

theorem State.decompressOf_of_block {s : State} (hstore : s.storeSize = false) (src : List Byte) : s.decompressOf src =
    s.decompressReport src.length (blockDecode s.params.strictTail src s.dstCap []).1
      (blockDecode s.params.strictTail src s.dstCap []).2 := if_neg (by simp [hstore])

theorem State.decompressOf_of_legacy {s : State} (hstore : s.storeSize = true) (src : List Byte) :
    s.decompressOf src = s.legacyDecode src s.dstCap := if_pos hstore

/-! ## The legacy container -/

theorem decode_legacySize_of_short {src : List Byte} (h : src.length < 4) : decode .legacySize src = .error .tooShort := by
  simp [decode, takeBytes, h, Except.map]

theorem decode_legacySize_of_le {src : List Byte} (h : 4 ≤ src.length) :
    decode .legacySize src = .ok (.legacySize (BitVec.ofNat 32 (le32 src 0)), src.drop 4) := by
  simp [decode, takeBytes, Nat.not_lt.mpr h, Except.map, le32]

/-- The number of a 4-byte field is a word's (rule R12). -/
theorem toNat_ofNat_le32 (bs : List Byte) (i : Nat) : (BitVec.ofNat 32 (le32 bs i)).toNat = le32 bs i := by
  have hlt := leNat_lt ((bs.drop i).take 4)
  have hle : 256 ^ ((bs.drop i).take 4).length ≤ 256 ^ 4 := Nat.pow_le_pow_right (by decide) (List.length_take_le ..)
  rw [BitVec.toNat_ofNat, le32]
  omega

/-- The turns from the start of a legacy container end DECOMPRESS as its one step does (rule R251). -/
theorem State.turns_legacy {s : State} (hs : s.undisturbed = true) (src : List Byte) (cap : Nat) :
    ∃ n, State.turns n { s with work := .legacy src cap } = s.finish (s.legacyDecode src cap) := by
  have hturn : State.engineTurn { s with work := .legacy src cap } = State.legacyTurn { s with work := .legacy src cap } src := rfl
  by_cases hshort : src.length < 4
  · refine ⟨1, ?_⟩
    rw [State.turns_one, hturn, State.legacyTurn, decode_legacySize_of_short hshort, State.legacyDecode, if_pos hshort]
    exact State.finish_withWork hs _ _
  have hexec : State.engineTurn { s with work := .legacy src cap } =
      exec (.legacySize (BitVec.ofNat 32 (le32 src 0))) { s with work := .legacy src cap } := by
    rw [hturn, State.legacyTurn, decode_legacySize_of_le (Nat.not_lt.mp hshort)]
  rw [State.legacyDecode, if_neg hshort]
  cases hsize : legacySizeError (le32 src 0) cap with
  | some e =>
    refine ⟨1, ?_⟩
    rw [State.turns_one, hexec, execLegacySize_of_error rfl (by rw [toNat_ofNat_le32, hsize])]
    exact State.finish_withWork hs _ _
  | none =>
    obtain ⟨n, hn⟩ := State.turns_eq_finish (s := s) (o := .legacy (le32 src 0) src.length) (src := src.drop 4)
      (cap := le32 src 0) (hist := []) (strictTail := s.params.strictTail) hs fun p _ hout hstatus => by
        rw [State.blockReport, hout, hstatus]
    refine ⟨n + 1, ?_⟩
    rw [State.turns_succ_of_next (hexec.trans (execLegacySize_of_none rfl (by rw [toNat_ofNat_le32, hsize]))),
      toNat_ofNat_le32]
    exact hn

/-! ## The obligations -/

/-- Settles O33: the turns run the parse to its end, which reports what the block decoder answers in one step. -/
theorem blockElementsRefineCommands : Obligations.BlockElementsRefineCommands := by
  intro h s hs
  obtain ⟨-, hholes, hraced⟩ := s.undisturbed_iff.mp hs
  refine ⟨fun hchecks hstore => ?block, fun hchecks hstore => ?legacy, fun c hslot hready hbuffers => ?stream⟩
  case block =>
    rw [State.exec_decompress_of_none hs hchecks, State.decompressOf_of_block hstore]
    refine State.turns_eq_finish hs fun p hsrc hout hstatus => ?_
    rw [State.blockReport, hsrc, hout, hstatus]
  case legacy =>
    rw [State.exec_decompress_of_none hs hchecks, State.decompressOf_of_legacy hstore]
    exact State.turns_legacy hs _ _
  case stream =>
    have hctx : s.dstreamAt h = some c := by rw [State.dstreamAt, hslot]
    have hrsvd : firstError [rsvdCheck 0] = none := rfl
    have hchecks : firstError ((c.state == .failed, .contextFailed) :: s.bothBufferChecks) = none := by
      rw [hready, firstError, if_neg (by decide), State.firstError_bothBufferChecks, hbuffers]
    have hexec : exec (.streamDecompress h 0) s = s.finish (s.streamDecompressReport h c
        (blockDecode s.params.strictTail s.sourceBytes (min s.dstCap c.blockSize) c.hist).1
        (blockDecode s.params.strictTail s.sourceBytes (min s.dstCap c.blockSize) c.hist).2) := by
      simp only [exec, execStreamDecompress, hrsvd, hctx, hchecks, State.withSource_of_no_holes hholes,
        State.source_eq_sourceBytes hraced]
    rw [hexec]
    refine State.turns_eq_finish hs fun p hsrc hout hstatus => ?_
    rw [State.blockReport, hctx, hout, hstatus]

/-- One check, then the others where it passes. -/
theorem State.leaves_check_then {s : State} (hs : s.undisturbed = true) {h : BitVec 8} {x : Result} {r : Report} {bad : Bool}
    {e : Err} {checks : List (Bool × Err)} {p : Prop} [Decidable p] (hbad : bad = true ↔ p)
    (hx : ¬p → s.Leaves (s.checked h checks x) r) :
    s.Leaves (s.checked h ((bad, e) :: checks) x) (if p then s.failure h e else r) := by
  by_cases hp : p
  · obtain rfl : bad = true := hbad.mpr hp
    rw [if_pos hp]
    exact State.leaves_raise hs h e
  · exact State.leaves_check hs hbad (hx hp)

/-- The report of a legacy container, from numbers (rule R251). -/
theorem State.legacyDecode_eq (s : State) (src : List Byte) (cap : Nat) : s.legacyDecode src cap =
    if src.length < 4 then s.failure 0 (.corrupt .truncated)
    else if 0x7E000000 < leNat (src.take 4) then s.failure 0 (.corrupt .legacySize)
    else if cap < leNat (src.take 4) then s.failure 0 .capacityOutput
    else
      let legacy := blockDecode s.params.strictTail (src.drop 4) (leNat (src.take 4)) []
      match legacy.2 with
      | some (d, pos) =>
        { s.success 0 with out := legacy.1, resultLen := legacy.1.length, err := some (.corrupt d, pos + 4) }
      | none =>
        if legacy.1.length ≠ leNat (src.take 4) then
          { s.success 0 with out := legacy.1, resultLen := legacy.1.length, err := some (.corrupt .legacySize, src.length) }
        else { s.success 0 with out := legacy.1, resultLen := legacy.1.length, consumed := src.length } := by
  have hsize : le32 src 0 = leNat (src.take 4) := rfl
  rw [State.legacyDecode, hsize, legacySizeError]
  by_cases h4 : src.length < 4
  · rw [if_pos h4, if_pos h4]
    rfl
  rw [if_neg h4, if_neg h4]
  by_cases hmax : 0x7E000000 < leNat (src.take 4)
  · rw [if_pos hmax, if_pos (show Config.maxInputSize < _ from hmax)]
    rfl
  rw [if_neg hmax, if_neg (show ¬Config.maxInputSize < _ from hmax)]
  by_cases hcap : cap < leNat (src.take 4)
  · rw [if_pos hcap, if_pos hcap]
    rfl
  rw [if_neg hcap, if_neg hcap]
  dsimp only
  obtain ⟨out, _ | ⟨d, pos⟩⟩ := blockDecode s.params.strictTail (src.drop 4) (leNat (src.take 4)) []
  · exact (ite_not ..).symm
  · rfl

/-- Settles O25: CMD[31:16], the handle, PARAM0 and the buffers, then the block decoder's verdict on what the source holds. -/
theorem decompressResult : Obligations.DecompressResult := by
  intro h rsvd s hs
  refine State.runsTo_of_leaves rfl (State.leaves_check hs bne_iff_ne (State.leaves_check_then hs bne_iff_ne fun hh =>
    State.leaves_check hs s.storeSizeCheck_iff (State.leaves_bufferChecks (checks := []) hs ?_)))
  obtain rfl : h = 0 := not_not.mp hh
  have hlen : s.sourceBytes.length = s.srcLen := Memory.length_readBytes ..
  rw [State.checked_nil]
  refine State.leaves_withSource hs ?_
  simp only [← s.storeSize_iff]
  split
  · rw [State.legacyDecode_eq, hlen] <;> rfl
  · congr 1
    obtain ⟨out, _ | ⟨d, pos⟩⟩ := blockDecode s.params.strictTail s.sourceBytes s.dstCap []
    · rw [State.decompressReport, hlen]
    · rfl

end Sys2Proof.Machine
end

section
/-!
PROOF. FRAME_DECOMPRESS as what follows its checks: the bytes of one element and the bytes left after it make of a run what all of
them make of it, so the engine's turns, element by element, end as the command's loop does (rules R30, R385, R386, R400).
-/

namespace Sys2Proof.Machine

/-! ## The loop in parts -/

section

variable {rules : FrameRules} {cap : Nat} {r r' : FrameRun} {e : Option (Detail × Nat)}

/-- A byte that fails ends the loop, whatever follows. -/
theorem frameLoop_of_failed {bs : List Byte} {d : Detail × Nat} (h : frameLoop rules cap bs r = (r', some d)) (ys : List Byte) :
    frameLoop rules cap (bs ++ ys) r = (r', some d) := by
  rw [frameLoop_append, h]

/-- The loop over some of the bytes leaves others, with which the loop over all of them goes on. -/
theorem frameLoop_resume {bs : List Byte} (h : frameLoop rules cap bs r = (r', none)) (ys : List Byte) :
    frameLoop rules cap (bs ++ ys) r = frameLoop rules cap ((bs ++ ys).drop (r'.used - r.used)) r' := by
  induction bs generalizing r with
  | nil =>
    cases h
    rw [FrameRun.used_deliver, Nat.sub_self, List.drop_zero, frameLoop_deliver]
  | cons b bs ih =>
    rw [← frameLoop_deliver]
    obtain ⟨rfl, -⟩ | ⟨-, -, -, hnone⟩ | ⟨hp, hs, ⟨_, -, hnone⟩ | ⟨r₁, heat, hrest⟩⟩ := frameLoop_cons_cases h
    · rw [FrameRun.used_deliver, Nat.sub_self, List.drop_zero]
    · cases hnone
    · cases hnone
    · have hused : r'.used - r.used = r'.used - r₁.used + 1 := by
        have hge := (frameLoop_progress hrest).1
        have heq := FrameRun.used_eat heat
        rw [FrameRun.used_deliver] at heq
        omega
      rw [List.cons_append, frameLoop_cons hp hs, heat, hused, List.drop_succ_cons]
      exact ih hrest

/-- The loop consumes a byte where nothing waits for room and the frame has not ended (rule R385). -/
theorem used_lt_of_frameLoop {bs : List Byte} (h : frameLoop rules cap bs r = (r', e)) (hbs : bs ≠ [])
    (hp : (r.deliver cap).ctx.pending = []) (hs : (r.deliver cap).ctx.stage ≠ .ended) : r.used < r'.used := by
  obtain ⟨b, bs, rfl⟩ := List.exists_cons_of_ne_nil hbs
  rw [← frameLoop_deliver, frameLoop_cons hp hs] at h
  cases heat : (r.deliver cap).eat rules b with
  | mk r₁ e₁ =>
    have hused := FrameRun.used_eat heat
    rw [FrameRun.used_deliver] at hused
    rw [heat] at h
    cases e₁ with
    | some d =>
      cases h
      omega
    | none =>
      have hge := (frameLoop_progress h).1
      omega

end

/-! ## The elements of a frame -/

/-- The places of a frame's elements (rules R120, R127, R129). -/
def Site.InFrame (site : Site) : Prop :=
  site ∈ [Site.magic, .flg, .bd, .contentSize, .dictId, .hc, .blockWord, .blockChecksum, .contentChecksum]

theorem inFrame_of_headerSite {acc : List Byte} {site : Site} (h : headerSite acc = some site) : Site.InFrame site := by
  unfold headerSite at h
  split_ifs at h <;> (cases h; simp [Site.InFrame])

/-- Where the frame parser is at an element, it is one of a frame (rules R120, R386). -/
theorem FDecomp.inFrame_of_site {c : FDecomp} {site : Site} (h : c.site = some site) : Site.InFrame site := by
  unfold FDecomp.site at h
  split at h
  case h_1 => exact inFrame_of_headerSite h
  case h_3 | h_5 | h_6 =>
    split_ifs at h
    cases h
    simp [Site.InFrame]
  all_goals cases h

/-- An element of a frame passes its bytes, of which there are some, through the loop (rule R386). -/
theorem exec_of_inFrame {i : Instr} (h : Site.InFrame (siteOf i)) (s : State) :
    exec i s = s.frameElement (encode i) ∧ encode i ≠ [] := by
  cases i
  case frameMagic | skippableMagic | legacyMagicRefused | flg | bd | contentSize | dictId | hc | blockCompressed | blockStored
      | blockChecksum | endMark | contentChecksum => exact ⟨rfl, List.cons_ne_nil _ _⟩
  all_goals simp [Site.InFrame, siteOf] at h

/-! ## The engine's turns inside a frame -/

section

variable {s : State} {h : BitVec 8} {rest : List Byte} {cap : Nat} {run : FrameRun}

theorem State.engineTurn_of_frame (hw : s.work = .frame h rest cap run none) :
    s.engineTurn = s.frameTurn h rest cap run := by
  rw [State.engineTurn, hw]

/-- Where the loop stops before its next byte, the turn ends the command (rules R385, R395). -/
theorem State.frameTurn_of_stop
    (hstop : (run.deliver cap).ctx.pending ≠ [] ∨ rest = [] ∨ (run.deliver cap).ctx.stage = .ended) :
    s.frameTurn h rest cap run = s.finish (s.frameReport h (frameLoop s.frameRules cap rest run).1
      (frameLoop s.frameRules cap rest run).2) := by
  unfold State.frameTurn
  dsimp only
  by_cases hp : (run.deliver cap).ctx.pending ≠ []
  · rw [if_pos hp, frameLoop_full hp]
  rw [if_neg hp]
  cases rest with
  | nil => rfl
  | cons b bs =>
    have hs : (run.deliver cap).ctx.stage = .ended := by simpa [not_not.mp hp] using hstop
    dsimp only
    rw [if_pos hs, ← frameLoop_deliver, frameLoop_ended (not_not.mp hp) hs]

/-- Elsewhere it runs the element that stands there, or takes one byte (rules R120, R386). -/
theorem State.frameTurn_of_element (hp : (run.deliver cap).ctx.pending = [])
    (hs : (run.deliver cap).ctx.stage ≠ .ended) (hrest : rest ≠ []) :
    ∃ bytes ys, bytes ≠ [] ∧ bytes ++ ys = rest ∧ s.frameTurn h rest cap run = s.frameElement bytes := by
  obtain ⟨b, bs, rfl⟩ := List.exists_cons_of_ne_nil hrest
  unfold State.frameTurn
  dsimp only
  rw [if_neg (not_not.mpr hp), if_neg hs]
  cases hsite : (run.deliver cap).ctx.site with
  | none => exact ⟨[b], bs, List.cons_ne_nil _ _, rfl, rfl⟩
  | some site =>
    dsimp only
    cases hdec : decode site (b :: bs) with
    | error _ => exact ⟨[b], bs, List.cons_ne_nil _ _, rfl, rfl⟩
    | ok p =>
      obtain ⟨i, ys⟩ := p
      obtain ⟨henc, rfl⟩ := decodeThenEncode site (b :: bs) ys i hdec
      obtain ⟨hexec, hne⟩ := exec_of_inFrame (FDecomp.inFrame_of_site hsite) s
      exact ⟨encode i, ys, hne, henc, hexec⟩

end

/-- The turns of the engine from any place of a frame end FRAME_DECOMPRESS with what its loop makes of the bytes left (rules
R30, R385). -/
theorem State.turns_frame {s : State} (hs : s.undisturbed = true) (h : BitVec 8) (cap n : Nat) {rest : List Byte}
    {run : FrameRun} (hn : rest.length ≤ n) : ∃ k, State.turns k { s with work := .frame h rest cap run none } =
      s.finish (s.frameReport h (frameLoop s.frameRules cap rest run).1 (frameLoop s.frameRules cap rest run).2) := by
  induction n using Nat.strong_induction_on generalizing rest run with
  | _ n ih =>
  by_cases hstop : (run.deliver cap).ctx.pending ≠ [] ∨ rest = [] ∨ (run.deliver cap).ctx.stage = .ended
  · refine ⟨1, ?_⟩
    rw [State.turns_one, State.engineTurn_of_frame rfl, State.frameTurn_of_stop hstop]
    exact State.finish_withWork hs _ _
  push Not at hstop
  obtain ⟨hp, hrest, hended⟩ := hstop
  obtain ⟨bytes, ys, hne, rfl, hturn⟩ :=
    State.frameTurn_of_element (s := { s with work := .frame h rest cap run none }) (h := h) hp hended hrest
  cases hloop : frameLoop s.frameRules cap bytes run with
  | mk r' e =>
  have hused := used_lt_of_frameLoop hloop hne hp hended
  have hnext : State.engineTurn { s with work := .frame h (bytes ++ ys) cap run none } =
      .next { s with work := .frame h ((bytes ++ ys).drop (r'.used - run.used)) cap r' e } := by
    have hloop' : frameLoop (State.frameRules { s with work := .frame h (bytes ++ ys) cap run none }) cap bytes run =
        (r', e) := hloop
    rw [State.engineTurn_of_frame rfl, hturn, State.frameElement_eq rfl, hloop']
  cases e with
  | some d =>
    refine ⟨2, ?_⟩
    rw [State.turns_succ_of_next hnext, State.turns_one, frameLoop_of_failed hloop ys]
    exact State.finish_withWork hs _ _
  | none =>
    have hlen : 0 < (bytes ++ ys).length := List.length_pos_iff.mpr hrest
    obtain ⟨k, hk⟩ := ih ((bytes ++ ys).drop (r'.used - run.used)).length (by rw [List.length_drop]; omega)
      (run := r') (Nat.le_refl _)
    exact ⟨k + 1, by rw [State.turns_succ_of_next hnext, hk, frameLoop_resume hloop ys]⟩

/-! ## The obligation -/

/-- Settles O58: the turns run the loop to its end. -/
theorem frameElementsRefineCommand : Obligations.FrameElementsRefineCommand := by
  intro h s c hs hslot hstate hbuffers
  obtain ⟨-, hholes, hraced⟩ := s.undisturbed_iff.mp hs
  have hctx : s.fdecompAt h = some c := by rw [State.fdecompAt, hslot]
  have hrsvd : firstError [rsvdCheck 0] = none := rfl
  have hchecks : firstError ((c.dstate == .failed, .contextFailed) :: s.bothBufferChecks) = none := by
    rw [firstError, if_neg (by simpa using hstate), State.firstError_bothBufferChecks, hbuffers]
  have hexec : exec (.frameDecompress h 0) s = s.finish (s.frameReport h
      (frameLoop s.frameRules s.dstCap s.sourceBytes (s.frameStart c)).1
      (frameLoop s.frameRules s.dstCap s.sourceBytes (s.frameStart c)).2) := by
    simp only [exec, execFrameDecompress, hrsvd, hctx, hchecks, State.withSource_of_no_holes hholes,
      State.source_eq_sourceBytes hraced]
  rw [hexec]
  exact State.turns_frame hs h s.dstCap _ (Nat.le_refl _)

end Sys2Proof.Machine
end

section
/-!
PROOF. A step of the engine is the instruction that stands where it is (rules R30, R37, R117, R120); an accepted write of CMD (rules
R36, R37, R42); the layouts of the status registers (rules R36, R42, R44, R45, R52, R384, R450, R451).
-/

namespace Sys2Proof.Machine

/-! ## The engine's step -/

section

variable {s : State}

/-- With no host access in its way a busy engine moves (rules R30, R462). -/
theorem step_of_engine (hinbox : s.inbox = [] ∨ ∃ later, s.inbox = .waitDone :: later) (hbusy : s.busy = true)
    (hstuck : s.stuck = false) : step s = s.engineTurn := by
  have hmoves : s.engineMoves = s.engineTurn := by
    simp only [State.engineMoves, State.engineReady, hbusy, hstuck, Bool.not_false, Bool.and_self, if_true]
  obtain hinbox | ⟨later, hinbox⟩ := hinbox
  · simp only [step, State.turn, hinbox, hmoves]
  · simp only [step, State.turn, hinbox, hbusy, if_true, hmoves]

/-- The fetch at a place of a block is the decoder's answer there (rule R117). -/
theorem BlockParser.fetch_of_site {p : BlockParser} {site : Site} {i : Instr} {rest : List Byte} (hsite : p.site = some site)
    (hdec : decode site (p.src.drop p.ip) = .ok (i, rest)) : p.fetch = some (.ok i) := by
  cases hphase : p.phase
  case ended => simp [BlockParser.site, hphase] at hsite
  all_goals
    simp only [BlockParser.site, hphase, Option.some.injEq] at hsite
    subst hsite
    simp only [BlockParser.fetch, hphase, hdec]

/-- An element of a frame takes bytes (rule R120). -/
theorem ne_nil_of_decode {site : Site} (hsite : Site.InFrame site) {bs rest : List Byte} {i : Instr}
    (hdec : decode site bs = .ok (i, rest)) : bs ≠ [] := by
  rintro rfl
  obtain ⟨henc, rfl⟩ := decodeThenEncode site [] rest i hdec
  exact (exec_of_inFrame hsite State.reset).2 (List.append_eq_nil_iff.mp henc).1

/-- Settles O4: the engine's turn at each form of its working registers. -/
theorem stepRunsDecodedInstruction : Obligations.StepRunsDecodedInstruction := by
  intro s hinbox hbusy hstuck
  rw [step_of_engine hinbox hbusy hstuck]
  refine ⟨fun hw => ?idle, fun h hw => ?prefs, fun src cap i rest hw hdec => ?legacy,
    fun o p site i rest hw hsite hdec => ?block, fun h bs cap run site i rest hw hp hended hsite hdec => ?frame⟩
  case idle => rw [State.engineTurn, hw]
  case prefs => rw [State.engineTurn, hw]
  case legacy => simp only [State.engineTurn, hw, State.legacyTurn, hdec]
  case block => rw [State.engineTurn_of_block hw, State.blockTurn, BlockParser.fetch_of_site hsite hdec]
  case frame =>
    obtain ⟨b, bs, rfl⟩ := List.exists_cons_of_ne_nil (ne_nil_of_decode (FDecomp.inFrame_of_site hsite) hdec)
    simp only [State.engineTurn_of_frame hw, State.frameTurn, FrameRun.deliver_of_empty hp, hp, ne_eq, not_true_eq_false,
      if_false, hended, hsite, hdec]

/-! ## The accepted write of CMD -/

/-- A busy engine without an error reads STATUS 1 (rule R36). -/
theorem State.statusWord_acceptCmd (s : State) (w : Word) : (s.acceptCmd w).statusWord = 1 := rfl

/-- Settles O7: the write is accepted, and the engine's next step is the command it latched. -/
theorem commandAcceptance : Obligations.CommandAcceptance := by
  intro s w later hinbox hidle
  refine ⟨State.acceptCmd { s with inbox := later } w, ?_, rfl, rfl, State.statusWord_acceptCmd _ w, ?_⟩
  · rw [step_of_regWrite hinbox rfl (by decide), State.writeReg_cmd_of_idle (s := { s with inbox := later }) hidle]
  · rintro rfl hstuck hwork
    exact step_of_command rfl rfl hstuck hwork

end

/-! ## The layouts of the status registers -/

theorem flagNat_eq_toNat (b : Bool) : flagNat b = b.toNat := by cases b <;> rfl

/-- A bit of a word that is given by a number (rule R11). -/
theorem getLsbD_ofNat_of_lt {n v i : Nat} {b : Bool} (hv : v < 2 ^ n) (hb : v / 2 ^ i % 2 = b.toNat) :
    (BitVec.ofNat n v).getLsbD i = b :=
  getLsbD_of_toNat (by rw [BitVec.toNat_ofNat, Nat.mod_eq_of_lt hv, hb])

/-- STATUS bits 0 and 2 (rule R36); bit 1 is `State.getLsbD_statusWord`. -/
theorem State.getLsbD_statusWord_busy_error (s : State) :
    s.statusWord.getLsbD 0 = s.busy ∧ s.statusWord.getLsbD 2 = s.errorFlag := by
  have hbits : ∀ busy done error,
      (BitVec.ofNat 32 (flagNat busy + 2 * flagNat done + 4 * flagNat error)).getLsbD 0 = busy
      ∧ (BitVec.ofNat 32 (flagNat busy + 2 * flagNat done + 4 * flagNat error)).getLsbD 2 = error := by decide
  exact hbits s.busy s.done s.errorFlag

/-- ERR_CODE of the errors of a table, from their codes (rules R42, R451). -/
theorem errCodeWord_of_table {table : List (Err × Word)} (h : ∀ row ∈ table, row.1.word = row.2) :
    ∀ row ∈ table, ∀ pos, errCodeWord (some (row.1, pos)) = row.2 := fun row hrow _ => h row hrow

/-- CTX_STATUS of a context, from its kind and state codes (rules R44, R45, R52). -/
theorem ctxStatusWord_of_codes {c : Ctx} {code : Nat} (h : BitVec 8) (hcode : 256 * c.kindCode + 4096 * c.stateCode = code) :
    ctxStatusWord h (some c) = BitVec.ofNat 32 (code + h.toNat) := by
  rw [ctxStatusWord, ← hcode, Nat.add_assoc, Nat.add_comm]

/-- The fields of INFO_FLAGS (rules R43, R384). -/
theorem FrameInfo.flagsWord_fields {i : FrameInfo} (hbsid : i.bsid < 8) :
    i.flagsWord.getLsbD 0 = i.indep ∧ i.flagsWord.getLsbD 1 = i.bcrc
      ∧ i.flagsWord.getLsbD 2 = i.csflag ∧ i.flagsWord.getLsbD 3 = i.ccrc ∧ i.flagsWord.getLsbD 4 = i.dflag
      ∧ i.flagsWord.extractLsb' 8 3 = BitVec.ofNat 3 i.bsid ∧ i.flagsWord.getLsbD 16 = i.skippable := by
  have h0 := i.indep.toNat_lt
  have h1 := i.bcrc.toNat_lt
  have h2 := i.csflag.toNat_lt
  have h3 := i.ccrc.toNat_lt
  have h4 := i.dflag.toNat_lt
  have h16 := i.skippable.toNat_lt
  simp only [FrameInfo.flagsWord, flagNat_eq_toNat]
  refine ⟨getLsbD_ofNat_of_lt ?_ ?_, getLsbD_ofNat_of_lt ?_ ?_, getLsbD_ofNat_of_lt ?_ ?_, getLsbD_ofNat_of_lt ?_ ?_,
    getLsbD_ofNat_of_lt ?_ ?_, ?_, getLsbD_ofNat_of_lt ?_ ?_⟩
  case refine_11 =>
    apply BitVec.eq_of_toNat_eq
    rw [BitVec.extractLsb'_toNat, BitVec.toNat_ofNat, BitVec.toNat_ofNat, Nat.shiftRight_eq_div_pow]
    omega
  all_goals omega

/-- Settles O9: the bits of STATUS, ERR_CODE error by error, CTX_STATUS kind by kind and state by state, the bits of INFO_FLAGS. -/
theorem statusFieldLayouts : Obligations.StatusFieldLayouts := by
  refine ⟨fun s => ?status, ⟨?codes, ?all, rfl⟩, fun h => ?context, fun i hbsid => FrameInfo.flagsWord_fields hbsid⟩
  case status =>
    obtain ⟨hbusy, herror⟩ := s.getLsbD_statusWord_busy_error
    exact ⟨hbusy, s.getLsbD_statusWord, herror⟩
  case codes =>
    exact errCodeWord_of_table (by decide)
  case all =>
    intro e
    refine ⟨e.word, ?_⟩
    cases e with
    | corrupt d => cases d <;> decide
    | _ => decide
  case context =>
    refine ⟨by simp [ctxStatusWord], fun c => ctxStatusWord_of_codes h (by simp [Ctx.kindCode, Ctx.stateCode]),
      fun c => ⟨fun hst => ?_, fun hst => ?_⟩, fun c => ⟨fun hst => ?_, fun hst => ?_, fun hst => ?_, fun hst => ?_⟩,
      fun c => ⟨fun hst => ?_, fun hst => ?_, fun hst => ?_, fun hst => ?_, fun hst => ?_⟩⟩
    all_goals exact ctxStatusWord_of_codes h (by simp [Ctx.kindCode, Ctx.stateCode, hst, DsState.code, FState.code, DState.code])

end Sys2Proof.Machine
end

section
/-!
PROOF. CTX_CREATE and CTX_LOAD_DICT (rules R300, R303, R459, R492): the fields of PARAM0 and PARAM1, the smallest free slot, and the
table a dictionary fills.
-/

namespace Sys2Proof.Machine

/-! ## CTX_CREATE -/

/-- A parameter that CTX_CREATE refuses, from the numbers of PARAM0 and PARAM1 (rule R300). -/
def State.BadCreateParam (s : State) : Prop :=
  s.args.param0.toNat / 16 ≠ 0 ∨ s.args.param0.toNat % 16 = 0 ∨ 4 < s.args.param0.toNat % 16
    ∨ (s.args.param0.toNat % 16 ≤ 2
      ∧ 0x7E000000 < if s.args.param1.toNat = 0 then 65536 else s.args.param1.toNat)

theorem State.kindField_eq (s : State) : s.kindField = s.args.param0.toNat % 16 := BitVec.extractLsb'_toNat ..

/-- PARAM0[31:4] and KIND (rule R300). -/
theorem State.kindCheck_iff (s : State) :
    (s.args.param0.extractLsb' 4 28 != 0 || s.kindField == 0 || decide (4 < s.kindField)) = true ↔
      s.args.param0.toNat / 16 ≠ 0 ∨ s.args.param0.toNat % 16 = 0 ∨ 4 < s.args.param0.toNat % 16 := by
  have hhigh : s.args.param0.extractLsb' 4 28 = 0 ↔ s.args.param0.toNat / 16 = 0 := by
    have hlt := s.args.param0.isLt
    rw [← BitVec.toNat_inj, BitVec.extractLsb'_toNat, Nat.shiftRight_eq_div_pow]
    simp only [BitVec.reduceToNat, Nat.reducePow]
    omega
  rw [Bool.or_eq_true, Bool.or_eq_true, bne_iff_ne, ne_eq, hhigh, beq_iff_eq, decide_eq_true_iff, s.kindField_eq, or_assoc]

/-- The stream kinds are the first two (rule R45). -/
theorem streamKind_iff {kind : Nat} (h : kind ≠ 0) : streamKind kind = true ↔ kind ≤ 2 := by
  rw [streamKind, Bool.or_eq_true, beq_iff_eq, beq_iff_eq]
  omega

/-- The checks of CTX_CREATE's parameters (rule R300). -/
theorem State.firstError_createChecks (s : State) [Decidable s.BadCreateParam] :
    firstError s.createChecks = if s.BadCreateParam then some .badParam else none := by
  have hkind := s.kindCheck_iff
  rw [State.createChecks, firstError]
  by_cases hbad : s.args.param0.toNat / 16 ≠ 0 ∨ s.args.param0.toNat % 16 = 0 ∨ 4 < s.args.param0.toNat % 16
  · rw [if_pos (hkind.mpr hbad), if_pos (by unfold State.BadCreateParam; tauto)]
  · have hblock : (streamKind s.kindField && decide (Config.maxInputSize < s.blockSizeField)) = true ↔ s.BadCreateParam := by
      rw [Bool.and_eq_true, s.kindField_eq, streamKind_iff (by tauto), decide_eq_true_iff, State.BadCreateParam]
      tauto
    rw [if_neg (mt hkind.mp hbad), firstError, firstError]
    simp only [hblock]

/-- No handle is free where every slot holds a context (rule R459). -/
theorem firstFree_of_full {slots : List (Option Ctx)} (h : ∀ c ∈ slots, c ≠ none) (k : Nat) : firstFree k slots = none := by
  induction slots generalizing k with
  | nil => rfl
  | cons c slots ih =>
    obtain ⟨hc, hslots⟩ := List.forall_mem_cons.mp h
    obtain ⟨c, rfl⟩ := Option.ne_none_iff_exists'.mp hc
    exact ih hslots (k + 1)

/-- The first free slot gives the smallest free handle (rule R300). -/
theorem firstFree_append {before : List (Option Ctx)} (h : ∀ c ∈ before, c ≠ none) (after : List (Option Ctx)) (k : Nat) :
    firstFree k (before ++ none :: after) = some (k + before.length) := by
  induction before generalizing k with
  | nil => rfl
  | cons c before ih =>
    obtain ⟨hc, hbefore⟩ := List.forall_mem_cons.mp h
    obtain ⟨c, rfl⟩ := Option.ne_none_iff_exists'.mp hc
    refine (ih hbefore (k + 1)).trans ?_
    rw [List.length_cons, Nat.add_assoc, Nat.add_comm 1]

/-- A handle of 8 bits reaches the slot it numbers. -/
theorem setSlot_append {before after : List (Option Ctx)} (h : before.length < 255) (c d : Option Ctx) :
    setSlot (before ++ c :: after) (BitVec.ofNat 8 (before.length + 1)) d = before ++ d :: after := by
  have hnum : (BitVec.ofNat 8 (before.length + 1)).toNat = before.length + 1 := by
    rw [BitVec.toNat_ofNat, Nat.mod_eq_of_lt (by omega)]
  have hne : BitVec.ofNat 8 (before.length + 1) ≠ 0 := fun h0 => by
    rw [h0] at hnum
    simp at hnum
  rw [setSlot_of_ne_zero hne, hnum, Nat.add_sub_cancel, List.set_append_right _ _ (Nat.le_refl _), Nat.sub_self, List.set_cons_zero]

/-- The context of a kind, field by field (rules R46 to R49, R300). -/
theorem newContext_eq_fresh (kind blockSize : Nat) : newContext kind blockSize = Ctx.fresh kind blockSize := by
  match kind with
  | 0 => rfl
  | 1 => rfl
  | 2 => rfl
  | 3 => rfl
  | _ + 4 => rfl

section

variable {s : State} {h : BitVec 8} {rsvd : BitVec 16}

/-- The checks of CTX_CREATE pass (rule R300). -/
theorem State.firstError_ctxCreate_of_good (hgood : ¬s.BadCreateParam) :
    firstError ([rsvdCheck 0, noHandleCheck 0] ++ s.createChecks) = none := by
  classical
  exact s.firstError_createChecks.trans (if_neg hgood)

/-- CTX_CREATE past its checks with no slot free (rule R459). -/
theorem exec_ctxCreate_of_full (hgood : ¬s.BadCreateParam) (hfull : firstFree 1 s.slots = none) :
    exec (.ctxCreate 0 0) s = s.raise 0 .noContextSlot := by
  simp only [exec, execCtxCreate, State.firstError_ctxCreate_of_good hgood, hfull]

/-- CTX_CREATE past its checks with a slot free (rule R300). -/
theorem exec_ctxCreate_of_free (hgood : ¬s.BadCreateParam) {n : Nat} (hfree : firstFree 1 s.slots = some n) :
    exec (.ctxCreate 0 0) s = s.finish { s.success (BitVec.ofNat 8 n) with
      resultLen := n
      slots := setSlot s.slots (BitVec.ofNat 8 n) (some (newContext s.kindField s.blockSizeField)) } := by
  simp only [exec, execCtxCreate, State.firstError_ctxCreate_of_good hgood, hfree]

/-- CTX_CREATE with a check that fails (rule R454). -/
theorem exec_ctxCreate_of_error {e : Err} (he : firstError ([rsvdCheck rsvd, noHandleCheck h] ++ s.createChecks) = some e) :
    exec (.ctxCreate h rsvd) s = s.raise h e := by
  simp only [exec, execCtxCreate, he]

end

/-- Settles O34: each check in its turn, then the first free slot, if there is one. -/
theorem ctxCreateResult : Obligations.CtxCreateResult := by
  intro h rsvd s hs hlen
  refine ⟨fun hrsvd => ?rsvd, fun hrsvd hh => ?handle, fun hrsvd hh hbad => ?param, fun hrsvd hh hgood hfull => ?full,
    fun before after hrsvd hh hgood hslots hbefore => ?free⟩
  case rsvd =>
    exact State.runsTo_of_raise hs (exec_ctxCreate_of_error (if_pos (bne_iff_ne.mpr hrsvd)))
  case handle =>
    subst hrsvd
    exact State.runsTo_of_raise hs (exec_ctxCreate_of_error ((if_neg (by decide)).trans (if_pos (bne_iff_ne.mpr hh))))
  case param =>
    classical
    subst hrsvd hh
    exact State.runsTo_of_raise hs (exec_ctxCreate_of_error (s.firstError_createChecks.trans (if_pos hbad)))
  case full =>
    subst hrsvd hh
    exact State.runsTo_of_raise hs (exec_ctxCreate_of_full hgood (firstFree_of_full hfull 1))
  case free =>
    subst hrsvd hh
    have hlt : before.length < 255 := by
      rw [hslots, List.length_append, List.length_cons] at hlen
      omega
    have hfree : firstFree 1 s.slots = some (before.length + 1) := by
      rw [hslots, firstFree_append hbefore, Nat.add_comm]
    refine State.runsTo_of_finish hs ((exec_ctxCreate_of_free hgood hfree).trans ?_)
    rw [hslots, setSlot_append hlt, newContext_eq_fresh, s.kindField_eq]
    rfl

/-! ## CTX_LOAD_DICT -/

/-- The positions of a dictionary are entered in ascending order (rule R303). -/
theorem fillTable_eq_foldl (hash : Word → Nat) (dict : List Byte) (i n : Nat) (t : HashTable) : fillTable hash dict i n t =
    (List.range' i n).foldl (fun t i => Table.set t (hash (BitVec.ofNat 32 (le32 dict i))) i) t := by
  induction n generalizing i t with
  | zero => rfl
  | succ n ih => rw [fillTable, ih, List.range'_succ, List.foldl_cons, hashInput]

theorem dictTable_eq_foldl (hash : Word → Nat) (dict : List Byte) : dictTable hash dict =
    (List.range (dict.length - 3)).foldl (fun t i => Table.set t (hash (BitVec.ofNat 32 (le32 dict i))) i) [] := by
  rw [dictTable, fillTable_eq_foldl, List.range_eq_range']

/-- The source's last WINDOW bytes (rules R51, R303). -/
theorem State.lastWindow_sourceBytes (s : State) : lastWindow s.sourceBytes = s.sourceBytes.drop (s.srcLen - 65536) := by
  rw [lastWindow, lastK, State.sourceBytes, Memory.length_readBytes]
  rfl

/-- CTX_LOAD_DICT on a context that takes a dictionary, past the checks of its state (rule R303). -/
theorem State.leaves_loadDict {s : State} (hs : s.undisturbed = true) {h : BitVec 8} {c d : Ctx}
    (hslot : slotAt s.slots h = some c) (hd : withDict s.hash (s.sourceBytes.drop (s.srcLen - 65536)) c = d) :
    s.Leaves
      (s.checked h (s.sourceChecks ++ []) (s.withSource fun src =>
        s.finish { s.success h with
          consumed := s.srcLen
          slots := setSlot s.slots h (some (withDict s.hash (lastWindow src) c)) }))
      (match s.bufferFault true false with
      | some e => s.failure h e
      | none => { s.success h with consumed := s.srcLen, slots := s.slots.set (h.toNat - 1) (some d) }) := by
  refine State.leaves_sourceChecks hs ?_
  rw [State.checked_nil]
  refine State.leaves_withSource hs ?_
  rw [s.lastWindow_sourceBytes, hd, setSlot_of_slotAt hslot]

/-- Settles O37: CMD[31:16], the handle, the state of its context, the source buffer, then the context with its dictionary. -/
theorem ctxLoadDictResult : Obligations.CtxLoadDictResult := by
  intro h rsvd s hs
  refine State.runsTo_of_leaves rfl (State.leaves_rsvdCheck hs ?_)
  cases hslot : slotAt s.slots h with
  | none => exact State.leaves_raise hs h .badHandle
  | some ctx =>
    cases ctx with
    | cstream c =>
      refine State.leaves_loadDict hs hslot ?_
      rw [withDict, dictTable_eq_foldl]
      rfl
    | dstream c =>
      exact State.leaves_check hs (by simp [and_comm]) (State.leaves_loadDict hs hslot rfl)
    | fdecomp c =>
      exact State.leaves_check hs beq_iff_eq (State.leaves_check hs bne_iff_ne (State.leaves_loadDict hs hslot rfl))
    | fcomp c => exact State.leaves_raise hs h .badHandle

end Sys2Proof.Machine
end

section
/-!
PROOF. The invariant of the machine taken apart, and the register file: what a write can do, what a read returns, and which
accesses are refused (rules R32 to R40, R42 to R44, R54, R91, R496).
-/

namespace Sys2Proof.Machine

/-! ## The invariant, part by part -/

/-- The parts of `State.ok` (rules R9, R31, R36, R42, R44 to R46, R451). -/
structure State.Valid (s : State) : Prop where
  params : s.params.wf = true
  mem : Memory.wf s.mem = true
  slots_length : s.slots.length = s.params.nCtx
  slots : ∀ c ∈ s.slots, slotOk s.params.hashLog c = true
  work : s.work = .idle
  not_done : s.busy = true → s.done = false
  busy_of_stuck : s.stuck = true → s.busy = true
  busy_of_raced : s.raced ≠ [] → s.busy = true
  errCode : errCodeOk s.results.errCode = true
  no_error : s.busy = true → s.results.errCode = 0
  ctxStatus : s.results.ctxStatus.toNat < 2 ^ 16
  flags : s.info.flags &&& ~~~(0x1071F : Word) = 0
  high : s.params.addrWidth = 32 → s.args.srcAddrHi = 0 ∧ s.args.dstAddrHi = 0

theorem State.ok_iff (s : State) : s.ok = true ↔ s.Valid := by
  have himp : ∀ {a b : Bool}, (!a || b) = true ↔ (a = true → b = true) := by decide
  have hnand : ∀ {a b : Bool}, (!(a && b)) = true ↔ (a = true → b = false) := by decide
  constructor
  · intro h
    simp only [State.ok, State.registersOk, Bool.and_eq_true, beq_iff_eq, himp, hnand, List.all_eq_true, decide_eq_true_eq,
      Bool.or_eq_true, bne_iff_ne] at h
    obtain ⟨⟨⟨⟨⟨⟨⟨⟨hparams, hmem⟩, hlen⟩, hslots⟩, hwork⟩, hdone⟩, hstuck⟩, hraced⟩, ⟨⟨⟨herr, hbusy⟩, hctx⟩, hflags⟩, hhigh⟩ := h
    exact ⟨hparams, hmem, hlen, hslots, hwork, hdone, hstuck, hraced.resolve_left, herr, hbusy, hctx, hflags,
      fun h32 => hhigh.resolve_left (not_not.mpr h32)⟩
  · intro h
    simp only [State.ok, State.registersOk, Bool.and_eq_true, beq_iff_eq, himp, hnand, List.all_eq_true, decide_eq_true_eq,
      Bool.or_eq_true, bne_iff_ne]
    exact ⟨⟨⟨⟨⟨⟨⟨⟨h.params, h.mem⟩, h.slots_length⟩, h.slots⟩, h.work⟩, h.not_done⟩, h.busy_of_stuck⟩,
      or_iff_not_imp_left.mpr h.busy_of_raced⟩, ⟨⟨⟨h.errCode, h.no_error⟩, h.ctxStatus⟩, h.flags⟩,
      or_iff_not_imp_left.mpr fun h32 => h.high (not_not.mp h32)⟩

/-! ## What a write of a register can do -/

/-- The effects a register write can have (rules R32 to R44). -/
inductive State.RegEffect (s : State) (off : Nat) (v : Word) : State → Prop where
  | none : s.RegEffect off v s
  | reset (hoff : off = 0x004) (hsrst : v.getLsbD 1 = true) : s.RegEffect off v s.deviceReset
  | ie (hoff : off = 0x004) (hsrst : v.getLsbD 1 = false) : s.RegEffect off v { s with ie := v.getLsbD 0 }
  | clearDone (hoff : off = 0x008) (hclear : v.getLsbD 1 = true) : s.RegEffect off v { s with done := false }
  | accept (hoff : off = 0x00C) (hidle : s.busy = false) : s.RegEffect off v (s.acceptCmd v)
  | args (a : Args) (hidle : s.busy = false)
      (hhigh : s.params.addrWidth = 32 → a.srcAddrHi = s.args.srcAddrHi ∧ a.dstAddrHi = s.args.dstAddrHi) :
      s.RegEffect off v { s with args := a }

theorem State.setArgs_effect (s : State) (off : Nat) (v : Word) {a : Args}
    (hhigh : s.params.addrWidth = 32 → a.srcAddrHi = s.args.srcAddrHi ∧ a.dstAddrHi = s.args.dstAddrHi) :
    s.RegEffect off v (s.setArgs a) := by
  unfold State.setArgs
  split
  · exact .none
  · exact .args a (by simpa using ‹¬s.busy = true›) hhigh

theorem State.setHigh_effect (s : State) (off : Nat) (v : Word) (a : Args) : s.RegEffect off v (s.setHigh a) := by
  unfold State.setHigh
  split
  · exact .none
  · exact s.setArgs_effect off v fun h32 => absurd h32 ‹_›

/-- Every write has one of the effects. -/
theorem State.writeReg_effect (s : State) (off : Nat) (v : Word) : s.RegEffect off v (s.writeReg off v) := by
  unfold State.writeReg
  split
  case h_1 =>
    split
    · exact .reset rfl ‹_›
    · exact .ie rfl (by simpa using ‹¬v.getLsbD 1 = true›)
  case h_2 =>
    split
    · exact .clearDone rfl ‹_›
    · exact .none
  case h_3 =>
    split
    · exact .none
    · exact .accept rfl (by simpa using ‹¬s.busy = true›)
  case h_5 | h_8 => exact s.setHigh_effect _ v _
  case h_13 => exact .none
  all_goals exact s.setArgs_effect _ v fun _ => ⟨rfl, rfl⟩

/-- While BUSY = 1 writes of CMD and of the arguments are ignored (rules R33 (c), R496). -/
theorem State.writeReg_of_busy {s : State} (hbusy : s.busy = true) {off : Nat} (hlo : 0x00C ≤ off) (v : Word) :
    s.writeReg off v = s := by
  have heffect := s.writeReg_effect off v
  generalize s.writeReg off v = t at heffect ⊢
  cases heffect with
  | none => rfl
  | reset hoff | ie hoff | clearDone hoff => omega
  | accept _ hidle | args _ hidle => exact absurd hidle (by simp [hbusy])

/-- Read-only and reserved offsets ignore writes (rule R33 (d)). -/
theorem State.writeReg_of_readOnly (s : State) {off : Nat} (hoff : off = 0 ∨ 0x034 ≤ off) (v : Word) : s.writeReg off v = s := by
  unfold State.writeReg
  split
  case h_13 => rfl
  all_goals omega

theorem State.writeReg_ctrl_of_no_srst (s : State) {v : Word} (hsrst : v.getLsbD 1 = false) :
    s.writeReg 0x004 v = { s with ie := v.getLsbD 0 } := if_neg (Bool.eq_false_iff.mp hsrst)

/-- A write of STATUS with bit 1 clears DONE (rule R36). -/
theorem State.writeReg_status (s : State) (v : Word) : s.writeReg 0x008 v = { s with done := s.done && !v.getLsbD 1 } := by
  rw [State.writeReg]
  cases hclear : v.getLsbD 1
  · rw [Bool.not_false, Bool.and_true, if_neg Bool.false_ne_true]
  · rw [Bool.not_true, Bool.and_false, if_pos rfl]

/-- A high address register does not exist at ADDR_WIDTH = 32 (rules R38, R39). -/
theorem State.writeReg_high_of_32 {s : State} (h32 : s.params.addrWidth = 32) {off : Nat} (hoff : off = 0x014 ∨ off = 0x020)
    (v : Word) : s.writeReg off v = s ∧ s.readReg off = 0 := by
  obtain rfl | rfl := hoff <;> exact ⟨if_pos h32, if_pos h32⟩

/-- A write of an argument register of an idle engine is read back, and no other register reads otherwise (rules R38 to R40). -/
theorem State.writeReg_argument {s : State} (hidle : s.busy = false) {off : Nat} (halign : off % 4 = 0)
    (hrange : 0x010 ≤ off ∧ off ≤ 0x030) (hhigh : ¬(s.params.addrWidth = 32 ∧ (off = 0x014 ∨ off = 0x020))) (v : Word) :
    (s.writeReg off v).readReg off = v ∧ ∀ other, other ≠ off → (s.writeReg off v).readReg other = s.readReg other := by
  have hoff : off = 0x010 ∨ off = 0x014 ∨ off = 0x018 ∨ off = 0x01C ∨ off = 0x020 ∨ off = 0x024 ∨ off = 0x028 ∨ off = 0x02C
      ∨ off = 0x030 := by omega
  have hwide : off = 0x014 ∨ off = 0x020 → s.params.addrWidth ≠ 32 := fun h h32 => hhigh ⟨h32, h⟩
  have hargs : ∀ a, s.setArgs a = { s with args := a } := fun a => if_neg (by simp [hidle])
  obtain rfl | rfl | rfl | rfl | rfl | rfl | rfl | rfl | rfl := hoff
  all_goals
    refine ⟨by simp [State.writeReg, State.readReg, State.readHigh, State.setHigh, hargs, hwide], fun other hother => ?_⟩
    simp only [State.writeReg, State.setHigh, hargs, hwide, or_true, true_or, not_false_eq_true, if_neg]
    unfold State.readReg
    split
    any_goals rfl
    all_goals simp_all

/-- CMD and the reserved offsets read 0 (rules R33 (d), R37). -/
theorem State.readReg_of_reserved (s : State) {off : Nat} (hoff : 0x064 ≤ off ∨ off = 0x00C) : s.readReg off = 0 := by
  unfold State.readReg
  split
  case h_25 => rfl
  all_goals omega

theorem flagNat_le_one (b : Bool) : flagNat b ≤ 1 := by cases b <;> decide

theorem State.ctrlWord_lt (s : State) : s.ctrlWord.toNat < 2 := by
  have hie := flagNat_le_one s.ie
  rw [State.ctrlWord, BitVec.toNat_ofNat]
  omega

theorem State.statusWord_lt (s : State) : s.statusWord.toNat < 8 := by
  have hbusy := flagNat_le_one s.busy
  have hdone := flagNat_le_one s.done
  have herror := flagNat_le_one s.errorFlag
  rw [State.statusWord, BitVec.toNat_ofNat]
  omega

/-- ERR_CODE is a class and a detail: its upper half reads 0 (rule R42). -/
theorem toNat_lt_of_errCodeOk {w : Word} (h : errCodeOk w = true) : w.toNat < 2 ^ 16 := by
  have hcodes : ∀ e ∈ allErrors, e.word.toNat < 2 ^ 16 := by decide
  obtain rfl | ⟨e, he, rfl⟩ : w = 0 ∨ ∃ e ∈ allErrors, e.word = w := by simpa [errCodeOk] using h
  · decide
  · exact hcodes e he

/-- An argument register of an idle engine, whatever the address width (rules R38 to R40). -/
theorem State.readReg_writeReg_argument {s : State} (hidle : s.busy = false) {off : Nat} (halign : off % 4 = 0)
    (hrange : 0x010 ≤ off ∧ off ≤ 0x030) (v : Word) :
    (s.writeReg off v).readReg off = (if s.params.addrWidth = 32 ∧ (off = 0x014 ∨ off = 0x020) then 0 else v)
    ∧ ∀ other, other ≠ off → (s.writeReg off v).readReg other = s.readReg other := by
  split
  case isTrue hhigh =>
    obtain ⟨hwrite, hread⟩ := State.writeReg_high_of_32 hhigh.1 hhigh.2 v
    exact ⟨by rw [hwrite, hread], fun other _ => by rw [hwrite]⟩
  case isFalse hhigh => exact State.writeReg_argument hidle halign hrange hhigh v

/-! ## Which accesses are refused -/

theorem State.registerAt_eq_none_iff (s : State) (a width : Nat) : s.registerAt a width = none ↔
    width ≠ 4 ∨ (a - s.params.regBase) % 4 ≠ 0 ∨ a < s.params.regBase ∨ s.params.regBase + 4096 ≤ a := by
  simp only [State.registerAt, State.inRegisterSpace, inRange, Bool.and_eq_true, decide_eq_true_eq]
  split
  · simp only [reduceCtorEq, false_iff]
    omega
  · simp only [true_iff]
    omega

/-- An access that reaches no register is refused (rule R33 (a)). -/
theorem step_of_registerAt_none {s : State} {a width : Nat} (hnone : s.registerAt a width = none) (v : Word)
    (later : List HostEvent) : (s.inbox = .regRead a width :: later → step s = .refused .registerAccess)
      ∧ (s.inbox = .regWrite a width v :: later → step s = .refused .registerAccess) := by
  have hnone' : State.registerAt { s with inbox := later } a width = none := hnone
  constructor <;> intro hinbox <;> simp only [step, State.turn, hinbox, hostTurn, hnone']

/-- A read of a register changes nothing but what the host has read (rule R33 (b)). -/
theorem step_of_regRead {s : State} {off : Nat} {later : List HostEvent} (hinbox : s.inbox = .regRead (s.regAddr off) 4 :: later)
    (halign : off % 4 = 0) (hlt : off < 4096) : step s = .next { s with inbox := later, hostData := s.readReg off } := by
  have hreg : State.registerAt { s with inbox := later } (s.regAddr off) 4 = some off :=
    State.registerAt_regAddr halign hlt
  simp only [step, State.turn, hinbox, hostTurn, hreg]
  rfl

/-- The arguments are all a write of an argument register changes (rules R38 to R40). -/
theorem State.writeReg_argument_eq (s : State) {off : Nat} (hrange : 0x010 ≤ off) (v : Word) :
    s.writeReg off v = { s with args := (s.writeReg off v).args } := by
  have heffect := s.writeReg_effect off v
  generalize s.writeReg off v = t at heffect ⊢
  cases heffect with
  | none => rfl
  | reset hoff | ie hoff | clearDone hoff | accept hoff => omega
  | args a => rfl

/-- Settles O8: which accesses reach a register, then what a write there does and what a read returns. -/
theorem registerAccessRules : Obligations.RegisterAccessRules := by
  refine ⟨fun s off width v later hbad => step_of_registerAt_none ?_ v later,
    fun s a width v later hlow => step_of_registerAt_none ?_ v later,
    fun s off later hinbox halign hlt => step_of_regRead hinbox halign hlt, fun s off v later hinbox halign hlt => ?write,
    fun s off hoff => s.readReg_of_reserved hoff, fun s => ⟨s.ctrlWord_lt, s.statusWord_lt⟩, fun s hok => ?valid⟩
  · rw [State.registerAt_eq_none_iff, State.regAddr]
    omega
  · rw [State.registerAt_eq_none_iff]
    omega
  case valid =>
    have hvalid := s.ok_iff.mp hok
    exact ⟨toNat_lt_of_errCodeOk hvalid.errCode, hvalid.ctxStatus, hvalid.flags⟩
  case write =>
    rw [step_of_regWrite hinbox halign hlt]
    refine ⟨fun ⟨hbusy, hlo, _⟩ => ?busy, fun ⟨hoff, hsrst⟩ => ?ctrl, fun hoff => ?status, fun hoff => ?readOnly,
      fun ⟨hidle, hlo, hhi⟩ => ⟨_, rfl, ?argument, State.readReg_writeReg_argument (s := { s with inbox := later }) hidle halign
        ⟨hlo, hhi⟩ v⟩⟩
    case busy => rw [State.writeReg_of_busy (s := { s with inbox := later }) hbusy hlo]
    case ctrl => rw [hoff, State.writeReg_ctrl_of_no_srst _ hsrst]
    case status => rw [hoff, State.writeReg_status]
    case readOnly => rw [State.writeReg_of_readOnly _ hoff]
    case argument => exact State.writeReg_argument_eq _ hlo v

end Sys2Proof.Machine
end

section
/-!
PROOF. Who moves in a step and what a host access does, once for all steps; and how a command ends or sticks the engine (rules R30,
R36, R92, R453, R462).
-/

namespace Sys2Proof.Machine

/-! ## A step -/

/-- The engine moves where no host access is pending or the host waits for DONE (rules R30, R462). -/
def State.EngineNext (s : State) : Prop := s.inbox = [] ∨ ∃ rest, s.inbox = .waitDone :: rest

/-- What a step does: a turn of the engine, nothing, or the host's next access (rules R30, R92, R462, R493). -/
inductive State.StepCase (s : State) : Result → Prop where
  | engine (hnext : s.EngineNext) (hbusy : s.busy = true) (hstuck : s.stuck = false) : s.StepCase s.engineTurn
  | rests (hnext : s.EngineNext) (hready : s.engineReady = false) : s.StepCase (.next s)
  | host (e : HostEvent) (rest : List HostEvent) (hinbox : s.inbox = e :: rest) (hidle : e = .waitDone → s.busy = false) :
    s.StepCase (hostTurn e { s with inbox := rest })

theorem State.engineMoves_case {s : State} (hnext : s.EngineNext) : s.StepCase s.engineMoves := by
  unfold State.engineMoves
  split
  case isTrue hready =>
    obtain ⟨hbusy, hstuck⟩ : s.busy = true ∧ s.stuck = false := by simpa [State.engineReady] using hready
    exact .engine hnext hbusy hstuck
  case isFalse hready => exact .rests hnext (Bool.eq_false_iff.mpr hready)

theorem step_case (s : State) : s.StepCase (step s) := by
  unfold step State.turn
  split
  case h_1 hinbox => exact s.engineMoves_case (.inl hinbox)
  case h_2 rest hinbox =>
    split
    · exact s.engineMoves_case (.inr ⟨rest, hinbox⟩)
    · exact .host .waitDone rest hinbox fun _ => Bool.eq_false_iff.mpr ‹_›
  all_goals exact .host _ _ ‹_› nofun

/-! ## A host access -/

/-- What an access of the host leaves (rules R33, R89, R490). -/
inductive State.HostEffect (s : State) : HostEvent → State → Prop where
  | regWrite (a width off : Nat) (v : Word) (hreg : s.registerAt a width = some off) :
    s.HostEffect (.regWrite a width v) (s.writeReg off v)
  | regRead (a width off : Nat) (hreg : s.registerAt a width = some off) :
    s.HostEffect (.regRead a width) { s with hostData := s.readReg off }
  | memWrite (a : Nat) (b : Byte) : s.HostEffect (.memWrite a b) (s.hostWrite a b)
  | memRead (a : Nat) : s.HostEffect (.memRead a) (s.hostRead a)
  | waitDone : s.HostEffect .waitDone s
  | platformReset : s.HostEffect .platformReset s.deviceReset

theorem State.hostByteAccess_next {s k t : State} {a : Nat} (h : s.hostByteAccess a k = .next t) : t = k := by
  unfold State.hostByteAccess at h
  split at h
  · cases h
  split at h
  · cases h
  · exact (Host.Outcome.next.inj h).symm

theorem hostTurn_next {s t : State} {e : HostEvent} (h : hostTurn e s = .next t) : s.HostEffect e t := by
  unfold hostTurn at h
  split at h
  case h_1 =>
    split at h
    · obtain rfl := Host.Outcome.next.inj h
      exact .regWrite _ _ _ _ ‹_›
    · cases h
  case h_2 =>
    split at h
    · obtain rfl := Host.Outcome.next.inj h
      exact .regRead _ _ _ ‹_›
    · cases h
  case h_3 => exact State.hostByteAccess_next h ▸ .memWrite _ _
  case h_4 => exact State.hostByteAccess_next h ▸ .memRead _
  case h_5 => exact Host.Outcome.next.inj h ▸ .waitDone
  case h_6 => exact Host.Outcome.next.inj h ▸ .platformReset

/-- The register an access reaches lies at its bus address (rules R33 (a), R54). -/
theorem State.registerAt_eq_some {s : State} {a width off : Nat} (h : s.registerAt a width = some off) :
    a = s.regAddr off ∧ width = 4 := by
  unfold State.registerAt State.inRegisterSpace inRange at h
  split at h
  case isTrue hin =>
    obtain rfl := Option.some.inj h
    simp only [Bool.and_eq_true, decide_eq_true_eq] at hin
    exact ⟨by simp only [State.regAddr]; omega, hin.2.1⟩
  case isFalse => cases h

/-! ## A stuck engine -/

/-- What of a stuck engine stays as it is until a device reset (rule R92); the host goes on with the accesses it has. -/
structure State.StaysStuck (s t : State) : Prop where
  params : t.params = s.params
  busy : t.busy = true
  stuck : t.stuck = true
  results : t.results = s.results
  info : t.info = s.info
  slots : t.slots = s.slots
  args : t.args = s.args
  inbox : ∀ e ∈ t.inbox, e ∈ s.inbox

theorem State.StaysStuck.trans {s t u : State} (hst : s.StaysStuck t) (htu : t.StaysStuck u) : s.StaysStuck u where
  params := htu.params.trans hst.params
  busy := htu.busy
  stuck := htu.stuck
  results := htu.results.trans hst.results
  info := htu.info.trans hst.info
  slots := htu.slots.trans hst.slots
  args := htu.args.trans hst.args
  inbox e he := hst.inbox e (htu.inbox e he)

/-- The host resets the device with this access (rule R490). -/
def State.Resets (s : State) (e : HostEvent) : Prop :=
  e = .platformReset ∨ ∃ v : Word, v.getLsbD 1 = true ∧ e = .regWrite (s.regAddr 0x004) 4 v

section

variable {s t : State} (hbusy : s.busy = true) (hstuck : s.stuck = true)
include hbusy hstuck

/-- No host access but a device reset moves a stuck engine (rules R33 (c), R92). -/
theorem State.HostEffect.staysStuck {e : HostEvent} {rest : List HostEvent} (hinbox : s.inbox = e :: rest) (hreset : ¬s.Resets e)
    (h : State.HostEffect { s with inbox := rest } e t) : s.StaysStuck t := by
  have hrest : ∀ x ∈ rest, x ∈ s.inbox := fun x hx => hinbox ▸ List.mem_cons_of_mem e hx
  cases h with
  | regWrite a width off v hreg =>
    obtain ⟨rfl, rfl⟩ := State.registerAt_eq_some hreg
    have heffect := State.writeReg_effect { s with inbox := rest } off v
    generalize State.writeReg { s with inbox := rest } off v = t at heffect ⊢
    cases heffect with
    | none | ie | clearDone => exact ⟨rfl, hbusy, hstuck, rfl, rfl, rfl, rfl, hrest⟩
    | reset hoff hsrst => exact absurd (.inr ⟨v, hsrst, by rw [hoff]; rfl⟩) hreset
    | accept _ hidle | args _ hidle => exact absurd (hbusy.symm.trans hidle) nofun
  | memRead a =>
    unfold State.hostRead
    split <;> exact ⟨rfl, hbusy, hstuck, rfl, rfl, rfl, rfl, hrest⟩
  | platformReset => exact absurd (.inl rfl) hreset
  | regRead | memWrite | waitDone => exact ⟨rfl, hbusy, hstuck, rfl, rfl, rfl, rfl, hrest⟩

theorem step_staysStuck (hreset : ∀ e ∈ s.inbox, ¬s.Resets e) (h : step s = .next t) : s.StaysStuck t := by
  have hcase := step_case s
  rw [h] at hcase
  generalize hx : (Host.Outcome.next t : Result) = x at hcase
  cases hcase with
  | engine _ _ hfree => exact absurd (hstuck.symm.trans hfree) nofun
  | rests =>
    obtain rfl := Host.Outcome.next.inj hx
    exact ⟨rfl, hbusy, hstuck, rfl, rfl, rfl, rfl, fun _ he => he⟩
  | host e rest hinbox =>
    exact (hostTurn_next hx.symm).staysStuck hbusy hstuck hinbox (hreset e (hinbox ▸ List.mem_cons_self))

end

/-- A run that stops nowhere is a step and the run after it. -/
theorem coreRun_succ_next (M : Host.Core) {n : Nat} {s t : M.State} (h : M.run (n + 1) s = .next t) :
    ∃ u, M.step s = .next u ∧ M.run n u = .next t := by
  rw [Host.Core.run] at h
  split at h
  case h_1 u hstep => exact ⟨u, hstep, h⟩
  all_goals cases h

/-- However long it runs (rules R92, R462). -/
theorem run_staysStuck (n : Nat) {s t : State} (hbusy : s.busy = true) (hstuck : s.stuck = true)
    (hreset : ∀ e ∈ s.inbox, ¬s.Resets e) (h : core.run n s = .next t) : s.StaysStuck t := by
  induction n generalizing s with
  | zero =>
    obtain rfl := Host.Outcome.next.inj h
    exact ⟨rfl, hbusy, hstuck, rfl, rfl, rfl, rfl, fun _ he => he⟩
  | succ n ih =>
    obtain ⟨u, hstep, hrun⟩ : ∃ u : State, step s = .next u ∧ core.run n u = .next t := coreRun_succ_next core h
    have hu := step_staysStuck hbusy hstuck hreset hstep
    have hsame : ∀ e, u.Resets e → s.Resets e := fun e he => by
      rwa [State.Resets, State.regAddr, hu.params] at he
    exact hu.trans (ih hu.busy hu.stuck (fun e he hres => hreset e (hu.inbox e he) (hsame e hres)) hrun)

/-! ## The end of a command under the default policy -/

theorem State.dmaFault_of_stuck {s : State} (hpolicy : s.params.dmaFaultPolicy = .stuck) :
    s.dmaFault = .next { s with busy := true, stuck := true } := by
  simp only [State.dmaFault, hpolicy]

theorem State.finish_of_stuck {s : State} (hpolicy : s.params.dmaFaultPolicy = .stuck) (r : Report) :
    s.finish r = .next (s.completed r) ∨ s.finish r = .next { s with busy := true, stuck := true } := by
  unfold State.finish
  split
  · exact .inr (State.dmaFault_of_stuck hpolicy)
  · exact .inl rfl

/-- A command completes or sticks the engine (rule R92). -/
theorem exec_of_stuck {s : State} (hpolicy : s.params.dmaFaultPolicy = .stuck) {i : Instr} (hi : i.isCommand = true) :
    (∃ r, exec i s = .next (s.completed r)) ∨ exec i s = .next { s with busy := true, stuck := true } := by
  cases exec_ends i hi s with
  | finish r _ heq => exact heq s ▸ (State.finish_of_stuck hpolicy r).imp_left fun h => ⟨r, h⟩
  | withSource r _ heq =>
    have hexec : exec i s = s.withSource fun src => s.finish (r src) := heq s
    rw [hexec, State.withSource]
    split
    · exact .inr (State.dmaFault_of_stuck hpolicy)
    · exact (State.finish_of_stuck hpolicy _).imp_left fun h => ⟨_, h⟩

/-- Settles O11: the two ways a command ends, and what a stuck engine keeps over a run. -/
theorem everyCommandEndsOrSticks : Obligations.EveryCommandEndsOrSticks := by
  refine ⟨fun i s hi => ⟨fun hholes => ?_, fun hpolicy => ?_⟩, fun n s t hbusy hstuck hreset hrun => ?_⟩
  · obtain ⟨r, -, hexec⟩ := exec_completes hholes hi
    exact ⟨_, hexec, rfl, rfl, rfl⟩
  · obtain ⟨r, hexec⟩ | hexec := exec_of_stuck hpolicy hi
    · exact ⟨_, hexec, .inl ⟨rfl, rfl, rfl⟩⟩
    · exact ⟨_, hexec, .inr rfl⟩
  · have hnone : ∀ e ∈ s.inbox, ¬s.Resets e := fun e he hres =>
      hres.elim (hreset e he).1 fun ⟨v, hsrst, heq⟩ => (hreset e he).2 v hsrst heq
    have hstays := run_staysStuck n hbusy hstuck hnone hrun
    exact ⟨hstays.busy, hstays.stuck, hstays.results, hstays.info, hstays.slots, hstays.args⟩

end Sys2Proof.Machine
end

section
/-!
PROOF. What a command can do to the contexts, the INFO registers and its buffers, said once for all commands (rules R84, R151, R300 to
R305, R342 to R345, R383 to R385), and from it what no command changes (rules R30, R45, R458).
-/

namespace Sys2Proof.Machine

/-! ## The contexts a handle names -/

theorem State.slotAt_of_cstreamAt {s : State} {h : BitVec 8} {c : CStream} (hc : s.cstreamAt h = some c) :
    slotAt s.slots h = some (.cstream c) := by
  unfold State.cstreamAt at hc
  split at hc
  case h_1 d hd => rwa [← Option.some.inj hc]
  all_goals cases hc

theorem State.slotAt_of_dstreamAt {s : State} {h : BitVec 8} {c : DStream} (hc : s.dstreamAt h = some c) :
    slotAt s.slots h = some (.dstream c) := by
  unfold State.dstreamAt at hc
  split at hc
  case h_2 d hd => rwa [← Option.some.inj hc]
  all_goals cases hc

theorem State.slotAt_of_fcompAt {s : State} {h : BitVec 8} {c : FComp} (hc : s.fcompAt h = some c) :
    slotAt s.slots h = some (.fcomp c) := by
  unfold State.fcompAt at hc
  split at hc
  case h_3 d hd => rwa [← Option.some.inj hc]
  all_goals cases hc

theorem State.slotAt_of_fdecompAt {s : State} {h : BitVec 8} {c : FDecomp} (hc : s.fdecompAt h = some c) :
    slotAt s.slots h = some (.fdecomp c) := by
  unfold State.fdecompAt at hc
  split at hc
  case h_4 d hd => rwa [← Option.some.inj hc]
  all_goals cases hc

/-! ## The effect of a command -/

/-- What a command makes of the context its handle names, with the INFO registers it leaves (rules R302 to R305, R342 to R345, R383,
R385). -/
inductive State.Moves (s : State) : Instr → Ctx → Ctx → Info → Prop where
  | ctxReset (h : BitVec 8) (rsvd : BitVec 16) (c : Ctx) : s.Moves (.ctxReset h rsvd) c c.reinit s.info
  | ctxLoadDict (h : BitVec 8) (rsvd : BitVec 16) (c : Ctx) (src : List Byte)
      (hstate : firstError (loadDictStateChecks s.params.dictRecovers c ++ s.sourceChecks) = none) :
    s.Moves (.ctxLoadDict h rsvd) c (withDict s.hash (lastWindow src) c) s.info
  | streamCompress (h : BitVec 8) (rsvd : BitVec 16) (c : CStream) (src : List Byte) :
    s.Moves (.streamCompress h rsvd) (.cstream c)
      (.cstream (c.push src (compressCore s.hash c.hist src c.table (c.spos - c.hist.length)).2)) s.info
  | streamDecompress (h : BitVec 8) (rsvd : BitVec 16) (c : DStream) (out : List Byte) (hstate : c.state ≠ .failed) :
    s.Moves (.streamDecompress h rsvd) (.dstream c) (.dstream { c with hist := lastWindow (c.hist ++ out) }) s.info
  | streamFails (h : BitVec 8) (rsvd : BitVec 16) (c : DStream) :
    s.Moves (.streamDecompress h rsvd) (.dstream c) (.dstream { c with state := .failed }) s.info
  | frameBegin (h : BitVec 8) (rsvd : BitVec 16) (c : FComp) (p : Prefs) (hbsid : bsidOk p.bsid = true) (hsize : p.csize < 2 ^ 64) :
    s.Moves (.frameBegin h rsvd) (.fcomp c) (.fcomp { FComp.initial with prefs := p, fstate := .headerEmitted }) s.info
  | frameUpdate (h : BitVec 8) (rsvd : BitVec 16) (c : FComp) (src : List Byte) (hopen : c.fstate.open_ = true) :
    s.Moves (.frameUpdate h rsvd) (.fcomp c) (.fcomp (updateFrame s.hash c src).2) s.info
  | frameEnd (h : BitVec 8) (rsvd : BitVec 16) (c : FComp) (hopen : c.fstate.open_ = true) :
    s.Moves (.frameEnd h rsvd) (.fcomp c) (.fcomp (endFrame s.hash c).2) s.info
  | frameInfo (h : BitVec 8) (rsvd : BitVec 16) (c : FDecomp) (src : List Byte) (i : FrameInfo) (hl : Nat)
      (hstate : c.dstate = .idle) (hparse : parseHeader src = .ok i hl) :
    s.Moves (.frameInfo h rsvd) (.fdecomp c) (.fdecomp { c.headerDone i with fpos := hl }) (setInfo i hl)
  | frameDecompress (h : BitVec 8) (rsvd : BitVec 16) (c : FDecomp) (src : List Byte) (hstate : c.dstate ≠ .failed) :
    s.Moves (.frameDecompress h rsvd) (.fdecomp c)
      (.fdecomp (frameLoop s.frameRules s.dstCap src (s.frameStart c)).1.ctx)
      (frameLoop s.frameRules s.dstCap src (s.frameStart c)).1.info

/-- The slots and the INFO registers a command leaves (rules R45, R300 to R302). -/
inductive State.CtxEffect (s : State) : Instr → List (Option Ctx) → Info → Prop where
  | keeps (i : Instr) : s.CtxEffect i s.slots s.info
  | create (h : BitVec 8) (rsvd : BitVec 16) (n : Nat) (hparams : firstError s.createChecks = none)
      (hfree : firstFree 1 s.slots = some n) :
    s.CtxEffect (.ctxCreate h rsvd)
      (setSlot s.slots (BitVec.ofNat 8 n) (some (newContext s.kindField s.blockSizeField))) s.info
  | destroy (h : BitVec 8) (rsvd : BitVec 16) : s.CtxEffect (.ctxDestroy h rsvd) (setSlot s.slots h none) s.info
  | move (i : Instr) (c d : Ctx) (info : Info) (hslot : slotAt s.slots i.handle = some c) (hmove : s.Moves i c d info) :
    s.CtxEffect i (setSlot s.slots i.handle (some d)) info

/-- What a command reports: output within its destination buffer, if it has one, and an effect on the contexts (rules R84, R151). -/
structure Report.Effect (s : State) (i : Instr) (r : Report) : Prop where
  length_out_le : r.out.length ≤ s.dstCap
  out_of_no_dest : usesDest i = false → r.out = []
  effect : s.CtxEffect i r.slots r.info

/-- The command ends with its report, or at a source byte without memory (rules R86, R92). -/
def State.EndsIn (s : State) (i : Instr) (x : Result) : Prop :=
  (∃ r : Report, r.Effect s i ∧ x = s.finish r)
    ∨ (usesSource i = true ∧ s.hitsHole s.srcAddr s.srcLen = true ∧ x = s.dmaFault)

namespace State.EndsIn

variable {s : State} {i : Instr} {h : BitVec 8} {x y : Result}

theorem finish {r : Report} (hr : r.Effect s i) : s.EndsIn i (s.finish r) := .inl ⟨r, hr, rfl⟩

/-- A report without output. -/
theorem quiet {r : Report} (heffect : s.CtxEffect i r.slots r.info) (hout : r.out = [] := by rfl) : s.EndsIn i (s.finish r) :=
  finish ⟨by simp [hout], fun _ => hout, heffect⟩

/-- A report with output of a command with a destination buffer. -/
theorem writes {r : Report} (hdest : usesDest i = true) (hout : r.out.length ≤ s.dstCap) (heffect : s.CtxEffect i r.slots r.info) :
    s.EndsIn i (s.finish r) := finish ⟨hout, fun hno => absurd (hdest.symm.trans hno) nofun, heffect⟩

theorem raise (h : BitVec 8) (e : Err) : s.EndsIn i (s.raise h e) := quiet (.keeps i)

theorem check {checks : List (Bool × Err)} (hx : firstError checks = none → s.EndsIn i x) : s.EndsIn i (s.checked h checks x) := by
  unfold State.checked
  split
  · exact raise _ _
  · exact hx ‹_›

/-- A lookup in the contexts, an error where there is nothing (rule R454). `pick` is the command's own case distinction on it. -/
theorem lookup {α : Type} {o : Option α} {e : Err} {g : α → Result}
    {pick : Option α → (Unit → Result) → (α → Result) → Result} (hg : ∀ c, o = some c → s.EndsIn i (g c))
    (hnone : ∀ x y, pick none x y = x () := by intros; rfl) (hsome : ∀ c x y, pick (some c) x y = y c := by intros; rfl) :
    s.EndsIn i (pick o (fun _ => s.raise h e) g) := by
  cases o with
  | none => exact hnone .. ▸ raise h e
  | some c => exact hsome .. ▸ hg c rfl

theorem ite {p : Prop} [Decidable p] (hx : p → s.EndsIn i x) (hy : ¬p → s.EndsIn i y) : s.EndsIn i (if p then x else y) := by
  split
  · exact hx ‹_›
  · exact hy ‹_›

theorem source (hsrc : usesSource i = true) {k : List Byte → Result} (hk : ∀ src, src.length = s.srcLen → s.EndsIn i (k src)) :
    s.EndsIn i (s.withSource k) := by
  unfold State.withSource
  split
  · exact .inr ⟨hsrc, ‹_›, rfl⟩
  · exact hk _ s.length_source

end State.EndsIn

/-! ## Each command -/

/-- A check that stands in a list of passed checks is passed (rule R454). -/
theorem eq_false_of_firstError_eq_none {checks : List (Bool × Err)} (hnone : firstError checks = none) {b : Bool} {e : Err}
    (hmem : (b, e) ∈ checks) : b = false := (firstError_eq_none_iff checks).mp hnone _ hmem

theorem State.decompressOf_keeps (s : State) (src : List Byte) : (s.decompressOf src).slots = s.slots ∧
    (s.decompressOf src).info = s.info := by
  unfold State.decompressOf State.legacyDecode State.legacyReport State.decompressReport
  split
  · split
    · exact ⟨rfl, rfl⟩
    split
    · exact ⟨rfl, rfl⟩
    dsimp only
    split
    · exact ⟨rfl, rfl⟩
    split <;> exact ⟨rfl, rfl⟩
  · split <;> exact ⟨rfl, rfl⟩

/-- The preferences of a legal preferences word (rules R152, R340). -/
theorem bsidOk_prefsOf {bsid : BitVec 3} {reserved3 : Bool} {high : BitVec 24}
    (hlegal : firstError (prefsChecks bsid reserved3 high) = none) (indep ccrc bcrc autoFlush : Bool) (csize : Nat) :
    bsidOk (prefsOf bsid indep ccrc bcrc autoFlush csize).bsid = true := by
  have hbad := eq_false_of_firstError_eq_none hlegal List.mem_cons_self
  simp only [Bool.or_eq_false_iff] at hbad
  obtain ⟨⟨⟨-, h1⟩, h2⟩, h3⟩ := hbad
  have hall : ∀ b : BitVec 3, (b == 1) = false → (b == 2) = false → (b == 3) = false →
      bsidOk (if b = 0 then Config.defaultBsid else b.toNat) = true := by decide
  exact hall bsid h1 h2 h3

theorem State.contentSizeField_lt (s : State) : s.contentSizeField < 2 ^ 64 := by
  have hlo := s.args.param1.isLt
  have hhi := s.args.param2.isLt
  unfold State.contentSizeField
  omega

open State.EndsIn in
/-- What every command can do (rules R84, R151). -/
theorem exec_endsIn (s : State) {i : Instr} (hi : i.isCommand = true) : s.EndsIn i (exec i s) := by
  cases i with
  | bound h rsvd => exact check fun _ => quiet (.keeps _)
  | compress h rsvd =>
    refine check fun hchecks => source rfl fun src hsrc => writes rfl ?_ (.keeps _)
    have hcap : bound s.srcLen + s.storeHeader.length ≤ s.dstCap :=
      le_of_capacity_check (e := .capacityBound) hchecks (by simp [State.compressChecks])
    have hcore := length_compressCore_le s.hash [] src [] 0
    simp only [bound] at hcap
    simp only [State.compressReport, List.length_append]
    omega
  | decompress h rsvd =>
    refine check fun _ => source rfl fun src _ => ?_
    obtain ⟨hslots, hinfo⟩ := s.decompressOf_keeps src
    have hends : s.EndsIn (.decompress h rsvd) (s.finish (s.decompressOf src)) :=
      writes rfl (s.decompressOf_fits src).length_out_le (by rw [hslots, hinfo]; exact .keeps _)
    rwa [State.decompressOf, apply_ite s.finish] at hends
  | ctxCreate h rsvd =>
    refine check fun hchecks => lookup fun n hn => quiet (.create h rsvd n ?_ hn)
    rw [firstError_eq_none_iff] at hchecks ⊢
    exact fun x hx => hchecks x (List.mem_append_right _ hx)
  | ctxDestroy h rsvd => exact quiet (.destroy h rsvd)
  | ctxReset h rsvd => exact check fun _ => lookup fun c hc => quiet (.move _ c _ _ hc (.ctxReset ..))
  | ctxLoadDict h rsvd =>
    exact check fun _ => lookup fun c hc => check fun hstate => source rfl fun src _ =>
      quiet (.move _ c _ _ (Option.filter_eq_some_iff.mp hc).1 (.ctxLoadDict h rsvd c src hstate))
  | streamCompress h rsvd =>
    refine check fun _ => lookup fun c hc => check fun hchecks => source rfl fun src hsrc =>
      writes rfl ?_ (.move _ _ _ _ (s.slotAt_of_cstreamAt hc) (.streamCompress ..))
    have hcap : bound s.srcLen ≤ s.dstCap :=
      le_of_capacity_check (e := .capacityBound) hchecks (by simp [State.streamCompressChecks])
    have hcore := length_compressCore_le s.hash c.hist src c.table (c.spos - c.hist.length)
    simp only [bound] at hcap
    simp only [State.streamCompressReport]
    omega
  | streamDecompress h rsvd =>
    refine check fun _ => lookup fun c hc => check fun hchecks => source rfl fun src _ => ?_
    have hout := length_blockDecode_le s.params.strictTail src (min s.dstCap c.blockSize) c.hist
    have hfits := s.streamDecompressReport_fits (dest := true) h c (hout.trans (Nat.min_le_left ..))
    refine writes rfl (hfits _).length_out_le ?_
    have hslot := s.slotAt_of_dstreamAt hc
    have hstate : c.state ≠ .failed := beq_eq_false_iff_ne.mp (eq_false_of_firstError_eq_none hchecks List.mem_cons_self)
    unfold State.streamDecompressReport
    split
    · exact .move _ _ _ _ hslot (.streamDecompress h rsvd c _ hstate)
    · exact .move _ _ _ _ hslot (.streamFails h rsvd c)
  | frameBegin h rsvd =>
    exact check fun _ => lookup fun c hc => check fun _ => check fun hlegal => check fun hchecks =>
      writes rfl (le_of_capacity_check (e := .capacityOutput) hchecks (by simp))
        (.move _ _ _ _ (s.slotAt_of_fcompAt hc) (.frameBegin h rsvd c _ (bsidOk_prefsOf hlegal ..) s.contentSizeField_lt))
  | frameUpdate h rsvd =>
    refine check fun _ => lookup fun c hc => check fun hchecks => source rfl fun src _ => ite (fun _ => raise _ _) fun hcap =>
      writes rfl (not_lt.mp hcap) (.move _ _ _ _ (s.slotAt_of_fcompAt hc) (.frameUpdate h rsvd c src ?_))
    simpa using eq_false_of_firstError_eq_none hchecks List.mem_cons_self
  | frameEnd h rsvd =>
    refine check fun _ => lookup fun c hc => check fun hchecks => ite (fun _ => raise _ _) fun hcap =>
      writes rfl (not_lt.mp hcap) (.move _ _ _ _ (s.slotAt_of_fcompAt hc) (.frameEnd h rsvd c ?_))
    simpa using eq_false_of_firstError_eq_none hchecks List.mem_cons_self
  | frameInfo h rsvd =>
    refine check fun _ => lookup fun c hc => check fun hchecks => source rfl fun src _ => ?_
    split
    · exact quiet (.keeps _)
    · have hidle : (c.dstate != .idle) = false :=
        eq_false_of_firstError_eq_none hchecks (List.mem_cons_of_mem _ List.mem_cons_self)
      exact quiet (.move _ _ _ _ (s.slotAt_of_fdecompAt hc) (.frameInfo h rsvd c src _ _ (by simpa using hidle) ‹_›))
  | frameDecompress h rsvd =>
    refine check fun _ => lookup fun c hc => check fun hchecks => source rfl fun src _ =>
      writes rfl (length_frameLoop_out_le _ src (Nat.zero_le _))
        (.move _ _ _ _ (s.slotAt_of_fdecompAt hc) (.frameDecompress h rsvd c src ?_))
    exact beq_eq_false_iff_ne.mp (eq_false_of_firstError_eq_none hchecks List.mem_cons_self)
  | illegalCommand op h rsvd => exact raise _ _
  | _ => simp [Instr.isCommand, siteOf] at hi

/-- A command that answers a state has completed with its report, or has stuck the engine (rules R36, R92). -/
theorem exec_next_cases {s t : State} {i : Instr} (hi : i.isCommand = true) (ht : exec i s = .next t) :
    (∃ r : Report, r.Effect s i ∧ t = s.completed r) ∨ t = { s with busy := true, stuck := true } := by
  obtain ⟨r, hr, hexec⟩ | ⟨-, -, hexec⟩ := exec_endsIn s hi
  · exact (State.finish_next (hexec.symm.trans ht)).imp_left fun htr => ⟨r, hr, htr⟩
  · exact .inr (State.dmaFault_next (hexec.symm.trans ht))

/-! ## What no command changes -/

theorem length_setSlot (slots : List (Option Ctx)) (h : BitVec 8) (c : Option Ctx) : (setSlot slots h c).length = slots.length := by
  unfold setSlot
  split
  · rfl
  · exact List.length_set ..

/-- The smallest free handle numbers a free slot (rule R300). -/
theorem getElem?_of_firstFree {slots : List (Option Ctx)} {k n : Nat} (h : firstFree k slots = some n) :
    k ≤ n ∧ slots[n - k]? = some none := by
  induction slots generalizing k with
  | nil => cases h
  | cons c slots ih =>
    cases c with
    | none =>
      obtain rfl := Option.some.inj h
      simp
    | some c =>
      obtain ⟨hle, hget⟩ := ih h
      refine ⟨by omega, ?_⟩
      rw [show n - k = n - (k + 1) + 1 by omega, List.getElem?_cons_succ, hget]

/-- A handle has 8 bits, so it reaches 255 slots at most (rules R9, R37, R300). -/
theorem slotAt_of_firstFree {slots : List (Option Ctx)} (hlen : slots.length ≤ 255) {n : Nat} (h : firstFree 1 slots = some n) :
    slotAt slots (BitVec.ofNat 8 n) = none := by
  obtain ⟨hle, hget⟩ := getElem?_of_firstFree h
  obtain ⟨hlt, -⟩ := List.getElem?_eq_some_iff.mp hget
  have hnum : (BitVec.ofNat 8 n).toNat = n := by rw [BitVec.toNat_ofNat, Nat.mod_eq_of_lt (by omega)]
  have hne : BitVec.ofNat 8 n ≠ 0 := fun h0 => by
    rw [h0] at hnum
    simp at hnum
    omega
  rw [slotAt_of_ne_zero hne, hnum, hget]
  rfl

/-- A context that only CTX_RESET and CTX_DESTROY recover (rule R458). -/
def Ctx.Failed (c : Ctx) : Prop := (∃ d, c = .dstream d ∧ d.state = .failed) ∨ ∃ d, c = .fdecomp d ∧ d.dstate = .failed

/-- A FAILED context leaves its state by CTX_RESET, or by CTX_LOAD_DICT where a DSTREAM is taken in any state (rules R303, R458). -/
theorem State.Moves.of_failed {s : State} {i : Instr} {c d : Ctx} {info : Info} (hmove : s.Moves i c d info) (hfailed : c.Failed) :
    (∃ r, i = .ctxReset i.handle r)
      ∨ ((∃ r, i = .ctxLoadDict i.handle r) ∧ s.params.dictRecovers = true ∧ ∀ f, c ≠ .fdecomp f) ∨ d = c := by
  cases hmove with
  | ctxReset h rsvd => exact .inl ⟨rsvd, rfl⟩
  | ctxLoadDict h rsvd c src hstate =>
    obtain ⟨d, rfl, hd⟩ | ⟨d, rfl, hd⟩ := hfailed
    · have hcheck := eq_false_of_firstError_eq_none hstate List.mem_cons_self
      exact .inr (.inl ⟨⟨rsvd, rfl⟩, by simpa [hd] using hcheck, by simp⟩)
    · have hcheck := eq_false_of_firstError_eq_none hstate List.mem_cons_self
      simp [hd] at hcheck
  | streamDecompress h rsvd c out hstate => simp [Ctx.Failed, hstate] at hfailed
  | streamFails h rsvd c =>
    obtain hc : c.state = .failed := by simpa [Ctx.Failed] using hfailed
    exact .inr (.inr (by rw [← hc]))
  | frameInfo h rsvd c src i hl hstate => simp [Ctx.Failed, hstate] at hfailed
  | frameDecompress h rsvd c src hstate => simp [Ctx.Failed, hstate] at hfailed
  | streamCompress | frameBegin | frameUpdate | frameEnd => simp [Ctx.Failed] at hfailed

/-- Only FRAME_INFO and FRAME_DECOMPRESS write the INFO registers (rules R43, R384). -/
theorem State.Moves.info_eq {s : State} {i : Instr} {c d : Ctx} {info : Info} (hmove : s.Moves i c d info)
    (hinfo : ∀ h r, i ≠ .frameInfo h r) (hframe : ∀ h r, i ≠ .frameDecompress h r) : info = s.info := by
  cases hmove with
  | frameInfo h rsvd => exact absurd rfl (hinfo h rsvd)
  | frameDecompress h rsvd => exact absurd rfl (hframe h rsvd)
  | _ => rfl

section

variable {s : State} {i : Instr} {slots : List (Option Ctx)} {info : Info} (h : s.CtxEffect i slots info)
include h

theorem State.CtxEffect.length_eq : slots.length = s.slots.length := by
  cases h with
  | keeps => rfl
  | create | destroy | move => exact length_setSlot ..

theorem State.CtxEffect.info_eq (hinfo : ∀ h r, i ≠ .frameInfo h r) (hframe : ∀ h r, i ≠ .frameDecompress h r) : info = s.info := by
  cases h with
  | move _ c d info hslot hmove => exact hmove.info_eq hinfo hframe
  | _ => rfl

/-- A slot is changed by a command that names it, or is free and CTX_CREATE takes it (rules R45, R300). -/
theorem State.CtxEffect.slotAt_eq (hlen : s.slots.length ≤ 255) {k : BitVec 8} (hk : k ≠ i.handle)
    (hfull : slotAt s.slots k ≠ none ∨ ∀ h r, i ≠ .ctxCreate h r) : slotAt slots k = slotAt s.slots k := by
  cases h with
  | keeps => rfl
  | destroy | move => exact slotAt_setSlot_of_ne hk ..
  | create h rsvd n _ hfree =>
    refine slotAt_setSlot_of_ne ?_ ..
    rintro rfl
    exact (hfull.resolve_right fun hno => hno h rsvd rfl) (slotAt_of_firstFree hlen hfree)

/-- A FAILED context stays as it is but for the commands that recover it (rule R458). -/
theorem State.CtxEffect.slotAt_of_failed (hlen : s.slots.length ≤ 255) {k : BitVec 8} {c : Ctx} (hc : slotAt s.slots k = some c)
    (hfailed : c.Failed) (hreset : ∀ r, i ≠ .ctxReset k r) (hdestroy : ∀ r, i ≠ .ctxDestroy k r)
    (hdict : (∀ r, i ≠ .ctxLoadDict k r) ∨ s.params.dictRecovers = false ∨ ∃ d, c = .fdecomp d) : slotAt slots k = some c := by
  by_cases hk : k = i.handle
  · subst hk
    cases h with
    | keeps => exact hc
    | destroy h rsvd => exact absurd rfl (hdestroy rsvd)
    | create h rsvd n _ hfree =>
      refine (slotAt_setSlot_of_ne ?_ ..).trans hc
      rintro heq
      rw [heq, slotAt_of_firstFree hlen hfree] at hc
      cases hc
    | move _ c' d _ hslot hmove =>
      obtain rfl := Option.some.inj (hslot.symm.trans hc)
      obtain ⟨r, hi⟩ | ⟨⟨r, hi⟩, hrecovers, hkind⟩ | rfl := hmove.of_failed hfailed
      · exact absurd hi (hreset r)
      · obtain hno | hkeeps | hfdecomp := hdict
        · exact absurd hi (hno r)
        · exact absurd (hkeeps.symm.trans hrecovers) nofun
        · exact absurd hfdecomp (not_exists.mpr hkind)
      · rw [setSlot_of_slotAt hslot, set_of_slotAt hslot, hslot]
  · rw [h.slotAt_eq hlen hk (.inl (by rw [hc]; nofun)), hc]

end

/-- Settles O12: the effect of a completed command on the contexts, and its output where it has no destination. -/
theorem commandFrame : Obligations.CommandFrame := by
  intro i s t hi hlen ht
  obtain ⟨r, ⟨-, hout, heffect⟩, rfl⟩ | rfl := exec_next_cases hi ht
  · refine ⟨rfl, rfl, rfl, rfl, rfl, heffect.length_eq, fun k => heffect.slotAt_eq hlen, fun k c => heffect.slotAt_of_failed hlen,
      heffect.info_eq, fun hdest hraced => ?_⟩
    rw [State.completed_mem, hout hdest, State.memAfter_of_no_race hraced]
    rfl
  · exact ⟨rfl, rfl, rfl, rfl, rfl, rfl, fun _ _ _ => rfl, fun _ _ hc _ _ _ _ => hc, fun _ _ => rfl, fun _ _ => rfl⟩

end Sys2Proof.Machine
end

section
/-!
PROOF. What keeps a context well-formed (rules R46 to R51, R386 to R397): the hash table and the history of a compressor, the
parser of a frame.
-/

namespace Sys2Proof.Machine

/-! ## Hash tables -/

theorem HashTable.ok_iff {hashLog spos : Nat} {t : HashTable} :
    t.ok hashLog spos = true ↔ Table.wf t = true ∧ ∀ e ∈ t, e.1 < 2 ^ hashLog ∧ e.2 < spos := by
  simp only [HashTable.ok, Bool.and_eq_true, List.all_eq_true, decide_eq_true_eq]

theorem HashTable.ok_nil (hashLog spos : Nat) : HashTable.ok hashLog spos [] = true := rfl

theorem HashTable.ok_mono {hashLog spos stop : Nat} {t : HashTable} (h : t.ok hashLog spos = true) (hle : spos ≤ stop) :
    t.ok hashLog stop = true := by
  obtain ⟨hwf, hmem⟩ := HashTable.ok_iff.mp h
  exact HashTable.ok_iff.mpr ⟨hwf, fun e he => ⟨(hmem e he).1, (hmem e he).2.trans_le hle⟩⟩

theorem HashTable.ok_set {hashLog spos : Nat} {t : HashTable} (h : t.ok hashLog spos = true) {k v : Nat} (hk : k < 2 ^ hashLog)
    (hv : v < spos) : HashTable.ok hashLog spos (Table.set t k v) = true := by
  obtain ⟨hwf, hmem⟩ := HashTable.ok_iff.mp h
  refine HashTable.ok_iff.mpr ⟨Table.wf_set hwf k v, fun e he => ?_⟩
  obtain rfl | he := Table.mem_set he
  · exact ⟨hk, hv⟩
  · exact hmem e he

section

variable {hash : Word → Nat} {hashLog : Nat} (hhash : ∀ x, hash x < 2 ^ hashLog)
include hhash

/-- The table a dictionary fills (rule R303). -/
theorem HashTable.ok_fillTable {spos : Nat} (dict : List Byte) (i n : Nat) (hle : i + n ≤ spos) {t : HashTable}
    (h : t.ok hashLog spos = true) : HashTable.ok hashLog spos (fillTable hash dict i n t) = true := by
  induction n generalizing i t with
  | zero => exact h
  | succ n ih => exact ih (i + 1) (by omega) (HashTable.ok_set h (hhash _) (by omega))

/-- The input ends at `stop`, and the table holds positions before it (rules R46, R50). -/
def Scan.TableOk (hashLog stop : Nat) (c : Scan) : Prop :=
  c.hstart + (c.base + c.len) = stop ∧ HashTable.ok hashLog stop c.table = true

omit hhash in
theorem Scan.pos_lt_of_active {c : Scan} (ha : c.active = true) : c.pos < c.base + c.len := by
  obtain ⟨hlong, hpos⟩ := (Scan.active_iff c).mp ha
  simp only [Scan.plimit, Config.mfLimit] at *
  omega

theorem Scan.TableOk.advance {stop : Nat} {c : Scan} (ha : c.active = true) (h : c.TableOk hashLog stop) :
    (c.advance hash).TableOk hashLog stop := by
  obtain ⟨hstop, hok⟩ := h
  obtain ⟨htable, hhstart, hbase, hlen⟩ := c.advance_input hash
  have hpos := Scan.pos_lt_of_active ha
  refine ⟨by rw [hhstart, hbase, hlen, hstop], ?_⟩
  rw [htable]
  exact HashTable.ok_set hok (hhash _) (by omega)

/-- The table a block leaves (rules R50, R221). -/
theorem HashTable.ok_compressCore (hist src : List Byte) {table : HashTable} {hstart : Nat}
    (h : table.ok hashLog (hstart + hist.length) = true) :
    HashTable.ok hashLog (hstart + (hist.length + src.length)) (compressCore hash hist src table hstart).2 = true := by
  have hstart' : (Scan.start hist src table hstart).TableOk hashLog (hstart + (hist.length + src.length)) :=
    ⟨rfl, HashTable.ok_mono h (by omega)⟩
  exact (Scan.run_induction (fun c ha hc => Scan.TableOk.advance hhash ha hc) (src.length + 1) hstart').2

/-! ## Compressing contexts -/

/-- The history, the position and the table of a compressing context (rules R46, R48, R50, R51). -/
def CStream.HistoryOk (hashLog : Nat) (c : CStream) : Prop :=
  c.hist.length ≤ Config.window ∧ c.hist.length ≤ c.spos ∧ HashTable.ok hashLog c.spos c.table = true

omit hhash in
theorem CStream.ok_iff {c : CStream} : c.ok hashLog = true ↔ blockSizeOk c.blockSize = true ∧ c.HistoryOk hashLog := by
  simp only [CStream.ok, CStream.HistoryOk, historyOk, Bool.and_eq_true, decide_eq_true_eq, and_assoc]

/-- A chunk compressed (rules R51, R304). -/
theorem CStream.HistoryOk.push {c : CStream} (h : c.HistoryOk hashLog) (src : List Byte) :
    CStream.HistoryOk hashLog (c.push src (compressCore hash c.hist src c.table (c.spos - c.hist.length)).2) := by
  obtain ⟨hwindow, hspos, htable⟩ := h
  refine ⟨by rw [CStream.push_hist]; exact length_lastWindow_le _, ?_, ?_⟩
  · have hlen := length_lastWindow_le_length (c.hist ++ src)
    rw [List.length_append] at hlen
    rw [CStream.push_hist, CStream.push_spos]
    omega
  · have hcore := HashTable.ok_compressCore hhash c.hist src (table := c.table) (hstart := c.spos - c.hist.length)
      (by rwa [Nat.sub_add_cancel hspos])
    exact HashTable.ok_mono hcore (by rw [CStream.push_spos]; omega)

/-- A block, linked or not (rule R343). -/
theorem historyOk_makeBlock {c : FComp} (h : c.stream.HistoryOk hashLog) (b : List Byte) :
    (makeBlock hash c b).2.stream.HistoryOk hashLog := by
  rw [makeBlock_stream]
  split
  case isTrue => exact h
  case isFalse hlinked =>
    rw [compressBlock_eq, if_neg hlinked]
    exact h.push hhash b

theorem historyOk_afterBlocks (blocks : List (List Byte)) {c : FComp} (h : c.stream.HistoryOk hashLog) :
    (afterBlocks hash blocks c).stream.HistoryOk hashLog := by
  induction blocks generalizing c with
  | nil => exact h
  | cons b bs ih => exact ih (historyOk_makeBlock hhash h b)

omit hhash in
theorem FComp.ok_iff {c : FComp} : c.ok hashLog = true ↔ c.stream.HistoryOk hashLog ∧ c.total = c.content.length
    ∧ c.prefs.csize < 2 ^ 64 ∧ if c.fstate = .idle then c = FComp.initial
      else bsidOk c.prefs.bsid = true ∧ c.pending.length < Config.blockMax c.prefs.bsid
        ∧ (c.prefs.autoFlush = true → c.pending = []) := by
  have himp : ∀ {a b : Bool}, (!a || b) = true ↔ (a = true → b = true) := by decide
  simp only [FComp.ok, FComp.stream, CStream.HistoryOk, historyOk, Bool.and_eq_true, decide_eq_true_eq, beq_iff_eq, and_assoc]
  split <;> simp only [beq_iff_eq, Bool.and_eq_true, decide_eq_true_eq, himp, and_assoc]

omit hhash in
/-- An open frame has the preferences of a legal word (rules R340, R346). -/
theorem FComp.ok_iff_of_open {c : FComp} (hopen : c.fstate.open_ = true ∨ c.fstate = .ended) : c.ok hashLog = true ↔
    c.stream.HistoryOk hashLog ∧ c.total = c.content.length ∧ c.prefs.csize < 2 ^ 64 ∧ bsidOk c.prefs.bsid = true
      ∧ c.pending.length < Config.blockMax c.prefs.bsid ∧ (c.prefs.autoFlush = true → c.pending = []) := by
  have hidle : c.fstate ≠ .idle := by
    intro h
    rw [h] at hopen
    exact absurd hopen (by decide)
  rw [FComp.ok_iff, if_neg hidle]

omit hhash in
/-- Blocks do not count the content (rules R343, R344). -/
theorem afterBlocks_content (blocks : List (List Byte)) (c : FComp) :
    (afterBlocks hash blocks c).content = c.content ∧ (afterBlocks hash blocks c).total = c.total := by
  induction blocks generalizing c with
  | nil => exact ⟨rfl, rfl⟩
  | cons b bs ih =>
    have hblock : (makeBlock hash c b).2.content = c.content ∧ (makeBlock hash c b).2.total = c.total := by
      rw [makeBlock_eq]
      dsimp only
      split
      · exact ⟨rfl, rfl⟩
      · exact ⟨by rw [FComp.setStream], by rw [FComp.setStream]⟩
    obtain ⟨hcontent, htotal⟩ := ih (makeBlock hash c b).2
    rw [afterBlocks]
    exact ⟨hcontent.trans hblock.1, htotal.trans hblock.2⟩

/-- FRAME_UPDATE (rule R344). -/
theorem ok_updateFrame {c : FComp} (hopen : c.fstate.open_ = true) (h : c.ok hashLog = true) (src : List Byte) :
    (updateFrame hash c src).2.ok hashLog = true := by
  obtain ⟨hhist, htotal, hcsize, hbsid, -, -⟩ := (FComp.ok_iff_of_open (.inl hopen)).mp h
  obtain ⟨full, last, hcut, hupdate⟩ := updateFrame_eq hash src hbsid
  have hpos := (blockMax_bounds hbsid).1
  rw [hupdate, FComp.ok_iff_of_open (.inl rfl)]
  dsimp only
  rw [afterBlocks_prefs]
  refine ⟨historyOk_afterBlocks hhash _ hhist, by rw [htotal, List.length_append], hcsize, hbsid, ?_, fun hauto => if_pos hauto⟩
  split
  · exact hpos
  · exact hcut.length_last

/-- FRAME_END (rule R345). -/
theorem ok_endFrame {c : FComp} (hopen : c.fstate.open_ = true) (h : c.ok hashLog = true) :
    (endFrame hash c).2.ok hashLog = true := by
  obtain ⟨hhist, htotal, hcsize, hbsid, -, -⟩ := (FComp.ok_iff_of_open (.inl hopen)).mp h
  have hpos := (blockMax_bounds hbsid).1
  obtain ⟨hcontent, hcount⟩ := afterBlocks_content (hash := hash) (restBlock c.pending) c
  rw [endFrame, flushPending_eq, FComp.ok_iff_of_open (.inr rfl)]
  dsimp only
  rw [afterBlocks_prefs]
  exact ⟨historyOk_afterBlocks hhash _ hhist, by rw [hcount, hcontent, htotal], hcsize, hbsid, hpos, fun _ => rfl⟩

end

end Sys2Proof.Machine
end

section
/-!
PROOF. The byte-serial parser keeps a frame context well-formed, and the loop of FRAME_DECOMPRESS with it (rules R49, R51, R384 to
R397).
-/

namespace Sys2Proof.Machine

/-! ## The header -/

/-- What a parsed header says of the block size ID (rules R124, R130, R381). -/
def FrameInfo.Legal (i : FrameInfo) : Prop := (i.skippable = true ∧ i.bsid = 0) ∨ bsidOk i.bsid = true

/-- A block size ID of 3 bits that passes the check names a block size (rules R124, R382). -/
theorem legal_of_checkHeader {f : List Byte} {n : Nat} {i : FrameInfo} {hl : Nat} (h : checkHeader f n = .ok i hl) : i.Legal := by
  have hlt : ((byteAt f 5).extractLsb' 4 3).toNat < 8 := BitVec.isLt _
  unfold checkHeader at h
  dsimp only at h
  generalize headerChecksum ((f.drop 4).take (n - 1 - 4)) = checksum at h
  split at h
  · cases h
  split at h
  · cases h
  split at h
  · cases h
  split at h
  · cases h
  next hbsid =>
    split at h
    · cases h
    · obtain ⟨rfl, -⟩ := HeaderResult.ok.inj h
      exact .inr ((bsidOk_iff _).mpr ⟨not_lt.mp hbsid, Nat.le_of_lt_succ hlt⟩)

theorem legal_of_parseHeader {f : List Byte} {i : FrameInfo} {hl : Nat} (h : parseHeader f = .ok i hl) : i.Legal := by
  unfold parseHeader at h
  dsimp only at h
  split at h
  · cases h
  split at h
  · split at h
    · cases h
    · obtain ⟨rfl, -⟩ := HeaderResult.ok.inj h
      exact .inl ⟨rfl, rfl⟩
  split at h
  · cases h
  split at h
  · cases h
  split at h
  · cases h
  · exact legal_of_checkHeader h

theorem FrameInfo.Legal.bsid_lt {i : FrameInfo} (h : i.Legal) : i.bsid < 8 := by
  obtain ⟨-, h⟩ | h := h
  · omega
  · have := (bsidOk_iff _).mp h
    omega

/-- The reserved bits of INFO_FLAGS (rule R43). -/
def Info.FlagsOk (i : Info) : Prop := i.flags &&& ~~~(0x1071F : Word) = 0

theorem flagsOk_setInfo {i : FrameInfo} (h : i.Legal) (hl : Nat) : (setInfo i hl).FlagsOk := by
  have hall : ∀ (indep bcrc csflag ccrc dflag skippable : Bool) (bsid : Fin 8),
      BitVec.ofNat 32 (flagNat indep + 2 * flagNat bcrc + 4 * flagNat csflag + 8 * flagNat ccrc + 16 * flagNat dflag
        + 256 * bsid.val + 65536 * flagNat skippable) &&& ~~~(0x1071F : Word) = 0 := by decide
  exact hall i.indep i.bcrc i.csflag i.ccrc i.dflag i.skippable ⟨i.bsid, h.bsid_lt⟩

/-! ## Frame contexts -/

namespace FDecomp

/-- What every stage keeps: the dictionary and the history within WINDOW, and the content counted (rules R49, R51). -/
def ContentOk (c : FDecomp) : Prop :=
  c.dict.length ≤ Config.window ∧ c.hist.length ≤ Config.window ∧ c.total = c.content.length

theorem ok_iff {c : FDecomp} : c.ok = true ↔ c.ContentOk ∧ c.pending.length ≤ Config.blockMax 7
    ∧ stageOk c.dstate c.stage = true ∧ (c.stage.inBlocks = true → bsidOk c.info.bsid = true) ∧ c.payloadOk = true := by
  have himp : ∀ {a b : Bool}, (!a || b) = true ↔ (a = true → b = true) := by decide
  simp only [ok, ContentOk, historyOk, Bool.and_eq_true, decide_eq_true_eq, beq_iff_eq, himp]
  tauto

/-- The context once a header has been parsed (rule R387). -/
theorem ok_headerDone {c : FDecomp} (h : c.ContentOk) (hp : c.pending.length ≤ Config.blockMax 7) {i : FrameInfo}
    (hi : i.Legal) : (c.headerDone i).ok = true := by
  obtain ⟨hdict, hhist, htotal⟩ := h
  unfold headerDone
  dsimp only
  split
  case isTrue =>
    split
    · exact ok_iff.mpr ⟨⟨hdict, hhist, htotal⟩, hp, rfl, nofun, rfl⟩
    · exact ok_iff.mpr ⟨⟨hdict, hhist, htotal⟩, hp, rfl, nofun, rfl⟩
  case isFalse hframe =>
    exact ok_iff.mpr ⟨⟨hdict, hdict, rfl⟩, hp, rfl, fun _ => hi.resolve_left fun h => hframe h.1, rfl⟩

end FDecomp

/-! ## A byte -/

/-- A byte leaves a well-formed context, FAILED only with an error, and completes legal headers only. -/
structure FeedResult.Ok (f : FeedResult) : Prop where
  ctx : f.ctx.ok = true
  not_failed : f.error = none → f.ctx.dstate ≠ .failed
  header : ∀ x, f.header = some x → x.1.Legal

namespace FDecomp

/-- A context past a header of an LZ4 frame, with nothing pending (rules R386 to R394). -/
def Decoding (c : FDecomp) : Prop :=
  c.ContentOk ∧ c.pending = [] ∧ c.dstate = .decoding ∧ bsidOk c.info.bsid = true

theorem ok_goOn {c : FDecomp} (h : c.ok = true) (hstate : c.dstate ≠ .failed) : c.goOn.Ok :=
  ⟨h, fun _ => hstate, nofun⟩

/-- An error leaves the context FAILED, well-formed as it stood (rule R396). -/
theorem ok_fail {c : FDecomp} (h : c.ContentOk) (hp : c.pending = []) (hs : c.stage ≠ .ended)
    (hbsid : c.stage.inBlocks = true → bsidOk c.info.bsid = true) (d : Detail) (n : Nat) : (c.fail d n).Ok := by
  refine ⟨ok_iff.mpr ⟨h, ?_, ?_, hbsid, rfl⟩, nofun, nofun⟩
  · rw [fail_ctx_pending, hp]
    exact Nat.zero_le _
  · rw [fail_ctx_dstate, fail_ctx_stage]
    exact bne_iff_ne.mpr hs

variable {c : FDecomp}

/-- Only a payload being collected or checked is bounded (rules R390, R391). -/
theorem payloadOk_of_ne (hdata : c.stage ≠ .blkData) (hcrc : c.stage ≠ .blkCrc) : c.payloadOk = true := by
  rw [payloadOk]
  cases hs : c.stage with
  | blkData => exact absurd hs hdata
  | blkCrc => exact absurd hs hcrc
  | _ => exact Bool.or_true _

theorem Decoding.fail (h : c.Decoding) (hs : c.stage ≠ .ended) (d : Detail) (n : Nat) : (c.fail d n).Ok := by
  obtain ⟨hcontent, hp, -, hbsid⟩ := h
  exact ok_fail hcontent hp hs (fun _ => hbsid) d n

/-- A byte that leaves the parser inside the blocks. -/
theorem Decoding.goOn (h : c.Decoding) (hs : c.stage.inBlocks = true) (hpayload : c.payloadOk = true) : c.goOn.Ok := by
  obtain ⟨hcontent, hp, hstate, hbsid⟩ := h
  refine ok_goOn (ok_iff.mpr ⟨hcontent, by rw [hp]; exact Nat.zero_le _, ?_, fun _ => hbsid, hpayload⟩) (by rw [hstate]; nofun)
  rw [hstate]
  cases hstage : c.stage <;> simp [hstage, Stage.inBlocks, stageOk] at hs ⊢

/-- The last byte of a frame (rules R393, R394). -/
theorem Decoding.complete (h : c.Decoding) (acc : List Byte) :
    FeedResult.Ok (FDecomp.goOn { c with acc := acc, stage := .ended, dstate := .complete }) := by
  obtain ⟨hcontent, hp, -, -⟩ := h
  exact ok_goOn (ok_iff.mpr ⟨hcontent, by rw [hp]; exact Nat.zero_le _, rfl, nofun, rfl⟩) nofun

theorem blockMax_le {n : Nat} (h : bsidOk n = true) : Config.blockMax n ≤ Config.blockMax 7 := by
  obtain ⟨hge, hle⟩ := (bsidOk_iff n).mp h
  interval_cases n <;> decide

/-- A block's bytes join the output (rule R392). -/
theorem Decoding.deliverBlock (h : c.Decoding) {blk : List Byte} (hblk : blk.length ≤ Config.blockMax c.info.bsid) :
    (c.deliverBlock blk).goOn.Ok := by
  obtain ⟨⟨hdict, hhist, htotal⟩, hp, hstate, hbsid⟩ := h
  have hwindow : (c.deliverBlock blk).hist.length ≤ Config.window := by
    rw [deliverBlock_hist]
    split
    · exact hhist
    · exact length_lastWindow_le _
  refine ok_goOn (ok_iff.mpr ⟨⟨hdict, hwindow, ?_⟩, ?_, ?_, fun _ => hbsid, ?_⟩) (ne_of_eq_of_ne hstate nofun)
  · rw [deliverBlock_total, deliverBlock_content, htotal, List.length_append]
  · rw [deliverBlock_pending, hp]
    exact hblk.trans (blockMax_le hbsid)
  · simp [FDecomp.deliverBlock, hstate, stageOk]
  · exact payloadOk_of_ne nofun nofun

/-- A payload is collected short of its length (rule R390). -/
theorem payloadOk_iff_of_blkData (hs : c.stage = .blkData) (hstate : c.dstate ≠ .failed) : c.payloadOk = true ↔
    c.payload.length < c.bword % 2 ^ 31 ∧ c.bword % 2 ^ 31 ≤ Config.blockMax c.info.bsid := by
  rw [payloadOk, Bool.or_eq_true, beq_iff_eq, or_iff_right hstate, hs, Bool.and_eq_true, decide_eq_true_iff, decide_eq_true_iff]

/-- A collected payload waits for its checksum (rule R391). -/
theorem payloadOk_iff_of_blkCrc (hs : c.stage = .blkCrc) (hstate : c.dstate ≠ .failed) : c.payloadOk = true ↔
    c.payload.length ≤ Config.blockMax c.info.bsid := by
  rw [payloadOk, Bool.or_eq_true, beq_iff_eq, or_iff_right hstate, hs, decide_eq_true_iff]

theorem Decoding.not_failed (h : c.Decoding) : c.dstate ≠ .failed := by
  obtain ⟨-, -, hstate, -⟩ := h
  rw [hstate]
  nofun

variable (rules : FrameRules)

/-- A block dispatched (rule R392). -/
theorem Decoding.processBlock (h : c.Decoding) (hs : c.stage ≠ .ended) (hlen : c.payload.length ≤ Config.blockMax c.info.bsid) :
    (c.processBlock rules).Ok := by
  unfold FDecomp.processBlock
  split
  · exact h.deliverBlock hlen
  · have hout := length_blockDecode_le rules.strictTail c.payload (Config.blockMax c.info.bsid) c.blockHistory
    split
    · exact h.deliverBlock (by simpa [*] using hout)
    · exact h.fail hs _ _

/-- The end mark (rule R393). -/
theorem Decoding.endMark (h : c.Decoding) (hs : c.stage ≠ .ended) : c.endMark.Ok := by
  unfold FDecomp.endMark
  split
  · exact h.fail hs _ _
  split
  · exact Decoding.goOn (c := { c with stage := .ccrc }) h rfl (payloadOk_of_ne nofun nofun)
  · exact h.complete c.acc

/-- A block header word (rule R389). -/
theorem Decoding.blockHeader (h : c.Decoding) (hs : c.stage ≠ .ended) (x : Nat) : (c.blockHeader rules x).Ok := by
  unfold FDecomp.blockHeader
  dsimp only
  split
  case isTrue => exact h.fail hs _ _
  case isFalse hsize =>
    split
    case isTrue hpos =>
      exact Decoding.goOn (c := { c with poff := x + 1, payload := [], stage := .blkData }) h rfl
        ((payloadOk_iff_of_blkData (c := { c with poff := x + 1, payload := [], stage := .blkData }) rfl h.not_failed).mpr
          ⟨hpos, not_lt.mp hsize⟩)
    split
    · exact Decoding.goOn (c := { c with poff := x + 1, payload := [], stage := .blkCrc }) h rfl
        ((payloadOk_iff_of_blkCrc (c := { c with poff := x + 1, payload := [], stage := .blkCrc }) rfl h.not_failed).mpr
          (Nat.zero_le _))
    · exact Decoding.processBlock (c := { c with poff := x + 1, payload := [] }) rules h hs (Nat.zero_le _)

theorem Decoding.feedBlkHdr (h : c.Decoding) (hs : c.stage = .blkHdr) (x : Nat) : (c.feedBlkHdr rules x).Ok := by
  unfold FDecomp.feedBlkHdr
  have hne : c.stage ≠ .ended := by rw [hs]; nofun
  split
  · dsimp only
    split
    · exact Decoding.endMark (c := { c with acc := [], boff := x - 3, bword := le32 c.acc 0 }) h hne
    · exact Decoding.blockHeader (c := { c with acc := [], boff := x - 3, bword := le32 c.acc 0 }) rules h hne x
  · exact h.goOn (by rw [hs]; rfl) (payloadOk_of_ne (by rw [hs]; nofun) (by rw [hs]; nofun))

/-- A payload byte, collected already (rule R390). -/
theorem Decoding.feedBlkData (h : c.Decoding) (hs : c.stage = .blkData) (hlen : c.payload.length ≤ c.bword % 2 ^ 31)
    (hmax : c.bword % 2 ^ 31 ≤ Config.blockMax c.info.bsid) : (c.feedBlkData rules).Ok := by
  unfold FDecomp.feedBlkData
  split
  case isTrue hfull =>
    split
    · exact Decoding.goOn (c := { c with stage := .blkCrc }) h rfl
        ((payloadOk_iff_of_blkCrc (c := { c with stage := .blkCrc }) rfl h.not_failed).mpr (hlen.trans hmax))
    · exact h.processBlock rules (by rw [hs]; nofun) (hlen.trans hmax)
  case isFalse hopen =>
    exact h.goOn (by rw [hs]; rfl) ((payloadOk_iff_of_blkData hs h.not_failed).mpr ⟨lt_of_le_of_ne hlen hopen, hmax⟩)

theorem Decoding.feedBlkCrc (h : c.Decoding) (hs : c.stage = .blkCrc) (hlen : c.payload.length ≤ Config.blockMax c.info.bsid)
    (x : Nat) : (c.feedBlkCrc rules x).Ok := by
  unfold FDecomp.feedBlkCrc
  have hne : c.stage ≠ .ended := by rw [hs]; nofun
  split
  · split
    · exact h.fail hne _ _
    · exact Decoding.processBlock (c := { c with acc := [] }) rules h hne hlen
  · exact h.goOn (by rw [hs]; rfl) ((payloadOk_iff_of_blkCrc hs h.not_failed).mpr hlen)

theorem Decoding.feedCcrc (h : c.Decoding) (hs : c.stage = .ccrc) (x : Nat) : (c.feedCcrc x).Ok := by
  unfold FDecomp.feedCcrc
  split
  · split
    · exact h.fail (by rw [hs]; nofun) _ _
    · exact h.complete []
  · exact h.goOn (by rw [hs]; rfl) (payloadOk_of_ne (by rw [hs]; nofun) (by rw [hs]; nofun))

/-- A header byte, collected already (rule R387). -/
theorem ok_feedHdr (h : c.ContentOk) (hp : c.pending = []) (hs : c.stage = .hdr) (hstate : c.dstate = .idle) : c.feedHdr.Ok := by
  have hempty : c.pending.length ≤ Config.blockMax 7 := by rw [hp]; exact Nat.zero_le _
  have hfail : ∀ acc d n, FeedResult.Ok (FDecomp.fail { c with acc := acc } d n) := fun acc d n =>
    ok_fail (c := { c with acc := acc }) h hp (by rw [hs]; nofun) (by rw [hs]; nofun) d n
  unfold feedHdr
  split
  · exact hfail c.acc _ _
  split
  · refine ok_goOn (ok_iff.mpr ⟨h, hempty, ?_, by rw [hs]; nofun, payloadOk_of_ne (by rw [hs]; nofun) (by rw [hs]; nofun)⟩)
      (by rw [hstate]; nofun)
    rw [hstate, hs]
    rfl
  · exact hfail [] _ _
  next i hl hparse =>
    have hlegal := legal_of_parseHeader hparse
    refine ⟨ok_headerDone (c := { c with acc := [] }) h hempty hlegal, fun _ => ?_, fun x hx => ?_⟩
    · unfold headerDone
      dsimp only
      split_ifs <;> nofun
    · obtain rfl := Option.some.inj hx
      exact hlegal

/-- A byte of user data (rule R388). -/
theorem ok_feedSkip (h : c.ContentOk) (hp : c.pending = []) (hs : c.stage = .skip) (hstate : c.dstate = .decoding) :
    c.feedSkip.Ok := by
  have hempty : c.pending.length ≤ Config.blockMax 7 := by rw [hp]; exact Nat.zero_le _
  unfold feedSkip
  split
  · exact ok_goOn (ok_iff.mpr ⟨h, hempty, rfl, nofun, rfl⟩) nofun
  · have hpayload : c.payloadOk = true := payloadOk_of_ne (by rw [hs]; nofun) (by rw [hs]; nofun)
    refine ok_goOn (ok_iff.mpr ⟨h, hempty, ?_, by rw [hs]; nofun, hpayload⟩) (by rw [hstate]; nofun)
    rw [hstate, hs]
    rfl

/-- The place of a parser that has not failed fixes its state once a byte is fed (rules R386, R397). -/
theorem dstate_of_stageOk {d : DState} {st : Stage} (h : stageOk d st = true) (hstate : d ≠ .failed) (hs : st ≠ .ended) :
    (st = .hdr → d = .idle) ∧ (st ≠ .hdr → d.fed = .decoding) := by
  cases d with
  | idle => exact ⟨fun _ => rfl, fun hne => absurd (beq_iff_eq.mp h) hne⟩
  | frameInfoKnown | decoding => exact ⟨fun hhdr => absurd (hhdr ▸ h) nofun, fun _ => rfl⟩
  | complete => exact absurd (beq_iff_eq.mp h) hs
  | failed => exact absurd rfl hstate

/-- Every byte keeps the context well-formed (rules R386 to R397). -/
theorem ok_feed (hok : c.ok = true) (hp : c.pending = []) (hstate : c.dstate ≠ .failed) (hend : c.stage ≠ .ended) (b : Byte) :
    (c.feed rules b).Ok := by
  obtain ⟨hcontent, -, hstage, hbsid, hpayload⟩ := ok_iff.mp hok
  obtain ⟨hidle, hfed⟩ := dstate_of_stageOk hstage hstate hend
  have hdecoding : c.stage.inBlocks = true → (c.fed 1).Decoding := fun hin =>
    ⟨hcontent, hp, hfed (by rintro hs; rw [hs] at hin; cases hin), hbsid hin⟩
  cases hs : c.stage with
  | hdr =>
    rw [feed_hdr hs]
    exact ok_feedHdr hcontent hp hs (hidle hs)
  | skip =>
    have hfeed : c.feed rules b = (c.fed 1).feedSkip := by simp [feed, tick, hs, DState.fed, fed]
    rw [hfeed]
    exact ok_feedSkip hcontent hp hs (hfed (by rw [hs]; nofun))
  | blkHdr =>
    rw [feed_blkHdr hs]
    exact Decoding.feedBlkHdr (c := { c.fed 1 with acc := c.acc ++ [b] }) rules (hdecoding (by rw [hs]; rfl)) hs _
  | blkData =>
    obtain ⟨hlen, hmax⟩ := (payloadOk_iff_of_blkData hs hstate).mp hpayload
    rw [feed_blkData hs]
    exact Decoding.feedBlkData (c := { c.fed 1 with payload := c.payload ++ [b] }) rules (hdecoding (by rw [hs]; rfl)) hs
      (by rw [List.length_append, List.length_singleton]; exact hlen) hmax
  | blkCrc =>
    have hlen := (payloadOk_iff_of_blkCrc hs hstate).mp hpayload
    rw [feed_blkCrc hs]
    exact Decoding.feedBlkCrc (c := { c.fed 1 with acc := c.acc ++ [b] }) rules (hdecoding (by rw [hs]; rfl)) hs hlen _
  | ccrc =>
    rw [feed_ccrc hs]
    exact Decoding.feedCcrc (c := { c.fed 1 with acc := c.acc ++ [b] }) (hdecoding (by rw [hs]; rfl)) hs _
  | ended => exact absurd hs hend

end FDecomp

/-! ## The loop -/

theorem FrameRun.ok_deliver (cap : Nat) {r : FrameRun} (h : r.ctx.ok = true) : (r.deliver cap).ctx.ok = true := by
  obtain ⟨hcontent, hp, hstage, hbsid, hpayload⟩ := FDecomp.ok_iff.mp h
  refine FDecomp.ok_iff.mpr ⟨hcontent, ?_, hstage, hbsid, hpayload⟩
  simp only [FrameRun.deliver, List.length_drop]
  omega

/-- A byte of the loop (rules R384, R385). -/
theorem FrameRun.ok_eat (rules : FrameRules) {r : FrameRun} (hok : r.ctx.ok = true) (hp : r.ctx.pending = [])
    (hstate : r.ctx.dstate ≠ .failed) (hend : r.ctx.stage ≠ .ended) (hinfo : r.info.FlagsOk) (b : Byte) :
    (r.eat rules b).1.ctx.ok = true ∧ (r.eat rules b).1.info.FlagsOk
      ∧ ((r.eat rules b).2 = none → (r.eat rules b).1.ctx.dstate ≠ .failed) := by
  obtain ⟨hctx, hgood, hheader⟩ := FDecomp.ok_feed rules hok hp hstate hend b
  refine ⟨hctx, ?_, hgood⟩
  cases hcomplete : (r.ctx.feed rules b).header with
  | none =>
    simp only [FrameRun.eat, hcomplete]
    exact hinfo
  | some x =>
    simp only [FrameRun.eat, hcomplete]
    exact flagsOk_setInfo (hheader x hcomplete) x.2

/-- The loop of rule R385 keeps the context and the INFO registers well-formed. -/
theorem ok_frameLoop (rules : FrameRules) (cap : Nat) (bytes : List Byte) {r : FrameRun} (hok : r.ctx.ok = true)
    (hstate : r.ctx.dstate ≠ .failed) (hinfo : r.info.FlagsOk) :
    (frameLoop rules cap bytes r).1.ctx.ok = true ∧ (frameLoop rules cap bytes r).1.info.FlagsOk := by
  induction bytes generalizing r with
  | nil => exact ⟨FrameRun.ok_deliver cap hok, hinfo⟩
  | cons b bs ih =>
    have hdeliver := FrameRun.ok_deliver cap hok
    unfold frameLoop
    dsimp only
    split
    · exact ⟨hdeliver, hinfo⟩
    split
    · exact ⟨hdeliver, hinfo⟩
    next hp hend =>
      obtain ⟨hctx, hflags, hgood⟩ := FrameRun.ok_eat rules hdeliver (not_not.mp hp) hstate hend hinfo b
      generalize (r.deliver cap).eat rules b = x at hctx hflags hgood
      obtain ⟨r', _ | e⟩ := x
      · exact ih hctx (hgood rfl) hflags
      · exact ⟨hctx, hflags⟩

end Sys2Proof.Machine
end

section
/-!
PROOF. Every step keeps the machine invariant (rules R31, R36, R42 to R51, R346, R397, R451): what each command makes of a context,
the registers it leaves, and the accesses of the host.
-/

namespace Sys2Proof.Machine

/-! ## What a command makes of a context -/

theorem DStream.ok_iff {c : DStream} : c.ok = true ↔ blockSizeOk c.blockSize = true ∧ c.hist.length ≤ Config.window := by
  simp only [DStream.ok, historyOk, Bool.and_eq_true, decide_eq_true_eq]

theorem DStream.ok_setHist {c : DStream} (h : c.ok = true) {hist : List Byte} (hwindow : hist.length ≤ Config.window) :
    DStream.ok { c with hist := hist } = true := DStream.ok_iff.mpr ⟨(DStream.ok_iff.mp h).1, hwindow⟩

theorem CStream.push_blockSize (c : CStream) (src : List Byte) (table : HashTable) :
    (c.push src table).blockSize = c.blockSize := by rw [CStream.push]

theorem CStream.ok_initial {blockSize : Nat} (h : blockSizeOk blockSize = true) (hashLog : Nat) :
    (CStream.initial blockSize).ok hashLog = true := CStream.ok_iff.mpr ⟨h, Nat.zero_le _, Nat.le_refl _, rfl⟩

theorem DStream.ok_initial {blockSize : Nat} (h : blockSizeOk blockSize = true) : (DStream.initial blockSize).ok = true :=
  DStream.ok_iff.mpr ⟨h, Nat.zero_le _⟩

theorem FComp.ok_initial (hashLog : Nat) : FComp.initial.ok hashLog = true := by
  rw [FComp.ok_iff, if_pos (show FComp.initial.fstate = .idle from rfl)]
  exact ⟨⟨Nat.zero_le _, Nat.le_refl _, rfl⟩, rfl, Nat.two_pow_pos 64, rfl⟩

theorem FDecomp.ok_initial : FDecomp.initial.ok = true :=
  FDecomp.ok_iff.mpr ⟨⟨Nat.zero_le _, Nat.zero_le _, rfl⟩, Nat.zero_le _, rfl, nofun, rfl⟩

theorem Ctx.ok_fcomp (hashLog : Nat) (c : FComp) : (Ctx.fcomp c).ok hashLog = c.ok hashLog := rfl

/-- CTX_RESET (rule R302). -/
theorem Ctx.ok_reinit {hashLog : Nat} {c : Ctx} (h : c.ok hashLog = true) : c.reinit.ok hashLog = true := by
  cases c with
  | cstream c => exact CStream.ok_initial (CStream.ok_iff.mp h).1 hashLog
  | dstream c => exact DStream.ok_initial (DStream.ok_iff.mp h).1
  | fcomp c => exact FComp.ok_initial hashLog
  | fdecomp c => exact FDecomp.ok_initial

/-- CTX_LOAD_DICT (rule R303). -/
theorem Ctx.ok_withDict {hash : Word → Nat} {hashLog : Nat} (hhash : ∀ x, hash x < 2 ^ hashLog) {dict : List Byte}
    (hdict : dict.length ≤ Config.window) {c : Ctx} (h : c.ok hashLog = true) : (withDict hash dict c).ok hashLog = true := by
  cases c with
  | cstream c =>
    have htable : HashTable.ok hashLog dict.length (dictTable hash dict) = true :=
      HashTable.ok_fillTable hhash dict 0 _ (by rw [Nat.zero_add]; exact Nat.sub_le ..) (HashTable.ok_nil ..)
    exact CStream.ok_iff.mpr ⟨(CStream.ok_iff.mp h).1, hdict, Nat.le_refl _, htable⟩
  | dstream c => exact DStream.ok_iff.mpr ⟨(DStream.ok_iff.mp h).1, hdict⟩
  | fcomp c => exact FComp.ok_initial hashLog
  | fdecomp c => exact FDecomp.ok_iff.mpr ⟨⟨hdict, Nat.zero_le _, rfl⟩, Nat.zero_le _, rfl, nofun, rfl⟩

/-- FRAME_BEGIN (rule R342). -/
theorem FComp.ok_begin {p : Prefs} (hbsid : bsidOk p.bsid = true) (hsize : p.csize < 2 ^ 64) (hashLog : Nat) :
    FComp.ok hashLog { FComp.initial with prefs := p, fstate := .headerEmitted } = true :=
  (FComp.ok_iff_of_open (.inl rfl)).mpr
    ⟨⟨Nat.zero_le _, Nat.le_refl _, rfl⟩, rfl, hsize, hbsid, (blockMax_bounds hbsid).1, fun _ => rfl⟩

section

variable {s : State} (hvalid : s.Valid)
include hvalid

theorem State.Valid.hash_lt (x : Word) : s.hash x < 2 ^ s.params.hashLog := State.hash_lt (Params.hashLog_le_of_wf hvalid.params) x

/-- Every command leaves the context it works on, and the INFO registers, well-formed. -/
theorem State.Moves.ok {i : Instr} {c d : Ctx} {info : Info} (hmove : s.Moves i c d info) (hc : c.ok s.params.hashLog = true) :
    d.ok s.params.hashLog = true ∧ info.FlagsOk := by
  cases hmove with
  | ctxReset => exact ⟨Ctx.ok_reinit hc, hvalid.flags⟩
  | ctxLoadDict => exact ⟨Ctx.ok_withDict hvalid.hash_lt (length_lastWindow_le _) hc, hvalid.flags⟩
  | streamCompress h rsvd c src =>
    obtain ⟨hblock, hhist⟩ := CStream.ok_iff.mp hc
    have hpush := hhist.push hvalid.hash_lt src
    exact ⟨CStream.ok_iff.mpr ⟨by rwa [CStream.push_blockSize], hpush⟩, hvalid.flags⟩
  | streamDecompress h rsvd c out =>
    exact ⟨DStream.ok_setHist hc (length_lastWindow_le _), hvalid.flags⟩
  | streamFails => exact ⟨hc, hvalid.flags⟩
  | frameBegin h rsvd c p hbsid hsize => exact ⟨FComp.ok_begin hbsid hsize _, hvalid.flags⟩
  | frameUpdate h rsvd c src hopen =>
    rw [Ctx.ok_fcomp] at hc ⊢
    exact ⟨ok_updateFrame hvalid.hash_lt hopen hc src, hvalid.flags⟩
  | frameEnd h rsvd c hopen =>
    rw [Ctx.ok_fcomp] at hc ⊢
    exact ⟨ok_endFrame hvalid.hash_lt hopen hc, hvalid.flags⟩
  | frameInfo h rsvd c src i hl _ hparse =>
    obtain ⟨hcontent, hp, -⟩ := FDecomp.ok_iff.mp hc
    have hlegal := legal_of_parseHeader hparse
    exact ⟨FDecomp.ok_headerDone hcontent hp hlegal, flagsOk_setInfo hlegal hl⟩
  | frameDecompress h rsvd c src hstate => exact ok_frameLoop s.frameRules s.dstCap src (r := s.frameStart c) hc hstate hvalid.flags

omit hvalid in
/-- CTX_CREATE (rule R300). -/
theorem State.ok_newContext (hparams : firstError s.createChecks = none) :
    (newContext s.kindField s.blockSizeField).ok s.params.hashLog = true := by
  have hpos : 1 ≤ s.blockSizeField := by
    unfold State.blockSizeField
    split
    · decide
    · omega
  have hblock : streamKind s.kindField = true → blockSizeOk s.blockSizeField = true := fun hkind => by
    have hsize := eq_false_of_firstError_eq_none hparams (List.mem_cons_of_mem _ List.mem_cons_self)
    rw [hkind, Bool.true_and, decide_eq_false_iff_not, not_lt] at hsize
    rw [blockSizeOk, Bool.and_eq_true, decide_eq_true_iff, decide_eq_true_iff]
    exact ⟨hpos, hsize⟩
  unfold newContext
  split
  next hkind => exact CStream.ok_initial (hblock (by rw [hkind]; rfl)) _
  next hkind => exact DStream.ok_initial (hblock (by rw [hkind]; rfl))
  next => exact FComp.ok_initial _
  next => exact FDecomp.ok_initial

omit hvalid in
theorem mem_setSlot {slots : List (Option Ctx)} {h : BitVec 8} {c d : Option Ctx} (hd : d ∈ setSlot slots h c) :
    d ∈ slots ∨ d = c := by
  unfold setSlot at hd
  split at hd
  · exact .inl hd
  · exact List.mem_or_eq_of_mem_set hd

omit hvalid in
theorem mem_of_slotAt {slots : List (Option Ctx)} {h : BitVec 8} {c : Ctx} (hc : slotAt slots h = some c) : some c ∈ slots := by
  rw [slotAt_of_ne_zero (ne_zero_of_slotAt hc), Option.getD_eq_iff] at hc
  exact List.mem_of_getElem? (hc.resolve_right (by simp))

/-- Every command leaves every slot, and the INFO registers, well-formed. -/
theorem State.CtxEffect.ok {i : Instr} {slots : List (Option Ctx)} {info : Info} (heffect : s.CtxEffect i slots info) :
    (∀ c ∈ slots, slotOk s.params.hashLog c = true) ∧ info.FlagsOk := by
  have hset : ∀ (h : BitVec 8) (d : Option Ctx), slotOk s.params.hashLog d = true →
      ∀ c ∈ setSlot s.slots h d, slotOk s.params.hashLog c = true := fun h d hd c hc =>
    (mem_setSlot hc).elim (hvalid.slots c) fun heq => heq ▸ hd
  cases heffect with
  | keeps => exact ⟨hvalid.slots, hvalid.flags⟩
  | create h rsvd n hparams => exact ⟨hset _ _ (State.ok_newContext hparams), hvalid.flags⟩
  | destroy => exact ⟨hset _ _ rfl, hvalid.flags⟩
  | move _ c d info hslot hmove =>
    obtain ⟨hd, hinfo⟩ := hmove.ok hvalid (hvalid.slots _ (mem_of_slotAt hslot))
    exact ⟨hset _ _ hd, hinfo⟩

end

/-! ## The registers a command leaves -/

theorem errCodeOk_errCodeWord (e : Option (Err × Nat)) : errCodeOk (errCodeWord e) = true := by
  have hall : ∀ e : Err, e ∈ allErrors := by
    intro e
    cases e with
    | corrupt d => cases d <;> decide
    | _ => decide
  rw [errCodeOk, Bool.or_eq_true, beq_iff_eq, List.any_eq_true]
  cases e with
  | none => exact .inl rfl
  | some e => exact .inr ⟨e.1, hall e.1, beq_self_eq_true _⟩

/-- CTX_STATUS is a handle, a kind and a state (rule R44). -/
theorem ctxStatusWord_lt (h : BitVec 8) (c : Option Ctx) : (ctxStatusWord h c).toNat < 2 ^ 16 := by
  have hh := h.isLt
  cases c with
  | none =>
    rw [ctxStatusWord, BitVec.toNat_ofNat]
    omega
  | some c =>
    have hkind : c.kindCode ≤ 4 := by cases c <;> simp [Ctx.kindCode]
    have hstate : c.stateCode ≤ 15 := by
      cases c with
      | cstream c => exact Nat.zero_le _
      | dstream c => rw [Ctx.stateCode]; cases c.state <;> decide
      | fcomp c => rw [Ctx.stateCode]; cases c.fstate <;> decide
      | fdecomp c => rw [Ctx.stateCode]; cases c.dstate <;> decide
    rw [ctxStatusWord, BitVec.toNat_ofNat]
    omega

section

variable {s : State} (hvalid : s.Valid)
include hvalid

/-- A completed command (rules R36, R41 to R44). -/
theorem State.Valid.completed {i : Instr} {r : Report} (hr : r.Effect s i) : (s.completed r).Valid := by
  obtain ⟨hslots, hinfo⟩ := hr.effect.ok hvalid
  exact {
    params := hvalid.params
    mem := s.wf_memAfter hvalid.mem r.out
    slots_length := hr.effect.length_eq.trans hvalid.slots_length
    slots := hslots
    work := rfl
    not_done := nofun
    busy_of_stuck := nofun
    busy_of_raced := fun h => absurd rfl h
    errCode := errCodeOk_errCodeWord r.err
    no_error := nofun
    ctxStatus := ctxStatusWord_lt ..
    flags := hinfo
    high := hvalid.high }

/-- A stuck engine (rule R92). -/
theorem State.Valid.stuck (hbusy : s.busy = true) : State.Valid { s with busy := true, stuck := true } :=
  { hvalid with
    not_done := fun _ => hvalid.not_done hbusy
    busy_of_stuck := fun _ => rfl
    busy_of_raced := fun _ => rfl
    no_error := fun _ => hvalid.no_error hbusy }

/-! ## The host's accesses -/

theorem State.Valid.withInbox (later : List HostEvent) : State.Valid { s with inbox := later } := { hvalid with }

theorem State.Valid.deviceReset : s.deviceReset.Valid where
  params := hvalid.params
  mem := s.wf_abandonedMem hvalid.mem
  slots_length := List.length_replicate
  slots c hc := by rw [List.eq_of_mem_replicate hc]; rfl
  work := rfl
  not_done := nofun
  busy_of_stuck := nofun
  busy_of_raced h := absurd rfl h
  errCode := rfl
  no_error _ := rfl
  ctxStatus := Nat.two_pow_pos 16
  flags := BitVec.zero_and
  high _ := ⟨rfl, rfl⟩

theorem State.Valid.acceptCmd (w : Word) : (s.acceptCmd w).Valid :=
  { hvalid with
    not_done := fun _ => rfl
    busy_of_stuck := fun _ => rfl
    busy_of_raced := fun _ => rfl
    errCode := rfl
    no_error := fun _ => rfl }

theorem State.Valid.writeReg (off : Nat) (v : Word) : (s.writeReg off v).Valid := by
  have heffect := s.writeReg_effect off v
  generalize s.writeReg off v = t at heffect ⊢
  cases heffect with
  | none => exact hvalid
  | reset => exact hvalid.deviceReset
  | ie => exact { hvalid with }
  | clearDone => exact { hvalid with not_done := fun _ => rfl }
  | accept => exact hvalid.acceptCmd v
  | args a _ hhigh =>
    refine { hvalid with high := fun h32 => ?_ }
    obtain ⟨hsrc, hdst⟩ := hhigh h32
    obtain ⟨hsrc', hdst'⟩ := hvalid.high h32
    exact ⟨hsrc.trans hsrc', hdst.trans hdst'⟩

omit hvalid in
/-- Only while a command runs is there a race (rule R89 (b)). -/
theorem State.busy_of_race {a : Nat} {hit : Bool} (h : s.raced ≠ [] → s.busy = true) (hrace : s.race a hit ≠ []) :
    s.busy = true := by
  unfold State.race at hrace
  split at hrace
  next hcond =>
    simp only [Bool.and_eq_true] at hcond
    exact hcond.1.1
  next => exact h hrace

theorem State.Valid.hostWrite (a : Nat) (b : Byte) : (s.hostWrite a b).Valid :=
  { hvalid with
    mem := Memory.wf_write hvalid.mem a b
    busy_of_raced := State.busy_of_race hvalid.busy_of_raced }

theorem State.Valid.hostRead (a : Nat) : (s.hostRead a).Valid := by
  unfold State.hostRead
  split
  · exact { hvalid with busy_of_raced := State.busy_of_race hvalid.busy_of_raced }
  · exact { hvalid with }

theorem State.HostEffect.valid {e : HostEvent} {t : State} (h : s.HostEffect e t) : t.Valid := by
  cases h with
  | regWrite a width off v => exact hvalid.writeReg off v
  | regRead => exact { hvalid with }
  | memWrite a b => exact hvalid.hostWrite a b
  | memRead a => exact hvalid.hostRead a
  | waitDone => exact hvalid
  | platformReset => exact hvalid.deviceReset

end

theorem isCommand_decodeCommand (w : Word) : (decodeCommand w).isCommand = true := by
  rw [Instr.isCommand, siteOf_decodeCommand]
  rfl

/-- Between commands the engine's turn is the command word's (rules R30, R31). -/
theorem State.engineTurn_of_idle {s : State} (hwork : s.work = .idle) : s.engineTurn = exec s.command s := by
  simp only [State.engineTurn, hwork, State.command]

/-- Settles O16: a turn of the engine completes a command or sticks it, and a host access has one of its effects. -/
theorem stepKeepsInvariant : Obligations.StepKeepsInvariant := by
  intro s t hok hstep
  have hvalid := s.ok_iff.mp hok
  refine t.ok_iff.mpr ?_
  have hcase := step_case s
  rw [hstep] at hcase
  generalize hx : (Host.Outcome.next t : Result) = x at hcase
  cases hcase with
  | engine _ hbusy _ =>
    rw [State.engineTurn_of_idle hvalid.work] at hx
    obtain ⟨r, hr, rfl⟩ | rfl := exec_next_cases (isCommand_decodeCommand _) hx.symm
    · exact hvalid.completed hr
    · exact hvalid.stuck hbusy
  | rests =>
    obtain rfl := Host.Outcome.next.inj hx
    exact hvalid
  | host e rest => exact (hostTurn_next hx.symm).valid (hvalid.withInbox rest)

end Sys2Proof.Machine
end

section
/-!
PROOF. Where a well-formed machine stops, what a host access to memory does, and what a race leaves (rules R33, R54, R80, R83, R85,
R89, R92, R495).
-/

namespace Sys2Proof.Machine

/-! ## Where a command stops -/

theorem State.dmaFault_ne_refused (s : State) (x : Refusal) : s.dmaFault ≠ .refused x := by
  unfold State.dmaFault
  split <;> nofun

theorem State.dmaFault_fault {s : State} {f : Fault} (h : s.dmaFault = .fault f) :
    f = .dmaPlatform ∧ s.params.dmaFaultPolicy = .platform := by
  unfold State.dmaFault at h
  split at h
  · cases h
  · exact ⟨(Host.Outcome.fault.inj h).symm, ‹_›⟩

/-- A longer range meets every hole a shorter one meets. -/
theorem State.hitsHole_mono {s : State} {a n m : Nat} (h : s.hitsHole a n = true) (hle : n ≤ m) : s.hitsHole a m = true := by
  simp only [State.hitsHole, List.any_eq_true, intersects, Bool.and_eq_true, decide_eq_true_eq] at h ⊢
  obtain ⟨hole, hmem, hmeet⟩ := h
  exact ⟨hole, hmem, by omega⟩

theorem State.hitsHole_zero (s : State) (a : Nat) : s.hitsHole a 0 = false := by
  simp [State.hitsHole, intersects]

theorem State.finish_fault {s : State} {r : Report} {f : Fault} (h : s.finish r = .fault f) :
    f = .dmaPlatform ∧ s.params.dmaFaultPolicy = .platform ∧ s.hitsHole s.dstAddr r.out.length = true := by
  unfold State.finish at h
  split at h
  · obtain ⟨hf, hpolicy⟩ := State.dmaFault_fault h
    exact ⟨hf, hpolicy, ‹_›⟩
  · cases h

section

variable {s : State} {i : Instr} (hi : i.isCommand = true)
include hi

/-- No command word is refused (rules R33, R150). -/
theorem exec_ne_refused (x : Refusal) : exec i s ≠ .refused x := by
  obtain ⟨r, -, hexec⟩ | ⟨-, -, hexec⟩ := exec_endsIn s hi
  · rw [hexec]
    exact s.finish_ne_refused r x
  · rw [hexec]
    exact s.dmaFault_ne_refused x

/-- A command faults at a byte of its buffers without memory, under a platform policy only (rules R85, R92). -/
theorem exec_fault {f : Fault} (h : exec i s = .fault f) : f = .dmaPlatform ∧ s.params.dmaFaultPolicy = .platform
    ∧ ((usesSource i = true ∧ s.hitsHole s.srcAddr s.srcLen = true)
      ∨ (usesDest i = true ∧ s.hitsHole s.dstAddr s.dstCap = true)) := by
  obtain ⟨r, ⟨hlen, hout, -⟩, hexec⟩ | ⟨hsrc, hhole, hexec⟩ := exec_endsIn s hi
  · obtain ⟨hf, hpolicy, hhole⟩ := State.finish_fault (hexec.symm.trans h)
    refine ⟨hf, hpolicy, .inr ⟨?_, State.hitsHole_mono hhole hlen⟩⟩
    by_contra hdest
    rw [hout (Bool.eq_false_iff.mpr hdest), List.length_nil, s.hitsHole_zero] at hhole
    cases hhole
  · obtain ⟨hf, hpolicy⟩ := State.dmaFault_fault (hexec.symm.trans h)
    exact ⟨hf, hpolicy, .inl ⟨hsrc, hhole⟩⟩

end

/-! ## A host access to memory -/

theorem inRange_iff (a n k : Nat) : inRange a n k = true ↔ a ≤ k ∧ k < a + n := by
  rw [inRange, Bool.and_eq_true, decide_eq_true_iff, decide_eq_true_iff]

theorem State.inRegisterSpace_iff (s : State) (a : Nat) :
    s.inRegisterSpace a = true ↔ s.params.regBase ≤ a ∧ a < s.params.regBase + 4096 := inRange_iff ..

theorem State.inSource_iff (s : State) (a : Nat) :
    s.inSource a = true ↔ usesSource s.command = true ∧ s.srcAddr ≤ a ∧ a < s.srcAddr + s.srcLen := by
  rw [State.inSource, Bool.and_eq_true, inRange_iff]

theorem State.inDest_iff (s : State) (a : Nat) :
    s.inDest a = true ↔ usesDest s.command = true ∧ s.dstAddr ≤ a ∧ a < s.dstAddr + s.dstCap := by
  rw [State.inDest, Bool.and_eq_true, inRange_iff]

theorem State.mem_race (s : State) (a : Nat) (hit : Bool) (x : Nat) :
    x ∈ s.race a hit ↔ x ∈ s.raced ∨ (x = a ∧ s.busy = true ∧ hit = true) := by
  unfold State.race
  split
  next hcond =>
    simp only [Bool.and_eq_true] at hcond
    simp [hcond.1.1, hcond.1.2]
  next hcond =>
    refine ⟨.inl, fun h => h.elim id fun ⟨hx, hbusy, hhit⟩ => ?_⟩
    simpa [hbusy, hhit, hx] using hcond

/-- A host write into a buffer of the running command is a race (rule R89 (b)). -/
theorem State.mem_raced_hostWrite (s : State) (a : Nat) (b : Byte) (x : Nat) : x ∈ (s.hostWrite a b).raced ↔ x ∈ s.raced
    ∨ (x = a ∧ s.busy = true
      ∧ ((usesSource s.command = true ∧ s.srcAddr ≤ a ∧ a < s.srcAddr + s.srcLen)
        ∨ (usesDest s.command = true ∧ s.dstAddr ≤ a ∧ a < s.dstAddr + s.dstCap))) := by
  rw [State.hostWrite_raced, State.mem_race, Bool.or_eq_true, State.inSource_iff, State.inDest_iff]

/-- What an access to the byte at an address does where it is made (rules R33 (a), R54, R80, R92). -/
structure State.ByteAccess (s : State) (a : Nat) (x : Result) (t : State) : Prop where
  refused : s.params.regBase ≤ a ∧ a < s.params.regBase + 4096 → x = .refused .registerAccess
  noAddress : ¬(s.params.regBase ≤ a ∧ a < s.params.regBase + 4096) → ¬a < 2 ^ s.params.addrWidth → x = .fault .hostAddressRange
  noMemory : ¬(s.params.regBase ≤ a ∧ a < s.params.regBase + 4096) → a < 2 ^ s.params.addrWidth → s.hitsHole a 1 = true →
    x = .fault .hostNoMemory
  done : ¬(s.params.regBase ≤ a ∧ a < s.params.regBase + 4096) → a < 2 ^ s.params.addrWidth → s.hitsHole a 1 = false → x = .next t

theorem State.byteAccess (s : State) (a : Nat) (t : State) : s.ByteAccess a (s.hostByteAccess a t) t where
  refused h := if_pos ((s.inRegisterSpace_iff a).mpr h)
  noAddress h hrange := by
    rw [State.hostByteAccess, if_neg (mt (s.inRegisterSpace_iff a).mp h), State.hostAddressFault, if_pos (not_lt.mp hrange)]
  noMemory h hrange hhole := by
    rw [State.hostByteAccess, if_neg (mt (s.inRegisterSpace_iff a).mp h), State.hostAddressFault, if_neg (not_le.mpr hrange),
      if_pos hhole]
  done h hrange hmem := by
    rw [State.hostByteAccess, if_neg (mt (s.inRegisterSpace_iff a).mp h), State.hostAddressFault, if_neg (not_le.mpr hrange),
      if_neg (Bool.eq_false_iff.mp hmem)]

section

variable {s : State} {a : Nat} {later : List HostEvent}

theorem step_of_memWrite {b : Byte} (hinbox : s.inbox = .memWrite a b :: later) :
    s.ByteAccess a (step s) ({ s with inbox := later }.hostWrite a b) := by
  have hstep : step s = State.hostByteAccess { s with inbox := later } a ({ s with inbox := later }.hostWrite a b) := by
    simp only [step, State.turn, hinbox, hostTurn]
  have haccess := State.byteAccess { s with inbox := later } a ({ s with inbox := later }.hostWrite a b)
  rw [← hstep] at haccess
  exact ⟨haccess.refused, haccess.noAddress, haccess.noMemory, haccess.done⟩

theorem step_of_memRead (hinbox : s.inbox = .memRead a :: later) :
    s.ByteAccess a (step s) ({ s with inbox := later }.hostRead a) := by
  have hstep : step s = State.hostByteAccess { s with inbox := later } a ({ s with inbox := later }.hostRead a) := by
    simp only [step, State.turn, hinbox, hostTurn]
  have haccess := State.byteAccess { s with inbox := later } a ({ s with inbox := later }.hostRead a)
  rw [← hstep] at haccess
  exact ⟨haccess.refused, haccess.noAddress, haccess.noMemory, haccess.done⟩

end

/-- A byte read on the 32-bit bus (rule R80). -/
theorem zeroExtend_eq_ofNat (b : Byte) : b.zeroExtend 32 = BitVec.ofNat 32 b.toNat := by
  rw [BitVec.zeroExtend, ← BitVec.toNat_inj, BitVec.toNat_setWidth, BitVec.toNat_ofNat]

/-- A read of the destination of the running command is a race (rules R89 (b), R495). -/
theorem State.hostRead_of_race {s : State} {a : Nat} (h : (s.busy && s.inDest a) = true) : s.hostRead a = { s with
    hostData := BitVec.ofNat 32 (Config.freeByte s.freeCount).toNat
    raced := s.race a true
    freeCount := s.freeCount + 1 } := by
  rw [State.hostRead, if_pos h, zeroExtend_eq_ofNat]

theorem State.hostRead_of_quiet {s : State} {a : Nat} (h : (s.busy && s.inDest a) = false) :
    s.hostRead a = { s with hostData := BitVec.ofNat 32 (Memory.read s.mem a).toNat } := by
  rw [State.hostRead, if_neg (Bool.eq_false_iff.mp h), zeroExtend_eq_ofNat]

/-! ## Where a host access stops -/

/-- The host accesses that name a register, and those that name a byte of memory. -/
def HostEvent.IsRegister (e : HostEvent) (a width : Nat) : Prop := e = .regRead a width ∨ ∃ v, e = .regWrite a width v

def HostEvent.IsMemory (e : HostEvent) (a : Nat) : Prop := e = .memRead a ∨ ∃ b, e = .memWrite a b

theorem State.hostByteAccess_refused {s k : State} {a : Nat} {x : Refusal} (h : s.hostByteAccess a k = .refused x) :
    x = .registerAccess ∧ s.inRegisterSpace a = true := by
  unfold State.hostByteAccess at h
  split at h
  · exact ⟨(Host.Outcome.refused.inj h).symm, ‹_›⟩
  · split at h <;> cases h

theorem State.hostByteAccess_fault {s k : State} {a : Nat} {f : Fault} (h : s.hostByteAccess a k = .fault f) :
    s.inRegisterSpace a = false ∧ s.hostAddressFault a = some f := by
  unfold State.hostByteAccess at h
  split at h
  · cases h
  next hspace =>
    split at h
    next hfault => exact ⟨Bool.eq_false_iff.mpr hspace, by rw [hfault, Host.Outcome.fault.inj h]⟩
    next => cases h

theorem hostTurn_refused {e : HostEvent} {s : State} {x : Refusal} (h : hostTurn e s = .refused x) : x = .registerAccess
    ∧ ((∃ a width, e.IsRegister a width ∧ s.registerAt a width = none) ∨ ∃ a, e.IsMemory a ∧ s.inRegisterSpace a = true) := by
  unfold hostTurn at h
  split at h
  case h_1 a width v =>
    split at h
    · cases h
    · exact ⟨(Host.Outcome.refused.inj h).symm, .inl ⟨a, width, .inr ⟨v, rfl⟩, ‹_›⟩⟩
  case h_2 a width =>
    split at h
    · cases h
    · exact ⟨(Host.Outcome.refused.inj h).symm, .inl ⟨a, width, .inl rfl, ‹_›⟩⟩
  case h_3 a b =>
    obtain ⟨hx, hspace⟩ := State.hostByteAccess_refused h
    exact ⟨hx, .inr ⟨a, .inr ⟨b, rfl⟩, hspace⟩⟩
  case h_4 a =>
    obtain ⟨hx, hspace⟩ := State.hostByteAccess_refused h
    exact ⟨hx, .inr ⟨a, .inl rfl, hspace⟩⟩
  case h_5 | h_6 => cases h

theorem hostTurn_fault {e : HostEvent} {s : State} {f : Fault} (h : hostTurn e s = .fault f) :
    ∃ a, e.IsMemory a ∧ s.inRegisterSpace a = false ∧ s.hostAddressFault a = some f := by
  unfold hostTurn at h
  split at h
  case h_1 | h_2 => split at h <;> cases h
  case h_3 a b => exact ⟨a, .inr ⟨b, rfl⟩, State.hostByteAccess_fault h⟩
  case h_4 a => exact ⟨a, .inl rfl, State.hostByteAccess_fault h⟩
  case h_5 | h_6 => cases h

theorem State.hostAddressFault_eq_some {s : State} {a : Nat} {f : Fault} (h : s.hostAddressFault a = some f) :
    (f = .hostAddressRange ∧ 2 ^ s.params.addrWidth ≤ a) ∨ (f = .hostNoMemory ∧ s.hitsHole a 1 = true) := by
  unfold State.hostAddressFault at h
  split at h
  · exact .inl ⟨(Option.some.inj h).symm, ‹_›⟩
  split at h
  · exact .inr ⟨(Option.some.inj h).symm, ‹_›⟩
  · cases h

/-! ## The bytes of a race -/

theorem State.byteAt_sourceFrom (s : State) {k n : Nat} (hk : k < n) (j a : Nat) :
    byteAt (s.sourceFrom j a n) k = s.sourceByte (j + k) (a + k) := by
  induction n generalizing j a k with
  | zero => omega
  | succ n ih =>
    cases k with
    | zero => rfl
    | succ k =>
      have htail : byteAt (s.sourceFrom j a (n + 1)) (k + 1) = byteAt (s.sourceFrom (j + 1) (a + 1) n) k := rfl
      rw [htail, ih (by omega), Nat.add_right_comm j, Nat.add_right_comm a]
      rfl

/-- A source byte the host wrote while the command ran is free, any other is the host's (rules R83, R89 (b)). -/
theorem State.byteAt_source (s : State) {k : Nat} (hk : k < s.srcLen) : byteAt s.source k =
    if s.srcAddr + k ∈ s.raced then Config.freeByte (s.freeCount + k) else Memory.read s.mem (s.srcAddr + k) := by
  rw [State.source, s.byteAt_sourceFrom hk, Nat.zero_add, State.sourceByte]
  simp only [List.contains_iff_mem]

/-- Every byte of the destination that has memory is free at the end of a raced command (rule R495). -/
theorem State.read_scramble (s : State) {m : List Host.Cell} (hm : Memory.wf m = true) (k a n : Nat) {x : Nat}
    (hx : a ≤ x ∧ x < a + n) (hmem : s.hasMemory x = true) :
    Memory.read (s.scramble k a n m) x = Config.freeByte (s.freeCount + s.srcLen + (k + (x - a))) := by
  induction n generalizing k a m with
  | zero => omega
  | succ n ih =>
    rw [State.scramble]
    by_cases hax : x = a
    · subst hax
      rw [s.read_scramble_other _ _ _ _ (by omega), if_pos hmem, Memory.read_write _ hm, if_pos rfl, Nat.sub_self, Nat.add_zero]
    · have hwf : ∀ b, Memory.wf (if s.hasMemory a then Memory.write m a b else m) = true := fun b => by
        split
        · exact Memory.wf_write hm a b
        · exact hm
      rw [ih (hwf _) (k + 1) (a + 1) (by omega)]
      congr 2
      omega

theorem State.read_memAfter_raced {s : State} (hm : Memory.wf s.mem = true) (hraced : s.raced ≠ [])
    (hdest : usesDest s.command = true) (out : List Byte) {a : Nat} (ha : s.dstAddr ≤ a ∧ a < s.dstAddr + s.dstCap) (hmem : s.hasMemory a = true) :
    Memory.read (s.memAfter out) a = Config.freeByte (s.freeCount + s.srcLen + (a - s.dstAddr)) := by
  have hscramble : s.memAfter out = s.scramble 0 s.dstAddr s.dstCap (Memory.writeBytes s.mem s.dstAddr out) :=
    if_neg (by simp [hraced, hdest])
  rw [hscramble, s.read_scramble (Memory.wf_writeBytes hm _ _) _ _ _ ha hmem, Nat.zero_add]

/-! ## The statement -/

section

variable {s : State} (hvalid : s.Valid)
include hvalid

/-- A step is refused only for a bad access to register space (rules R33 (a), R54). -/
theorem step_refused {x : Refusal} (h : step s = .refused x) : x = .registerAccess ∧ ∃ a later,
    ((∃ width, (s.inbox = .regRead a width :: later ∨ ∃ v, s.inbox = .regWrite a width v :: later)
        ∧ (width ≠ 4 ∨ a % 4 ≠ 0 ∨ a < s.params.regBase ∨ s.params.regBase + 4096 ≤ a))
      ∨ ((s.inbox = .memRead a :: later ∨ ∃ b, s.inbox = .memWrite a b :: later)
        ∧ s.params.regBase ≤ a ∧ a < s.params.regBase + 4096)) := by
  have hcase := step_case s
  rw [h] at hcase
  generalize hx : (Host.Outcome.refused x : Result) = y at hcase
  cases hcase with
  | engine =>
    rw [State.engineTurn_of_idle hvalid.work] at hx
    exact absurd hx.symm (exec_ne_refused (isCommand_decodeCommand _) x)
  | rests => cases hx
  | host e rest hinbox =>
    obtain ⟨hreg, ⟨a, width, he, hnone⟩ | ⟨a, he, hspace⟩⟩ := hostTurn_refused hx.symm
    · refine ⟨hreg, a, rest, .inl ⟨width, ?_, ?_⟩⟩
      · obtain rfl | ⟨v, rfl⟩ := he
        · exact .inl hinbox
        · exact .inr ⟨v, hinbox⟩
      · have hbase : s.params.regBase % 4 = 0 := by
          have hwf := hvalid.params
          simp only [Params.wf, Bool.and_eq_true, beq_iff_eq] at hwf
          exact hwf.1.1.1.1.2
        have hbad := (State.registerAt_eq_none_iff _ _ _).mp hnone
        dsimp only at hbad
        omega
    · refine ⟨hreg, a, rest, .inr ⟨?_, (s.inRegisterSpace_iff a).mp hspace⟩⟩
      obtain rfl | ⟨b, rfl⟩ := he
      · exact .inl hinbox
      · exact .inr ⟨b, hinbox⟩

/-- A step faults only at a byte without memory (rules R80, R85, R92). -/
theorem step_fault {f : Fault} (h : step s = .fault f) :
    (f = .dmaPlatform ∧ s.params.dmaFaultPolicy = .platform
      ∧ ((usesSource s.command = true ∧ s.hitsHole s.srcAddr s.srcLen = true)
        ∨ (usesDest s.command = true ∧ s.hitsHole s.dstAddr s.dstCap = true)))
    ∨ ∃ a later, (s.inbox = .memRead a :: later ∨ ∃ b, s.inbox = .memWrite a b :: later)
      ∧ (a < s.params.regBase ∨ s.params.regBase + 4096 ≤ a)
      ∧ ((f = .hostAddressRange ∧ 2 ^ s.params.addrWidth ≤ a) ∨ (f = .hostNoMemory ∧ s.hitsHole a 1 = true)) := by
  have hcase := step_case s
  rw [h] at hcase
  generalize hx : (Host.Outcome.fault f : Result) = y at hcase
  cases hcase with
  | engine =>
    rw [State.engineTurn_of_idle hvalid.work] at hx
    exact .inl (exec_fault (isCommand_decodeCommand _) hx.symm)
  | rests => cases hx
  | host e rest hinbox =>
    obtain ⟨a, he, hspace, hfault⟩ := hostTurn_fault hx.symm
    refine .inr ⟨a, rest, ?_, ?_, State.hostAddressFault_eq_some hfault⟩
    · obtain rfl | ⟨b, rfl⟩ := he
      · exact .inl hinbox
      · exact .inr ⟨b, hinbox⟩
    · have hout := mt (s.inRegisterSpace_iff a).mpr (Bool.eq_false_iff.mp hspace)
      omega

/-- A raced command leaves free bytes in its destination (rule R495). -/
theorem step_of_raced {t : State} (hinbox : s.inbox = []) (hraced : s.raced ≠ []) (hstuck : s.stuck = false)
    (hstep : step s = .next t) (hends : t.stuck = false) {a : Nat}
    (hdest : usesDest s.command = true ∧ s.dstAddr ≤ a ∧ a < s.dstAddr + s.dstCap) (haddr : a < 2 ^ s.params.addrWidth)
    (hhole : s.hitsHole a 1 = false) : Memory.read t.mem a = Config.freeByte (s.freeCount + s.srcLen + (a - s.dstAddr)) := by
  obtain ⟨huses, ha⟩ := hdest
  rw [step_of_command hinbox (hvalid.busy_of_raced hraced) hstuck hvalid.work] at hstep
  obtain ⟨r, -, rfl⟩ | rfl := exec_next_cases (isCommand_decodeCommand _) hstep
  · exact State.read_memAfter_raced hvalid.mem hraced huses r.out ha (by simp [State.hasMemory, haddr, hhole])
  · cases hends

end

/-- Settles O18: where a step stops, the two host accesses to memory, the source as it is read, and the end of a race. -/
theorem stopsOnlyWhereSpecSays : Obligations.StopsOnlyWhereSpecSays := by
  intro s hok
  have hvalid := s.ok_iff.mp hok
  refine ⟨fun x => step_refused hvalid, fun f => step_fault hvalid, fun a later => ?_⟩
  intro inRegisters addressable inDest inSource
  refine ⟨fun b hinbox => ?write, fun hinbox => ?read, ⟨s.length_source, fun k => s.byteAt_source⟩,
    fun t hinbox hraced hstuck hstep hends hdest haddr hhole =>
      step_of_raced hvalid hinbox hraced hstuck hstep hends hdest haddr hhole⟩
  case write =>
    have haccess := step_of_memWrite hinbox
    exact ⟨haccess.refused, haccess.noAddress, haccess.noMemory, fun hreg haddr hmem =>
      ⟨_, haccess.done hreg haddr hmem, rfl, Memory.read_write _ hvalid.mem a b,
        State.mem_raced_hostWrite { s with inbox := later } a b⟩⟩
  case read =>
    have haccess := step_of_memRead hinbox
    have hrace : (s.busy && State.inDest { s with inbox := later } a) = true ↔ s.busy = true ∧ inDest := by
      rw [Bool.and_eq_true]
      exact and_congr_right fun _ => s.inDest_iff a
    refine ⟨haccess.refused, haccess.noAddress, haccess.noMemory, fun hreg haddr hmem hquiet => ?_,
      fun hreg haddr hmem hbusy hin => ⟨_, haccess.done hreg haddr hmem, ?_⟩⟩
    · have hfree := Bool.eq_false_iff.mpr (mt hrace.mp hquiet)
      rw [haccess.done hreg haddr hmem, State.hostRead_of_quiet (s := { s with inbox := later }) hfree]
    · rw [State.hostRead_of_race (s := { s with inbox := later }) (hrace.mpr ⟨hbusy, hin⟩)]
      exact ⟨rfl, fun x => by simp [State.mem_race, hbusy]⟩

end Sys2Proof.Machine
end
